-- ==== Sys2Proof/Word.lean ====
section
/-! DEFINITION. The plainest types of the model: a byte of the station link, the numbers of the part's objects and
an eight-character name. Quantities inside the part are integers (00_scope.md, "Quantities and units"), so
volumes, times and counts are `Nat` or `Int`; a bit vector stands only for what travels on a wire. -/

namespace Sys2Proof

/-- A byte of the station link (R186, R187). -/
abbrev Byte := BitVec 8

/-- Hose 0 to 7 (00_scope.md, "Numbering and naming"). -/
abbrev HoseId := Fin 8

/-- Tank 0 to 3; pump n belongs to tank n. -/
abbrev TankId := Fin 4

/-- Vehicle index 0 to 511 (R109). -/
abbrev VehicleId := Fin 512

/-- Class 0 to 31 (R111). -/
abbrev ClassId := Fin 32

/-- A product: position n stands for product code n + 1 (R58). -/
abbrev ProductId := Fin 4

/-- A service line: position n stands for line n + 1 (R109). -/
abbrev LineId := Fin 4

/-- A journal segment 0 to 31 (R151). -/
abbrev SegmentId := Fin 32

/-- A name or fleet number of 8 characters (R58, R109, R202). -/
abbrev Name := Vector Byte 8

/-- A vehicle tag, a 64-bit identifier in which 0 means no tag (R109). -/
abbrev Tag := BitVec 64

end Sys2Proof
end

