-- ==== Sys2Proof/Syntax.lean ====
section
/-! DEFINITION. The commands of the part: one constructor of `Instr` per row of spec/opcode_table.json. A field
arrival carries what reaches the input; a host request carries the frame's tag and the fields of the request's
body, in the order and widths of Chapter 11 (R202), unchecked: the checks belong to the request's rule. -/

namespace Sys2Proof

/-- A host part of a vehicle record as sent (11.4, 19 bytes). -/
structure WireHostPart where
  tag : Tag
  fleet : Name
  cls : Byte
  products : Byte
  flags : Byte
  deriving DecidableEq, Repr

/-- A point of a meter-factor curve as sent by CAL_WRITE (flow rate in 2 bytes, factor in 4). -/
structure WireCurvePoint where
  rate : BitVec 16
  factor : BitVec 32
  deriving DecidableEq, Repr

/-- A strapping point as sent by STRAP_SET (level in 0.1 mm, volume in L). -/
structure WireStrapPoint where
  level : BitVec 32
  volume : BitVec 32
  deriving DecidableEq, Repr

/-- A schedule line as sent by CLASS_SET (hour interval in 2 bytes, fuel interval in 4). -/
structure WireLine where
  hour : BitVec 16
  fuel : BitVec 32
  deriving DecidableEq, Repr

/-- A hose configuration as sent by HOSE_SET (R32, 12 bytes after the hose number). Chapter 11 gives the body in total
length alone; the widths and units of its fields are the model's split (assumption 5). -/
structure WireHoseConfig where
  tank : Byte
  prestop : BitVec 16
  slowVolume : BitVec 16
  readyTimeout : BitVec 16
  noFlowTimeout : BitVec 16
  pauseTimeout : BitVec 16
  settleTime : Byte
  deriving DecidableEq, Repr

/-- A calibration record as sent by CAL_WRITE (R61, 36 bytes after the hose number). -/
structure WireCalibration where
  k : BitVec 16
  count : Byte
  points : Vector WireCurvePoint 5
  errorLimit : Byte
  maxRate : BitVec 16
  deriving DecidableEq, Repr

/-- A tank configuration as sent by TANK_SET (R91, 15 bytes after the tank number). Chapter 11 gives the body in total
length alone; the widths and units of its fields are the model's split (assumption 5). -/
structure WireTankConfig where
  product : Byte
  capacity : BitVec 32
  heel : BitVec 32
  lowAlarm : BitVec 32
  receiptSettle : BitVec 16
  deriving DecidableEq, Repr

/-- A pump configuration as sent by PUMP_SET (R107, 3 bytes after the tank number). -/
structure WirePumpConfig where
  runOn : Byte
  startTimeout : Byte
  priority : Byte
  deriving DecidableEq, Repr

/-- A class record as sent by CLASS_SET (R139, 43 bytes after the class number). Chapter 11 gives the body in total length
alone; the widths of its fields are the model's split (assumption 5). -/
structure WireClass where
  name : Name
  defaultPreset : BitVec 16
  burnRate : BitVec 16
  warn : BitVec 16
  grace : BitVec 16
  overdueAction : Byte
  limp : BitVec 16
  lines : Vector WireLine 4
  deriving DecidableEq, Repr

/-- A request of the host with the fields its body carries (R202, table of request kinds). -/
inductive Request where
  | authorize (hose : Byte) (vehicle : BitVec 16) (preset : BitVec 16) (flags : Byte) (hours : BitVec 32)
  | cancel (hose : Byte)
  | stop (hose : Byte)
  | pause (hose : Byte)
  | resume (hose : Byte)
  | hoseQuery (hose : Byte)
  | hoseSet (hose : Byte) (config : WireHoseConfig)
  | totalizerRead (hose : Byte)
  | calOpen (hose : Byte)
  | calClose (hose : Byte)
  | calWrite (hose : Byte) (record : WireCalibration)
  | calRead (hose : Byte)
  | productSet (code : Byte) (name : Name) (beta : BitVec 16)
  | productRead (code : Byte)
  | receiptBegin (tank : Byte)
  | receiptEnd (tank : Byte) (docket : BitVec 32)
  | stockAdjust (tank : Byte) (expected : BitVec 48) (book : BitVec 48)
  | tankSet (tank : Byte) (config : WireTankConfig)
  | strapSet (tank : Byte) (count : Byte) (points : List WireStrapPoint)
  | tankQuery (tank : Byte)
  | strapRead (tank : Byte)
  | pumpSet (tank : Byte) (config : WirePumpConfig)
  | pumpQuery (tank : Byte)
  | pumpClear (tank : Byte)
  | vehicleGet (index : BitVec 16)
  | vehicleFind (tag : Tag)
  | vehiclePut (index : BitVec 16) (host : WireHostPart) (revision : BitVec 16)
  | vehicleLoadBegin (start : BitVec 16)
  | vehicleLoadNext (count : Byte) (records : List WireHostPart)
  | vehicleLoadEnd
  | classRead (cls : Byte)
  | hoursSet (index : BitVec 16) (hours : BitVec 32) (revision : BitVec 16)
  | serviceDone (index : BitVec 16) (line : Byte) (flags : Byte) (hours : BitVec 32) (revision : BitVec 16)
  | classSet (cls : Byte) (record : WireClass)
  | dueListRead (start : BitVec 16) (count : Byte)
  | serviceQuery (index : BitVec 16)
  | journalRead (start : BitVec 32) (count : Byte)
  | journalAck (seq : BitVec 32)
  | journalStatus
  | status
  | eventsRead (count : Byte)
  | siteSet (linkTimeout : BitVec 16) (standaloneCap : BitVec 16) (threshold : Byte)
  | timeSet (time : BitVec 32)
  | restart
  deriving DecidableEq, Repr

/-- The commands: one constructor per row of spec/opcode_table.json. Field arrivals, expiries and completions
first, then the host requests, each a whole valid frame with its `tag` (assumption 2). -/
inductive Instr where
  | tagRead (hose : HoseId) (tag : Tag) (hours : Option (BitVec 32))
  | nozzleLift (hose : HoseId)
  | nozzleHang (hose : HoseId)
  | agreeingPulse (hose : HoseId)
  | disagreeingPulse (hose : HoseId)
  | temperatureSample (hose : HoseId) (reading : Option Int)
  | holdTimerExpiry (hose : HoseId)
  | sampleTimerExpiry (hose : HoseId)
  | readyTimerExpiry (hose : HoseId)
  | noFlowTimerExpiry (hose : HoseId)
  | pauseTimerExpiry (hose : HoseId)
  | settleTimerExpiry (hose : HoseId)
  | closingLimitExpiry (hose : HoseId)
  | refusalDisplayExpiry (hose : HoseId)
  | emergencyStopActive
  | emergencyStopRelease
  | metrologySwitchClose
  | metrologySwitchOpen
  | probeSample (tank : TankId) (reading : Option (Nat × Int))
  | staleTimerExpiry (tank : TankId)
  | quietTimerExpiry (tank : TankId)
  | receiptSettleTimerExpiry (tank : TankId)
  | pressureUp (tank : TankId)
  | pressureDown (tank : TankId)
  | startTimerExpiry (tank : TankId)
  | runOnTimerExpiry (tank : TankId)
  | supplyWarning
  | resetLineAssert
  | supplyLoss
  | powerFailSaveComplete
  | resetRelease (backupFailed : Bool)
  | powerFailAreaCleared
  | rxByte (byte : Byte)
  | framingError
  | gapTimerExpiry
  | linkTimerExpiry
  | replySent
  | journalWriteStart
  | journalWriteComplete (agrees : Bool)
  | eraseStart
  | eraseComplete (blank : Bool)
  | settingsWriteStart
  | settingsWriteComplete
  | classSweepVehicle
  | authorize (tag : Byte) (hose : Byte) (vehicle : BitVec 16) (preset : BitVec 16) (flags : Byte) (hours : BitVec 32)
  | cancel (tag : Byte) (hose : Byte)
  | stop (tag : Byte) (hose : Byte)
  | pause (tag : Byte) (hose : Byte)
  | resume (tag : Byte) (hose : Byte)
  | hoseQuery (tag : Byte) (hose : Byte)
  | hoseSet (tag : Byte) (hose : Byte) (config : WireHoseConfig)
  | totalizerRead (tag : Byte) (hose : Byte)
  | calOpen (tag : Byte) (hose : Byte)
  | calClose (tag : Byte) (hose : Byte)
  | calWrite (tag : Byte) (hose : Byte) (record : WireCalibration)
  | calRead (tag : Byte) (hose : Byte)
  | productSet (tag : Byte) (code : Byte) (name : Name) (beta : BitVec 16)
  | productRead (tag : Byte) (code : Byte)
  | receiptBegin (tag : Byte) (tank : Byte)
  | receiptEnd (tag : Byte) (tank : Byte) (docket : BitVec 32)
  | stockAdjust (tag : Byte) (tank : Byte) (expected : BitVec 48) (book : BitVec 48)
  | tankSet (tag : Byte) (tank : Byte) (config : WireTankConfig)
  | strapSet (tag : Byte) (tank : Byte) (count : Byte) (points : List WireStrapPoint)
  | tankQuery (tag : Byte) (tank : Byte)
  | strapRead (tag : Byte) (tank : Byte)
  | pumpSet (tag : Byte) (tank : Byte) (config : WirePumpConfig)
  | pumpQuery (tag : Byte) (tank : Byte)
  | pumpClear (tag : Byte) (tank : Byte)
  | vehicleGet (tag : Byte) (index : BitVec 16)
  | vehicleFind (tag : Byte) (vehicleTag : Tag)
  | vehiclePut (tag : Byte) (index : BitVec 16) (host : WireHostPart) (revision : BitVec 16)
  | vehicleLoadBegin (tag : Byte) (start : BitVec 16)
  | vehicleLoadNext (tag : Byte) (count : Byte) (records : List WireHostPart)
  | vehicleLoadEnd (tag : Byte)
  | classRead (tag : Byte) (cls : Byte)
  | hoursSet (tag : Byte) (index : BitVec 16) (hours : BitVec 32) (revision : BitVec 16)
  | serviceDone (tag : Byte) (index : BitVec 16) (line : Byte) (flags : Byte) (hours : BitVec 32) (revision : BitVec 16)
  | classSet (tag : Byte) (cls : Byte) (record : WireClass)
  | dueListRead (tag : Byte) (start : BitVec 16) (count : Byte)
  | serviceQuery (tag : Byte) (index : BitVec 16)
  | journalRead (tag : Byte) (start : BitVec 32) (count : Byte)
  | journalAck (tag : Byte) (seq : BitVec 32)
  | journalStatus (tag : Byte)
  | status (tag : Byte)
  | eventsRead (tag : Byte) (count : Byte)
  | siteSet (tag : Byte) (linkTimeout : BitVec 16) (standaloneCap : BitVec 16) (threshold : Byte)
  | timeSet (tag : Byte) (time : BitVec 32)
  | restart (tag : Byte)
  | unknownKind (tag : Byte) (kind : Byte) (body : List Byte)
  deriving DecidableEq, Repr

end Sys2Proof
end

