-- ==== Sys2Proof/Decode.lean ====
section
/-! DEFINITION. The decoder of command words. The table of commands gives no row any bits (the part fetches no
instruction; a request reaches it as the bytes of a frame, which Machine/Formats.lean reads and writes), so no word
spells a command (assumption 9). -/

namespace Sys2Proof

/-- The command that a word spells by the table's bits: the table gives none. -/
def decodeTableWord (_nbits _w : Nat) : Option Instr := none

end Sys2Proof
end

