-- ==== Sys2Proof/Config.lean ====
section
/-! DEFINITION. What the manual fixes for every part (constants cited rule by rule) and what it leaves to the
implementation (the identity that STATUS reports, and the widths and codes of replies and slots that Chapter 11 does not give:
opaque, without a value). -/

namespace Sys2Proof.Config

/-- Vendor code reported by STATUS (00_scope.md "Identity", R199). The manual gives no number: assumption 1. -/
opaque vendorCode : Nat

/-- Part code reported by STATUS (R199). The manual gives no number: assumption 1. -/
opaque partCode : Nat

/-- Hardware revision letter reported by STATUS (R199). The manual gives no letter: assumption 1. -/
opaque hardwareRevision : Nat

/-- A quantity of a reply or of a journal slot whose width no table of Chapter 11 gives. -/
inductive Quantity where
  | tankReservation | strayCount | errorCount | calibrationCount | strapPoints | reservedVolume | availableVolume
  | ullage | probeVolume | varianceDifference | deliveredVolume | demand | secondsLeft | placedCount | vehicleCount
  | dueLength | perMille | hoursSince | fuelSince | slotCount | recordCount | segmentCount | segmentNumber | slotNumber
  | raiseCount | entryCount | frameCount | vendorCode | partCode | hardwareRevision | docketVolume | receiptVolume
  | receiptDifference | hoseCount | deliveryCount | receiptCount | carriedCount
  deriving DecidableEq, Repr

/-- An enumeration that replies send and whose members' codes the manual does not give. -/
inductive Enumeration where
  | hoseState | valve | lamp | protection | metrologySwitch | pending | level | probeStatus | quiet | relation
  | receiptState | pumpState | starter | pressure | pumpCause | loadSession | hourSource | lineUsed | measured
  | writeInFlight | faulted | threshold | resetCause | linkMode | inspection | emergencyStop | eventKind | eventDetail
  deriving DecidableEq, Repr

/-- Width in bytes of a quantity that the manual sends without a width: assumption 8. -/
opaque quantityWidth : Quantity → Nat

/-- The bytes of a member of an enumeration that the manual sends without codes, by the member's place: assumption 8. -/
opaque memberBytes : Enumeration → Nat → List (BitVec 8)

/-- A field of flags that the rule of a reply lists among the reply's fields. -/
inductive FlagField where
  | grantFlags | hoursRegress | clockValid | timeValid
  deriving DecidableEq, Repr

/-- Width in bytes of a field of flags: assumption 8. -/
opaque flagFieldWidth : FlagField → Nat

/-- The bit of a field of flags that stands for the flag at a place in the rule's order: assumption 8. -/
opaque flagFieldBit : FlagField → Nat → Nat

/-- The byte of a reply of a kind that holds the presence flags, from those flags in the order of the rule: the manual gives
no bits for it (assumption 8). -/
opaque flagBytes : Nat → List Bool → List (BitVec 8)

/-- Where the byte with the presence flags of a reply of a kind stands among its fields: assumption 8. -/
opaque flagsPlace : Nat → Nat

/-- The flag bytes of a journal slot of a record kind, from its flags in the order of the rule: the manual gives their
bits for the DELIVERY slot only (assumption 8). -/
opaque recordFlagBytes : Nat → List Bool → List (BitVec 8)

/-- Where the flag byte of an INTERRUPTION slot stands among its fields, as its rule lists no flags: assumption 8. -/
opaque interruptionFlagPlace : Nat

/-- The byte that stands for a free start slot where PUMP_QUERY names the slot holder: assumption 8. -/
opaque freeSlotByte : BitVec 8

/-- Hose maximum preset, 9,999 L in mL (R1, R11). -/
abbrev hoseMaximum : Nat := 9999000

/-- Smallest preset of a grant, mL (R11). -/
abbrev minimumPreset : Nat := 1000

/-- Minimum delivery of check 13, mL (R7, R72). -/
abbrev minimumDelivery : Nat := 20000

/-- Margin of slots kept by the grant test (R7 check 2, R155). -/
abbrev grantMargin : Nat := 16

/-- Closing limit, s (R1, R27). -/
abbrev closingLimit : Nat := 30

/-- Refusal display, s (R1, R13). -/
abbrev refusalDisplay : Nat := 5

/-- Temperature hold, s (R34). -/
abbrev holdTime : Nat := 60

/-- Probe stale time, s (R71). -/
abbrev staleTime : Nat := 30

/-- Quiet time of a tank, s (R79). -/
abbrev quietTime : Nat := 60

/-- Reference temperature 15.00 °C, in 0.01 °C (R46). -/
abbrev referenceTemperature : Int := 1500

/-- Lowest temperature used, 0.01 °C (R46). -/
abbrev minTemperature : Int := -2000

/-- Highest temperature used, 0.01 °C (R46). -/
abbrev maxTemperature : Int := 7000

/-- Largest live volume, mL (R33). -/
abbrev volumeLimit : Nat := 4294967295

/-- Modulus of a totalizer, mL (R54). -/
abbrev totalizerModulus : Nat := 1000000000000

/-- Bound of the book stock, mL (R71). -/
abbrev bookLimit : Int := 140737488355327

/-- Largest fuel total, mL (R109, R127). -/
abbrev fuelLimit : Nat := 281474976710655

/-- Largest journal sequence number (R153). -/
abbrev sequenceLimit : Nat := 4294967295

/-- Slots of a journal segment (R151). -/
abbrev slotsPerSegment : Nat := 64

/-- Frames the receive queue holds (R190). -/
abbrev receiveQueueLimit : Nat := 4

/-- Replies that may wait for the transmitter in addition to the one being sent (R192). -/
abbrev replyLimit : Nat := 4

/-- Largest body of a frame, bytes (R187). -/
abbrev bodyLimit : Nat := 1024

/-- Largest raise count of an event entry (R196). -/
abbrev raiseLimit : Nat := 255

/-- Saturation of the stray count, the pulse counts and the line per-mille (R2, R33, R135). -/
abbrev count16 : Nat := 65535

/-- Modulus of the 16-bit revisions (R71, R109, R130). -/
abbrev revisionModulus : Nat := 65536

/-- Modulus of the site clock (R175). -/
abbrev clockModulus : Nat := 4294967296

end Sys2Proof.Config
end

