-- ==== Sys2Proof/Machine/State.lean ====
section
/-! DEFINITION. The state of the part as plain data, block by block, and the state after the first start of a part.
Every piece is listed in INVENTORY.md under "State" with the rule that names it. -/

namespace Sys2Proof.Machine

open Sys2Proof

/-! ### Small types shared by the blocks -/

/-- A timer of a block: `none` when stopped, `some n` when running with n seconds left. Its expiry is a command of
its own (assumption 3). -/
abbrev Timer := Option Nat

/-- A recorded time with its time-valid flag (R175). -/
structure RecTime where
  time : Nat
  valid : Bool
  deriving DecidableEq, Repr

/-- Status codes of a reply (R193, Chapter 11). -/
inductive StatusCode where
  | ok | unknownKind | badLength | range | state | noVehicle | vehicleDisabled | vehicleLocked | busyVehicle | bound
  | dupTag | product | noStock | tankReceiving | pumpFault | serviceOverdue | standaloneDeny | journalFull | estop
  | revision | protected_ | switchOpen | held | timeBack | loadEnded | probe
  deriving DecidableEq, Repr

/-- Service status of a vehicle (R136). -/
inductive ServiceStatus where
  | ok | dueSoon | due | overdue
  deriving DecidableEq, Repr

/-- Delivery state of a hose (R2). -/
inductive HoseState where
  | idle | ready | starting | flowing | trimming | paused | closing | settled
  deriving DecidableEq, Repr

/-- Position of the two-stage valve (R3). -/
inductive Valve where
  | closed | slow | full
  deriving DecidableEq, Repr

/-- The bay lamp (R4). -/
inductive Lamp where
  | off | green | amber | red
  deriving DecidableEq, Repr

/-- Path by which a grant was made (R2). -/
inductive GrantPath where
  | tag | host
  deriving DecidableEq, Repr

/-- End reasons (R2, Chapter 11). -/
inductive EndReason where
  | presetReached | nozzleHung | hostStop | estop | pumpFail | noFlow | pauseTimeout | measureFault | powerLoss | reset
  deriving DecidableEq, Repr

/-- The last-reset cause (R180). -/
inductive ResetCause where
  | powerOn | supplyLow | resetLine | restartRequest
  deriving DecidableEq, Repr

/-- Key of an event entry: its kind and object (Chapter 10, table of event kinds; 32 keys). -/
inductive EventKey where
  | hoseState (h : HoseId) | hoseFault (h : HoseId) | tankLevel (t : TankId) | tankVariance (t : TankId)
  | pump (t : TankId) | journal | mode | service | restart
  deriving DecidableEq, Repr

/-- Detail of an event (Chapter 10, table of event kinds). -/
inductive Detail where
  | entered (st : HoseState) | readyTimeout | cancelled | withdrawn | unauthorisedLift | refusal (c : StatusCode)
  | strayFlow | pumpFail | measureFault | overrunLong
  | low | receipt | aboveCapacity
  | above | below | unordered
  | startTimeout | pressureLost | pressureUnexpected
  | threshold | faulted | recovered | segmentRetired
  | online | standalone | inspection | sealed | estopActive | estopReleased
  | serviceStatus (v : VehicleId) (st : ServiceStatus)
  | resetCause (c : ResetCause)
  deriving DecidableEq, Repr

/-- An entry of the event queue (R196). -/
structure EventEntry where
  key : EventKey
  first : RecTime
  count : Nat
  detail : Detail
  deriving DecidableEq, Repr

/-! ### Hose controller (Chapter 1) -/

/-- Hose configuration, kept in the settings store (R1). Volumes in mL, times in s. -/
structure HoseConfig where
  tank : TankId
  prestop : Nat
  slowVolume : Nat
  readyTimeout : Nat
  noFlowTimeout : Nat
  pauseTimeout : Nat
  settleTime : Nat
  deriving DecidableEq, Repr

/-- Grant flags (R2). -/
structure GrantFlags where
  supervisor : Bool
  capped : Bool
  standalone : Bool
  stockLimited : Bool
  deriving DecidableEq, Repr

/-- The fields of a DELIVERY record (R28). -/
structure DeliveryRecord where
  hose : HoseId
  tank : TankId
  product : ProductId
  vehicle : VehicleId
  tag : Tag
  path : GrantPath
  hours : Option Nat
  preset : Nat
  gross : Nat
  net : Nat
  average : Int
  endReason : EndReason
  grantFlags : GrantFlags
  overspeed : Bool
  uncompensated : Bool
  regress : Bool
  overrunLong : Bool
  statusAtGrant : ServiceStatus
  start : RecTime
  finish : RecTime
  grossTotalizer : Nat
  deriving DecidableEq, Repr

/-- The grant of a hose: the fields of R2 from vehicle to held record, with the tank and product current at the
grant (R12) and the regression answer of its hour reading (R132). An IDLE hose has none. -/
structure Grant where
  vehicle : VehicleId
  path : GrantPath
  tag : Tag
  tank : TankId
  product : ProductId
  hours : Option Nat
  regress : Bool
  preset : Nat
  tankRes : Nat
  journalRes : Bool
  flags : GrantFlags
  statusAtGrant : ServiceStatus
  start : Option RecTime
  endReason : Option EndReason
  held : Option DeliveryRecord
  deriving DecidableEq, Repr

/-- The timers of a hose (R2). -/
structure HoseTimers where
  ready : Timer
  noFlow : Timer
  pause : Timer
  settle : Timer
  closing : Timer
  refusal : Timer
  deriving DecidableEq, Repr

/-- One hose controller: configuration (R1), delivery state (R2) and its outputs (R3, R4). -/
structure Hose where
  config : HoseConfig
  state : HoseState
  grant : Option Grant
  timers : HoseTimers
  lastRefusal : Option StatusCode
  stray : Nat
  lastEnd : Option EndReason
  valve : Valve
  lamp : Lamp
  deriving DecidableEq, Repr

/-! ### Measurement engine (Chapter 2) -/

/-- A meter-factor curve: points of flow rate (dL/min) and factor (parts per 100,000). -/
abbrev Curve := List (Nat × Nat)

/-- The calibration an engine latches at entry to STARTING (R35). -/
structure Latched where
  k : Nat
  curve : Curve
  errorLimit : Nat
  maxRate : Nat
  beta : Nat
  deriving DecidableEq, Repr

/-- One measurement engine: the delivery measurement (R33), the temperature state (R34) and the working
totalizers (R54). -/
structure Engine where
  dP : Nat
  rg : Nat
  rn : Nat
  gross : Nat
  net : Nat
  sum : Int
  errors : Nat
  faultReported : Bool
  lastQ : Nat
  t0 : Int
  overspeed : Bool
  uncompensated : Bool
  latched : Option Latched
  sampleTimer : Bool
  average : Option Int
  latest : Option Int
  held : Bool
  holdTimer : Timer
  grossTotal : Nat
  netTotal : Nat
  deriving DecidableEq, Repr

/-! ### Calibration store (Chapter 3) -/

/-- The stored part of a calibration record (R57). -/
structure CalData where
  k : Nat
  curve : Curve
  errorLimit : Nat
  maxRate : Nat
  count : Nat
  deriving DecidableEq, Repr

/-- The calibration record of a hose: working record, protection (R57) and whether a write is pending (R63). -/
structure Calibration where
  data : CalData
  opened : Bool
  pending : Bool
  deriving DecidableEq, Repr

/-- The stored part of a product table entry (R58). -/
structure ProductData where
  name : Name
  beta : Nat
  deriving DecidableEq, Repr

/-- A product table entry with its pending flag (R65). -/
structure Product where
  data : ProductData
  pending : Bool
  deriving DecidableEq, Repr

/-! ### Tank account (Chapter 4) -/

/-- Tank configuration without its strapping table (R70). Volumes in mL. -/
structure TankConfig where
  product : ProductId
  capacity : Nat
  heel : Nat
  lowAlarm : Nat
  receiptSettle : Nat
  deriving DecidableEq, Repr

/-- A strapping table: points of level (0.1 mm) and volume (L) (R70). -/
abbrev Strap := List (Nat × Nat)

/-- The working fields of a receipt (R83). -/
structure Receipt where
  openingNet : Nat
  openingTime : RecTime
  baselines : Vector (Option Nat) 8
  delivered : Int
  docket : Option Nat
  deriving DecidableEq, Repr

/-- Receipt state of a tank with its working fields; SETTLING runs the settle timer (R71, R83). -/
inductive ReceiptState where
  | normal
  | receiving (r : Receipt)
  | settling (r : Receipt) (timer : Timer)
  deriving DecidableEq, Repr

/-- Variance relation (R80). -/
inductive Relation where
  | within | above | below | unordered
  deriving DecidableEq, Repr

/-- One tank account: configuration and strapping table (R70) and working state (R71). -/
structure Tank where
  config : TankConfig
  strap : Strap
  book : Int
  reserved : Nat
  low : Bool
  revision : Nat
  probeValid : Bool
  staleTimer : Timer
  level : Option Nat
  temperature : Option Int
  probeGross : Option Nat
  probeNet : Option Nat
  quiet : Bool
  quietTimer : Timer
  relation : Relation
  difference : Option Int
  receipt : ReceiptState
  deriving DecidableEq, Repr

/-! ### Pump controller and start arbiter (Chapter 5) -/

/-- Pump configuration (R96). -/
structure PumpConfig where
  runOn : Nat
  startTimeout : Nat
  priority : Nat
  deriving DecidableEq, Repr

/-- Pump states (R97). -/
inductive PumpState where
  | stopped | waiting | starting | running | runOn | fault
  deriving DecidableEq, Repr

/-- Cause of the most recent entry to FAULT (R97). -/
inductive PumpCause where
  | startTimeout | pressureLost
  deriving DecidableEq, Repr

/-- One pump (R96, R97) with its starter output (R98). The arbiter's waiting set is the set of WAITING pumps. -/
structure Pump where
  config : PumpConfig
  state : PumpState
  demand : Nat
  pressureUp : Bool
  startTimer : Timer
  runOnTimer : Timer
  lastFault : Option PumpCause
  starter : Bool
  deriving DecidableEq, Repr

/-! ### Vehicle register and service accounting (Chapters 6 and 7) -/

/-- The host part of a vehicle record (R109). `products` bit n stands for product code n + 1. -/
structure HostPart where
  inUse : Bool
  tag : Tag
  fleet : Name
  cls : ClassId
  products : BitVec 4
  enabled : Bool
  hostLocked : Bool
  standalonePermit : Bool
  deriving DecidableEq, Repr

/-- The usage part of a vehicle record (R109). `meter` is the hour source: METER or ESTIMATED. -/
structure Usage where
  fuel : Nat
  hours : Option Nat
  meter : Bool
  regress : Bool
  deriving DecidableEq, Repr

/-- A service mark of one line (R109). -/
structure Mark where
  hours : Option Nat
  fuel : Nat
  deriving DecidableEq, Repr

/-- State of a coalescing store write: none, in flight, or in flight with a further write waiting (R128, R164). -/
inductive WriteWait where
  | none | inFlight | again
  deriving DecidableEq, Repr

/-- A vehicle record (R109), with whether a service write is pending (R147) and its usage write (R128). -/
structure Vehicle where
  host : HostPart
  revision : Nat
  usage : Usage
  marks : Vector Mark 4
  status : ServiceStatus
  binding : Option HoseId
  servicePending : Bool
  usageWrite : WriteWait
  deriving DecidableEq, Repr

/-- The stored parts of a vehicle record (R128, R129). -/
structure StoredVehicle where
  host : HostPart
  revision : Nat
  usage : Usage
  marks : Vector Mark 4
  deriving DecidableEq, Repr

/-- A schedule line: hour interval (0.1 h) and fuel interval (L), 0 unused (R111). -/
structure ScheduleLine where
  hour : Nat
  fuel : Nat
  deriving DecidableEq, Repr

/-- Overdue action of a class (R111). -/
inductive OverdueAction where
  | limit | refuse
  deriving DecidableEq, Repr

/-- A class record (R111). -/
structure ClassRecord where
  name : Name
  defaultPreset : Nat
  burnRate : Nat
  warn : Nat
  grace : Nat
  overdueAction : OverdueAction
  limp : Nat
  lines : Vector ScheduleLine 4
  deriving DecidableEq, Repr

/-- Sparse records by index: an assoc list in rising order of index in which no listed record equals the one that an
unlisted index reads as. -/
abbrev Sparse (α : Type) := List (Nat × α)

/-! ### Transaction journal (Chapter 8) -/

/-- The fields of a RECEIPT record (R87). -/
structure ReceiptRecord where
  tank : TankId
  product : ProductId
  openingNet : Nat
  openingTime : RecTime
  closingNet : Option Nat
  delivered : Option Int
  docket : Option Nat
  volume : Int
  difference : Option Int
  book : Int
  probeFail : Bool
  unmeasured : Bool
  deriving DecidableEq, Repr

/-- The fields of a CALIBRATION record: of a hose (R62) or of a product, 255 in its hose field (R65). -/
inductive CalibrationRecord where
  | hose (h : HoseId) (oldK newK points oldMF1 newMF1 newCount : Nat)
  | product (p : ProductId) (oldBeta newBeta : Nat) (name : Name)
  deriving DecidableEq, Repr

/-- The fields of a SERVICE record (R148). -/
structure ServiceRecord where
  vehicle : VehicleId
  tag : Tag
  fleet : Name
  line : LineId
  hours : Option Nat
  markHours : Option Nat
  fuel : Nat
  statusBefore : ServiceStatus
  worstBefore : Option (LineId × Nat)
  statusAfter : ServiceStatus
  regress : Bool
  revision : Nat
  deriving DecidableEq, Repr

/-- The fields of an ADJUST record (R89). -/
structure AdjustRecord where
  tank : TankId
  oldBook : Int
  newBook : Int
  revision : Nat
  deriving DecidableEq, Repr

/-- The fields of an INTERRUPTION record (R184). -/
structure InterruptionRecord where
  cause : ResetCause
  time : RecTime
  hosesClosed : Nat
  deliveriesCarried : Nat
  receiptsClosed : Nat
  recordsCarried : Nat
  deriving DecidableEq, Repr

/-- A record of the journal without its common part (R153). -/
inductive Record where
  | delivery (d : DeliveryRecord)
  | receipt (r : ReceiptRecord)
  | calibration (c : CalibrationRecord)
  | service (r : ServiceRecord)
  | adjust (a : AdjustRecord)
  | interruption (i : InterruptionRecord)
  deriving DecidableEq, Repr

/-- The common part the journal fills at the first write attempt (R153). -/
structure Stamp where
  seq : Nat
  time : Nat
  valid : Bool
  deriving DecidableEq, Repr

/-- A record written in a slot (R153). -/
structure JRecord where
  record : Record
  stamp : Stamp
  deriving DecidableEq, Repr

/-- A used slot: WRITTEN or VOID (R151). -/
inductive Slot where
  | written (r : JRecord)
  | void
  deriving DecidableEq, Repr

/-- Segment states (R151). -/
inductive SegmentState where
  | free | active | full | erasing | retired
  deriving DecidableEq, Repr

/-- A segment: its used slots in ascending order (the slots after them are FREE), its worn mark and whether it
carries an erase mark (R151, R165). -/
structure Segment where
  state : SegmentState
  worn : Bool
  eraseMark : Bool
  slots : List Slot
  deriving DecidableEq, Repr

/-- The high-water mark (R152). -/
structure HighWater where
  seq : Nat
  segment : SegmentId
  newest : Option (Nat × Nat)
  deriving DecidableEq, Repr

/-- A record in the write queue, with its common part once a write of it was attempted (R153, R156). -/
structure Queued where
  record : Record
  stamp : Option Stamp
  deriving DecidableEq, Repr

/-- The journal: segments, working values, write queue, reservations and states (Chapter 8). -/
structure Journal where
  segments : Vector Segment 32
  highWater : HighWater
  nextSeq : Nat
  newest : Option (Nat × Nat)
  ack : Nat
  ackWrite : WriteWait
  queue : List Queued
  reservations : Nat
  writing : Bool
  faulted : Bool
  armed : Bool
  erase : Option SegmentId
  deriving DecidableEq, Repr

/-! ### Settings store and power-fail area (Chapters 9 and 10) -/

/-- The three site settings (R200). -/
structure SiteSettings where
  linkTimeout : Nat
  standaloneCap : Nat
  threshold : Nat
  deriving DecidableEq, Repr

/-- Cause of a power-fail save (R177, R179). -/
inductive SaveCause where
  | supplyWarning | resetLine | restartRequest
  deriving DecidableEq, Repr

/-- The measurement a snapshot holds (R56, R178). -/
structure SnapMeasure where
  gross : Nat
  net : Nat
  sum : Int
  t0 : Int
  errors : Nat
  overspeed : Bool
  uncompensated : Bool
  deriving DecidableEq, Repr

/-- The snapshot of a hose (R178). -/
structure Snapshot where
  hose : HoseId
  state : HoseState
  grant : Grant
  measure : SnapMeasure
  deriving DecidableEq, Repr

/-- A receipt carried across a reset (R88). -/
structure CarriedReceipt where
  tank : TankId
  openingNet : Nat
  openingTime : RecTime
  docket : Option Nat
  deriving DecidableEq, Repr

/-- The power-fail area: the cause of the save and the work it carries (R178, R179). -/
structure Area where
  cause : SaveCause
  snapshots : List Snapshot
  receipts : List CarriedReceipt
  records : List Record
  deriving DecidableEq, Repr

/-- A host part with its revision as VEHICLE_PUT or a load request writes it to the store; `fresh` when the usage
part and marks of an unused index go with it (R119, R121, R124). -/
structure PlacedRecord where
  vehicle : VehicleId
  host : HostPart
  revision : Nat
  fresh : Bool
  deriving DecidableEq, Repr

/-- A settings-store write with the data it was begun with (R194). -/
inductive StoreWrite where
  | hoseConfig (h : HoseId) (c : HoseConfig)
  | totalizers (h : HoseId) (gross net : Nat)
  | calibration (h : HoseId) (d : CalData)
  | product (p : ProductId) (d : ProductData)
  | tankConfig (t : TankId) (c : TankConfig) (revision : Nat)
  | strap (t : TankId) (points : Strap) (revision : Nat)
  | book (t : TankId) (book : Int)
  | bookRevision (t : TankId) (book : Int) (revision : Nat)
  | pumpConfig (t : TankId) (c : PumpConfig)
  | vehicles (records : List PlacedRecord)
  | usage (v : VehicleId) (u : Usage)
  | hours (v : VehicleId) (u : Usage) (revision : Nat)
  | service (v : VehicleId) (m : Vector Mark 4) (revision : Nat) (u : Usage)
  | classRecord (c : ClassId) (r : ClassRecord)
  | ackThrough (seq : Nat)
  | highWater (h : HighWater)
  | wornMarks (m : Vector Bool 32)
  | retiredMarks (m : Vector Bool 32)
  | siteSettings (x : SiteSettings)
  deriving DecidableEq, Repr

/-- What the settings store holds (00_scope.md, block overview; the rules of each block). -/
structure Stored where
  hoseConfigs : Vector HoseConfig 8
  totals : Vector (Nat × Nat) 8
  cals : Vector CalData 8
  products : Vector ProductData 4
  tankConfigs : Vector TankConfig 4
  straps : Vector Strap 4
  books : Vector Int 4
  revisions : Vector Nat 4
  pumpConfigs : Vector PumpConfig 4
  vehicles : Sparse StoredVehicle
  classes : Vector ClassRecord 32
  ack : Nat
  highWater : HighWater
  worn : Vector Bool 32
  retired : Vector Bool 32
  site : SiteSettings
  area : Option Area
  deriving DecidableEq, Repr

/-- The settings store: its contents, the writes waiting in the order in which they began, and the write in
flight (R194). -/
structure Store where
  stored : Stored
  queue : List StoreWrite
  inFlight : Option StoreWrite
  deriving DecidableEq, Repr

/-! ### Replies (R192) -/

/-- An entry of DUE_LIST_READ's reply (R143). -/
structure DueEntry where
  vehicle : VehicleId
  fleet : Name
  status : ServiceStatus
  worst : Option (LineId × Nat)
  deriving DecidableEq, Repr

/-- One line of SERVICE_QUERY's reply (R150). -/
structure LineReply where
  used : Bool
  interval : ScheduleLine
  mark : Mark
  fuelSince : Nat
  hoursSince : Nat
  measured : Bool
  hourPerMille : Option Nat
  fuelPerMille : Option Nat
  perMille : Nat
  deriving DecidableEq, Repr

/-- SERVICE_QUERY's reply (R150). -/
structure ServiceReply where
  status : ServiceStatus
  cls : ClassId
  warn : Nat
  grace : Nat
  action : OverdueAction
  meter : Bool
  hours : Option Nat
  regress : Bool
  fuel : Nat
  lines : List LineReply
  worst : Option LineId
  position : Option Nat
  pending : Bool
  deriving DecidableEq, Repr

/-- HOSE_QUERY's reply (R31). -/
structure HoseReply where
  state : HoseState
  valve : Valve
  lamp : Lamp
  tank : TankId
  vehicle : Option VehicleId
  preset : Option Nat
  tankRes : Option Nat
  flags : Option GrantFlags
  live : Option (Nat × Nat × Nat)
  errors : Option Nat
  lastRefusal : Option StatusCode
  stray : Nat
  lastEnd : Option EndReason
  deriving DecidableEq, Repr

/-- CAL_READ's reply (R66). -/
structure CalReply where
  data : CalData
  opened : Bool
  pending : Bool
  product : ProductId
  productData : ProductData
  switchClosed : Bool
  deriving DecidableEq, Repr

/-- The receipt in TANK_QUERY's reply: its opening, the delivered volume so far, the docket if given, and in SETTLING
the seconds left (R93). -/
inductive ReceiptReply where
  | normal
  | receiving (openingNet : Nat) (openingTime : RecTime) (delivered : Int) (docket : Option Nat)
  | settling (openingNet : Nat) (openingTime : RecTime) (delivered : Int) (docket : Option Nat) (left : Timer)
  deriving DecidableEq, Repr

/-- TANK_QUERY's reply (R93). -/
structure TankReply where
  config : TankConfig
  strapPoints : Nat
  book : Int
  reserved : Nat
  available : Nat
  ullage : Nat
  low : Bool
  revision : Nat
  probeValid : Bool
  level : Option Nat
  temperature : Option Int
  probeGross : Option Nat
  probeNet : Option Nat
  quiet : Bool
  relation : Relation
  difference : Option Int
  receipt : ReceiptReply
  deriving DecidableEq, Repr

/-- PUMP_QUERY's reply (R108). -/
structure PumpReply where
  state : PumpState
  demand : Nat
  starter : Bool
  pressureUp : Bool
  config : PumpConfig
  secondsLeft : Option Nat
  lastFault : Option PumpCause
  slotHolder : Option TankId
  waiting : List TankId
  deriving DecidableEq, Repr

/-- A record in JOURNAL_READ's reply: its fields and the 64 bytes of its slot (R162, R203). -/
structure RecordReply where
  record : JRecord
  image : List Byte
  deriving DecidableEq, Repr

/-- JOURNAL_STATUS's reply (R168). -/
structure JournalReply where
  free : Nat
  reservations : Nat
  heldRecords : Nat
  usable : Nat
  oldest : Option Nat
  newest : Option Nat
  oldestHeld : Option Nat
  ackWorking : Nat
  ackStored : Nat
  active : Option (SegmentId × Nat)
  queued : Nat
  writing : Bool
  erasing : Option SegmentId
  eligible : Nat
  retired : Nat
  worn : Nat
  faulted : Bool
  armed : Bool
  deriving DecidableEq, Repr

/-- STATUS's reply (R199). -/
structure StatusReply where
  vendor : Nat
  part : Nat
  hardware : Nat
  lastReset : ResetCause
  online : Bool
  site : SiteSettings
  inspection : Bool
  estop : Bool
  clockValid : Bool
  siteTime : Nat
  events : Nat
  waiting : Nat
  deriving DecidableEq, Repr

/-- The fields of a reply after its status code (R192 and the rule of each request). -/
inductive ReplyBody where
  | none
  | authorized (preset reservation : Nat) (flags : GrantFlags) (status : ServiceStatus)
  | hose (r : HoseReply)
  | totalizers (gross net : Nat) (state : HoseState)
  | calWritten (count : Nat) (seq : Option Nat)
  | cal (r : CalReply)
  | productWritten (seq : Option Nat)
  | product (d : ProductData) (pending : Bool)
  | receiptBegun (openingNet : Nat) (openingTime : RecTime)
  | adjusted (book : Int) (revision : Nat) (seq : Option Nat)
  | bookConflict (book : Int) (revision : Nat)
  | tank (r : TankReply)
  | strap (points : Strap)
  | pump (r : PumpReply)
  | vehicle (image : List Byte)
  | found (v : VehicleId) (revision : Nat) (binding : Option HoseId)
  | putDone (revision : Nat) (status : ServiceStatus)
  | revisionConflict (revision : Nat) (image : List Byte)
  | boundTo (h : HoseId)
  | dupTag (holder : VehicleId)
  | loadProgress (placed next : Nat) (isOpen : Bool) (holder : Option VehicleId)
  | loadClosed (next : Nat)
  | classInfo (r : ClassRecord) (vehicles : Nat)
  | serviceDone (revision : Nat) (status : ServiceStatus) (seq : Option Nat)
  | classSet (swept changed : Nat)
  | dueList (length revision : Nat) (entries : List DueEntry)
  | service (r : ServiceReply)
  | records (rs : List RecordReply) (ack : Nat) (next : Option Nat)
  | acked (ack held : Nat)
  | journalStatus (r : JournalReply)
  | status (r : StatusReply)
  | events (es : List EventEntry) (left : Nat)
  deriving DecidableEq, Repr

/-- A reply: its kind, the echoed tag, the status code and the fields (R192). -/
structure Reply where
  kind : Byte
  tag : Byte
  status : StatusCode
  body : ReplyBody
  deriving DecidableEq, Repr

/-! ### Station link controller (Chapter 10) -/

/-- What a frame holds: a request, a body whose length does not suit its kind, or a kind that names no request. The
frame is held whole: the bytes of a request are those its fields encode (R190, R191). -/
inductive Content where
  | request (r : Request)
  | badLength (kind : Byte) (body : List Byte)
  | unknownKind (kind : Byte) (body : List Byte)
  deriving DecidableEq, Repr

/-- A frame in the receive queue (R190). -/
structure Frame where
  tag : Byte
  content : Content
  deriving DecidableEq, Repr

/-- What a held request waits for (R63, R89, R124, R139, R147, R194). `seq` absent: its journal write is still
awaited. -/
inductive HeldWait where
  | hoseSet (h : HoseId)
  | calWrite (h : HoseId) (seq : Option Nat)
  | productSet (p : ProductId) (seq : Option Nat)
  | stockAdjust (t : TankId) (book : Int) (revision : Nat)
  | tankSet (t : TankId)
  | strapSet (t : TankId)
  | pumpSet (t : TankId)
  | vehiclePut (v : VehicleId)
  | loadNext (status : StatusCode) (placed next : Nat) (holder : Option VehicleId)
  | hoursSet (v : VehicleId)
  | serviceDone (v : VehicleId) (seq : Option Nat)
  | classSet (c : ClassId) (stored : Bool) (next swept changed : Nat)
  | siteSet
  deriving DecidableEq, Repr

/-- The request that holds the link (R191, R195). -/
structure Held where
  kind : Byte
  tag : Byte
  wait : HeldWait
  deriving DecidableEq, Repr

/-- The station link controller (R172, R186 to R201). `rx` is HUNT when absent, else the bytes of the frame received
after its start byte. The head of `tx` is the reply being sent. -/
structure Link where
  rx : Option (List Byte)
  gapTimer : Bool
  rxQueue : List Frame
  held : Option Held
  tx : List Reply
  events : List EventEntry
  attention : Bool
  online : Bool
  linkTimer : Timer
  inspection : Bool
  estop : Bool
  site : SiteSettings
  lastReset : ResetCause
  deriving DecidableEq, Repr

/-! ### The part -/

/-- What began the reset the part is in: a completed save with its cause, or a reset without a save with what reached
the part, absent when the supply went out (R180, R185). -/
inductive ResetOrigin where
  | saved (c : SaveCause)
  | unsaved (c : Option SaveCause)
  deriving DecidableEq, Repr

/-- Phase of the part (R177, R180, R181, R182). -/
inductive Phase where
  /-- taking arrivals and requests -/
  | running
  /-- RESTART accepted, its reply not yet sent (R181) -/
  | restartReply
  /-- the power-fail save, with whether the supply has gone out meanwhile (R177) -/
  | saving (cause : SaveCause) (supplyOut : Bool)
  /-- in reset (R177, R180) -/
  | inReset (origin : ResetOrigin) (supplyOut : Bool)
  /-- restart, waiting for the write that clears the power-fail area (R182) -/
  | restarting
  deriving DecidableEq, Repr

/-- The backup counter and its clock-valid flag (R175). -/
structure SiteClock where
  count : Nat
  valid : Bool
  deriving DecidableEq, Repr

/-- The levels standing at the level inputs (R182: they are taken as they stand when restart ends). -/
structure Inputs where
  estop : Bool
  switchClosed : Bool
  pressure : Vector Bool 4
  deriving DecidableEq, Repr

/-- The whole part, and the queue of commands that wait (first in, first out). -/
structure State where
  phase : Phase
  clock : SiteClock
  inputs : Inputs
  hoses : Vector Hose 8
  engines : Vector Engine 8
  cals : Vector Calibration 8
  products : Vector Product 4
  tanks : Vector Tank 4
  pumps : Vector Pump 4
  slotHolder : Option TankId
  vehicles : Sparse Vehicle
  classes : Vector ClassRecord 32
  dueList : List VehicleId
  dueRevision : Nat
  loadSession : Option Nat
  journal : Journal
  link : Link
  store : Store
  pending : List Instr
  deriving DecidableEq, Repr

/-- The part has no fault that stops it: every arrival and every request has an effect or is answered
(INVENTORY.md, "Faults"). No command raises a fault, so the type has no constructor. -/
inductive Fault : Type
  deriving DecidableEq, Repr

/-- Why a command has no meaning in the model. -/
inductive Refusal where
  /-- Raised by an arm of `exec` whose command has no meaning yet; no arm is left so. Safe. -/
  | notModelled (mnemonic : String)
  deriving DecidableEq, Repr

/-! ### Values of a blank part (the defaults of the rules cited) -/

/-- Eight spaces (R58, R110, R111). -/
def spaces : Name := #v[0x20#8, 0x20#8, 0x20#8, 0x20#8, 0x20#8, 0x20#8, 0x20#8, 0x20#8]

/-- Default hose configuration on a tank (R1). -/
def HoseConfig.default (t : TankId) : HoseConfig :=
  { tank := t, prestop := 1500, slowVolume := 40000, readyTimeout := 120, noFlowTimeout := 60, pauseTimeout := 300,
    settleTime := 2 }

/-- Every timer stopped (R2). -/
def HoseTimers.stopped : HoseTimers :=
  { ready := none, noFlow := none, pause := none, settle := none, closing := none, refusal := none }

/-- A hose after reset (R2, R3, R4). -/
def Hose.reset (c : HoseConfig) : Hose :=
  { config := c, state := .idle, grant := none, timers := .stopped, lastRefusal := none, stray := 0, lastEnd := none,
    valve := .closed, lamp := .off }

/-- An engine after reset, with the totalizers stored for it (R33, R34, R54). -/
def Engine.reset (totals : Nat × Nat) : Engine :=
  { dP := 0, rg := 0, rn := 0, gross := 0, net := 0, sum := 0, errors := 0, faultReported := false, lastQ := 0,
    t0 := Config.referenceTemperature, overspeed := false, uncompensated := false, latched := none,
    sampleTimer := false, average := none, latest := none, held := false, holdTimer := none,
    grossTotal := totals.1, netTotal := totals.2 }

/-- Default calibration record (R57). -/
def CalData.default : CalData :=
  { k := 100, curve := [(1000, 100000), (10000, 100000)], errorLimit := 20, maxRate := 10000, count := 0 }

/-- A calibration record after reset (R69). -/
def Calibration.reset (d : CalData) : Calibration := { data := d, opened := false, pending := false }

/-- Default product entry (R58). -/
def ProductData.default : ProductData := { name := spaces, beta := 0 }

/-- A product entry after reset (R69). -/
def Product.reset (d : ProductData) : Product := { data := d, pending := false }

/-- Default tank configuration (R70). -/
def TankConfig.default : TankConfig :=
  { product := 0, capacity := 100000000, heel := 0, lowAlarm := 0, receiptSettle := 300 }

/-- Default strapping table (R70). -/
def Strap.default : Strap := [(0, 0), (30000, 100000)]

/-- A tank account after reset, from its stored configuration, table, book and revision (R71, R95). -/
def Tank.reset (c : TankConfig) (p : Strap) (book : Int) (revision : Nat) : Tank :=
  { config := c, strap := p, book := book, reserved := 0, low := decide (book - c.heel < c.lowAlarm),
    revision := revision, probeValid := false, staleTimer := none, level := none, temperature := none,
    probeGross := none, probeNet := none, quiet := false, quietTimer := some Config.quietTime,
    relation := .unordered, difference := none, receipt := .normal }

/-- Default pump configuration (R96). -/
def PumpConfig.default : PumpConfig := { runOn := 10, startTimeout := 15, priority := 0 }

/-- A pump after reset (R97, R98). -/
def Pump.reset (c : PumpConfig) (pressureUp : Bool) : Pump :=
  { config := c, state := .stopped, demand := 0, pressureUp := pressureUp, startTimer := none, runOnTimer := none,
    lastFault := none, starter := false }

/-- The host part of an unused index (R110). -/
def HostPart.unused : HostPart :=
  { inUse := false, tag := 0, fleet := spaces, cls := 0, products := 0, enabled := false, hostLocked := false,
    standalonePermit := false }

/-- The usage part of an unused index and of a newly placed record (R109, R110). -/
def Usage.fresh : Usage := { fuel := 0, hours := none, meter := false, regress := false }

/-- The service marks of an unused index and of a newly placed record (R109, R110). -/
def freshMarks : Vector Mark 4 := #v[⟨none, 0⟩, ⟨none, 0⟩, ⟨none, 0⟩, ⟨none, 0⟩]

/-- An unused index of a blank part: what an unlisted index reads as (R110). -/
def Vehicle.unused : Vehicle :=
  { host := .unused, revision := 0, usage := .fresh, marks := freshMarks, status := .ok, binding := none,
    servicePending := false, usageWrite := .none }

/-- The stored copy of an unused index of a blank part (R110). -/
def StoredVehicle.unused : StoredVehicle :=
  { host := .unused, revision := 0, usage := .fresh, marks := freshMarks }

/-- Default class record (R111). -/
def ClassRecord.default : ClassRecord :=
  { name := spaces, defaultPreset := 1000, burnRate := 0, warn := 900, grace := 100, overdueAction := .limit,
    limp := 200, lines := #v[⟨0, 0⟩, ⟨0, 0⟩, ⟨0, 0⟩, ⟨0, 0⟩] }

/-- Default site settings (R200). -/
def SiteSettings.default : SiteSettings := { linkTimeout := 30, standaloneCap := 500, threshold := 75 }

/-- High-water mark of a blank part (R152). -/
def HighWater.blank : HighWater := { seq := 1, segment := 0, newest := none }

/-- An erased segment (R151). -/
def Segment.blank : Segment := { state := .free, worn := false, eraseMark := false, slots := [] }

/-- The settings store of a blank part (R1, R54, R57, R58, R70, R71, R96, R110, R111, R152, R200). A book that was
never stored reads as 0 (assumption 4). -/
def Stored.blank : Stored :=
  { hoseConfigs := #v[.default 0, .default 1, .default 2, .default 3, .default 0, .default 1, .default 2, .default 3],
    totals := Vector.replicate 8 (0, 0),
    cals := Vector.replicate 8 .default,
    products := Vector.replicate 4 .default,
    tankConfigs := Vector.replicate 4 .default,
    straps := Vector.replicate 4 .default,
    books := Vector.replicate 4 0,
    revisions := Vector.replicate 4 0,
    pumpConfigs := Vector.replicate 4 .default,
    vehicles := [],
    classes := Vector.replicate 32 .default,
    ack := 0,
    highWater := .blank,
    worn := Vector.replicate 32 false,
    retired := Vector.replicate 32 false,
    site := .default,
    area := none }

/-- The journal of a blank part after its scan: segment 0 ACTIVE, the others FREE (R152, R170, R171). -/
def Journal.blank : Journal :=
  { segments := (Vector.replicate 32 Segment.blank).set 0 { Segment.blank with state := .active },
    highWater := .blank, nextSeq := 1, newest := none, ack := 0, ackWrite := .none, queue := [], reservations := 0,
    writing := false, faulted := false, armed := true, erase := none }

/-- The link controller after reset, with the RESTART entry alone in the event queue (R172, R182, R196, R201). -/
def Link.reset (site : SiteSettings) (inputs : Inputs) (cause : ResetCause) (now : RecTime) : Link :=
  { rx := none, gapTimer := false, rxQueue := [], held := none, tx := [],
    events := [{ key := .restart, first := now, count := 1, detail := .resetCause cause }],
    attention := true, online := false, linkTimer := none, inspection := inputs.switchClosed, estop := inputs.estop,
    site := site, lastReset := cause }

/-- The levels taken to stand at the inputs of a part at its first start: emergency stop inactive, metrology switch
open, every pressure switch DOWN (assumption 4). -/
def Inputs.quiet : Inputs :=
  { estop := false, switchClosed := false, pressure := Vector.replicate 4 false }

/-- The part right after its first reset: a blank part whose restart has ended (R182), every block at the value its
rules give for reset, the RESTART event with cause POWER_ON raised, and no command waiting. -/
def State.reset : State :=
  { phase := .running,
    clock := { count := 0, valid := false },
    inputs := .quiet,
    hoses := #v[.reset (.default 0), .reset (.default 1), .reset (.default 2), .reset (.default 3),
      .reset (.default 0), .reset (.default 1), .reset (.default 2), .reset (.default 3)],
    engines := Vector.replicate 8 (.reset (0, 0)),
    cals := Vector.replicate 8 (.reset .default),
    products := Vector.replicate 4 (.reset .default),
    tanks := Vector.replicate 4 (.reset .default .default 0 0),
    pumps := Vector.replicate 4 (.reset .default false),
    slotHolder := none,
    vehicles := [],
    classes := Vector.replicate 32 .default,
    dueList := [],
    dueRevision := 0,
    loadSession := none,
    journal := .blank,
    link := .reset .default .quiet .powerOn ⟨0, false⟩,
    store := { stored := .blank, queue := [], inFlight := none },
    pending := [] }

end Sys2Proof.Machine
end

