-- ==== Sys2Proof/Machine/Ops.lean ====
section
/-! DEFINITION. The named operations that the blocks share: access to each object of the state, the event queue, the
site clock, the settings store's queue of writes, replies, and the journal's counts, reservations and FAULTED
state. -/

namespace Sys2Proof.Machine

open Sys2Proof

/-! ### Containers -/

/-- Replace position i of a vector. -/
def upd {α : Type} {n : Nat} (v : Vector α n) (i : Fin n) (x : α) : Vector α n := v.set i.val x i.isLt

/-- Apply a function at every position of a vector. -/
def vmap {α β : Type} {n : Nat} (f : α → β) (v : Vector α n) : Vector β n := ⟨⟨v.toList.map f⟩, by simp⟩

/-- Build a vector from its positions. -/
def tabulate {α : Type} {n : Nat} (f : Fin n → α) : Vector α n := ⟨⟨(List.finRange n).map f⟩, by simp⟩

/-- The record at an index; an unlisted index reads as d. -/
def Sparse.get {α : Type} (d : α) (m : Sparse α) (k : Nat) : α :=
  match m with
  | [] => d
  | (i, x) :: rest => if i = k then x else Sparse.get d rest k

/-- Write a record, keeping the canonical form: indices rising, no record equal to d listed. -/
def Sparse.set {α : Type} [DecidableEq α] (d : α) (m : Sparse α) (k : Nat) (x : α) : Sparse α :=
  match m with
  | [] => if x = d then [] else [(k, x)]
  | (i, y) :: rest =>
    if k < i then (if x = d then (i, y) :: rest else (k, x) :: (i, y) :: rest)
    else if k = i then (if x = d then rest else (k, x) :: rest)
    else (i, y) :: Sparse.set d rest k x

/-- The canonical form of a sparse table of at most `bound` indices. -/
def Sparse.wf {α : Type} [DecidableEq α] (d : α) (bound : Nat) : Sparse α → Bool
  | [] => true
  | (i, x) :: rest =>
    decide (i < bound) && decide (x ≠ d) && rest.all (fun e => decide (i < e.1)) && Sparse.wf d bound rest

/-- All hoses, ascending. -/
def allHoses : List HoseId := [0, 1, 2, 3, 4, 5, 6, 7]

/-- All tanks, ascending. -/
def allTanks : List TankId := [0, 1, 2, 3]

/-- All service lines, ascending. -/
def allLines : List LineId := [0, 1, 2, 3]

/-- All segments, ascending. -/
def allSegments : List SegmentId := List.finRange 32

/-- Segments in circular order beginning after `k` and ending with `k` (R151). -/
def segmentsAfter (k : SegmentId) : List SegmentId := allSegments.map (fun i => k + 1 + i)

/-- Saturating sum of counts. -/
def satAdd (limit a b : Nat) : Nat := min limit (a + b)

/-- Clamp an integer to a range. -/
def clampInt (lo hi x : Int) : Int := if x < lo then lo else if hi < x then hi else x

/-- Ceiling of a / b. -/
def ceilDiv (a b : Nat) : Nat := (a + b - 1) / b

/-! ### Objects of the state -/

def State.hose (s : State) (h : HoseId) : Hose := s.hoses.get h
def State.setHose (s : State) (h : HoseId) (x : Hose) : State := { s with hoses := upd s.hoses h x }
def State.engine (s : State) (h : HoseId) : Engine := s.engines.get h
def State.setEngine (s : State) (h : HoseId) (x : Engine) : State := { s with engines := upd s.engines h x }
def State.cal (s : State) (h : HoseId) : Calibration := s.cals.get h
def State.setCal (s : State) (h : HoseId) (x : Calibration) : State := { s with cals := upd s.cals h x }
def State.product (s : State) (p : ProductId) : Product := s.products.get p
def State.setProduct (s : State) (p : ProductId) (x : Product) : State := { s with products := upd s.products p x }
def State.tank (s : State) (t : TankId) : Tank := s.tanks.get t
def State.setTank (s : State) (t : TankId) (x : Tank) : State := { s with tanks := upd s.tanks t x }
def State.pump (s : State) (t : TankId) : Pump := s.pumps.get t
def State.setPump (s : State) (t : TankId) (x : Pump) : State := { s with pumps := upd s.pumps t x }
def State.classOf (s : State) (c : ClassId) : ClassRecord := s.classes.get c
def State.setClass (s : State) (c : ClassId) (x : ClassRecord) : State := { s with classes := upd s.classes c x }
def State.vehicle (s : State) (v : VehicleId) : Vehicle := Sparse.get .unused s.vehicles v.val
def State.setVehicle (s : State) (v : VehicleId) (x : Vehicle) : State :=
  { s with vehicles := Sparse.set .unused s.vehicles v.val x }

def State.setJournal (s : State) (j : Journal) : State := { s with journal := j }
def State.setLink (s : State) (l : Link) : State := { s with link := l }
def State.setStore (s : State) (x : Store) : State := { s with store := x }
def State.setHoses (s : State) (xs : Vector Hose 8) : State := { s with hoses := xs }
def State.setCals (s : State) (xs : Vector Calibration 8) : State := { s with cals := xs }
def State.setPumps (s : State) (xs : Vector Pump 4) : State := { s with pumps := xs }
def State.setSlot (s : State) (t : Option TankId) : State := { s with slotHolder := t }
def State.setLoad (s : State) (n : Option Nat) : State := { s with loadSession := n }
def State.setPhase (s : State) (p : Phase) : State := { s with phase := p }
def State.setClock (s : State) (c : SiteClock) : State := { s with clock := c }
def State.setInputs (s : State) (i : Inputs) : State := { s with inputs := i }
def State.setDueList (s : State) (vs : List VehicleId) : State := { s with dueList := vs }
def State.setDueRevision (s : State) (n : Nat) : State := { s with dueRevision := n }

/-- The listed vehicle records with their indices, ascending (an unlisted index is unused at revision 0). -/
def State.listedVehicles (s : State) : List (VehicleId × Vehicle) :=
  s.vehicles.filterMap fun e => if h : e.1 < 512 then some (⟨e.1, h⟩, e.2) else none

/-- The hoses on a tank: those whose configuration names it (Chapter 4). -/
def State.hosesOn (s : State) (t : TankId) : List HoseId :=
  allHoses.filter fun h => decide ((s.hose h).config.tank = t)

/-- States in which a hose counts for its tank: STARTING to CLOSING (R79). -/
def HoseState.counted : HoseState → Bool
  | .starting | .flowing | .trimming | .paused | .closing => true
  | .idle | .ready | .settled => false

/-- States in which a hose counts toward its pump's demand: STARTING to PAUSED (R99). -/
def HoseState.demands : HoseState → Bool
  | .starting | .flowing | .trimming | .paused => true
  | .idle | .ready | .closing | .settled => false

/-- Number of hoses on a tank in the counted states (R79). -/
def State.countedOn (s : State) (t : TankId) : Nat := ((s.hosesOn t).filter fun h => (s.hose h).state.counted).length

/-- Run a function of the state for each member of a list, in order. -/
def forAll {α : Type} (xs : List α) (f : α → State → State) (s : State) : State :=
  match xs with
  | [] => s
  | x :: rest => forAll rest f (f x s)

/-- An arrival is taken by a part that takes arrivals, and by no other (R177, R181, R182). -/
def whenRunning (s : State) (f : State → State) : State :=
  match s.phase with
  | .running => f s
  | .restartReply | .saving _ _ | .inReset _ _ | .restarting => s

/-- The part works on: its journal, store and transmitter proceed (R181: also while the reply to RESTART is sent). -/
def Phase.live : Phase → Bool
  | .running | .restartReply => true
  | .saving _ _ | .inReset _ _ | .restarting => false

/-! ### Site clock and events -/

/-- The recorded time (R175): the site time when the clock is valid, else the timestamp of the newest written journal
record, or 0, with time-valid 0. -/
def recordedTime (s : State) : RecTime :=
  if s.clock.valid then ⟨s.clock.count, true⟩
  else ⟨match s.journal.newest with | some n => n.2 | none => 0, false⟩

/-- Raise an event: append its entry or coalesce into the queued one (R196); the attention line follows (R198). -/
def raise (k : EventKey) (d : Detail) (s : State) : State :=
  let es := s.link.events
  let es' :=
    if es.any (fun e => decide (e.key = k)) then
      es.map fun e => if e.key = k then { e with count := min Config.raiseLimit (e.count + 1), detail := d } else e
    else es ++ [{ key := k, first := recordedTime s, count := 1, detail := d }]
  s.setLink { s.link with events := es', attention := s.phase.live || s.link.attention }

/-! ### Settings store -/

/-- A block begins a settings-store write: it joins the writes in the order of their beginning (R194). -/
def beginWrite (w : StoreWrite) (s : State) : State :=
  s.setStore { s.store with queue := s.store.queue ++ [w] }

/-- Begin the store write of a vehicle's usage part, or have a further one follow the one in flight (R128). -/
def beginUsageWrite (v : VehicleId) (s : State) : State :=
  let r := s.vehicle v
  match r.usageWrite with
  | .none => beginWrite (.usage v r.usage) (s.setVehicle v { r with usageWrite := .inFlight })
  | .inFlight | .again => s.setVehicle v { r with usageWrite := .again }

/-- Begin the store write of the acknowledged-through sequence, or have a further one follow (R164). -/
def beginAckWrite (s : State) : State :=
  match s.journal.ackWrite with
  | .none =>
    beginWrite (.ackThrough s.journal.ack) (s.setJournal { s.journal with ackWrite := .inFlight })
  | .inFlight | .again => s.setJournal { s.journal with ackWrite := .again }

/-! ### Replies -/

/-- Kind of a reply: the request's kind plus 0x80, and 0xFF for a kind of 0x80 or above (R192). -/
def replyKind (kind : Byte) : Byte := if kind.toNat < 0x80 then kind + 0x80#8 else 0xFF#8

/-- Hand a built reply to the transmitter, which sends in the order of building (R192). -/
def pushReply (kind tag : Byte) (status : StatusCode) (body : ReplyBody) (s : State) : State :=
  s.setLink { s.link with tx := s.link.tx ++ [{ kind := replyKind kind, tag, status, body }] }

/-- Build the reply of the held request and release the link (R191, R195). -/
def finishHeld (status : StatusCode) (body : ReplyBody) (s : State) : State :=
  match s.link.held with
  | none => s
  | some q => pushReply q.kind q.tag status body (s.setLink { s.link with held := none })

/-! ### Journal: counts, admission and reservations -/

def Journal.segment (j : Journal) (g : SegmentId) : Segment := j.segments.get g
def Journal.setSegment (j : Journal) (g : SegmentId) (x : Segment) : Journal :=
  { j with segments := upd j.segments g x }

/-- The ACTIVE segment (R151). -/
def Journal.active (j : Journal) : Option SegmentId :=
  allSegments.find? fun g => decide ((j.segment g).state = .active)

/-- Number of segments in a state. -/
def Journal.countState (j : Journal) (st : SegmentState) : Nat :=
  (allSegments.filter fun g => decide ((j.segment g).state = st)).length

/-- Free slots (R154). -/
def Journal.free (j : Journal) : Nat :=
  (match j.active with
    | some g => Config.slotsPerSegment - (j.segment g).slots.length
    | none => 0) + Config.slotsPerSegment * j.countState .free

/-- Usable slots (R151). -/
def Journal.usable (j : Journal) : Nat :=
  Config.slotsPerSegment * (allSegments.filter fun g => decide ((j.segment g).state ≠ .retired)).length

/-- Records of a list of slots. -/
def writtenOf (slots : List Slot) : List JRecord :=
  slots.filterMap fun x => match x with | .written r => some r | .void => none

/-- The WRITTEN records in ascending sequence order, in which JOURNAL_READ gives them (R151, R162). -/
def Journal.written (j : Journal) : List JRecord :=
  ((segmentsAfter j.highWater.segment).flatMap fun g => writtenOf (j.segment g).slots).insertionSort
    fun a b => a.stamp.seq ≤ b.stamp.seq

/-- The held records: WRITTEN and not acknowledged (R163, R170). -/
def Journal.held (j : Journal) : List JRecord := j.written.filter fun r => decide (j.ack < r.stamp.seq)

/-- Grant test (R155, R7 check 2). -/
def Journal.grantTest (j : Journal) : Bool :=
  !j.faulted && decide (j.reservations + 1 + Config.grantMargin ≤ j.free)

/-- Request test (R155). -/
def Journal.requestTest (j : Journal) : Bool := !j.faulted && decide (j.reservations + 1 ≤ j.free)

/-- Take one slot reservation (R154). -/
def takeReservation (s : State) : State :=
  s.setJournal { s.journal with reservations := s.journal.reservations + 1 }

/-- A record joins the write queue (R156). -/
def joinQueue (r : Record) (s : State) : State :=
  s.setJournal { s.journal with queue := s.journal.queue ++ [{ record := r, stamp := none }] }

/-- Answer early a request held for its journal write (R64, R89, R147, R160, R195). -/
def releaseHeldEarly (s : State) : State :=
  match s.link.held with
  | none => s
  | some q =>
    match q.wait with
    | .calWrite h none => finishHeld .ok (.calWritten (s.cal h).data.count none) s
    | .productSet _ none => finishHeld .ok (.productWritten none) s
    | .serviceDone v none => finishHeld .ok (.serviceDone (s.vehicle v).revision (s.vehicle v).status none) s
    | .stockAdjust _ book revision => finishHeld .ok (.adjusted book revision none) s
    | .calWrite _ (some _) | .productSet _ (some _) | .serviceDone _ (some _) | .hoseSet _ | .tankSet _ | .strapSet _
    | .pumpSet _ | .vehiclePut _ | .loadNext _ _ _ _ | .hoursSet _ | .classSet _ _ _ _ _ | .siteSet => s

/-- The journal enters FAULTED (R160). -/
def enterFaulted (s : State) : State :=
  raise .journal .faulted (releaseHeldEarly (s.setJournal { s.journal with faulted := true }))

/-- The journal enters FAULTED when free slots fall below the reservations held (R160). -/
def faultTest (s : State) : State :=
  if !s.journal.faulted && decide (s.journal.free < s.journal.reservations) then enterFaulted s else s

/-- The sequence numbers are spent: the record at the head has no number yet, and the next number would pass the
largest (R153; assumption 36). -/
def Journal.spent (j : Journal) : Bool :=
  decide (Config.sequenceLimit < j.nextSeq) && (match j.queue with | q :: _ => q.stamp.isNone | [] => true)

/-- The journal leaves FAULTED when free slots are again at least the reservations held; one whose sequence numbers are
spent does not leave it (R161). -/
def recoverTest (s : State) : State :=
  if s.journal.faulted && !s.journal.spent && decide (s.journal.reservations ≤ s.journal.free) then
    raise .journal .recovered (s.setJournal { s.journal with faulted := false })
  else s

/-- A reservation ends without a write (R15, R154, R161). -/
def endReservation (s : State) : State :=
  recoverTest (s.setJournal { s.journal with reservations := s.journal.reservations - 1 })

/-- Does the threshold test pass? (R167) -/
def Journal.thresholdPasses (j : Journal) (threshold : Nat) : Bool :=
  decide (j.usable * threshold ≤ j.held.length * 100)

/-- The fill threshold is tested (R167). -/
def thresholdTest (s : State) : State :=
  let passes := s.journal.thresholdPasses s.link.site.threshold
  if passes && s.journal.armed then
    raise .journal .threshold (s.setJournal { s.journal with armed := false })
  else if !passes && !s.journal.armed then s.setJournal { s.journal with armed := true }
  else s

/-- The sequence number the next written record is to take: the one a retried head keeps, else the next to be given
(R153, R158). -/
def Journal.comingSeq (j : Journal) : Nat :=
  match j.queue with
  | { record := _, stamp := some st } :: _ => st.seq
  | _ => j.nextSeq

/-- A FREE segment becomes ACTIVE and the high-water mark is written (R158). -/
def activate (g : SegmentId) (s : State) : State :=
  let hw : HighWater := { seq := s.journal.comingSeq, segment := g, newest := s.journal.newest }
  let j := s.journal.setSegment g { s.journal.segment g with state := .active }
  beginWrite (.highWater hw) (s.setJournal { j with highWater := hw })

/-- The next FREE segment in circular order after a segment becomes ACTIVE, when there is one (R158). -/
def activateNext (after : SegmentId) (s : State) : State :=
  match (segmentsAfter after).find? fun g => decide ((s.journal.segment g).state = .free) with
  | some g => activate g s
  | none => s

/-- The segment change after slot 63 (R158). -/
def segmentChange (g : SegmentId) (s : State) : State :=
  let sg := s.journal.segment g
  if sg.slots.length < Config.slotsPerSegment then s
  else faultTest (activateNext g (s.setJournal (s.journal.setSegment g { sg with state := .full })))

end Sys2Proof.Machine
end

