-- ==== Sys2Proof/Machine/Clock.lean ====
section
/-! DEFINITION. The passing of a second: the site clock counts in every phase (R175), and the running timers of a
running part have one second less to run, down to 0; the expiry itself is a command (assumption 3). -/

namespace Sys2Proof.Machine

open Sys2Proof

/-- A running timer has a second less; a stopped one stays stopped. -/
def Timer.run (t : Timer) : Timer := t.map (· - 1)

/-- The timers of a hose (R2). -/
def HoseTimers.run (t : HoseTimers) : HoseTimers :=
  { ready := Timer.run t.ready, noFlow := Timer.run t.noFlow, pause := Timer.run t.pause,
    settle := Timer.run t.settle, closing := Timer.run t.closing, refusal := Timer.run t.refusal }

/-- The settle timer of a receipt (R71). -/
def ReceiptState.run : ReceiptState → ReceiptState
  | .normal => .normal
  | .receiving r => .receiving r
  | .settling r t => .settling r (Timer.run t)

/-- Every running timer has a second less to run. -/
def runTimers (s : State) : State :=
  { s with
    hoses := vmap (fun x => { x with timers := x.timers.run }) s.hoses
    engines := vmap (fun e => { e with holdTimer := Timer.run e.holdTimer }) s.engines
    tanks := vmap (fun x =>
      { x with
        staleTimer := Timer.run x.staleTimer, quietTimer := Timer.run x.quietTimer, receipt := x.receipt.run }) s.tanks
    pumps := vmap (fun p =>
      { p with startTimer := Timer.run p.startTimer, runOnTimer := Timer.run p.runOnTimer }) s.pumps
    link := { s.link with linkTimer := Timer.run s.link.linkTimer } }

/-- The backup counter counts seconds, wrapping, and keeps its flag (R175). -/
def countSecond (c : SiteClock) : SiteClock := { c with count := (c.count + 1) % Config.clockModulus }

/-- A second passes. -/
def secondPasses (s : State) : State :=
  whenRunning (s.setClock (countSecond s.clock)) runTimers

end Sys2Proof.Machine
end

