-- ==== Sys2Proof/Machine/Measure.lean ====
section
/-! DEFINITION. Chapter 2, the measurement engine: the seven stages of a sample, the start of a delivery's
measurement, pulses, temperature and the final partial sample, as functions of one engine. -/

namespace Sys2Proof.Machine

open Sys2Proof

/-- Division rounded half away from zero, as R47 rounds. -/
def roundHalfAway (a : Int) (b : Nat) : Int :=
  let q := (a.natAbs + b / 2) / b
  if a < 0 then -(q : Int) else q

/-- A temperature clamped to −20.00 to 70.00 °C (R35, R46, R77). -/
def clampTemperature (t : Int) : Int := clampInt Config.minTemperature Config.maxTemperature t

/-- Stage 1, flow rate in dL/min (R41). -/
def flowRate (dP k : Nat) : Nat := min Config.count16 (dP * 2400 / k)

/-- Linear interpolation between two points, the quotient truncated toward zero (R42, R76). `scale` multiplies the
ordinates, so that a table in litres gives millilitres. -/
def interpolate (scale x1 y1 x2 y2 x : Nat) : Nat :=
  ((y1 * scale : Nat) + Int.tdiv (((y2 : Int) - y1) * scale * ((x : Int) - x1)) ((x2 : Int) - x1)).toNat

/-- A piecewise linear table: clamped to its end points, interpolated between (R42, R76). -/
def tableAt (scale : Nat) (points : List (Nat × Nat)) (x : Nat) : Nat :=
  match points with
  | [] => 0
  | [(_, y)] => y * scale
  | (x1, y1) :: (x2, y2) :: rest =>
    if x ≤ x1 then y1 * scale
    else if x < x2 then interpolate scale x1 y1 x2 y2 x
    else tableAt scale ((x2, y2) :: rest) x

/-- Stage 2, meter factor (R42). -/
def meterFactor (c : Curve) (q : Nat) : Nat := tableAt 1 c q

/-- Stage 4, temperature used: the held temperature clamped, or the reference (R46). -/
def temperatureUsed (e : Engine) : Int :=
  match e.held, e.latest with
  | true, some t => clampTemperature t
  | _, _ => Config.referenceTemperature

/-- Stage 5, volume correction factor in parts per 1,000,000 (R47). -/
def vcf (beta : Nat) (t : Int) : Nat :=
  (clampInt 950000 1050000 (1000000 - roundHalfAway (beta * (t - Config.referenceTemperature)) 100)).toNat

/-- Stages 2 to 7 with `dP` pulses at flow rate `q` (R42, R43, R46 to R49). -/
def sampleStages (l : Latched) (q dP : Nat) (e : Engine) : Engine :=
  let mf := meterFactor l.curve q
  let n := dP * 1000 * mf + e.rg
  let dVg := n / (l.k * 100000)
  let t := temperatureUsed e
  let m := dVg * vcf l.beta t + e.rn
  { e with
    rg := n % (l.k * 100000)
    gross := satAdd Config.volumeLimit e.gross dVg
    rn := m % 1000000
    net := satAdd Config.volumeLimit e.net (m / 1000000)
    sum := e.sum + dVg * t
    uncompensated := e.uncompensated || !e.held }

/-- A full sample: the count is taken and cleared and the seven stages run (R40, R41). An engine that has latched no
calibration has none to measure with and keeps its values. -/
def fullSample (e : Engine) : Engine :=
  match e.latched with
  | none => e
  | some l =>
    let q := flowRate e.dP l.k
    sampleStages l q e.dP { e with dP := 0, lastQ := q, overspeed := e.overspeed || decide (l.maxRate < q) }

/-- The final partial sample: the timer stops and stages 2 to 7 run at the last flow rate (R50). -/
def partialSample (e : Engine) : Engine :=
  let e' := { e with sampleTimer := false, dP := 0 }
  match e.latched with
  | none => e'
  | some l => sampleStages l e.lastQ e.dP e'

/-- Average temperature of a delivery (R51). -/
def averageTemperature (gross : Nat) (sum t0 : Int) : Int := if gross = 0 then t0 else Int.tdiv sum gross

/-- The end of the measurement: final partial sample, average, residues discarded (R50, R51, R52). -/
def finishMeasurement (e : Engine) : Engine :=
  let e := partialSample e
  { e with average := some (averageTemperature e.gross e.sum e.t0), rg := 0, rn := 0 }

/-- The start of a delivery's measurement (R35). -/
def startMeasurement (l : Latched) (e : Engine) : Engine :=
  { e with
    dP := 0, rg := 0, rn := 0, gross := 0, net := 0, sum := 0, errors := 0, faultReported := false, lastQ := 0
    overspeed := false, uncompensated := false, average := none
    latched := some l
    t0 := temperatureUsed e
    sampleTimer := true }

/-- A valid temperature sample, or an invalid one (R44). -/
def takeTemperature (reading : Option Int) (e : Engine) : Engine :=
  match reading with
  | some t => { e with latest := some t, held := true, holdTimer := some Config.holdTime }
  | none => e

/-- The hold lapses (R45). -/
def lapseHold (e : Engine) : Engine :=
  match e.holdTimer with
  | some _ => { e with held := false, holdTimer := none }
  | none => e

/-- The totalizers advance, wrapping (R54). -/
def advanceTotals (e : Engine) : Engine :=
  { e with
    grossTotal := (e.grossTotal + e.gross) % Config.totalizerModulus
    netTotal := (e.netTotal + e.net) % Config.totalizerModulus }

/-- The measurement a snapshot holds (R178). -/
def Engine.snap (e : Engine) : SnapMeasure :=
  { gross := e.gross, net := e.net, sum := e.sum, t0 := e.t0, errors := e.errors, overspeed := e.overspeed,
    uncompensated := e.uncompensated }

/-- An engine that takes a snapshot's measurement at restart (R56). The average is computed from it also for a snapshot
taken in SETTLED (assumption 41). -/
def Engine.restore (m : SnapMeasure) (e : Engine) : Engine :=
  { e with
    gross := m.gross, net := m.net, sum := m.sum, t0 := m.t0, errors := m.errors, overspeed := m.overspeed
    uncompensated := m.uncompensated, average := some (averageTemperature m.gross m.sum m.t0)
    sampleTimer := false, dP := 0, rg := 0, rn := 0, lastQ := 0 }

end Sys2Proof.Machine
end

