-- ==== Sys2Proof/Machine/Pumps.lean ====
section
/-! DEFINITION. Chapter 5, the pump controller and the start arbiter: the start slot, the fall of demand, and the
transitions of one pump. What the hoses do with a pump's reports stands in Flow.lean. -/

namespace Sys2Proof.Machine

open Sys2Proof

/-- The pumps in the arbiter's waiting set (R102). The set has no order; the list that PUMP_QUERY answers is ascending
(assumption 48). -/
def waitingPumps (s : State) : List TankId := allTanks.filter fun t => decide ((s.pump t).state = .waiting)

/-- The better of two waiting pumps: best priority, then lower tank number (R102). -/
def betterPump (s : State) (a b : TankId) : TankId :=
  if (s.pump b).config.priority < (s.pump a).config.priority then b else a

/-- The pump the arbiter chooses (R102). -/
def chosenPump (s : State) : Option TankId :=
  match waitingPumps s with
  | [] => none
  | t :: rest => some (rest.foldl (betterPump s) t)

/-- The slot is granted to a pump, which enters STARTING (R102). -/
def grantSlot (t : TankId) (s : State) : State :=
  let p := s.pump t
  (s.setSlot (some t)).setPump t
    { p with state := .starting, starter := true, startTimer := some p.config.startTimeout }

/-- A pump enters WAITING and requests the start slot (R100, R102). -/
def requestSlot (t : TankId) (s : State) : State :=
  let s := s.setPump t { s.pump t with state := .waiting, starter := false }
  match s.slotHolder with
  | none => grantSlot t s
  | some _ => s

/-- The holder gives up the slot, which goes to the chosen waiting pump (R102). -/
def freeSlot (s : State) : State :=
  let s := s.setSlot none
  match chosenPump s with
  | some t => grantSlot t s
  | none => s

/-- A pump that runs without demand: RUN_ON, or STOPPED at once with a run-on time of 0 (R101, R103). -/
def runOnOrStop (p : Pump) : Pump :=
  if p.config.runOn = 0 then
    { p with state := .stopped, starter := false, startTimer := none, runOnTimer := none }
  else { p with state := .runOn, starter := true, startTimer := none, runOnTimer := some p.config.runOn }

/-- A pump enters FAULT (R103, R104). -/
def faultPump (c : PumpCause) (p : Pump) : Pump :=
  { p with state := .fault, starter := false, startTimer := none, runOnTimer := none, lastFault := some c }

/-- What a pump does when its demand falls to 0 (R101). -/
def demandFallen (p : Pump) : Pump :=
  match p.state with
  | .running => runOnOrStop p
  | .waiting => { p with state := .stopped, starter := false }
  | .starting | .stopped | .runOn | .fault => p

/-- A hose drops its demand at its tank's pump (R27, R99, R101). -/
def lowerDemand (t : TankId) (s : State) : State :=
  let p := s.pump t
  let p' := { p with demand := p.demand - 1 }
  s.setPump t (if p.demand = 1 then demandFallen p' else p')

/-- Every pump stops at the emergency stop (R106): its starter switches off and its timers stop. -/
def stopPump (p : Pump) : Pump :=
  { p with state := .stopped, starter := false, startTimer := none, runOnTimer := none }

/-- The pump controller takes the emergency stop (R106). -/
def stopPumps (s : State) : State := (s.setPumps (vmap stopPump s.pumps)).setSlot none

end Sys2Proof.Machine
end

