-- ==== Sys2Proof/Machine/Flow.lean ====
section
/-! DEFINITION. Chapter 1, the transitions of the hose controller that other blocks cause or share: release of a
grant, entry to FLOWING and to CLOSING, return to IDLE; and the reports of a pump to the hoses of its tank
(Chapter 5). -/

namespace Sys2Proof.Machine

open Sys2Proof

/-- The grant colour of a service status (R4). -/
def grantColour : ServiceStatus → Lamp
  | .due | .overdue => .amber
  | .ok | .dueSoon => .green

/-- A hose that enters IDLE: grant cleared, timers stopped, valve CLOSED, lamp OFF (R2, R15, R29). -/
def Hose.toIdle (x : Hose) : Hose :=
  { x with state := .idle, grant := none, timers := .stopped, valve := .closed, lamp := .off }

/-- The vehicle register clears a vehicle's binding (R114). -/
def clearBinding (v : VehicleId) (s : State) : State := s.setVehicle v { s.vehicle v with binding := none }

/-- The tank account takes a reservation off the reserved volume (R73). -/
def takeOffReserved (t : TankId) (volume : Nat) (s : State) : State :=
  s.setTank t { s.tank t with reserved := (s.tank t).reserved - volume }

/-- A grant is released from READY, with the detail of its cause (R15). -/
def releaseGrant (h : HoseId) (d : Detail) (s : State) : State :=
  match (s.hose h).grant with
  | none => s
  | some g =>
    let s := takeOffReserved g.tank g.tankRes s
    let s := if g.journalRes then endReservation s else s
    let s := clearBinding g.vehicle s
    let s := s.setHose h (s.hose h).toIdle
    raise (.hoseState h) d s

/-- Withdrawal of a READY grant (R16). -/
def withdrawIfReady (h : HoseId) (s : State) : State :=
  if (s.hose h).state = .ready then releaseGrant h .withdrawn s else s

/-- Entry to FLOWING: the valve opens FULL and the no-flow timer starts (R20, R22). -/
def enterFlowing (h : HoseId) (s : State) : State :=
  let x := s.hose h
  let s := s.setHose h
    { x with state := .flowing, valve := .full, timers := { x.timers with noFlow := some x.config.noFlowTimeout } }
  raise (.hoseState h) (.entered .flowing) s

/-- Entry to CLOSING, from any state and for any cause (R27). -/
def enterClosing (h : HoseId) (r : EndReason) (s : State) : State :=
  let x := s.hose h
  let s := s.setHose h
    { x with
      state := .closing, valve := .closed, lamp := .off
      grant := x.grant.map fun g => { g with endReason := some r }
      timers := { HoseTimers.stopped with
        settle := some x.config.settleTime, closing := some Config.closingLimit } }
  let s := lowerDemand x.config.tank s
  let s := raise (.hoseState h) (.entered .closing) s
  match r with
  | .pumpFail => raise (.hoseFault h) .pumpFail s
  | .measureFault => raise (.hoseFault h) .measureFault s
  | .presetReached | .nozzleHung | .hostStop | .estop | .noFlow | .pauseTimeout | .powerLoss | .reset => s

/-- A hose in one of the states given closes with an end reason; in any other it is passed by. -/
def closeIf (p : HoseState → Bool) (r : EndReason) (h : HoseId) (s : State) : State :=
  if p (s.hose h).state then enterClosing h r s else s

/-- States in which a pump's pressure-lost report reaches a hose (R104). -/
def HoseState.hearsLoss : HoseState → Bool
  | .flowing | .trimming | .paused => true
  | .idle | .ready | .starting | .closing | .settled => false

/-- States in which the no-flow timer runs (R22). -/
def HoseState.flows : HoseState → Bool
  | .flowing | .trimming => true
  | .idle | .ready | .starting | .paused | .closing | .settled => false

/-- The pump reports RUNNING: each hose of its tank in STARTING enters FLOWING (R20, R103), in ascending hose order
(assumption 40). -/
def reportRunning (t : TankId) (s : State) : State :=
  forAll (s.hosesOn t) (fun h s => if (s.hose h).state = .starting then enterFlowing h s else s) s

/-- The pump reports a start failure: each hose of its tank in STARTING closes (R20, R103), in ascending hose order
(assumption 40). -/
def reportStartFailure (t : TankId) (s : State) : State :=
  forAll (s.hosesOn t) (closeIf (fun st => decide (st = .starting)) .pumpFail) s

/-- The pump reports lost pressure to the hoses of its tank (R104), in ascending hose order (assumption 40). -/
def reportPressureLost (t : TankId) (s : State) : State :=
  forAll (s.hosesOn t) (closeIf HoseState.hearsLoss .pumpFail) s

/-- A hose raises demand at its tank's pump, and the pump answers from its own state (R19, R99, R100). -/
def raiseDemand (h : HoseId) (s : State) : State :=
  let t := (s.hose h).config.tank
  let p := s.pump t
  let s := s.setPump t { p with demand := p.demand + 1 }
  match p.state with
  | .stopped => if p.demand = 0 && !s.link.estop then requestSlot t s else s
  | .waiting | .starting => s
  | .running => enterFlowing h s
  | .runOn => reportRunning t (s.setPump t { s.pump t with state := .running, starter := true, runOnTimer := none })
  | .fault => enterClosing h .pumpFail s

/-- The calibration a hose latches at its lift: its record, and β of the product of its tank (R35). -/
def latchFor (h : HoseId) (s : State) : Latched :=
  let c := (s.cal h).data
  let p := (s.tank (s.hose h).config.tank).config.product
  { k := c.k, curve := c.curve, errorLimit := c.errorLimit, maxRate := c.maxRate, beta := (s.product p).data.beta }

/-- The count of hoses of a tank in the counted states is about to rise: from 0 the tank becomes ACTIVE (R79). -/
def becomeActive (t : TankId) (s : State) : State :=
  if s.countedOn t = 0 then s.setTank t { s.tank t with quiet := false, quietTimer := none } else s

/-- Entry to STARTING begins the delivery (R19, R35, R79). -/
def enterStarting (h : HoseId) (s : State) : State :=
  let s := becomeActive (s.hose h).config.tank s
  let x := s.hose h
  let now := recordedTime s
  let s := s.setHose h
    { x with
      state := .starting, valve := .closed, timers := { x.timers with ready := none }
      grant := x.grant.map fun g => { g with start := some now } }
  let s := s.setEngine h (startMeasurement (latchFor h s) (s.engine h))
  let s := raise (.hoseState h) (.entered .starting) s
  raiseDemand h s

end Sys2Proof.Machine
end

