-- ==== Sys2Proof/Machine/Operands.lean ====
section
/-! DEFINITION. The operands of the requests: how a field of a request's body (R202) becomes a value of the part, and
the ranges the rules give. A value outside its range reads as `none`, and the request is refused with RANGE. -/

namespace Sys2Proof.Machine

open Sys2Proof

/-! ### What a block answers -/

/-- What a block does with a request it is passed: answer it at its taking, or hold the link (R191, R194). -/
inductive Answer where
  | reply (status : StatusCode) (body : ReplyBody)
  | hold (wait : HeldWait)
  deriving DecidableEq, Repr

/-- A refusal that carries nothing further and changes nothing (R193). -/
def refuse (c : StatusCode) (s : State) : State × Answer := (s, .reply c .none)

/-- The first check of a list that fails gives the refusal. -/
def firstFail (checks : List (Bool × StatusCode)) : Option StatusCode :=
  match checks with
  | [] => none
  | (true, _) :: rest => firstFail rest
  | (false, c) :: _ => some c

/-! ### Numbers of objects -/

/-- A number below a bound. -/
def finOf (n x : Nat) : Option (Fin n) := if h : x < n then some ⟨x, h⟩ else none

/-- A hose number is 0 to 7. -/
def hoseOf (b : Byte) : Option HoseId := finOf 8 b.toNat
/-- A tank number is 0 to 3. -/
def tankOf (b : Byte) : Option TankId := finOf 4 b.toNat
/-- A vehicle index is 0 to 511. -/
def vehicleOf (w : BitVec 16) : Option VehicleId := finOf 512 w.toNat
/-- A class number is 0 to 31. -/
def classOf (b : Byte) : Option ClassId := finOf 32 b.toNat
/-- A product code is 1 to 4. -/
def productOf (b : Byte) : Option ProductId := if b.toNat = 0 then none else finOf 4 (b.toNat - 1)
/-- A line number is 1 to 4. -/
def lineOf (b : Byte) : Option LineId := if b.toNat = 0 then none else finOf 4 (b.toNat - 1)

/-- lo ≤ x ≤ hi. -/
def inRange (lo hi x : Nat) : Bool := decide (lo ≤ x) && decide (x ≤ hi)

/-- A name or fleet number holds printable characters 0x20 to 0x7E (R202). -/
def printable (n : Name) : Bool := n.toList.all fun b => inRange 0x20 0x7E b.toNat

/-- A flags byte sets no bit above those given (R202). -/
def onlyBits (mask b : Byte) : Bool := decide (b &&& ~~~mask = 0)

/-- An optional field present when its presence flag is set (R202). -/
def optional (present : Bool) (x : Nat) : Option Nat := if present then some x else none

/-! ### Records carried by requests -/

/-- Litres to millilitres (00_scope.md, "Quantities and units"). -/
def litres (n : Nat) : Nat := n * 1000

/-- A hose configuration within the ranges of R1. -/
def hoseConfigOf (w : WireHoseConfig) : Option HoseConfig :=
  match tankOf w.tank with
  | none => none
  | some t =>
    if inRange 0 5000 w.prestop.toNat && inRange 0 500 w.slowVolume.toNat && inRange 10 600 w.readyTimeout.toNat
        && inRange 10 300 w.noFlowTimeout.toNat && inRange 30 1800 w.pauseTimeout.toNat
        && inRange 1 10 w.settleTime.toNat then
      some { tank := t, prestop := w.prestop.toNat, slowVolume := litres w.slowVolume.toNat,
             readyTimeout := w.readyTimeout.toNat, noFlowTimeout := w.noFlowTimeout.toNat,
             pauseTimeout := w.pauseTimeout.toNat, settleTime := w.settleTime.toNat }
    else none

/-- Is each value above the one before it? -/
def rising : List Nat → Bool
  | a :: b :: rest => decide (a < b) && rising (b :: rest)
  | _ => true

/-- Is no value below the one before it? -/
def notFalling : List Nat → Bool
  | a :: b :: rest => decide (a ≤ b) && notFalling (b :: rest)
  | _ => true

/-- A curve within the ranges of R57 (R61 check 4). -/
def curveOf (count : Nat) (points : List WireCurvePoint) : Option Curve :=
  let c : Curve := (points.take count).map fun p => (p.rate.toNat, p.factor.toNat)
  if inRange 2 5 count && rising (c.map (·.1)) && c.all (fun p => inRange 90000 110000 p.2) then some c else none

/-- A calibration record within the ranges of R57, with a count (R61 check 4, R62). -/
def calDataOf (count : Nat) (w : WireCalibration) : Option CalData :=
  match curveOf w.count.toNat w.points.toList with
  | none => none
  | some c =>
    if inRange 10 2000 w.k.toNat && inRange 1 255 w.errorLimit.toNat && inRange 100 65535 w.maxRate.toNat then
      some { k := w.k.toNat, curve := c, errorLimit := w.errorLimit.toNat, maxRate := w.maxRate.toNat, count := count }
    else none

/-- A tank configuration within the ranges of R70 (R91 check 1). -/
def tankConfigOf (w : WireTankConfig) : Option TankConfig :=
  match productOf w.product with
  | none => none
  | some p =>
    if inRange 1000 2000000 w.capacity.toNat && decide (w.heel.toNat < w.capacity.toNat)
        && decide (w.lowAlarm.toNat ≤ w.capacity.toNat) && inRange 60 3600 w.receiptSettle.toNat then
      some { product := p, capacity := litres w.capacity.toNat, heel := litres w.heel.toNat,
             lowAlarm := litres w.lowAlarm.toNat, receiptSettle := w.receiptSettle.toNat }
    else none

/-- Volume of the last point of a strapping table, mL. -/
def lastVolume (p : Strap) : Nat := match p.getLast? with | some x => litres x.2 | none => 0

/-- A strapping table within the limits of R92, for a tank of a capacity. -/
def strapOf (capacity count : Nat) (points : List WireStrapPoint) : Option Strap :=
  let p : Strap := points.map fun x => (x.level.toNat, x.volume.toNat)
  if inRange 2 32 count && decide (points.length = count) && p.all (fun x => decide (x.1 ≤ 99999))
      && rising (p.map (·.1)) && notFalling (p.map (·.2)) && decide (lastVolume p ≤ capacity) then some p
  else none

/-- A pump configuration within the ranges of R96. -/
def pumpConfigOf (w : WirePumpConfig) : Option PumpConfig :=
  if inRange 0 120 w.runOn.toNat && inRange 2 60 w.startTimeout.toNat && inRange 0 3 w.priority.toNat then
    some { runOn := w.runOn.toNat, startTimeout := w.startTimeout.toNat, priority := w.priority.toNat }
  else none

/-- A host part that meets the conditions of check 1 of R118. One with in-use no is a removal, and its other bytes are
not read. -/
def hostPartOf (w : WireHostPart) : Option HostPart :=
  if w.flags.getLsbD 0 then
    match classOf w.cls with
    | none => none
    | some c =>
      if onlyBits 0x0F#8 w.products && onlyBits 0x0F#8 w.flags && printable w.fleet then
        some { inUse := true, tag := w.tag, fleet := w.fleet, cls := c, products := w.products.setWidth 4,
               enabled := w.flags.getLsbD 1, hostLocked := w.flags.getLsbD 2, standalonePermit := w.flags.getLsbD 3 }
      else none
  else some HostPart.unused

/-- An overdue action: LIMIT 0, REFUSE 1 (assumption 5). -/
def overdueActionOf (b : Byte) : Option OverdueAction :=
  if b = 0#8 then some .limit else if b = 1#8 then some .refuse else none

/-- A schedule line within the ranges of R111. -/
def lineOfWire (w : WireLine) : ScheduleLine := { hour := w.hour.toNat, fuel := w.fuel.toNat }

/-- A class record within the ranges of R111 (R139). -/
def classRecordOf (w : WireClass) : Option ClassRecord :=
  match overdueActionOf w.overdueAction with
  | none => none
  | some a =>
    if printable w.name && inRange 0 9999 w.defaultPreset.toNat && inRange 0 2000 w.burnRate.toNat
        && inRange 1 999 w.warn.toNat && inRange 0 1000 w.grace.toNat && inRange 0 9999 w.limp.toNat
        && w.lines.toList.all (fun l => inRange 0 4000000 l.fuel.toNat) then
      some { name := w.name, defaultPreset := w.defaultPreset.toNat, burnRate := w.burnRate.toNat, warn := w.warn.toNat,
             grace := w.grace.toNat, overdueAction := a, limp := w.limp.toNat, lines := vmap lineOfWire w.lines }
    else none

end Sys2Proof.Machine
end

