-- ==== Sys2Proof/Machine/Calibration.lean ====
section
/-! DEFINITION. Chapter 3, the calibration store and the inspection state: protection, the metrology switch, and the
requests on calibration records and on the product table. -/

namespace Sys2Proof.Machine

open Sys2Proof

/-! ### The metrology switch (R59, R67) -/

/-- A calibration record becomes PROTECTED (R59). -/
def protect (c : Calibration) : Calibration := { c with opened := false }

/-- The closing of the switch (R67). -/
def takeSwitchClose (s : State) : State :=
  raise .mode .inspection (s.setLink { s.link with inspection := true })

/-- The opening of the switch (R59, R67). -/
def takeSwitchOpen (s : State) : State :=
  raise .mode .sealed ((s.setCals (vmap protect s.cals)).setLink { s.link with inspection := false })

/-! ### Requests (R60, R61, R62, R65, R66) -/

/-- CAL_OPEN (R60). -/
def takeCalOpen (hose : Byte) (s : State) : State × Answer :=
  match hoseOf hose with
  | none => refuse .range s
  | some h =>
    if s.inputs.switchClosed then (s.setCal h { s.cal h with opened := true }, .reply .ok .none)
    else refuse .switchOpen s

/-- CAL_CLOSE (R60). -/
def takeCalClose (hose : Byte) (s : State) : State × Answer :=
  match hoseOf hose with
  | none => refuse .range s
  | some h => (s.setCal h (protect (s.cal h)), .reply .ok .none)

/-- First factor of a curve (R62). -/
def firstFactor (c : Curve) : Nat := match c with | [] => 0 | p :: _ => p.2

/-- The CALIBRATION record of an accepted CAL_WRITE (R62). -/
def calRecord (h : HoseId) (old new : CalData) : CalibrationRecord :=
  .hose h old.k new.k new.curve.length (firstFactor old.curve) (firstFactor new.curve) new.count

/-- An accepted CAL_WRITE (R62). -/
def acceptCal (h : HoseId) (d : CalData) (s : State) : State :=
  let c := s.cal h
  let s := s.setCal h { c with data := d, pending := true }
  joinQueue (.calibration (calRecord h c.data d)) (takeReservation s)

/-- CAL_WRITE (R61, R62). -/
def takeCalWrite (hose : Byte) (w : WireCalibration) (s : State) : State × Answer :=
  match hoseOf hose with
  | none => refuse .range s
  | some h =>
    let c := s.cal h
    if !c.opened then refuse .protected_ s
    else if !(decide ((s.hose h).state = .idle) && !c.pending) then refuse .state s
    else
      match calDataOf (c.data.count + 1) w with
      | none => refuse .range s
      | some d =>
        if Config.count16 ≤ c.data.count then refuse .range s
        else if !s.journal.requestTest then refuse .journalFull s
        else (acceptCal h d s, .hold (.calWrite h none))

/-- CAL_READ (R66). -/
def takeCalRead (hose : Byte) (s : State) : State × Answer :=
  match hoseOf hose with
  | none => refuse .range s
  | some h =>
    let c := s.cal h
    let p := (s.tank (s.hose h).config.tank).config.product
    (s, .reply .ok (.cal
      { data := c.data, opened := c.opened, pending := c.pending, product := p, productData := (s.product p).data,
        switchClosed := s.inputs.switchClosed }))

/-- Is every hose whose tank names a product IDLE? (R65 check 3) -/
def productIdle (p : ProductId) (s : State) : Bool :=
  allHoses.all fun h =>
    decide ((s.tank (s.hose h).config.tank).config.product ≠ p) || decide ((s.hose h).state = .idle)

/-- An accepted PRODUCT_SET (R65). -/
def acceptProduct (p : ProductId) (d : ProductData) (s : State) : State :=
  let old := (s.product p).data
  let s := s.setProduct p { data := d, pending := true }
  joinQueue (.calibration (.product p old.beta d.beta d.name)) (takeReservation s)

/-- PRODUCT_SET (R65). -/
def takeProductSet (code : Byte) (name : Name) (beta : BitVec 16) (s : State) : State × Answer :=
  match productOf code with
  | none => refuse .range s
  | some p =>
    match firstFail
        [ (inRange 0 2000 beta.toNat && printable name, .range),
          (s.inputs.switchClosed, .switchOpen),
          (productIdle p s && !(s.product p).pending, .state),
          (s.journal.requestTest, .journalFull) ] with
    | some c => refuse c s
    | none => (acceptProduct p { name := name, beta := beta.toNat } s, .hold (.productSet p none))

/-- PRODUCT_READ (R66). -/
def takeProductRead (code : Byte) (s : State) : State × Answer :=
  match productOf code with
  | none => refuse .range s
  | some p => (s, .reply .ok (.product (s.product p).data (s.product p).pending))

end Sys2Proof.Machine
end

