-- ==== Sys2Proof/Machine/Flags.lean ====
section
/-! DEFINITION. The coded bytes of Chapter 11: status codes, end reasons, service statuses, and the flag words of the
DELIVERY record and of the vehicle record, bit by bit. -/

namespace Sys2Proof.Machine

open Sys2Proof

/-- Numeric value of a status code (11.2). -/
def StatusCode.value : StatusCode → Nat
  | .ok => 0x00 | .unknownKind => 0x01 | .badLength => 0x02 | .range => 0x03 | .state => 0x04 | .noVehicle => 0x05
  | .vehicleDisabled => 0x06 | .vehicleLocked => 0x07 | .busyVehicle => 0x08 | .bound => 0x09 | .dupTag => 0x0A
  | .product => 0x0B | .noStock => 0x0C | .tankReceiving => 0x0D | .pumpFault => 0x0E | .serviceOverdue => 0x0F
  | .standaloneDeny => 0x10 | .journalFull => 0x11 | .estop => 0x12 | .revision => 0x13 | .protected_ => 0x14
  | .switchOpen => 0x15 | .held => 0x16 | .timeBack => 0x17 | .loadEnded => 0x18 | .probe => 0x19

/-- Numeric value of an end reason (11.2). -/
def EndReason.value : EndReason → Nat
  | .presetReached => 1 | .nozzleHung => 2 | .hostStop => 3 | .estop => 4 | .pumpFail => 5 | .noFlow => 6
  | .pauseTimeout => 7 | .measureFault => 8 | .powerLoss => 9 | .reset => 10

/-- Numeric value of a service status (11.2). -/
def ServiceStatus.value : ServiceStatus → Nat
  | .ok => 0 | .dueSoon => 1 | .due => 2 | .overdue => 3

/-- Numeric value of a record kind (11.2). -/
def Record.kind : Record → Nat
  | .delivery _ => 1 | .receipt _ => 2 | .calibration _ => 3 | .service _ => 4 | .adjust _ => 5 | .interruption _ => 6

/-- The number whose bit n is the n-th Boolean of a list. -/
def bitsToNat : List Bool → Nat
  | [] => 0
  | b :: rest => b.toNat + 2 * bitsToNat rest

/-- Flags of the DELIVERY slot, bits 0 to 11 (11.3). -/
def DeliveryRecord.flagWord (d : DeliveryRecord) : Nat :=
  bitsToNat
    [d.overspeed, d.uncompensated, d.regress, d.grantFlags.standalone, d.grantFlags.supervisor, d.grantFlags.capped,
      d.grantFlags.stockLimited, d.overrunLong, d.hours.isSome, d.start.valid, d.finish.valid, decide (d.path = .host)]

/-- Host flags of a vehicle record (11.4). -/
def HostPart.flagByte (h : HostPart) : Nat := bitsToNat [h.inUse, h.enabled, h.hostLocked, h.standalonePermit]

/-- Usage flags of a vehicle record (11.4). -/
def Vehicle.usageFlags (r : Vehicle) : Nat :=
  bitsToNat
    [r.usage.hours.isSome, r.usage.meter, r.usage.regress, false, (r.marks.get 0).hours.isSome,
      (r.marks.get 1).hours.isSome, (r.marks.get 2).hours.isSome, (r.marks.get 3).hours.isSome]

end Sys2Proof.Machine
end

