-- ==== Sys2Proof/Machine/Formats.lean ====
section
/-! DEFINITION. Chapter 11 and R189: byte order, the CRC, the images of the journal slots and of the vehicle record, the
bytes of the replies, and the bodies of the requests, read and written by the encodings of R202. -/

namespace Sys2Proof.Machine

open Sys2Proof

/-! ### Bytes and the CRC -/

/-- A quantity in n bytes, high byte first (R202). -/
def beBytes (n x : Nat) : List Byte :=
  match n with
  | 0 => []
  | n + 1 => BitVec.ofNat 8 (x / 256 ^ n) :: beBytes n x

/-- A signed quantity in n bytes, two's complement, high byte first (R202). -/
def beBytesInt (n : Nat) (x : Int) : List Byte := beBytes n (x % (256 ^ n : Nat)).toNat

/-- One bit step of the CRC with polynomial x^16 + x^12 + x^5 + 1, most significant bit first (R189). -/
def crcStep (c : BitVec 16) : BitVec 16 := if c.getLsbD 15 then (c <<< 1) ^^^ 0x1021#16 else c <<< 1

/-- One byte of the CRC (R189). -/
def crcByte (c : BitVec 16) (b : Byte) : BitVec 16 :=
  let c := c ^^^ (b.setWidth 16 <<< 8)
  crcStep (crcStep (crcStep (crcStep (crcStep (crcStep (crcStep (crcStep c)))))))

/-- The CRC of a sequence of bytes, from 0xFFFF, without final inversion (R189). -/
def crc16 (bs : List Byte) : BitVec 16 := bs.foldl crcByte 0xFFFF#16

/-! ### Images of records -/

/-- The common part of a slot, bytes 0 to 9 (R203). -/
def commonPart (r : JRecord) : List Byte :=
  beBytes 1 r.record.kind ++ beBytes 4 r.stamp.seq ++ beBytes 4 r.stamp.time ++ beBytes 1 r.stamp.valid.toNat

/-- Bytes 10 to 61 of a DELIVERY slot (11.3). -/
def deliveryFields (d : DeliveryRecord) : List Byte :=
  beBytes 1 d.hose.val ++ beBytes 1 d.tank.val ++ beBytes 1 (d.product.val + 1) ++ beBytes 2 d.vehicle.val
    ++ beBytes 8 d.tag.toNat ++ beBytes 4 (d.hours.getD 0) ++ beBytes 4 d.preset ++ beBytes 4 d.gross ++ beBytes 4 d.net
    ++ beBytesInt 2 d.average ++ beBytes 1 d.endReason.value ++ beBytes 2 d.flagWord ++ beBytes 1 d.statusAtGrant.value
    ++ beBytes 4 d.start.time ++ beBytes 4 d.finish.time ++ beBytes 5 d.grossTotalizer ++ beBytes 4 0

/-- A quantity in the width that the manual leaves open (assumption 8). -/
def sized (q : Config.Quantity) (x : Nat) : List Byte := beBytes (Config.quantityWidth q) x

/-- A signed quantity in the width that the manual leaves open (assumption 8). -/
def sizedInt (q : Config.Quantity) (x : Int) : List Byte := beBytesInt (Config.quantityWidth q) x

/-- The fields of a record as bytes 10 to 61 of its slot, the unused bytes zero (R203). -/
def slotFields (fields : List Byte) : List Byte := (fields ++ List.replicate 52 0x00#8).take 52

/-- Bytes 10 to 61 of a RECEIPT slot: the fields of R87 in their order (R203; widths and flags: assumption 8). -/
def receiptFields (r : ReceiptRecord) : List Byte :=
  slotFields
    (beBytes 1 r.tank.val ++ beBytes 1 (r.product.val + 1) ++ sized .probeVolume r.openingNet
      ++ beBytes 4 r.openingTime.time ++ sized .probeVolume (r.closingNet.getD 0)
      ++ sizedInt .deliveredVolume (r.delivered.getD 0) ++ sized .docketVolume (r.docket.getD 0)
      ++ sizedInt .receiptVolume r.volume ++ sizedInt .receiptDifference (r.difference.getD 0) ++ beBytesInt 6 r.book
      ++ Config.recordFlagBytes 2
          [r.probeFail, r.unmeasured, r.openingTime.valid, r.closingNet.isSome, r.delivered.isSome, r.docket.isSome,
            r.difference.isSome])

/-- Bytes 10 to 61 of a CALIBRATION slot: the fields of R62 in their order, or those of R65 with 255 in the hose field
and the empty fields zero (R203; the width of the count: assumption 8). -/
def calibrationFields (c : CalibrationRecord) : List Byte :=
  slotFields
    (match c with
    | .hose h oldK newK points oldMF1 newMF1 newCount =>
      beBytes 1 h.val ++ beBytes 2 oldK ++ beBytes 2 newK ++ beBytes 1 points ++ beBytes 4 oldMF1 ++ beBytes 4 newMF1
        ++ sized .calibrationCount newCount
    | .product p oldBeta newBeta name =>
      beBytes 1 255 ++ beBytes 1 (p.val + 1) ++ beBytes 2 oldBeta ++ beBytes 2 newBeta ++ name.toList)

/-- Bytes 10 to 61 of a SERVICE slot: the fields of R148 in their order (R203; widths and flags: assumption 8). Where the
class has no used line, and so the vehicle no worst line, line 0 and per-mille 0 stand there (assumption 51). -/
def serviceFields (r : ServiceRecord) : List Byte :=
  slotFields
    (beBytes 2 r.vehicle.val ++ beBytes 8 r.tag.toNat ++ r.fleet.toList ++ beBytes 1 (r.line.val + 1)
      ++ beBytes 4 (r.hours.getD 0) ++ beBytes 4 (r.markHours.getD 0) ++ beBytes 6 r.fuel
      ++ beBytes 1 r.statusBefore.value
      ++ beBytes 1 (match r.worstBefore with | some w => w.1.val + 1 | none => 0)
      ++ sized .perMille (match r.worstBefore with | some w => w.2 | none => 0) ++ beBytes 1 r.statusAfter.value
      ++ Config.recordFlagBytes 4 [r.regress, r.hours.isSome, r.markHours.isSome]
      ++ beBytes 2 r.revision)

/-- Bytes 10 to 61 of an ADJUST slot: the fields of R89 in their order (R202, R203). -/
def adjustFields (a : AdjustRecord) : List Byte :=
  slotFields (beBytes 1 a.tank.val ++ beBytesInt 6 a.oldBook ++ beBytesInt 6 a.newBook ++ beBytes 2 a.revision)

/-- Bytes 10 to 61 of an INTERRUPTION slot: the fields of R184 in their order (R203; widths and flags: assumption 8). -/
def interruptionFields (i : InterruptionRecord) : List Byte :=
  let fields := Config.memberBytes .resetCause i.cause.ctorIdx ++ beBytes 4 i.time.time ++ sized .hoseCount i.hosesClosed
    ++ sized .deliveryCount i.deliveriesCarried ++ sized .receiptCount i.receiptsClosed
    ++ sized .carriedCount i.recordsCarried
  slotFields
    (fields.take Config.interruptionFlagPlace ++ Config.recordFlagBytes 6 [i.time.valid]
      ++ fields.drop Config.interruptionFlagPlace)

/-- Bytes 10 to 61 of a slot (R203). -/
def Record.fields (r : Record) : List Byte :=
  match r with
  | .delivery d => deliveryFields d
  | .receipt r => receiptFields r
  | .calibration c => calibrationFields c
  | .service r => serviceFields r
  | .adjust a => adjustFields a
  | .interruption i => interruptionFields i

/-- The 64 bytes of a record's slot: common part, fields, and the check word over bytes 0 to 61 (R153, R203). -/
def slotImage (r : JRecord) : List Byte :=
  let bytes := commonPart r ++ r.record.fields
  bytes ++ beBytes 2 (crc16 bytes).toNat

/-- A slot of an erased segment (R203). -/
def blankImage : List Byte := List.replicate 64 0xFF#8

/-- A slot with the void mark (R203). -/
def voidImage : List Byte := List.replicate 64 0x00#8

/-- Slot 0 of a segment with the erase mark: a void mark with the marker byte in byte 9 (R203). -/
def eraseMarkImage : List Byte := List.replicate 9 0x00#8 ++ 0x5A#8 :: List.replicate 54 0x00#8

/-- The 64 bytes of a used slot. A write cut short leaves bytes that are neither blank nor a record; they stand here as
the void mark (assumption 46). -/
def Slot.image : Slot → List Byte
  | .written r => slotImage r
  | .void => voidImage

/-- The 64 bytes of slot 0 of a segment. -/
def Segment.firstImage (x : Segment) : List Byte :=
  if x.eraseMark then eraseMarkImage
  else
    match x.slots with
    | [] => blankImage
    | slot :: _ => slot.image

/-- A service line of the vehicle record, 10 bytes (11.4). -/
def markBytes (m : Mark) : List Byte := beBytes 4 (m.hours.getD 0) ++ beBytes 6 m.fuel

/-- A binding as transferred: the hose, or 0xFF (R202, 11.4). -/
def bindingBytes (b : Option HoseId) : List Byte := beBytes 1 (match b with | some h => h.val | none => 0xFF)

/-- The 76 bytes of the vehicle record as transferred (11.4). -/
def vehicleImage (v : VehicleId) (r : Vehicle) : List Byte :=
  beBytes 2 v.val ++ beBytes 8 r.host.tag.toNat ++ r.host.fleet.toList ++ beBytes 1 r.host.cls.val
    ++ beBytes 1 r.host.products.toNat ++ beBytes 1 r.host.flagByte ++ beBytes 2 r.revision ++ beBytes 6 r.usage.fuel
    ++ beBytes 4 (r.usage.hours.getD 0) ++ beBytes 1 r.usageFlags
    ++ markBytes (r.marks.get 0) ++ markBytes (r.marks.get 1) ++ markBytes (r.marks.get 2) ++ markBytes (r.marks.get 3)
    ++ beBytes 1 r.status.value ++ bindingBytes r.binding

/-! ### Replies (R192, R202) -/

/-- The bytes of a status code, 0x00 meaning NONE (R202, 11.2). -/
def refusalBytes (c : Option StatusCode) : List Byte := beBytes 1 (match c with | some c => c.value | none => 0)

/-- The bytes of an end reason, 0x00 meaning NONE (R202, 11.2). -/
def endReasonBytes (r : Option EndReason) : List Byte := beBytes 1 (match r with | some r => r.value | none => 0)

/-- A list of varying length: a count byte, then the items (R202). -/
def listBytes (items : List (List Byte)) : List Byte := beBytes 1 items.length ++ items.flatten

/-- The fields of a reply with the flags byte that says which of its optional fields are present, at its place among
them (R202). The time-valid flag of a receipt's opening time, which the rules list in no place of its own, stands among
these flags (assumption 8). -/
def flagged (kind : Nat) (present : List Bool) (fields : List Byte) : List Byte :=
  fields.take (Config.flagsPlace kind) ++ Config.flagBytes kind present ++ fields.drop (Config.flagsPlace kind)

/-- A field of flags that a rule lists among the fields of its reply: a bit for each flag that is set, and zero when none
is (R202; width and bits: assumption 8). -/
def flagField (f : Config.FlagField) (flags : List Bool) : List Byte :=
  beBytes (Config.flagFieldWidth f)
    (flags.zipIdx.foldl (fun w x => if x.1 then w ||| 2 ^ Config.flagFieldBit f x.2 else w) 0)

/-- The grant flags in the order of R2. -/
def GrantFlags.list (f : GrantFlags) : List Bool := [f.supervisor, f.capped, f.standalone, f.stockLimited]

/-- The grant flags as a field of a reply, zero where a hose holds no grant (R202). -/
def grantFlagBytes (f : Option GrantFlags) : List Byte :=
  flagField .grantFlags (match f with | some f => f.list | none => [])

/-- HOSE_QUERY's reply (R31). -/
def HoseReply.bytes (r : HoseReply) : List Byte :=
  let live := r.live.getD (0, 0, 0)
  flagged 0x06
    [r.vehicle.isSome, r.preset.isSome, r.tankRes.isSome, r.flags.isSome, r.live.isSome, r.errors.isSome]
    (Config.memberBytes .hoseState r.state.ctorIdx ++ Config.memberBytes .valve r.valve.ctorIdx
      ++ Config.memberBytes .lamp r.lamp.ctorIdx ++ beBytes 1 r.tank.val
      ++ beBytes 2 (match r.vehicle with | some v => v.val | none => 0) ++ beBytes 4 (r.preset.getD 0)
      ++ sized .tankReservation (r.tankRes.getD 0) ++ grantFlagBytes r.flags ++ beBytes 4 live.1 ++ beBytes 4 live.2.1 ++ beBytes 2 live.2.2
      ++ sized .errorCount (r.errors.getD 0) ++ refusalBytes r.lastRefusal ++ sized .strayCount r.stray
      ++ endReasonBytes r.lastEnd)

def curveBytes (c : Curve) : List Byte := listBytes (c.map fun p => beBytes 2 p.1 ++ beBytes 4 p.2)

def productBytes (d : ProductData) : List Byte := d.name.toList ++ beBytes 2 d.beta

def CalReply.bytes (r : CalReply) : List Byte :=
  beBytes 2 r.data.k ++ curveBytes r.data.curve ++ beBytes 1 r.data.errorLimit ++ beBytes 2 r.data.maxRate
    ++ sized .calibrationCount r.data.count ++ Config.memberBytes .protection r.opened.toNat
    ++ Config.memberBytes .pending r.pending.toNat ++ beBytes 1 (r.product.val + 1) ++ productBytes r.productData
    ++ Config.memberBytes .metrologySwitch r.switchClosed.toNat

/-- The receipt in TANK_QUERY's reply, with its flags: a field absent in the receipt's state is sent as zero with its
presence flag clear (R93, R202). The docket is sent in litres (assumption 47). -/
def receiptBytes (state : Nat) (net : Option Nat) (opening : Option RecTime) (delivered : Option Int)
    (docket left : Option Nat) : List Byte × List Bool :=
  (Config.memberBytes .receiptState state ++ sized .probeVolume (net.getD 0)
    ++ beBytes 4 (match opening with | some t => t.time | none => 0) ++ sizedInt .deliveredVolume (delivered.getD 0)
    ++ beBytes 4 (docket.getD 0 / 1000) ++ sized .secondsLeft (left.getD 0),
    [net.isSome, opening.isSome, (match opening with | some t => t.valid | none => false), delivered.isSome,
      docket.isSome, left.isSome])

def ReceiptReply.bytes (r : ReceiptReply) : List Byte × List Bool :=
  match r with
  | .normal => receiptBytes 0 none none none none none
  | .receiving net opening delivered docket => receiptBytes 1 (some net) (some opening) (some delivered) docket none
  | .settling net opening delivered docket left =>
    receiptBytes 2 (some net) (some opening) (some delivered) docket left

/-- TANK_QUERY's reply (R93). Capacity, heel and low alarm level are sent in litres, as the host sends them
(assumption 47). -/
def TankReply.bytes (r : TankReply) : List Byte :=
  let receipt := r.receipt.bytes
  flagged 0x25
    ([r.level.isSome, r.temperature.isSome, r.probeGross.isSome, r.probeNet.isSome, r.difference.isSome] ++ receipt.2)
    (beBytes 1 (r.config.product.val + 1) ++ beBytes 4 (r.config.capacity / 1000) ++ beBytes 4 (r.config.heel / 1000)
      ++ beBytes 4 (r.config.lowAlarm / 1000) ++ beBytes 2 r.config.receiptSettle ++ sized .strapPoints r.strapPoints
      ++ beBytesInt 6 r.book ++ sized .reservedVolume r.reserved ++ sized .availableVolume r.available
      ++ sized .ullage r.ullage ++ Config.memberBytes .level r.low.toNat ++ beBytes 2 r.revision
      ++ Config.memberBytes .probeStatus r.probeValid.toNat ++ beBytes 4 (r.level.getD 0)
      ++ beBytesInt 2 (r.temperature.getD 0) ++ sized .probeVolume (r.probeGross.getD 0)
      ++ sized .probeVolume (r.probeNet.getD 0) ++ Config.memberBytes .quiet r.quiet.toNat
      ++ Config.memberBytes .relation r.relation.ctorIdx ++ sizedInt .varianceDifference (r.difference.getD 0)
      ++ receipt.1)

def strapBytes (p : Strap) : List Byte := listBytes (p.map fun x => beBytes 4 x.1 ++ beBytes 4 x.2)

/-- PUMP_QUERY's reply (R108). NONE is a member of the last fault cause (R97); the code for a free slot is open
(assumption 8). -/
def PumpReply.bytes (r : PumpReply) : List Byte :=
  flagged 0x29 [r.secondsLeft.isSome]
    (Config.memberBytes .pumpState r.state.ctorIdx ++ sized .demand r.demand
      ++ Config.memberBytes .starter r.starter.toNat ++ Config.memberBytes .pressure r.pressureUp.toNat
      ++ beBytes 1 r.config.runOn ++ beBytes 1 r.config.startTimeout ++ beBytes 1 r.config.priority
      ++ sized .secondsLeft (r.secondsLeft.getD 0)
      ++ Config.memberBytes .pumpCause (match r.lastFault with | some c => c.ctorIdx + 1 | none => 0)
      ++ (match r.slotHolder with | some t => beBytes 1 t.val | none => [Config.freeSlotByte])
      ++ listBytes (r.waiting.map fun t => beBytes 1 t.val))

def lineBytes (l : ScheduleLine) : List Byte := beBytes 2 l.hour ++ beBytes 4 l.fuel

def OverdueAction.byte : OverdueAction → Nat
  | .limit => 0
  | .refuse => 1

def classBytes (r : ClassRecord) : List Byte :=
  r.name.toList ++ beBytes 2 r.defaultPreset ++ beBytes 2 r.burnRate ++ beBytes 2 r.warn ++ beBytes 2 r.grace
    ++ beBytes 1 r.overdueAction.byte ++ beBytes 2 r.limp ++ r.lines.toList.flatMap lineBytes

/-- The number of the worst line and its per-mille, both zero where there is none (assumption 32). -/
def worstBytes (w : Option (LineId × Nat)) : List Byte :=
  match w with
  | some x => beBytes 1 (x.1.val + 1) ++ sized .perMille x.2
  | none => beBytes 1 0 ++ sized .perMille 0

/-- An entry of the due list. A vehicle that is DUE or OVERDUE has a worst line (R136, R143). -/
def DueEntry.bytes (e : DueEntry) : List Byte :=
  beBytes 2 e.vehicle.val ++ e.fleet.toList ++ beBytes 1 e.status.value ++ worstBytes e.worst

/-- A line in SERVICE_QUERY's reply (R150), its presence flags apart in `LineReply.flags` (assumption 43). -/
def LineReply.bytes (l : LineReply) : List Byte :=
  Config.memberBytes .lineUsed l.used.toNat ++ lineBytes l.interval ++ markBytes l.mark ++ sized .fuelSince l.fuelSince
    ++ sized .hoursSince l.hoursSince ++ Config.memberBytes .measured l.measured.toNat
    ++ sized .perMille (l.hourPerMille.getD 0) ++ sized .perMille (l.fuelPerMille.getD 0) ++ sized .perMille l.perMille

def LineReply.flags (l : LineReply) : List Bool :=
  [l.mark.hours.isSome, l.hourPerMille.isSome, l.fuelPerMille.isSome]

/-- SERVICE_QUERY's reply (R150). -/
def ServiceReply.bytes (r : ServiceReply) : List Byte :=
  flagged 0x3C (r.hours.isSome :: r.lines.flatMap LineReply.flags ++ [r.worst.isSome, r.position.isSome])
    (beBytes 1 r.status.value ++ beBytes 1 r.cls.val ++ beBytes 2 r.warn ++ beBytes 2 r.grace
      ++ beBytes 1 r.action.byte ++ Config.memberBytes .hourSource r.meter.toNat ++ beBytes 4 (r.hours.getD 0)
      ++ flagField .hoursRegress [r.regress] ++ beBytes 6 r.fuel ++ r.lines.flatMap LineReply.bytes
      ++ beBytes 1 (match r.worst with | some l => l.val + 1 | none => 0) ++ sized .dueLength (r.position.getD 0)
      ++ Config.memberBytes .pending r.pending.toNat)

def JournalReply.bytes (r : JournalReply) : List Byte :=
  let active := match r.active with | some x => (x.1.val, x.2) | none => (0, 0)
  flagged 0x42
    [r.oldest.isSome, r.newest.isSome, r.oldestHeld.isSome, r.active.isSome, r.erasing.isSome]
    (sized .slotCount r.free ++ sized .slotCount r.reservations ++ sized .recordCount r.heldRecords
      ++ sized .slotCount r.usable ++ beBytes 4 (r.oldest.getD 0) ++ beBytes 4 (r.newest.getD 0)
      ++ beBytes 4 (r.oldestHeld.getD 0) ++ beBytes 4 r.ackWorking ++ beBytes 4 r.ackStored
      ++ sized .segmentNumber active.1 ++ sized .slotNumber active.2 ++ sized .recordCount r.queued
      ++ Config.memberBytes .writeInFlight r.writing.toNat
      ++ sized .segmentNumber (match r.erasing with | some g => g.val | none => 0) ++ sized .segmentCount r.eligible
      ++ sized .segmentCount r.retired ++ sized .segmentCount r.worn ++ Config.memberBytes .faulted r.faulted.toNat
      ++ Config.memberBytes .threshold r.armed.toNat)

def siteBytes (x : SiteSettings) : List Byte := beBytes 2 x.linkTimeout ++ beBytes 2 x.standaloneCap ++ beBytes 1 x.threshold

/-- STATUS's reply (R199). -/
def StatusReply.bytes (r : StatusReply) : List Byte :=
  sized .vendorCode r.vendor ++ sized .partCode r.part ++ sized .hardwareRevision r.hardware
    ++ Config.memberBytes .resetCause r.lastReset.ctorIdx ++ Config.memberBytes .linkMode r.online.toNat
    ++ siteBytes r.site ++ Config.memberBytes .inspection r.inspection.toNat
    ++ Config.memberBytes .emergencyStop r.estop.toNat ++ flagField .clockValid [r.clockValid] ++ beBytes 4 r.siteTime
    ++ sized .entryCount r.events ++ sized .frameCount r.waiting

/-- The object index of an event; 0 for the kinds of the part (Chapter 10). -/
def EventKey.object : EventKey → Nat
  | .hoseState h | .hoseFault h => h.val
  | .tankLevel t | .tankVariance t | .pump t => t.val
  | .journal | .mode | .service | .restart => 0

/-- An event's detail, with what it names beside its kind. -/
def Detail.bytes (d : Detail) : List Byte :=
  Config.memberBytes .eventDetail d.ctorIdx
    ++ (match d with
      | .entered st => Config.memberBytes .hoseState st.ctorIdx
      | .refusal c => beBytes 1 c.value
      | .serviceStatus v st => beBytes 2 v.val ++ beBytes 1 st.value
      | .resetCause c => Config.memberBytes .resetCause c.ctorIdx
      | _ => [])

/-- An entry of the event queue, its first-raised time followed by the time-valid flag of that time (R196). -/
def EventEntry.bytes (e : EventEntry) : List Byte :=
  Config.memberBytes .eventKind e.key.ctorIdx ++ beBytes 1 e.key.object ++ beBytes 4 e.first.time
    ++ flagField .timeValid [e.first.valid] ++ sized .raiseCount e.count ++ e.detail.bytes

/-- The bytes of a reply's fields in the order of its rule (R192, R202). A width, a code, a flag's bit or the place of the
presence flags that the manual does not give is free (assumption 8). -/
def ReplyBody.bytes : ReplyBody → List Byte
  | .none => []
  | .authorized preset reservation flags st =>
    beBytes 4 preset ++ sized .tankReservation reservation ++ grantFlagBytes (some flags) ++ beBytes 1 st.value
  | .hose r => r.bytes
  | .totalizers gross net state =>
    beBytes 5 gross ++ beBytes 5 net ++ Config.memberBytes .hoseState state.ctorIdx
  | .calWritten count seq => flagged 0x12 [seq.isSome] (sized .calibrationCount count ++ beBytes 4 (seq.getD 0))
  | .cal r => r.bytes
  | .productWritten seq => flagged 0x14 [seq.isSome] (beBytes 4 (seq.getD 0))
  | .product d pending => productBytes d ++ Config.memberBytes .pending pending.toNat
  | .receiptBegun net opening => flagged 0x20 [opening.valid] (sized .probeVolume net ++ beBytes 4 opening.time)
  | .adjusted book revision seq =>
    flagged 0x22 [seq.isSome] (beBytesInt 6 book ++ beBytes 2 revision ++ beBytes 4 (seq.getD 0))
  | .bookConflict book revision => beBytesInt 6 book ++ beBytes 2 revision
  | .tank r => r.bytes
  | .strap points => strapBytes points
  | .pump r => r.bytes
  | .vehicle image => image
  | .found v revision binding => beBytes 2 v.val ++ beBytes 2 revision ++ bindingBytes binding
  | .putDone revision st => beBytes 2 revision ++ beBytes 1 st.value
  | .revisionConflict revision image => beBytes 2 revision ++ image
  | .boundTo h => bindingBytes (some h)
  | .dupTag holder => beBytes 2 holder.val
  | .loadProgress placed next isOpen holder =>
    flagged 0x34 [holder.isSome]
      (sized .placedCount placed ++ beBytes 2 next ++ Config.memberBytes .loadSession isOpen.toNat
        ++ beBytes 2 (match holder with | some v => v.val | Option.none => 0))
  | .loadClosed next => beBytes 2 next
  | .classInfo r vehicles => classBytes r ++ sized .vehicleCount vehicles
  | .serviceDone revision st seq =>
    flagged 0x39 [seq.isSome] (beBytes 2 revision ++ beBytes 1 st.value ++ beBytes 4 (seq.getD 0))
  | .classSet swept changed => sized .vehicleCount swept ++ sized .vehicleCount changed
  | .dueList length revision entries =>
    sized .dueLength length ++ beBytes 2 revision ++ listBytes (entries.map DueEntry.bytes)
  | .service r => r.bytes
  | .records rs ack next =>
    flagged 0x40 [next.isSome] (listBytes (rs.map (·.image)) ++ beBytes 4 ack ++ beBytes 4 (next.getD 0))
  | .acked ack held => beBytes 4 ack ++ sized .recordCount held
  | .journalStatus r => r.bytes
  | .status r => r.bytes
  | .events es left => listBytes (es.map EventEntry.bytes) ++ sized .entryCount left

/-- The frame of a reply: start byte, body length, kind, tag, the body that opens with the status code, and the CRC
(R187, R189, R192, R193). -/
def replyFrame (r : Reply) : List Byte :=
  let body := beBytes 1 r.status.value ++ r.body.bytes
  let covered := beBytes 2 body.length ++ [r.kind, r.tag] ++ body
  0xA5#8 :: (covered ++ beBytes 2 (crc16 covered).toNat)

/-! ### Reading and writing the fields of a request's body (R202) -/

def byteAt (b : List Byte) (o : Nat) : Byte := b.getD o 0
def u16At (b : List Byte) (o : Nat) : BitVec 16 := byteAt b o ++ byteAt b (o + 1)
def u32At (b : List Byte) (o : Nat) : BitVec 32 := u16At b o ++ u16At b (o + 2)
def u48At (b : List Byte) (o : Nat) : BitVec 48 := u32At b o ++ u16At b (o + 4)
def u64At (b : List Byte) (o : Nat) : BitVec 64 := u32At b o ++ u32At b (o + 4)
def nameAt (b : List Byte) (o : Nat) : Name :=
  #v[byteAt b o, byteAt b (o + 1), byteAt b (o + 2), byteAt b (o + 3), byteAt b (o + 4), byteAt b (o + 5),
    byteAt b (o + 6), byteAt b (o + 7)]

def put16 (x : BitVec 16) : List Byte := [x.extractLsb' 8 8, x.extractLsb' 0 8]
def put32 (x : BitVec 32) : List Byte := put16 (x.extractLsb' 16 16) ++ put16 (x.extractLsb' 0 16)
def put48 (x : BitVec 48) : List Byte := put32 (x.extractLsb' 16 32) ++ put16 (x.extractLsb' 0 16)
def put64 (x : BitVec 64) : List Byte := put32 (x.extractLsb' 32 32) ++ put32 (x.extractLsb' 0 32)
def putName (n : Name) : List Byte := n.toList

/-- The host part at an offset, 19 bytes (11.4). -/
def hostPartAt (b : List Byte) (o : Nat) : WireHostPart :=
  { tag := u64At b o, fleet := nameAt b (o + 8), cls := byteAt b (o + 16), products := byteAt b (o + 17),
    flags := byteAt b (o + 18) }

def putHostPart (w : WireHostPart) : List Byte := put64 w.tag ++ putName w.fleet ++ [w.cls, w.products, w.flags]

/-- n host parts, one after the other (VEHICLE_LOAD_NEXT). -/
def hostPartsOf (n : Nat) (b : List Byte) : List WireHostPart :=
  match n with
  | 0 => []
  | n + 1 => hostPartAt b 0 :: hostPartsOf n (b.drop 19)

/-- n strapping points, one after the other (STRAP_SET). -/
def strapPointsOf (n : Nat) (b : List Byte) : List WireStrapPoint :=
  match n with
  | 0 => []
  | n + 1 => { level := u32At b 0, volume := u32At b 4 } :: strapPointsOf n (b.drop 8)

def putStrapPoint (p : WireStrapPoint) : List Byte := put32 p.level ++ put32 p.volume
def curvePointAt (b : List Byte) (o : Nat) : WireCurvePoint := { rate := u16At b o, factor := u32At b (o + 2) }
def putCurvePoint (p : WireCurvePoint) : List Byte := put16 p.rate ++ put32 p.factor
def lineAt (b : List Byte) (o : Nat) : WireLine := { hour := u16At b o, fuel := u32At b (o + 2) }
def putLine (l : WireLine) : List Byte := put16 l.hour ++ put32 l.fuel

/-- The kind of a request (Chapter 11, table of kinds). -/
def requestKind : Request → Byte
  | .authorize .. => 0x01#8 | .cancel .. => 0x02#8 | .stop .. => 0x03#8 | .pause .. => 0x04#8 | .resume .. => 0x05#8
  | .hoseQuery .. => 0x06#8 | .hoseSet .. => 0x07#8 | .totalizerRead .. => 0x08#8
  | .calOpen .. => 0x10#8 | .calClose .. => 0x11#8 | .calWrite .. => 0x12#8 | .calRead .. => 0x13#8
  | .productSet .. => 0x14#8 | .productRead .. => 0x15#8
  | .receiptBegin .. => 0x20#8 | .receiptEnd .. => 0x21#8 | .stockAdjust .. => 0x22#8 | .tankSet .. => 0x23#8
  | .strapSet .. => 0x24#8 | .tankQuery .. => 0x25#8 | .strapRead .. => 0x26#8
  | .pumpSet .. => 0x28#8 | .pumpQuery .. => 0x29#8 | .pumpClear .. => 0x2A#8
  | .vehicleGet .. => 0x30#8 | .vehicleFind .. => 0x31#8 | .vehiclePut .. => 0x32#8 | .vehicleLoadBegin .. => 0x33#8
  | .vehicleLoadNext .. => 0x34#8 | .vehicleLoadEnd => 0x35#8 | .classRead .. => 0x36#8
  | .hoursSet .. => 0x38#8 | .serviceDone .. => 0x39#8 | .classSet .. => 0x3A#8 | .dueListRead .. => 0x3B#8
  | .serviceQuery .. => 0x3C#8
  | .journalRead .. => 0x40#8 | .journalAck .. => 0x41#8 | .journalStatus => 0x42#8
  | .status => 0x50#8 | .eventsRead .. => 0x51#8 | .siteSet .. => 0x52#8 | .timeSet .. => 0x53#8 | .restart => 0x54#8

/-- Is a kind one of the request kinds of Chapter 11? (R191 check 1) -/
def kindKnown (kind : Byte) : Bool :=
  let k := kind.toNat
  inRange 0x01 0x08 k || inRange 0x10 0x15 k || inRange 0x20 0x26 k || inRange 0x28 0x2A k || inRange 0x30 0x36 k
    || inRange 0x38 0x3C k || inRange 0x40 0x42 k || inRange 0x50 0x54 k

/-- Does a body length suit a known kind? (R191 check 2, Chapter 11) -/
def lengthSuits (kind : Byte) (len : Nat) : Bool :=
  match kind.toNat with
  | 0x01 => len == 10
  | 0x07 => len == 13
  | 0x12 => len == 37
  | 0x14 => len == 11
  | 0x21 => len == 5
  | 0x22 => len == 13
  | 0x23 => len == 16
  | 0x24 => (len - 2) % 8 == 0 && inRange 18 258 len
  | 0x28 => len == 4
  | 0x30 => len == 2
  | 0x31 => len == 8
  | 0x32 => len == 23
  | 0x33 => len == 2
  | 0x34 => (len - 1) % 19 == 0 && inRange 20 153 len
  | 0x35 => len == 0
  | 0x38 => len == 8
  | 0x39 => len == 10
  | 0x3A => len == 44
  | 0x3B => len == 3
  | 0x3C => len == 2
  | 0x40 => len == 5
  | 0x41 => len == 4
  | 0x42 => len == 0
  | 0x50 => len == 0
  | 0x52 => len == 5
  | 0x53 => len == 4
  | 0x54 => len == 0
  | _ => len == 1

/-- The slot read of the scan (R170, R203): blank, a record whose check word agrees, or VOID. -/
inductive SlotRead where
  | blank | record | void
  deriving DecidableEq, Repr

/-- What the scan takes a slot's bytes for (R170, R203). -/
def readSlot (b : List Byte) : SlotRead :=
  if b.all fun x => decide (x = 0xFF#8) then .blank
  else if inRange 1 6 (byteAt b 0).toNat && decide (crc16 (b.take 62) = u16At b 62) then .record
  else .void

/-- Does slot 0 carry the erase mark? (R203) -/
def carriesMarker (b : List Byte) : Bool := decide (byteAt b 0 = 0x00#8) && decide (byteAt b 9 = 0x5A#8)

/-- The fields of a body whose length suits its kind (R202). Chapter 11 gives some bodies in total length alone; the
widths of their fields are the model's split (assumption 5). -/
def readBody (kind : Byte) (b : List Byte) : Option Request :=
  match kind.toNat with
  | 0x01 => some (.authorize (byteAt b 0) (u16At b 1) (u16At b 3) (byteAt b 5) (u32At b 6))
  | 0x02 => some (.cancel (byteAt b 0))
  | 0x03 => some (.stop (byteAt b 0))
  | 0x04 => some (.pause (byteAt b 0))
  | 0x05 => some (.resume (byteAt b 0))
  | 0x06 => some (.hoseQuery (byteAt b 0))
  | 0x07 => some (.hoseSet (byteAt b 0)
      { tank := byteAt b 1, prestop := u16At b 2, slowVolume := u16At b 4, readyTimeout := u16At b 6,
        noFlowTimeout := u16At b 8, pauseTimeout := u16At b 10, settleTime := byteAt b 12 })
  | 0x08 => some (.totalizerRead (byteAt b 0))
  | 0x10 => some (.calOpen (byteAt b 0))
  | 0x11 => some (.calClose (byteAt b 0))
  | 0x12 => some (.calWrite (byteAt b 0)
      { k := u16At b 1, count := byteAt b 3,
        points := #v[curvePointAt b 4, curvePointAt b 10, curvePointAt b 16, curvePointAt b 22, curvePointAt b 28],
        errorLimit := byteAt b 34, maxRate := u16At b 35 })
  | 0x13 => some (.calRead (byteAt b 0))
  | 0x14 => some (.productSet (byteAt b 0) (nameAt b 1) (u16At b 9))
  | 0x15 => some (.productRead (byteAt b 0))
  | 0x20 => some (.receiptBegin (byteAt b 0))
  | 0x21 => some (.receiptEnd (byteAt b 0) (u32At b 1))
  | 0x22 => some (.stockAdjust (byteAt b 0) (u48At b 1) (u48At b 7))
  | 0x23 => some (.tankSet (byteAt b 0)
      { product := byteAt b 1, capacity := u32At b 2, heel := u32At b 6, lowAlarm := u32At b 10,
        receiptSettle := u16At b 14 })
  | 0x24 => some (.strapSet (byteAt b 0) (byteAt b 1) (strapPointsOf ((b.length - 2) / 8) (b.drop 2)))
  | 0x25 => some (.tankQuery (byteAt b 0))
  | 0x26 => some (.strapRead (byteAt b 0))
  | 0x28 => some (.pumpSet (byteAt b 0) { runOn := byteAt b 1, startTimeout := byteAt b 2, priority := byteAt b 3 })
  | 0x29 => some (.pumpQuery (byteAt b 0))
  | 0x2A => some (.pumpClear (byteAt b 0))
  | 0x30 => some (.vehicleGet (u16At b 0))
  | 0x31 => some (.vehicleFind (u64At b 0))
  | 0x32 => some (.vehiclePut (u16At b 0) (hostPartAt b 2) (u16At b 21))
  | 0x33 => some (.vehicleLoadBegin (u16At b 0))
  | 0x34 => some (.vehicleLoadNext (byteAt b 0) (hostPartsOf ((b.length - 1) / 19) (b.drop 1)))
  | 0x35 => some .vehicleLoadEnd
  | 0x36 => some (.classRead (byteAt b 0))
  | 0x38 => some (.hoursSet (u16At b 0) (u32At b 2) (u16At b 6))
  | 0x39 => some (.serviceDone (u16At b 0) (byteAt b 2) (byteAt b 3) (u32At b 4) (u16At b 8))
  | 0x3A => some (.classSet (byteAt b 0)
      { name := nameAt b 1, defaultPreset := u16At b 9, burnRate := u16At b 11, warn := u16At b 13,
        grace := u16At b 15, overdueAction := byteAt b 17, limp := u16At b 18,
        lines := #v[lineAt b 20, lineAt b 26, lineAt b 32, lineAt b 38] })
  | 0x3B => some (.dueListRead (u16At b 0) (byteAt b 2))
  | 0x3C => some (.serviceQuery (u16At b 0))
  | 0x40 => some (.journalRead (u32At b 0) (byteAt b 4))
  | 0x41 => some (.journalAck (u32At b 0))
  | 0x42 => some .journalStatus
  | 0x50 => some .status
  | 0x51 => some (.eventsRead (byteAt b 0))
  | 0x52 => some (.siteSet (u16At b 0) (u16At b 2) (byteAt b 4))
  | 0x53 => some (.timeSet (u32At b 0))
  | 0x54 => some .restart
  | _ => none

/-- The body of a request as the host sends it (R202). -/
def putBody : Request → List Byte
  | .authorize h v p f r => [h] ++ put16 v ++ put16 p ++ [f] ++ put32 r
  | .hoseSet h c =>
    [h, c.tank] ++ put16 c.prestop ++ put16 c.slowVolume ++ put16 c.readyTimeout ++ put16 c.noFlowTimeout
      ++ put16 c.pauseTimeout ++ [c.settleTime]
  | .calWrite h w =>
    [h] ++ put16 w.k ++ [w.count] ++ w.points.toList.flatMap putCurvePoint ++ [w.errorLimit] ++ put16 w.maxRate
  | .productSet c n b => [c] ++ putName n ++ put16 b
  | .receiptEnd t d => [t] ++ put32 d
  | .stockAdjust t e b => [t] ++ put48 e ++ put48 b
  | .tankSet t c =>
    [t, c.product] ++ put32 c.capacity ++ put32 c.heel ++ put32 c.lowAlarm ++ put16 c.receiptSettle
  | .strapSet t n ps => [t, n] ++ ps.flatMap putStrapPoint
  | .pumpSet t c => [t, c.runOn, c.startTimeout, c.priority]
  | .vehicleGet v => put16 v
  | .vehicleFind tag => put64 tag
  | .vehiclePut v w r => put16 v ++ putHostPart w ++ put16 r
  | .vehicleLoadBegin v => put16 v
  | .vehicleLoadNext n ws => [n] ++ ws.flatMap putHostPart
  | .vehicleLoadEnd => []
  | .hoursSet v h r => put16 v ++ put32 h ++ put16 r
  | .serviceDone v l f h r => put16 v ++ [l, f] ++ put32 h ++ put16 r
  | .classSet c w =>
    [c] ++ putName w.name ++ put16 w.defaultPreset ++ put16 w.burnRate ++ put16 w.warn ++ put16 w.grace
      ++ [w.overdueAction] ++ put16 w.limp ++ w.lines.toList.flatMap putLine
  | .dueListRead p n => put16 p ++ [n]
  | .serviceQuery v => put16 v
  | .journalRead q n => put32 q ++ [n]
  | .journalAck q => put32 q
  | .journalStatus => []
  | .status => []
  | .siteSet l c t => put16 l ++ put16 c ++ [t]
  | .timeSet t => put32 t
  | .restart => []
  | .cancel h => [h] | .stop h => [h] | .pause h => [h] | .resume h => [h] | .hoseQuery h => [h] | .totalizerRead h => [h]
  | .calOpen h => [h] | .calClose h => [h] | .calRead h => [h] | .productRead c => [c]
  | .receiptBegin t => [t] | .tankQuery t => [t] | .strapRead t => [t] | .pumpQuery t => [t] | .pumpClear t => [t]
  | .classRead c => [c] | .eventsRead n => [n]

/-- What a frame of a kind and a body holds (R191 checks 1 and 2). -/
def parseContent (kind : Byte) (body : List Byte) : Content :=
  if !kindKnown kind then .unknownKind kind body
  else if !lengthSuits kind body.length then .badLength kind body
  else
    match readBody kind body with
    | some r => .request r
    | none => .unknownKind kind body

/-- What the frame of a request holds: the request, or a body whose length does not suit its kind (a list request
with too few or too many items). -/
def contentOf (r : Request) : Content :=
  if lengthSuits (requestKind r) (putBody r).length then .request r else .badLength (requestKind r) (putBody r)

end Sys2Proof.Machine
end

