-- ==== Sys2Proof/Machine/Service.lean ====
section
/-! DEFINITION. Chapter 7, service accounting: the measures of a line, the service status, the due list, hour
readings, and the report of a status change to the bound hose (R16). -/

namespace Sys2Proof.Machine

open Sys2Proof

/-! ### The computation (R134 to R136) -/

/-- A line is used when one of its intervals is non-zero (R134). -/
def ScheduleLine.used (l : ScheduleLine) : Bool := decide (l.hour ≠ 0) || decide (l.fuel ≠ 0)

/-- Fuel taken since a mark, mL (R134). -/
def fuelSince (u : Usage) (m : Mark) : Nat := u.fuel - m.fuel

/-- The measured hours since a mark, when they can be measured (R134). -/
def measuredHours (u : Usage) (m : Mark) : Option Nat :=
  match u.meter, u.hours, m.hours with
  | true, some a, some b => some (a - b)
  | _, _, _ => none

/-- The hours estimated from fuel (R134). -/
def estimatedHours (burn fuel : Nat) : Nat := if burn = 0 then 0 else fuel * 10 / (burn * 1000)

/-- Hours since a mark, measured or estimated, in 0.1 h (R134). -/
def hoursSince (burn : Nat) (u : Usage) (m : Mark) : Nat :=
  (measuredHours u m).getD (estimatedHours burn (fuelSince u m))

/-- Hour per-mille of a line, absent with an hour interval of 0 (R135). -/
def hourPerMille (l : ScheduleLine) (hours : Nat) : Option Nat :=
  if l.hour = 0 then none else some (hours * 1000 / l.hour)

/-- Fuel per-mille of a line, absent with a fuel interval of 0 (R135). -/
def fuelPerMille (l : ScheduleLine) (fuel : Nat) : Option Nat :=
  if l.fuel = 0 then none else some (fuel * 1000 / (l.fuel * 1000))

/-- Line per-mille: the greater of its measures, saturating (R135). -/
def linePerMille (burn : Nat) (l : ScheduleLine) (u : Usage) (m : Mark) : Nat :=
  min Config.count16
    (max ((hourPerMille l (hoursSince burn u m)).getD 0) ((fuelPerMille l (fuelSince u m)).getD 0))

/-- Keep the worse of two lines; the earlier one wins a tie (R135). -/
def worseLine (best : Option (LineId × Nat)) (x : LineId × Nat) : Option (LineId × Nat) :=
  match best with
  | none => some x
  | some b => if b.2 < x.2 then some x else some b

/-- The used lines of a class with their per-mille for a vehicle's values, ascending (R134, R135). -/
def usedLines (c : ClassRecord) (u : Usage) (marks : Vector Mark 4) : List (LineId × Nat) :=
  (allLines.filter fun n => (c.lines.get n).used).map fun n =>
    (n, linePerMille c.burnRate (c.lines.get n) u (marks.get n))

/-- The worst line and its per-mille (R135). -/
def worstLine (c : ClassRecord) (u : Usage) (marks : Vector Mark 4) : Option (LineId × Nat) :=
  (usedLines c u marks).foldl worseLine none

/-- The status of a per-mille (R136). -/
def statusOfPerMille (c : ClassRecord) (p : Nat) : ServiceStatus :=
  if p < c.warn then .ok else if p < 1000 then .dueSoon else if p < 1000 + c.grace then .due else .overdue

/-- The service status of a vehicle's values under its class (R136); an unused index has OK (R130). -/
def statusOf (c : ClassRecord) (r : Vehicle) : ServiceStatus :=
  if r.host.inUse then
    match worstLine c r.usage r.marks with
    | none => .ok
    | some w => statusOfPerMille c w.2
  else .ok

/-! ### The due list (R141, R142) -/

/-- DUE and OVERDUE are the statuses of the due list (R141). -/
def ServiceStatus.listed : ServiceStatus → Bool
  | .due | .overdue => true
  | .ok | .dueSoon => false

/-- The due list revision advances by 1, wrapping (R130). -/
def bumpDueRevision (s : State) : State := s.setDueRevision ((s.dueRevision + 1) % Config.revisionModulus)

/-- The due list follows a change of status (R141) and the SERVICE event is raised (R142). -/
def updateDueList (v : VehicleId) (old new : ServiceStatus) (s : State) : State :=
  if new.listed && !old.listed then
    raise .service (.serviceStatus v new) (bumpDueRevision (s.setDueList (s.dueList ++ [v])))
  else if !new.listed && old.listed then
    bumpDueRevision (s.setDueList (s.dueList.filter fun x => decide (x ≠ v)))
  else if old = .due && new = .overdue then raise .service (.serviceStatus v new) s
  else s

/-! ### The report to the bound hose (R16, R137) -/

/-- The tank reservation of a preset, mL (R12). -/
def reservationOf (preset : Nat) : Nat := ceilDiv (preset * 1050000) 1000000

/-- The lamp takes the grant colour of a new status (R4). -/
def recolour (h : HoseId) (st : ServiceStatus) (s : State) : State :=
  s.setHose h { s.hose h with lamp := grantColour st }

/-- Limit revision of a READY grant (R16): the preset is reduced to the limp allowance when that is smaller. -/
def reviseLimit (h : HoseId) (limp : Nat) (s : State) : State :=
  match (s.hose h).grant with
  | none => s
  | some g =>
    if g.preset ≤ limp then s
    else if limp < Config.minimumPreset then releaseGrant h .withdrawn s
    else
      let res := reservationOf limp
      let s := takeOffReserved g.tank (g.tankRes - res) s
      s.setHose h
        { s.hose h with
          grant := some { g with preset := limp, tankRes := res, flags := { g.flags with capped := true } } }

/-- A hose takes the report of a status change of its vehicle (R16, R17, R137). -/
def takeStatusReport (h : HoseId) (c : ClassRecord) (new : ServiceStatus) (s : State) : State :=
  match (s.hose h).state, (s.hose h).grant with
  | .ready, some g =>
    match new, c.overdueAction with
    | .overdue, .refuse =>
      if g.flags.supervisor then recolour h new s else releaseGrant h .withdrawn s
    | .overdue, .limit => reviseLimit h (c.limp * 1000) (recolour h new s)
    | _, _ => recolour h new s
  | _, _ => s

/-- Service accounting recomputes the status of a vehicle (R137). -/
def recompute (v : VehicleId) (s : State) : State :=
  let r := s.vehicle v
  let c := s.classOf r.host.cls
  let new := statusOf c r
  if new = r.status then s
  else
    let s := s.setVehicle v { r with status := new }
    let s := updateDueList v r.status new s
    match r.binding with
    | none => s
    | some h => takeStatusReport h c new s

/-! ### Hour readings (R131) -/

/-- A usage part after an hour reading, and whether the reading was a regression (R131). -/
def Usage.read (u : Usage) (reading : Nat) : Usage × Bool :=
  match u.hours with
  | some last =>
    if last ≤ reading then ({ u with hours := some reading, meter := true, regress := false }, false)
    else ({ u with regress := true }, true)
  | none => ({ u with hours := some reading, meter := true, regress := false }, false)

/-- An hour reading reaches service accounting from an authorization (R131, R132). -/
def applyReading (v : VehicleId) (reading : Nat) (s : State) : State × Bool :=
  let r := s.vehicle v
  let (u, regress) := r.usage.read reading
  (beginUsageWrite v (recompute v (s.setVehicle v { r with usage := u })), regress)

/-- The fuel total is credited by a delivery's net volume and the status recomputed; an unused index takes neither
(R127, R129). -/
def creditFuel (v : VehicleId) (net : Nat) (s : State) : State :=
  let r := s.vehicle v
  if r.host.inUse then
    let u := { r.usage with fuel := satAdd Config.fuelLimit r.usage.fuel net }
    beginUsageWrite v (recompute v (s.setVehicle v { r with usage := u }))
  else s

/-! ### The class sweep (R140) -/

/-- The next in-use vehicle of a class at or after an index (R140). -/
def nextOfClass (c : ClassId) (start : Nat) (s : State) : Option VehicleId :=
  (s.listedVehicles.find? fun e => decide (start ≤ e.1.val) && e.2.host.inUse && decide (e.2.host.cls = c)).map (·.1)

end Sys2Proof.Machine
end

