-- ==== Sys2Proof/Machine/Tanks.lean ====
section
/-! DEFINITION. Chapter 4, the tank account: available volume, the book and its tests, the probe and the variance
relation, receipts, adjustment, configuration and the tank requests. -/

namespace Sys2Proof.Machine

open Sys2Proof

/-! ### Book, tests and available volume -/

/-- The book saturates (R71). -/
def saturateBook (b : Int) : Int := clampInt (-Config.bookLimit) Config.bookLimit b

/-- Available volume: book − heel − reserved, floored at 0 (R72). -/
def available (x : Tank) : Nat := (x.book - x.config.heel - x.reserved).toNat

/-- Ullage: capacity − book, floored at 0 (R75). -/
def ullage (x : Tank) : Nat := ((x.config.capacity : Int) - x.book).toNat

/-- Is the pumpable stock below the low alarm level? (R74) -/
def isLow (x : Tank) : Bool := decide (x.book - x.config.heel < x.config.lowAlarm)

/-- The low test (R74). -/
def lowTest (t : TankId) (s : State) : State :=
  let x := s.tank t
  if isLow x && !x.low then raise (.tankLevel t) .low (s.setTank t { x with low := true })
  else if !isLow x && x.low then s.setTank t { x with low := false }
  else s

/-- The capacity test (R75). -/
def capacityTest (t : TankId) (s : State) : State :=
  if ((s.tank t).config.capacity : Int) < (s.tank t).book then raise (.tankLevel t) .aboveCapacity s else s

/-- The receipt's working fields, in RECEIVING and in SETTLING. -/
def ReceiptState.fields : ReceiptState → Option Receipt
  | .normal => none
  | .receiving r => some r
  | .settling r _ => some r

/-- Change the receipt's working fields. -/
def ReceiptState.modify (f : Receipt → Receipt) : ReceiptState → ReceiptState
  | .normal => .normal
  | .receiving r => .receiving (f r)
  | .settling r n => .settling (f r) n

/-- Baseline of a hose in a receipt; a hose without one has 0 (R83). -/
def Receipt.baseline (r : Receipt) (h : HoseId) : Nat := (r.baselines.get h).getD 0

/-- A delivery of a hose adds its net less its baseline to the delivered volume, and its baseline is discarded
(R83). -/
def Receipt.addDelivery (h : HoseId) (net : Nat) (r : Receipt) : Receipt :=
  { r with
    delivered := r.delivered + ((net : Int) - r.baseline h)
    baselines := upd r.baselines h none }

/-- Step 1 of the settle accounting: the book is debited, its store write begins, the low test is made, and a
receipt in progress takes the delivered volume (R28, R74, R83). -/
def debitBook (t : TankId) (h : HoseId) (net : Nat) (s : State) : State :=
  let x := s.tank t
  let x := { x with book := saturateBook (x.book - net), receipt := x.receipt.modify (Receipt.addDelivery h net) }
  lowTest t (beginWrite (.book t x.book) (s.setTank t x))

/-- The count of hoses of a tank in the counted states has fallen: at 0 the quiet timer starts (R79). -/
def startQuietTimer (t : TankId) (s : State) : State :=
  if s.countedOn t = 0 then s.setTank t { s.tank t with quietTimer := some Config.quietTime } else s

/-! ### Probe and variance -/

/-- Probe gross of a level through the strapping table, mL (R76). -/
def probeGrossOf (p : Strap) (level : Nat) : Nat := tableAt 1000 p level

/-- Probe net of a gross at a temperature (R77). -/
def probeNetOf (beta gross : Nat) (t : Int) : Nat := gross * vcf beta (clampTemperature t) / 1000000

/-- The relation takes a value; a change into ABOVE, BELOW or UNORDERED raises TANK_VARIANCE (R80). -/
def setRelation (t : TankId) (r : Relation) (d : Option Int) (s : State) : State :=
  let x := s.tank t
  let s := s.setTank t { x with relation := r, difference := d }
  if x.relation = r then s
  else
    match r with
    | .within => s
    | .above => raise (.tankVariance t) .above s
    | .below => raise (.tankVariance t) .below s
    | .unordered => raise (.tankVariance t) .unordered s

/-- Tolerance of the variance evaluation, mL (R80). -/
def tolerance (book : Int) : Int := max 200000 (Int.tdiv (book * 5) 1000)

/-- The relation of a difference and a tolerance (R80). -/
def relationOf (d tol : Int) : Relation := if tol < d then .above else if tol < -d then .below else .within

/-- The variance evaluation (R80). -/
def evaluateVariance (t : TankId) (net : Nat) (s : State) : State :=
  let book := (s.tank t).book
  if book < 0 then setRelation t .unordered none s
  else setRelation t (relationOf (net - book) (tolerance book)) (some (net - book)) s

/-- Is the receipt state NORMAL? -/
def ReceiptState.isNormal : ReceiptState → Bool
  | .normal => true
  | .receiving _ | .settling _ _ => false

/-- A probe sample reaches a tank account (R76, R77, R80). -/
def takeProbe (t : TankId) (reading : Option (Nat × Int)) (s : State) : State :=
  match reading with
  | none => s
  | some (level, temp) =>
    let x := s.tank t
    let gross := probeGrossOf x.strap level
    let net := probeNetOf (s.product x.config.product).data.beta gross temp
    let s := s.setTank t
      { x with
        level := some level, temperature := some temp, probeValid := true, staleTimer := some Config.staleTime
        probeGross := some gross, probeNet := some net }
    if x.quiet && x.receipt.isNormal then evaluateVariance t net s else s

/-- The stale timer expires (R78, R80). -/
def probeStale (t : TankId) (s : State) : State :=
  let x := s.tank t
  match x.staleTimer with
  | none => s
  | some _ => setRelation t .unordered none (s.setTank t { x with probeValid := false, staleTimer := none })

/-- The quiet timer expires (R79). -/
def tankQuiet (t : TankId) (s : State) : State :=
  let x := s.tank t
  match x.quietTimer with
  | none => s
  | some _ => s.setTank t { x with quiet := true, quietTimer := none }

/-! ### Receipts -/

/-- Add the live net of every hose of the tank in the counted states, less its baseline (R85 step 2). -/
def deliveredAtClose (t : TankId) (r : Receipt) (s : State) : Int :=
  (((s.hosesOn t).filter fun h => (s.hose h).state.counted).map fun h =>
    ((s.engine h).net : Int) - r.baseline h).foldl (· + ·) r.delivered

/-- Steps 4 to 7 of the closing: credit, record, NORMAL, event and tests (R85, R86). The book is stored at each close,
also where nothing is credited (R71, R74; assumption 38). -/
def finishReceipt (t : TankId) (credit : Bool) (volume : Int) (mk : Int → ReceiptRecord) (s : State) : State :=
  let x := s.tank t
  let book := if credit then saturateBook (x.book + volume) else x.book
  let s := s.setTank t { x with book := book, receipt := .normal }
  let s := beginWrite (.book t book) s
  let s := joinQueue (.receipt (mk book)) s
  let s := raise (.tankLevel t) .receipt s
  capacityTest t (lowTest t s)

/-- The receipt settle timer expires: the receipt is closed, measured (R85) or unmeasured (R86). -/
def closeReceipt (t : TankId) (s : State) : State :=
  let x := s.tank t
  match x.receipt with
  | .settling r (some _) =>
    let base (volume : Int) (book : Int) : ReceiptRecord :=
      { tank := t, product := x.config.product, openingNet := r.openingNet, openingTime := r.openingTime,
        closingNet := none, delivered := none, docket := r.docket, volume := volume, difference := none, book := book,
        probeFail := false, unmeasured := false }
    if x.probeValid then
      let closing := x.probeNet.getD 0
      let delivered := deliveredAtClose t r s
      let volume := (closing : Int) - r.openingNet + delivered
      finishReceipt t true volume
        (fun book =>
          { base volume book with
            closingNet := some closing, delivered := some delivered
            difference := r.docket.map fun d => volume - d }) s
    else
      match r.docket with
      | some d => finishReceipt t true d (fun book => { base d book with probeFail := true }) s
      | none => finishReceipt t false 0 (fun book => { base 0 book with unmeasured := true }) s
  | _ => s

/-- The baselines at RECEIPT_BEGIN: the live net of each hose of the tank in the counted states (R82 step 3). -/
def baselinesOf (t : TankId) (s : State) : Vector (Option Nat) 8 :=
  tabulate fun h =>
    if (s.hose h).config.tank = t && (s.hose h).state.counted then some (s.engine h).net else none

/-- RECEIPT_BEGIN (R81, R82). The READY grants on the tank are withdrawn in ascending hose order (R16; assumption 40). -/
def takeReceiptBegin (tank : Byte) (s : State) : State × Answer :=
  match tankOf tank with
  | none => refuse .range s
  | some t =>
    let x := s.tank t
    match firstFail [(x.receipt.isNormal, .state), (x.probeValid, .probe), (s.journal.requestTest, .journalFull)] with
    | some c => refuse c s
    | none =>
      let opening := x.probeNet.getD 0
      let now := recordedTime s
      let r : Receipt :=
        { openingNet := opening, openingTime := now, baselines := baselinesOf t s, delivered := 0, docket := none }
      let s := takeReservation s
      let s := s.setTank t { s.tank t with receipt := .receiving r }
      let s := forAll (s.hosesOn t) withdrawIfReady s
      (s, .reply .ok (.receiptBegun opening now))

/-- RECEIPT_END (R84); a docket of 0 means that none is given (R202). -/
def takeReceiptEnd (tank : Byte) (docket : BitVec 32) (s : State) : State × Answer :=
  match tankOf tank with
  | none => refuse .range s
  | some t =>
    if 2000000 < docket.toNat then refuse .range s
    else
      let x := s.tank t
      match x.receipt with
      | .receiving r =>
        let r := { r with docket := if docket.toNat = 0 then none else some (litres docket.toNat) }
        (s.setTank t { x with receipt := .settling r (some x.config.receiptSettle) }, .reply .ok .none)
      | .normal | .settling _ _ => refuse .state s

/-! ### Adjustment and configuration -/

/-- The revision of a tank advances by 1, wrapping (R71). -/
def nextRevision (r : Nat) : Nat := (r + 1) % Config.revisionModulus

/-- STOCK_ADJUST (R89). -/
def takeStockAdjust (tank : Byte) (expected book : BitVec 48) (s : State) : State × Answer :=
  match tankOf tank with
  | none => refuse .range s
  | some t =>
    let x := s.tank t
    if book.toInt < -Config.bookLimit then refuse .range s
    else if x.book ≠ expected.toInt then (s, .reply .revision (.bookConflict x.book x.revision))
    else if !s.journal.requestTest then refuse .journalFull s
    else
      let revision := nextRevision x.revision
      let s := s.setTank t { x with book := book.toInt, revision := revision }
      let s := takeReservation s
      let s := joinQueue (.adjust { tank := t, oldBook := x.book, newBook := book.toInt, revision := revision }) s
      let s := capacityTest t (lowTest t s)
      (s, .hold (.stockAdjust t book.toInt revision))

/-- Is every hose on a tank IDLE? -/
def allIdleOn (t : TankId) (s : State) : Bool := (s.hosesOn t).all fun h => decide ((s.hose h).state = .idle)

/-- TANK_SET (R91). -/
def takeTankSet (tank : Byte) (w : WireTankConfig) (s : State) : State × Answer :=
  match tankOf tank, tankConfigOf w with
  | some t, some c =>
    let x := s.tank t
    if c.capacity < lastVolume x.strap then refuse .range s
    else if !(allIdleOn t s && x.receipt.isNormal) then refuse .state s
    else
      let revision := nextRevision x.revision
      let s := s.setTank t { x with config := c, revision := revision }
      let s := beginWrite (.tankConfig t c revision) (lowTest t s)
      (s, .hold (.tankSet t))
  | _, _ => refuse .range s

/-- STRAP_SET (R92). -/
def takeStrapSet (tank count : Byte) (points : List WireStrapPoint) (s : State) : State × Answer :=
  match tankOf tank with
  | none => refuse .range s
  | some t =>
    let x := s.tank t
    match strapOf x.config.capacity count.toNat points with
    | none => refuse .range s
    | some p =>
      if !(allIdleOn t s && x.receipt.isNormal) then refuse .state s
      else
        let revision := nextRevision x.revision
        let s := s.setTank t { x with strap := p, revision := revision }
        (beginWrite (.strap t p revision) s, .hold (.strapSet t))

/-- What TANK_QUERY reads of the receipt (R93). -/
def ReceiptState.reply : ReceiptState → ReceiptReply
  | .normal => .normal
  | .receiving r => .receiving r.openingNet r.openingTime r.delivered r.docket
  | .settling r left => .settling r.openingNet r.openingTime r.delivered r.docket left

/-- What TANK_QUERY reads (R93). -/
def tankReply (x : Tank) : TankReply :=
  { config := x.config, strapPoints := x.strap.length, book := x.book, reserved := x.reserved,
    available := available x, ullage := ullage x, low := x.low, revision := x.revision, probeValid := x.probeValid,
    level := x.level, temperature := x.temperature, probeGross := x.probeGross, probeNet := x.probeNet,
    quiet := x.quiet, relation := x.relation, difference := x.difference, receipt := x.receipt.reply }

/-- TANK_QUERY (R93). -/
def takeTankQuery (tank : Byte) (s : State) : State × Answer :=
  match tankOf tank with
  | none => refuse .range s
  | some t => (s, .reply .ok (.tank (tankReply (s.tank t))))

/-- STRAP_READ (R94). -/
def takeStrapRead (tank : Byte) (s : State) : State × Answer :=
  match tankOf tank with
  | none => refuse .range s
  | some t => (s, .reply .ok (.strap (s.tank t).strap))

end Sys2Proof.Machine
end

