-- ==== Sys2Proof/Machine/Authorize.lean ====
section
/-! DEFINITION. Chapter 1, sections 1.4 and 1.5: the authorization of a hose by a tag read or an AUTHORIZE request,
the grant, and the display of a refusal. -/

namespace Sys2Proof.Machine

open Sys2Proof

/-- What an authorization asks for (R8, R9): the path, how the vehicle is named, the supervisor flag, the hour
reading and the preset in litres, 0 asking for the class default. -/
structure AuthRequest where
  path : GrantPath
  who : Tag ⊕ VehicleId
  supervisor : Bool
  hours : Option Nat
  presetL : Nat
  deriving DecidableEq, Repr

/-- An enabled, in-use record with a non-zero tag (R112). -/
def Vehicle.carries (r : Vehicle) (tag : Tag) : Bool := r.host.inUse && r.host.enabled && decide (r.host.tag = tag)

/-- The vehicle found by a tag (R113): a non-zero tag on an in-use, enabled record. -/
def findByTag (tag : Tag) (s : State) : Option VehicleId :=
  if tag = 0 then none else (s.listedVehicles.find? fun e => e.2.carries tag).map (·.1)

/-- Check 4: the vehicle is found (R7, R110, R113). -/
def findVehicle (who : Tag ⊕ VehicleId) (s : State) : Option VehicleId :=
  match who with
  | .inl tag => findByTag tag s
  | .inr v => if (s.vehicle v).host.inUse then some v else none

/-- Does a set of allowed products hold a product? -/
def allows (products : BitVec 4) (p : ProductId) : Bool := products.getLsbD p.val

/-- Is the tank RECEIVING? -/
def ReceiptState.isReceiving : ReceiptState → Bool
  | .receiving _ => true
  | .normal | .settling _ _ => false

/-- Checks 1 to 3 (R7). -/
def earlyChecks (h : HoseId) (s : State) : List (Bool × StatusCode) :=
  [ (!s.link.estop, .estop),
    (s.journal.grantTest, .journalFull),
    (decide ((s.hose h).state = .idle), .state) ]

/-- Checks 5 to 10 (R7). -/
def vehicleChecks (h : HoseId) (v : VehicleId) (s : State) : List (Bool × StatusCode) :=
  let r := s.vehicle v
  let t := (s.hose h).config.tank
  [ (r.host.enabled, .vehicleDisabled),
    (r.binding.isNone, .busyVehicle),
    (!r.host.hostLocked, .vehicleLocked),
    (allows r.host.products (s.tank t).config.product, .product),
    (!(s.tank t).receipt.isReceiving, .tankReceiving),
    (decide ((s.pump t).state ≠ .fault), .pumpFault) ]

/-- Is the tag path bound by the standalone limits? (R7 check 12, R174) -/
def standaloneBound (path : GrantPath) (s : State) : Bool := decide (path = .tag) && !s.link.online

/-- Checks 11 to 13 (R7). -/
def lateChecks (h : HoseId) (v : VehicleId) (a : AuthRequest) (s : State) : List (Bool × StatusCode) :=
  let r := s.vehicle v
  let c := s.classOf r.host.cls
  [ (!(decide (r.status = .overdue) && decide (c.overdueAction = .refuse) && !a.supervisor), .serviceOverdue),
    (!standaloneBound a.path s || (r.host.standalonePermit && decide (0 < s.link.site.standaloneCap)), .standaloneDeny),
    (decide (Config.minimumDelivery ≤ available (s.tank (s.hose h).config.tank)), .noStock) ]

/-- The clamped preset, with the flags of the clamps that reduced it (R11). -/
structure Clamped where
  preset : Nat
  capped : Bool
  standalone : Bool
  stockLimited : Bool
  deriving DecidableEq, Repr

/-- The stock bound of clamp 4 (R11). -/
def stockBound (available : Nat) : Nat := available * 1000000 / 1050000

/-- The preset in litres that a grant starts from (R11). -/
def startingPreset (c : ClassRecord) (presetL : Nat) : Nat := if presetL = 0 then c.defaultPreset else presetL

/-- The clamps in their order (R11). A clamp that does not apply is absent. -/
def clampPreset (presetL : Nat) (limp cap : Option Nat) (bound : Nat) : Clamped :=
  let p1 := min (litres presetL) Config.hoseMaximum
  let p2 := match limp with | some l => min p1 (litres l) | none => p1
  let p3 := match cap with | some l => min p2 (litres l) | none => p2
  let p4 := min p3 bound
  { preset := p4, capped := decide (p2 < p1), standalone := cap.isSome, stockLimited := decide (p4 < p3) }

/-- The clamps as an authorization applies them (R11). -/
def clampFor (h : HoseId) (v : VehicleId) (a : AuthRequest) (s : State) : Clamped :=
  let r := s.vehicle v
  let c := s.classOf r.host.cls
  let limited := decide (r.status = .overdue) && decide (c.overdueAction = .limit)
  clampPreset (startingPreset c a.presetL)
    (if limited then some c.limp else none)
    (if standaloneBound a.path s then some s.link.site.standaloneCap else none)
    (stockBound (available (s.tank (s.hose h).config.tank)))

/-- The refusal of a preset clamped below 1,000 mL (R11). -/
def Clamped.refusal (c : Clamped) : Option StatusCode :=
  if Config.minimumPreset ≤ c.preset then none else some (if c.capped then .serviceOverdue else .range)

/-- The grant made by an authorization that passes (R12). -/
def grantOf (h : HoseId) (v : VehicleId) (a : AuthRequest) (regress : Bool) (s : State) : Grant :=
  let r := s.vehicle v
  let t := (s.hose h).config.tank
  let c := clampFor h v a s
  { vehicle := v, path := a.path, tag := r.host.tag, tank := t, product := (s.tank t).config.product,
    hours := a.hours, regress := regress, preset := c.preset, tankRes := reservationOf c.preset, journalRes := true,
    flags := { supervisor := a.supervisor, capped := c.capped, standalone := c.standalone,
               stockLimited := c.stockLimited },
    statusAtGrant := r.status, start := none, endReason := none, held := none }

/-- An authorization becomes a grant: the reservations are taken, the vehicle is bound and the hose enters READY
(R12, R114, R155). -/
def makeGrant (h : HoseId) (g : Grant) (s : State) : State :=
  let s := s.setTank g.tank { s.tank g.tank with reserved := (s.tank g.tank).reserved + g.tankRes }
  let s := takeReservation s
  let s := s.setVehicle g.vehicle { s.vehicle g.vehicle with binding := some h }
  let x := s.hose h
  let s := s.setHose h
    { x with
      state := .ready, grant := some g, lastRefusal := none, stray := 0, lamp := grantColour g.statusAtGrant
      timers := { x.timers with refusal := none, ready := some x.config.readyTimeout } }
  raise (.hoseState h) (.entered .ready) s

/-- Checks 1 to 10 of R7, giving the vehicle. -/
def checksToTen (h : HoseId) (a : AuthRequest) (s : State) : Except StatusCode VehicleId :=
  match firstFail (earlyChecks h s) with
  | some c => .error c
  | none =>
    match findVehicle a.who s with
    | none => .error .noVehicle
    | some v =>
      match firstFail (vehicleChecks h v s) with
      | some c => .error c
      | none => .ok v

/-- The hour reading is applied after checks 1 to 10 (R10). -/
def applyHours (v : VehicleId) (hours : Option Nat) (s : State) : State × Bool :=
  match hours with
  | some n => applyReading v n s
  | none => (s, false)

/-- An authorization (R7 to R12): the state after it, and the grant or the refusal code. -/
def authorizeHose (h : HoseId) (a : AuthRequest) (s : State) : State × Except StatusCode Grant :=
  match checksToTen h a s with
  | .error c => (s, .error c)
  | .ok v =>
    let (s, regress) := applyHours v a.hours s
    match firstFail (lateChecks h v a s) with
    | some c => (s, .error c)
    | none =>
      match (clampFor h v a s).refusal with
      | some c => (s, .error c)
      | none =>
        let g := grantOf h v a regress s
        (makeGrant h g s, .ok g)

/-- A refusal on the tag path is displayed (R13). -/
def displayRefusal (h : HoseId) (c : StatusCode) (s : State) : State :=
  let x := s.hose h
  let s := s.setHose h
    { x with
      lastRefusal := some c, lamp := .red
      timers := { x.timers with refusal := some Config.refusalDisplay } }
  raise (.hoseState h) (.refusal c) s

/-- A tag read reaches a hose (R8). -/
def takeTag (h : HoseId) (tag : Tag) (hours : Option Nat) (s : State) : State :=
  let x := s.hose h
  match x.state with
  | .idle =>
    match authorizeHose h { path := .tag, who := .inl tag, supervisor := false, hours := hours, presetL := 0 } s with
    | (s, .ok _) => s
    | (s, .error c) => displayRefusal h c s
  | .ready =>
    match x.grant with
    | some g =>
      if tag ≠ 0 && g.tag = tag then
        s.setHose h { x with timers := { x.timers with ready := some x.config.readyTimeout } }
      else s
    | none => s
  | .starting | .flowing | .trimming | .paused | .closing | .settled => s

/-- AUTHORIZE (R9). Flags: bit 0 supervisor, bit 1 hour reading present (Chapter 11). -/
def takeAuthorize (hose : Byte) (vehicle preset : BitVec 16) (flags : Byte) (hours : BitVec 32) (s : State) :
    State × Answer :=
  match hoseOf hose, vehicleOf vehicle with
  | some h, some v =>
    if !onlyBits 0x03#8 flags then refuse .range s
    else
      match authorizeHose h
          { path := .host, who := .inr v, supervisor := flags.getLsbD 0,
            hours := optional (flags.getLsbD 1) hours.toNat, presetL := preset.toNat } s with
      | (s, .ok g) => (s, .reply .ok (.authorized g.preset g.tankRes g.flags g.statusAtGrant))
      | (s, .error c) => (s, .reply c .none)
  | _, _ => refuse .range s

end Sys2Proof.Machine
end

