-- ==== Sys2Proof/Machine/Settle.lean ====
section
/-! DEFINITION. Chapter 1, sections 1.6 to 1.10, and Chapter 2: what a hose does with each arrival and expiry, the
settle accounting, and the requests on a hose. -/

namespace Sys2Proof.Machine

open Sys2Proof

/-! ### Arrivals -/

/-- A nozzle lift (R5, R14, R20, R22, R27, R29). -/
def takeLift (h : HoseId) (s : State) : State :=
  match (s.hose h).state with
  | .idle => raise (.hoseState h) .unauthorisedLift s
  | .ready => enterStarting h s
  | .starting | .flowing | .trimming | .paused | .closing | .settled => s

/-- A nozzle hang (R5, R14, R20, R22, R24, R27, R29). -/
def takeHang (h : HoseId) (s : State) : State := closeIf HoseState.demands .nozzleHung h s

/-- A stray pulse (R6). -/
def strayPulse (h : HoseId) (s : State) : State :=
  let x := s.hose h
  raise (.hoseFault h) .strayFlow (s.setHose h { x with stray := satAdd Config.count16 x.stray 1 })

/-- The hose takes a pulse for its timers (R22, R27, R37, R38). -/
def pulseTimers (x : Hose) : Hose :=
  match x.state with
  | .flowing | .trimming => { x with timers := { x.timers with noFlow := some x.config.noFlowTimeout } }
  | .closing => { x with timers := { x.timers with settle := some x.config.settleTime } }
  | .idle | .ready | .starting | .paused | .settled => x

/-- An agreeing pulse (R6, R37). -/
def takeAgreeing (h : HoseId) (s : State) : State :=
  if (s.hose h).state.counted then
    let e := s.engine h
    (s.setEngine h { e with dP := satAdd Config.count16 e.dP 1 }).setHose h (pulseTimers (s.hose h))
  else strayPulse h s

/-- The engine counts a disagreeing pulse (R38). -/
def countError (e : Engine) : Engine := { e with errors := satAdd Config.count16 e.errors 1 }

/-- Is the pulse error count first above the latched limit? (R38) -/
def overLimit (e : Engine) : Bool :=
  match e.latched with
  | some l => decide (l.errorLimit < e.errors) && !e.faultReported
  | none => false

/-- A disagreeing pulse (R6, R38). -/
def takeDisagreeing (h : HoseId) (s : State) : State :=
  if (s.hose h).state.counted then
    let e := countError (s.engine h)
    let s := s.setHose h (pulseTimers (s.hose h))
    if overLimit e then
      closeIf HoseState.demands .measureFault h (s.setEngine h { e with faultReported := true })
    else s.setEngine h e
  else strayPulse h s

/-- States in which a sample completion is compared with the preset (R21, R40). -/
def HoseState.compares : HoseState → Bool
  | .flowing | .trimming | .paused => true
  | .idle | .ready | .starting | .closing | .settled => false

/-- Does a gross volume reach the preset less the prestop? (R21) -/
def presetReached (preset prestop gross : Nat) : Bool := decide (preset ≤ gross + prestop)

/-- Is the remaining volume at most the slow volume? (R21, R24) -/
def remainingIsSlow (preset slow gross : Nat) : Bool := decide (preset ≤ gross + slow)

/-- The valve steps to SLOW and the hose enters TRIMMING (R21). -/
def enterTrimming (h : HoseId) (s : State) : State :=
  raise (.hoseState h) (.entered .trimming) (s.setHose h { s.hose h with state := .trimming, valve := .slow })

/-- The comparison at a sample completion (R21). -/
def compareWithPreset (h : HoseId) (s : State) : State :=
  let x := s.hose h
  match x.grant with
  | none => s
  | some g =>
    let gross := (s.engine h).gross
    if !x.state.compares then s
    else if presetReached g.preset x.config.prestop gross then enterClosing h .presetReached s
    else if decide (x.state = .flowing) && remainingIsSlow g.preset x.config.slowVolume gross then enterTrimming h s
    else s

/-- The sample timer expires (R40). -/
def takeSample (h : HoseId) (s : State) : State :=
  if (s.engine h).sampleTimer then compareWithPreset h (s.setEngine h (fullSample (s.engine h))) else s

/-- The ready timer expires (R14, R15). -/
def readyExpires (h : HoseId) (s : State) : State :=
  let x := s.hose h
  match x.state, x.timers.ready with
  | .ready, some _ => releaseGrant h .readyTimeout s
  | _, _ => s

/-- The no-flow timer expires (R22). -/
def noFlowExpires (h : HoseId) (s : State) : State :=
  let x := s.hose h
  match x.timers.noFlow with
  | some _ => closeIf HoseState.flows .noFlow h s
  | none => s

/-- The pause timer expires (R24). -/
def pauseExpires (h : HoseId) (s : State) : State :=
  let x := s.hose h
  match x.timers.pause with
  | some _ => closeIf (fun st => decide (st = .paused)) .pauseTimeout h s
  | none => s

/-- The refusal display ends (R13). -/
def displayEnds (h : HoseId) (s : State) : State :=
  let x := s.hose h
  match x.timers.refusal with
  | some _ => s.setHose h { x with lamp := .off, timers := { x.timers with refusal := none } }
  | none => s

/-! ### Settle accounting (R28) -/

/-- The delivery record of a hose whose measurement is final (R28). -/
def deliveryOf (h : HoseId) (g : Grant) (overrun : Bool) (e : Engine) (now : RecTime) : DeliveryRecord :=
  { hose := h, tank := g.tank, product := g.product, vehicle := g.vehicle, tag := g.tag, path := g.path,
    hours := g.hours, preset := g.preset, gross := e.gross, net := e.net,
    average := e.average.getD e.t0, endReason := g.endReason.getD .presetReached, grantFlags := g.flags,
    overspeed := e.overspeed, uncompensated := e.uncompensated, regress := g.regress, overrunLong := overrun,
    statusAtGrant := g.statusAtGrant, start := g.start.getD now, finish := now, grossTotalizer := e.grossTotal }

/-- Steps 1 to 5 of the settle accounting, on a final measurement; the hose enters SETTLED with its held record
(R28, R54). -/
def settleAccounting (h : HoseId) (g : Grant) (overrun : Bool) (s : State) : State :=
  let net := (s.engine h).net
  let s := debitBook g.tank h net s
  let s := takeOffReserved g.tank g.tankRes s
  let s := creditFuel g.vehicle net s
  let e := advanceTotals (s.engine h)
  let s := beginWrite (.totalizers h e.grossTotal e.netTotal) (s.setEngine h e)
  let d := deliveryOf h g overrun e (recordedTime s)
  let s := joinQueue (.delivery d) s
  let x := s.hose h
  s.setHose h
    { x with
      state := .settled, valve := .closed, lamp := .off, timers := .stopped, lastEnd := some d.endReason
      grant := some { g with tankRes := 0, held := some d } }

/-- Entry to SETTLED from CLOSING (R27, R28, R50, R79). -/
def enterSettled (h : HoseId) (overrun : Bool) (s : State) : State :=
  match (s.hose h).grant with
  | none => s
  | some g =>
    let s := s.setEngine h (finishMeasurement (s.engine h))
    let s := settleAccounting h g overrun s
    let s := startQuietTimer (s.hose h).config.tank s
    raise (.hoseState h) (.entered .settled) s

/-- The settle timer expires (R27, R28). -/
def settleExpires (h : HoseId) (s : State) : State :=
  let x := s.hose h
  match x.state, x.timers.settle with
  | .closing, some _ => enterSettled h false s
  | _, _ => s

/-- The closing limit expires (R27). -/
def closingExpires (h : HoseId) (s : State) : State :=
  let x := s.hose h
  match x.state, x.timers.closing with
  | .closing, some _ => raise (.hoseFault h) .overrunLong (enterSettled h true s)
  | _, _ => s

/-- A SETTLED hose's held record is written: it returns to IDLE (R29). -/
def returnToIdle (h : HoseId) (s : State) : State :=
  let x := s.hose h
  match x.state, x.grant with
  | .settled, some g =>
    raise (.hoseState h) (.entered .idle) ((clearBinding g.vehicle s).setHose h x.toIdle)
  | _, _ => s

/-! ### Emergency stop (R26, R106, R198) -/

/-- A hose takes the emergency stop (R26). -/
def hoseTakesStop (h : HoseId) (s : State) : State :=
  closeIf HoseState.demands .estop h (withdrawIfReady h s)

/-- The emergency-stop input becomes active: the hoses, the pumps and the link controller take it (R26, R106,
R198). -/
def takeStop (s : State) : State :=
  let s := s.setLink { s.link with estop := true }
  raise .mode .estopActive (stopPumps (forAll allHoses hoseTakesStop s))

/-- The emergency-stop input is released (R106, R198). -/
def takeRelease (s : State) : State :=
  let s := s.setLink { s.link with estop := false }
  let s := forAll allTanks
    (fun t s => if 0 < (s.pump t).demand && decide ((s.pump t).state = .stopped) then requestSlot t s else s) s
  raise .mode .estopReleased s

/-! ### Pressure and pump timers (R101, R103, R104) -/

/-- The pressure switch rises (R98, R103, R104). -/
def takePressureUp (t : TankId) (s : State) : State :=
  let p := { s.pump t with pressureUp := true }
  match p.state with
  | .starting =>
    if 0 < p.demand then
      let s := s.setPump t { p with state := .running, starter := true, startTimer := none }
      reportRunning t (freeSlot s)
    else freeSlot (s.setPump t (runOnOrStop p))
  | .stopped | .waiting => raise (.pump t) .pressureUnexpected (s.setPump t p)
  | .running | .runOn | .fault => s.setPump t p

/-- The pressure switch falls (R98, R103, R104). -/
def takePressureDown (t : TankId) (s : State) : State :=
  let p := { s.pump t with pressureUp := false }
  match p.state with
  | .running =>
    raise (.pump t) .pressureLost (reportPressureLost t (s.setPump t (faultPump .pressureLost p)))
  | .runOn => raise (.pump t) .pressureLost (s.setPump t (faultPump .pressureLost p))
  | .stopped | .waiting | .starting | .fault => s.setPump t p

/-- The start timer expires (R103). -/
def startExpires (t : TankId) (s : State) : State :=
  let p := s.pump t
  match p.state, p.startTimer with
  | .starting, some _ =>
    raise (.pump t) .startTimeout (reportStartFailure t (freeSlot (s.setPump t (faultPump .startTimeout p))))
  | _, _ => s

/-- The run-on timer expires (R101). -/
def runOnExpires (t : TankId) (s : State) : State :=
  let p := s.pump t
  match p.state, p.runOnTimer with
  | .runOn, some _ => s.setPump t (stopPump p)
  | _, _ => s

/-! ### Requests on a hose and on a pump -/

/-- CANCEL (R18). -/
def takeCancel (hose : Byte) (s : State) : State × Answer :=
  match hoseOf hose with
  | none => refuse .range s
  | some h =>
    if (s.hose h).state = .ready then (releaseGrant h .cancelled s, .reply .ok .none) else refuse .state s

/-- STOP (R25). -/
def takeStopRequest (hose : Byte) (s : State) : State × Answer :=
  match hoseOf hose with
  | none => refuse .range s
  | some h =>
    if (s.hose h).state.demands then (enterClosing h .hostStop s, .reply .ok .none) else refuse .state s

/-- PAUSE (R23). -/
def takePause (hose : Byte) (s : State) : State × Answer :=
  match hoseOf hose with
  | none => refuse .range s
  | some h =>
    let x := s.hose h
    if x.state.flows then
      let s := s.setHose h
        { x with
          state := .paused, valve := .closed
          timers := { x.timers with noFlow := none, pause := some x.config.pauseTimeout } }
      (raise (.hoseState h) (.entered .paused) s, .reply .ok .none)
    else refuse .state s

/-- The state that RESUME enters (R24). -/
def resumedState (x : Hose) (gross : Nat) : HoseState × Valve :=
  match x.grant with
  | some g => if remainingIsSlow g.preset x.config.slowVolume gross then (.trimming, .slow) else (.flowing, .full)
  | none => (.flowing, .full)

/-- RESUME (R24). -/
def takeResume (hose : Byte) (s : State) : State × Answer :=
  match hoseOf hose with
  | none => refuse .range s
  | some h =>
    let x := s.hose h
    if x.state = .paused then
      let nxt := resumedState x (s.engine h).gross
      let s := s.setHose h
        { x with
          state := nxt.1, valve := nxt.2
          timers := { x.timers with pause := none, noFlow := some x.config.noFlowTimeout } }
      (raise (.hoseState h) (.entered nxt.1) s, .reply .ok .none)
    else refuse .state s

/-- Is a measurement of the delivery to be reported, from STARTING through SETTLED? (R31) -/
def HoseState.reportsLive : HoseState → Bool
  | .starting | .flowing | .trimming | .paused | .closing | .settled => true
  | .idle | .ready => false

/-- What HOSE_QUERY reads (R31). -/
def hoseReply (x : Hose) (e : Engine) : HoseReply :=
  { state := x.state, valve := x.valve, lamp := x.lamp, tank := x.config.tank,
    vehicle := x.grant.map (·.vehicle), preset := x.grant.map (·.preset), tankRes := x.grant.map (·.tankRes),
    flags := x.grant.map (·.flags),
    live := if x.state.reportsLive then some (e.gross, e.net, e.lastQ) else none,
    errors := if x.state.reportsLive then some e.errors else none,
    lastRefusal := x.lastRefusal, stray := x.stray, lastEnd := x.lastEnd }

/-- HOSE_QUERY (R31). -/
def takeHoseQuery (hose : Byte) (s : State) : State × Answer :=
  match hoseOf hose with
  | none => refuse .range s
  | some h => (s, .reply .ok (.hose (hoseReply (s.hose h) (s.engine h))))

/-- HOSE_SET (R32). -/
def takeHoseSet (hose : Byte) (w : WireHoseConfig) (s : State) : State × Answer :=
  match hoseOf hose with
  | none => refuse .range s
  | some h =>
    let x := s.hose h
    if x.state ≠ .idle then refuse .state s
    else
      match hoseConfigOf w with
      | none => refuse .range s
      | some c => (beginWrite (.hoseConfig h c) (s.setHose h { x with config := c }), .hold (.hoseSet h))

/-- TOTALIZER_READ (R55). -/
def takeTotalizerRead (hose : Byte) (s : State) : State × Answer :=
  match hoseOf hose with
  | none => refuse .range s
  | some h =>
    (s, .reply .ok (.totalizers (s.engine h).grossTotal (s.engine h).netTotal (s.hose h).state))

/-- PUMP_SET (R107). -/
def takePumpSet (tank : Byte) (w : WirePumpConfig) (s : State) : State × Answer :=
  match tankOf tank, pumpConfigOf w with
  | some t, some c =>
    let p := s.pump t
    match p.state with
    | .stopped | .fault => (beginWrite (.pumpConfig t c) (s.setPump t { p with config := c }), .hold (.pumpSet t))
    | .waiting | .starting | .running | .runOn => refuse .state s
  | _, _ => refuse .range s

/-- What PUMP_QUERY reads (R108). -/
def pumpReply (p : Pump) (s : State) : PumpReply :=
  { state := p.state, demand := p.demand, starter := p.starter, pressureUp := p.pressureUp, config := p.config,
    secondsLeft :=
      match p.state with
      | .starting => p.startTimer
      | .runOn => p.runOnTimer
      | .stopped | .waiting | .running | .fault => none,
    lastFault := p.lastFault, slotHolder := s.slotHolder, waiting := waitingPumps s }

/-- PUMP_QUERY (R108). -/
def takePumpQuery (tank : Byte) (s : State) : State × Answer :=
  match tankOf tank with
  | none => refuse .range s
  | some t => (s, .reply .ok (.pump (pumpReply (s.pump t) s)))

/-- PUMP_CLEAR (R105). -/
def takePumpClear (tank : Byte) (s : State) : State × Answer :=
  match tankOf tank with
  | none => refuse .range s
  | some t =>
    let p := s.pump t
    if p.state = .fault then (s.setPump t { p with state := .stopped }, .reply .ok .none) else refuse .state s

end Sys2Proof.Machine
end

