-- ==== Sys2Proof/Machine/JournalOps.lean ====
section
/-! DEFINITION. Chapter 8, the transaction journal: the write of the head record and its outcomes, the reports to the
owners of the records, erases, and the requests on the journal. -/

namespace Sys2Proof.Machine

open Sys2Proof

/-! ### The beginning of a write (R153, R156) -/

/-- The conditions under which a write of the head record begins (R156). -/
def Journal.mayWrite (j : Journal) : Bool :=
  !j.writing && !j.queue.isEmpty && j.active.isSome && !j.faulted

/-- The timestamp and time-valid flag of a record at its first write attempt (R153). -/
def journalTime (s : State) : Nat × Bool :=
  match s.clock.valid, s.journal.newest with
  | true, some n => (max s.clock.count n.2, true)
  | true, none => (s.clock.count, true)
  | false, some n => (n.2, false)
  | false, none => (0, false)

/-- The head record gets its sequence number and timestamp at its first write attempt (R153). -/
def stampHead (q : Queued) (rest : List Queued) (s : State) : State :=
  let j := s.journal
  match q.stamp with
  | some _ => s.setJournal { j with writing := true }
  | none =>
    let t := journalTime s
    s.setJournal
      { j with
        writing := true, nextSeq := j.nextSeq + 1
        queue := { q with stamp := some { seq := j.nextSeq, time := t.1, valid := t.2 } } :: rest }

/-- A journal write begins, or the journal finds its sequence numbers spent (R153, R156). -/
def beginJournalWrite (s : State) : State :=
  if s.journal.mayWrite then
    match s.journal.queue with
    | [] => s
    | q :: rest =>
      if s.journal.spent then enterFaulted s else stampHead q rest s
  else s

/-- A TIME_SET taken while a write is in flight: the record being written takes its timestamp from the clock as
TIME_SET left it (R176; assumption 37). -/
def restamp (time : Nat) (j : Journal) : Journal :=
  if j.writing then
    match j.queue with
    | { record := r, stamp := some st } :: rest =>
      { j with queue := { record := r, stamp := some { st with time := time, valid := true } } :: rest }
    | _ => j
  else j

/-! ### The completion of a write (R157, R159) -/

/-- The held request waits for its store write with the number of its written record (R63, R147). -/
def setHeldWait (w : HeldWait) (s : State) : State :=
  match s.link.held with
  | none => s
  | some q => s.setLink { s.link with held := some { q with wait := w } }

/-- The calibration store takes the report of its written record: the held request keeps the number and the store write
begins (R63, R64, R65). -/
def calibrationWritten (c : CalibrationRecord) (seq : Nat) (s : State) : State :=
  match c with
  | .hose h _ _ _ _ _ _ =>
    let s := match s.link.held with
      | some { wait := .calWrite h' none, .. } => if h' = h then setHeldWait (.calWrite h (some seq)) s else s
      | _ => s
    beginWrite (.calibration h (s.cal h).data) s
  | .product p _ _ _ =>
    let s := match s.link.held with
      | some { wait := .productSet p' none, .. } => if p' = p then setHeldWait (.productSet p (some seq)) s else s
      | _ => s
    beginWrite (.product p (s.product p).data) s

/-- Service accounting takes the report of its written record (R147). -/
def serviceWritten (v : VehicleId) (seq : Nat) (s : State) : State :=
  let s := match s.link.held with
    | some { wait := .serviceDone v' none, .. } => if v' = v then setHeldWait (.serviceDone v (some seq)) s else s
    | _ => s
  let r := s.vehicle v
  beginWrite (.service v r.marks r.revision r.usage) s

/-- The tank account takes the report of its written ADJUST record: the held request is answered and the store write
of the book and revision begins (R89), also for a record that was carried across a reset (assumption 52). -/
def adjustWritten (a : AdjustRecord) (seq : Nat) (s : State) : State :=
  let s := match s.link.held with
    | some { wait := .stockAdjust t _ revision, .. } =>
      if t = a.tank && revision = a.revision then finishHeld .ok (.adjusted a.newBook a.revision (some seq)) s else s
    | _ => s
  beginWrite (.bookRevision a.tank (s.tank a.tank).book (s.tank a.tank).revision) s

/-- The journal reports a completion to the record's owner (R157 step 4). -/
def reportWritten (r : Record) (seq : Nat) (s : State) : State :=
  match r with
  | .delivery d => returnToIdle d.hose s
  | .receipt _ => s
  | .calibration c => calibrationWritten c seq s
  | .service r => serviceWritten r.vehicle seq s
  | .adjust a => adjustWritten a seq s
  | .interruption _ => s

/-- A slot of a segment is used (R157, R159). -/
def useSlot (g : SegmentId) (x : Slot) (j : Journal) : Journal :=
  j.setSegment g { j.segment g with slots := (j.segment g).slots ++ [x] }

/-- A write completes successfully (R157). -/
def writeSucceeds (g : SegmentId) (r : Record) (st : Stamp) (rest : List Queued) (s : State) : State :=
  let j := useSlot g (.written { record := r, stamp := st }) s.journal
  let s := s.setJournal { j with
      newest := some (st.seq, st.time), queue := rest, reservations := j.reservations - 1, writing := false }
  thresholdTest (reportWritten r st.seq (segmentChange g s))

/-- The worn marks of the segments, as they are stored (R152). -/
def Journal.wornMarks (j : Journal) : Vector Bool 32 := vmap (·.worn) j.segments

/-- The retired marks of the segments, as they are stored (R152). -/
def Journal.retiredMarks (j : Journal) : Vector Bool 32 := vmap (fun g => decide (g.state = .retired)) j.segments

/-- A segment becomes worn at its first failed write (R159 step 2). -/
def wear (g : SegmentId) (s : State) : State :=
  let sg := s.journal.segment g
  if sg.worn then s
  else
    let j := s.journal.setSegment g { sg with worn := true }
    beginWrite (.wornMarks j.wornMarks) (s.setJournal j)

/-- A write fails its read-back (R159). -/
def writeFails (g : SegmentId) (s : State) : State :=
  let s := s.setJournal { useSlot g .void s.journal with writing := false }
  faultTest (segmentChange g (wear g s))

/-- A journal write completes (R157, R159). Without a write in flight none completes. -/
def endJournalWrite (agrees : Bool) (s : State) : State :=
  match s.journal.writing, s.journal.active, s.journal.queue with
  | true, some g, { record := r, stamp := some st } :: rest =>
    if agrees then writeSucceeds g r st rest s else writeFails g s
  | _, _, _ => s

/-! ### Erases (R165, R166) -/

/-- Is a FULL segment eligible for erase under the stored acknowledged-through sequence? (R165) -/
def eligible (ack : Nat) (g : Segment) : Bool :=
  decide (g.state = .full) && (writtenOf g.slots).all fun r => decide (r.stamp.seq ≤ ack)

/-- Does a segment hold a record as old as every record of another one? -/
def Segment.asOld (x y : Segment) : Bool :=
  (writtenOf y.slots).all fun r => (writtenOf x.slots).any fun q => decide (q.stamp.seq ≤ r.stamp.seq)

/-- The eligible segments, the one holding the oldest records first (R165); one that holds no record stands after those
that do (assumption 49). -/
def Journal.eligibleSegments (j : Journal) (ack : Nat) : List SegmentId :=
  ((segmentsAfter j.highWater.segment).filter fun g => eligible ack (j.segment g)).insertionSort
    fun g k => (j.segment g).asOld (j.segment k) = true

/-- The segments found ERASING by the scan and not yet erased again, oldest first: in circular order, as their records
are gone (R151, R171). -/
def Journal.cutShort (j : Journal) : List SegmentId :=
  (segmentsAfter j.highWater.segment).filter fun g => decide ((j.segment g).state = .erasing)

/-- An erase begins: the segment gets its erase mark and its records are gone for reading (R165). -/
def beginErase (g : SegmentId) (s : State) : State :=
  let j := s.journal
  let j := j.setSegment g { j.segment g with state := .erasing, eraseMark := true, slots := [] }
  s.setJournal { j with erase := some g }

/-- The next erase begins when none is in flight: first the segments whose erase a reset cut short, then the eligible
ones (R165, R171). -/
def startErase (s : State) : State :=
  match s.journal.erase with
  | some _ => s
  | none =>
    match s.journal.cutShort ++ s.journal.eligibleSegments s.store.stored.ack with
    | [] => s
    | g :: _ => beginErase g s

/-- A segment becomes RETIRED (R166). -/
def retire (g : SegmentId) (x : Segment) (s : State) : State :=
  let j := s.journal.setSegment g { x with state := .retired, worn := false, slots := [] }
  let s := beginWrite (.retiredMarks j.retiredMarks) (s.setJournal j)
  thresholdTest (raise .journal .segmentRetired s)

/-- An erased segment becomes FREE, and ACTIVE at once when there is no ACTIVE segment (R166). -/
def freeSegment (g : SegmentId) (x : Segment) (s : State) : State :=
  let s := s.setJournal (s.journal.setSegment g { x with state := .free, eraseMark := false, slots := [] })
  match s.journal.active with
  | none => activate g s
  | some _ => s

/-- An erase ends (R166). Without an erase in flight none ends. -/
def endErase (blank : Bool) (s : State) : State :=
  match s.journal.erase with
  | none => s
  | some g =>
    let x := s.journal.segment g
    let s := s.setJournal { s.journal with erase := none }
    let s :=
      if !blank then retire g x s
      else if x.worn then retire g { x with eraseMark := false } s
      else freeSegment g x s
    recoverTest s

/-! ### Requests (R162, R163, R168) -/

/-- A record as JOURNAL_READ returns it (R162). -/
def recordReply (r : JRecord) : RecordReply := { record := r, image := slotImage r }

/-- JOURNAL_READ (R162). The acknowledged-through sequence of its reply is the working one (assumption 44). -/
def takeJournalRead (start : BitVec 32) (count : Byte) (s : State) : State × Answer :=
  if !inRange 1 8 count.toNat then refuse .range s
  else
    let rs := s.journal.written.filter fun r => decide (start.toNat ≤ r.stamp.seq)
    (s, .reply .ok
      (.records ((rs.take count.toNat).map recordReply) s.journal.ack
        ((rs.drop count.toNat).head?.map fun r => r.stamp.seq)))

/-- Is a sequence above the newest written record's? (R163) -/
def Journal.aboveNewest (j : Journal) (seq : Nat) : Bool :=
  match j.newest with
  | none => true
  | some n => decide (n.1 < seq)

/-- Does an acknowledgement reach the oldest held record? (R163) -/
def Journal.reachesHeld (j : Journal) (seq : Nat) : Bool :=
  match j.held with
  | [] => false
  | r :: _ => decide (r.stamp.seq ≤ seq)

/-- JOURNAL_ACK (R68, R163). -/
def takeJournalAck (seq : BitVec 32) (s : State) : State × Answer :=
  let n := seq.toNat
  if s.link.inspection then refuse .held s
  else if s.journal.aboveNewest n then refuse .range s
  else if s.journal.reachesHeld n then
    let s := beginAckWrite (thresholdTest (s.setJournal { s.journal with ack := n }))
    (s, .reply .ok (.acked s.journal.ack s.journal.held.length))
  else (s, .reply .ok (.acked s.journal.ack s.journal.held.length))

/-- What JOURNAL_STATUS reads (R168). -/
def journalReply (s : State) : JournalReply :=
  let j := s.journal
  { free := j.free, reservations := j.reservations, heldRecords := j.held.length, usable := j.usable,
    oldest := j.written.head?.map (fun r => r.stamp.seq), newest := j.newest.map (·.1),
    oldestHeld := j.held.head?.map (fun r => r.stamp.seq), ackWorking := j.ack, ackStored := s.store.stored.ack,
    active := j.active.map (fun g => (g, (j.segment g).slots.length)), queued := j.queue.length, writing := j.writing,
    erasing := j.erase, eligible := (j.eligibleSegments s.store.stored.ack).length,
    retired := j.countState .retired, worn := (allSegments.filter fun g => (j.segment g).worn).length,
    faulted := j.faulted, armed := j.armed }

/-- JOURNAL_STATUS (R168). -/
def takeJournalStatus (s : State) : State × Answer := (s, .reply .ok (.journalStatus (journalReply s)))

end Sys2Proof.Machine
end

