-- ==== Sys2Proof/Machine/Vehicles.lean ====
section
/-! DEFINITION. Chapters 6 and 7, the requests on the vehicle register and on service accounting: reading records,
VEHICLE_PUT, the load session, hour readings, completions, classes, the due list and the service query. -/

namespace Sys2Proof.Machine

open Sys2Proof

/-! ### Reading the register (R113, R116, R117) -/

/-- VEHICLE_GET (R116). -/
def takeVehicleGet (index : BitVec 16) (s : State) : State × Answer :=
  match vehicleOf index with
  | none => refuse .range s
  | some v => (s, .reply .ok (.vehicle (vehicleImage v (s.vehicle v))))

/-- VEHICLE_FIND (R113). -/
def takeVehicleFind (tag : Tag) (s : State) : State × Answer :=
  match findByTag tag s with
  | none => refuse .noVehicle s
  | some v => (s, .reply .ok (.found v (s.vehicle v).revision (s.vehicle v).binding))

/-- Number of in-use vehicles of a class (R117). -/
def vehiclesOfClass (c : ClassId) (s : State) : Nat :=
  (s.listedVehicles.filter fun e => e.2.host.inUse && decide (e.2.host.cls = c)).length

/-- CLASS_READ (R117). -/
def takeClassRead (cls : Byte) (s : State) : State × Answer :=
  match classOf cls with
  | none => refuse .range s
  | some c => (s, .reply .ok (.classInfo (s.classOf c) (vehiclesOfClass c s)))

/-! ### Placing a host part (R112, R119, R121, R124) -/

/-- The revision of a record advances by 1, wrapping (R109). -/
def advanceRevision (r : Nat) : Nat := (r + 1) % Config.revisionModulus

/-- The enabled record at another index that holds the tag of a record to be placed (R112). -/
def tagHolder (v : VehicleId) (p : HostPart) (s : State) : Option VehicleId :=
  if p.inUse && p.enabled && decide (p.tag ≠ 0) then
    (s.listedVehicles.find? fun e => decide (e.1 ≠ v) && e.2.carries p.tag).map (·.1)
  else none

/-- Is the usage part set anew by a placement: a creation or a removal? (R121) -/
def setsUsage (old new : HostPart) : Bool := !old.inUse || !new.inUse

/-- A record with its host part replaced: the revision advances, and the usage part and marks are kept, or set as a
creation or a removal sets them (R119 step 1, R121). -/
def Vehicle.placed (r : Vehicle) (p : HostPart) : Vehicle :=
  if setsUsage r.host p then
    { r with host := p, revision := advanceRevision r.revision, usage := .fresh, marks := freshMarks }
  else { r with host := p, revision := advanceRevision r.revision }

/-- A host part is placed at an index and the status recomputed (R119 steps 1 and 2). -/
def placeRecord (v : VehicleId) (p : HostPart) (s : State) : State :=
  recompute v (s.setVehicle v ((s.vehicle v).placed p))

/-- What the store write of a placed record holds (R119 step 4, R121). -/
def placedOf (v : VehicleId) (old : Vehicle) (p : HostPart) : PlacedRecord :=
  { vehicle := v, host := p, revision := advanceRevision old.revision, fresh := setsUsage old.host p }

/-- Check 3 of R118: a bound vehicle keeps its in-use, tag and class. -/
def keepsIdentity (old new : HostPart) : Bool :=
  old.inUse && new.inUse && decide (new.tag = old.tag) && decide (new.cls = old.cls)

/-- A lock withdraws the vehicle's grant in READY (R115, R119 step 3). -/
def lockWithdraws (v : VehicleId) (p : HostPart) (s : State) : State :=
  match (s.vehicle v).binding with
  | some h => if p.hostLocked then withdrawIfReady h s else s
  | none => s

/-- The refusal of a request prepared against another revision (R118, R133, R145). -/
def revisionRefusal (v : VehicleId) (s : State) : State × Answer :=
  (s, .reply .revision (.revisionConflict (s.vehicle v).revision (vehicleImage v (s.vehicle v))))

/-- An accepted VEHICLE_PUT (R119). -/
def acceptPut (v : VehicleId) (p : HostPart) (s : State) : State :=
  let old := s.vehicle v
  beginWrite (.vehicles [placedOf v old p]) (lockWithdraws v p (placeRecord v p s))

/-- VEHICLE_PUT (R118, R119). -/
def takeVehiclePut (index : BitVec 16) (w : WireHostPart) (expected : BitVec 16) (s : State) : State × Answer :=
  match vehicleOf index, hostPartOf w with
  | some v, some p =>
    let old := s.vehicle v
    if old.revision ≠ expected.toNat then revisionRefusal v s
    else
      match old.binding, tagHolder v p s with
      | some h, holder =>
        if !keepsIdentity old.host p then (s, .reply .bound (.boundTo h))
        else
          match holder with
          | some x => (s, .reply .dupTag (.dupTag x))
          | none => (acceptPut v p s, .hold (.vehiclePut v))
      | none, some x => (s, .reply .dupTag (.dupTag x))
      | none, none => (acceptPut v p s, .hold (.vehiclePut v))
  | _, _ => refuse .range s

/-! ### The load session (R122 to R126) -/

/-- VEHICLE_LOAD_BEGIN (R122). -/
def takeLoadBegin (start : BitVec 16) (s : State) : State × Answer :=
  match vehicleOf start with
  | none => refuse .range s
  | some v =>
    match s.loadSession with
    | some _ => refuse .state s
    | none => (s.setLoad (some v.val), .reply .ok .none)

/-- VEHICLE_LOAD_END (R126). -/
def takeLoadEnd (s : State) : State × Answer :=
  match s.loadSession with
  | none => refuse .state s
  | some next => (s.setLoad none, .reply .ok (.loadClosed next))

/-- How the placements of a request ended (R124). -/
structure Placement where
  status : StatusCode
  next : Nat
  written : List PlacedRecord
  holder : Option VehicleId
  deriving DecidableEq, Repr

/-- The placements of a request from the session's next index; the records placed stand in `done` (R124). -/
def placeRecords (records : List HostPart) (next : Nat) (done : List PlacedRecord) (s : State) : State × Placement :=
  match records with
  | [] => (s, { status := .ok, next := next, written := done, holder := none })
  | p :: rest =>
    match finOf 512 next with
    | none => (s, { status := .loadEnded, next := next, written := done, holder := none })
    | some v =>
      let old := s.vehicle v
      if old.binding.isSome then (s, { status := .loadEnded, next := next, written := done, holder := none })
      else
        match tagHolder v p s with
        | some x => (s, { status := .dupTag, next := next, written := done, holder := some x })
        | none =>
          let done := done ++ [placedOf v old p]
          let s := placeRecord v p s
          if next + 1 = 512 then (s, { status := .loadEnded, next := 512, written := done, holder := none })
          else placeRecords rest (next + 1) done s

/-- The host parts of a request, when each meets check 1 of R118 (R123). -/
def hostPartsIn (ws : List WireHostPart) : Option (List HostPart) :=
  match ws with
  | [] => some []
  | w :: rest =>
    match hostPartOf w, hostPartsIn rest with
    | some p, some ps => some (p :: ps)
    | _, _ => none

/-- VEHICLE_LOAD_NEXT (R123, R124). -/
def takeLoadNext (count : Byte) (ws : List WireHostPart) (s : State) : State × Answer :=
  match s.loadSession with
  | none => refuse .state s
  | some next =>
    if !inRange 1 8 count.toNat || decide (ws.length ≠ count.toNat) then refuse .range s
    else
      match hostPartsIn ws with
      | none => refuse .range s
      | some ps =>
        let (s, r) := placeRecords ps next [] s
        let ended := decide (r.status = .loadEnded)
        let s := s.setLoad (if ended then none else some r.next)
        match r.written with
        | [] => (s, .reply r.status (.loadProgress 0 r.next (!ended) r.holder))
        | _ :: _ =>
          (beginWrite (.vehicles r.written) s, .hold (.loadNext r.status r.written.length r.next r.holder))

/-! ### Hour readings and completions (R133, R145, R146) -/

/-- HOURS_SET (R133). -/
def takeHoursSet (index : BitVec 16) (hours : BitVec 32) (expected : BitVec 16) (s : State) : State × Answer :=
  match vehicleOf index with
  | none => refuse .range s
  | some v =>
    let r := s.vehicle v
    if !r.host.inUse then refuse .noVehicle s
    else if r.revision ≠ expected.toNat then revisionRefusal v s
    else
      let u := { r.usage with hours := some hours.toNat, meter := true, regress := false }
      let revision := advanceRevision r.revision
      let s := recompute v (s.setVehicle v { r with usage := u, revision := revision })
      (beginWrite (.hours v u revision) s, .hold (.hoursSet v))

/-- The marks after a completion of a line: those of lines 1 to it are set, the others stand (R146 step 3). -/
def markLines (line : LineId) (m : Mark) (marks : Vector Mark 4) : Vector Mark 4 :=
  tabulate fun n => if n ≤ line then m else marks.get n

/-- An hour reading that a completion carries is applied (R146 step 2). -/
def applyDoneReading (v : VehicleId) (reading : Option Nat) (s : State) : State × Bool :=
  match reading with
  | some n => applyReading v n s
  | none => (s, false)

/-- An accepted SERVICE_DONE (R146). -/
def acceptDone (v : VehicleId) (line : LineId) (reading : Option Nat) (s : State) : State :=
  let before := s.vehicle v
  let worst := worstLine (s.classOf before.host.cls) before.usage before.marks
  let (s, regress) := applyDoneReading v reading s
  let r := s.vehicle v
  let hours := reading.or r.usage.hours
  let revision := advanceRevision r.revision
  let s := s.setVehicle v
    { r with marks := markLines line { hours := hours, fuel := r.usage.fuel } r.marks, revision := revision }
  let s := takeReservation (recompute v s)
  let after := s.vehicle v
  let s := joinQueue
    (.service
      { vehicle := v, tag := before.host.tag, fleet := before.host.fleet, line := line, hours := reading,
        markHours := hours, fuel := r.usage.fuel, statusBefore := before.status, worstBefore := worst,
        statusAfter := after.status, regress := regress, revision := revision }) s
  s.setVehicle v { s.vehicle v with servicePending := true }

/-- SERVICE_DONE (R145, R146). Flags: bit 0 reading present (Chapter 11). -/
def takeServiceDone (index : BitVec 16) (line flags : Byte) (hours : BitVec 32) (expected : BitVec 16) (s : State) :
    State × Answer :=
  match vehicleOf index, lineOf line with
  | some v, some l =>
    let r := s.vehicle v
    if !onlyBits 0x01#8 flags then refuse .range s
    else if !r.host.inUse then refuse .noVehicle s
    else if r.revision ≠ expected.toNat then revisionRefusal v s
    else if r.servicePending then refuse .state s
    else if !s.journal.requestTest then refuse .journalFull s
    else (acceptDone v l (optional (flags.getLsbD 0) hours.toNat) s, .hold (.serviceDone v none))
  | _, _ => refuse .range s

/-! ### Classes (R139) -/

/-- CLASS_SET: the working record is replaced, and the store write and the sweep begin (R139). -/
def takeClassSet (cls : Byte) (w : WireClass) (s : State) : State × Answer :=
  match classOf cls, classRecordOf w with
  | some c, some r => (beginWrite (.classRecord c r) (s.setClass c r), .hold (.classSet c false 0 0 0))
  | _, _ => refuse .range s

/-! ### The due list and the service query (R143, R150) -/

/-- The worst line of a vehicle's current values (R135, R143). -/
def State.worstOf (s : State) (v : VehicleId) : Option (LineId × Nat) :=
  let r := s.vehicle v
  worstLine (s.classOf r.host.cls) r.usage r.marks

/-- An entry of the due list as it is read (R143). -/
def dueEntry (s : State) (v : VehicleId) : DueEntry :=
  { vehicle := v, fleet := (s.vehicle v).host.fleet, status := (s.vehicle v).status, worst := s.worstOf v }

/-- DUE_LIST_READ (R143). -/
def takeDueListRead (start : BitVec 16) (count : Byte) (s : State) : State × Answer :=
  if !(inRange 0 511 start.toNat && inRange 1 32 count.toNat) then refuse .range s
  else
    (s, .reply .ok (.dueList s.dueList.length s.dueRevision
      (((s.dueList.drop start.toNat).take count.toNat).map (dueEntry s))))

/-- One line of the service query (R150). A line that is not used is answered with the fuel and hours since, and with
per-milles of 0 (assumption 43). -/
def lineReply (c : ClassRecord) (u : Usage) (l : ScheduleLine) (m : Mark) : LineReply :=
  { used := l.used, interval := l, mark := m, fuelSince := fuelSince u m, hoursSince := hoursSince c.burnRate u m,
    measured := (measuredHours u m).isSome, hourPerMille := hourPerMille l (hoursSince c.burnRate u m),
    fuelPerMille := fuelPerMille l (fuelSince u m), perMille := linePerMille c.burnRate l u m }

/-- Position of a value in a list, from a position. -/
def positionFrom {α : Type} [DecidableEq α] (n : Nat) (xs : List α) (x : α) : Option Nat :=
  match xs with
  | [] => none
  | y :: rest => if y = x then some n else positionFrom (n + 1) rest x

/-- What SERVICE_QUERY reads (R150). -/
def serviceReply (v : VehicleId) (s : State) : ServiceReply :=
  let r := s.vehicle v
  let c := s.classOf r.host.cls
  { status := r.status, cls := r.host.cls, warn := c.warn, grace := c.grace, action := c.overdueAction,
    meter := r.usage.meter, hours := r.usage.hours, regress := r.usage.regress, fuel := r.usage.fuel,
    lines := allLines.map fun n => lineReply c r.usage (c.lines.get n) (r.marks.get n),
    worst := (s.worstOf v).map (·.1), position := positionFrom 0 s.dueList v, pending := r.servicePending }

/-- SERVICE_QUERY (R150). -/
def takeServiceQuery (index : BitVec 16) (s : State) : State × Answer :=
  match vehicleOf index with
  | none => refuse .range s
  | some v =>
    if (s.vehicle v).host.inUse then (s, .reply .ok (.service (serviceReply v s))) else refuse .noVehicle s

end Sys2Proof.Machine
end

