-- ==== Sys2Proof/Machine/StoreOps.lean ====
section
/-! DEFINITION. The settings store: the beginning and the completion of its writes, what a completion means to the
block that began the write, and the sweep of a CLASS_SET, which waits beside the store (R63, R128, R139, R140, R147,
R164, R194). -/

namespace Sys2Proof.Machine

open Sys2Proof

/-! ### The contents of the store -/

def Stored.vehicle (st : Stored) (v : VehicleId) : StoredVehicle := Sparse.get .unused st.vehicles v.val
def Stored.setVehicle (st : Stored) (v : VehicleId) (x : StoredVehicle) : Stored :=
  { st with vehicles := Sparse.set .unused st.vehicles v.val x }

/-- A placed record is stored; with it go the usage part and marks that a creation or a removal sets (R121). -/
def storePlaced (p : PlacedRecord) (st : Stored) : Stored :=
  let old := st.vehicle p.vehicle
  st.setVehicle p.vehicle
    { host := p.host, revision := p.revision, usage := if p.fresh then .fresh else old.usage,
      marks := if p.fresh then freshMarks else old.marks }

/-- The store holds what a completed write wrote. -/
def applyWrite (w : StoreWrite) (st : Stored) : Stored :=
  match w with
  | .hoseConfig h c => { st with hoseConfigs := upd st.hoseConfigs h c }
  | .totalizers h gross net => { st with totals := upd st.totals h (gross, net) }
  | .calibration h d => { st with cals := upd st.cals h d }
  | .product p d => { st with products := upd st.products p d }
  | .tankConfig t c revision =>
    { st with tankConfigs := upd st.tankConfigs t c, revisions := upd st.revisions t revision }
  | .strap t points revision => { st with straps := upd st.straps t points, revisions := upd st.revisions t revision }
  | .book t book => { st with books := upd st.books t book }
  | .bookRevision t book revision => { st with books := upd st.books t book, revisions := upd st.revisions t revision }
  | .pumpConfig t c => { st with pumpConfigs := upd st.pumpConfigs t c }
  | .vehicles ps => ps.foldl (fun st p => storePlaced p st) st
  | .usage v u => st.setVehicle v { st.vehicle v with usage := u }
  | .hours v u revision => st.setVehicle v { st.vehicle v with usage := u, revision := revision }
  | .service v m revision u => st.setVehicle v { st.vehicle v with marks := m, revision := revision, usage := u }
  | .classRecord c r => { st with classes := upd st.classes c r }
  | .ackThrough n => { st with ack := n }
  | .highWater hw => { st with highWater := hw }
  | .wornMarks m => { st with worn := m }
  | .retiredMarks m => { st with retired := m }
  | .siteSettings x => { st with site := x }

/-! ### What a completion means to the block that began the write -/

/-- The held request is answered OK when it waits for this (R194). -/
def answerHeld (wait : HeldWait) (body : ReplyBody) (s : State) : State :=
  match s.link.held with
  | none => s
  | some q => if q.wait = wait then finishHeld .ok body s else s

/-- A write of a usage part completes; the further write that waits for it begins (R128). -/
def usageStored (v : VehicleId) (s : State) : State :=
  let r := s.vehicle v
  match r.usageWrite with
  | .none => s
  | .inFlight => s.setVehicle v { r with usageWrite := .none }
  | .again => beginWrite (.usage v r.usage) (s.setVehicle v { r with usageWrite := .inFlight })

/-- A write of the acknowledged-through sequence completes; the further write that waits for it begins (R164). -/
def ackStored (s : State) : State :=
  let j := s.journal
  match j.ackWrite with
  | .none => s
  | .inFlight => s.setJournal { j with ackWrite := .none }
  | .again => beginWrite (.ackThrough j.ack) (s.setJournal { j with ackWrite := .inFlight })

/-- The calibration write of a hose is no longer pending, and its held request is answered (R63). -/
def calStored (h : HoseId) (s : State) : State :=
  let s := s.setCal h { s.cal h with pending := false }
  match s.link.held with
  | some { wait := .calWrite h' (some seq), .. } =>
    if h' = h then finishHeld .ok (.calWritten (s.cal h).data.count (some seq)) s else s
  | _ => s

/-- The product write of an entry is no longer pending, and its held request is answered (R65). -/
def productStored (p : ProductId) (s : State) : State :=
  let s := s.setProduct p { s.product p with pending := false }
  match s.link.held with
  | some { wait := .productSet p' (some seq), .. } =>
    if p' = p then finishHeld .ok (.productWritten (some seq)) s else s
  | _ => s

/-- A vehicle's service write is no longer pending, and its held request is answered (R147). -/
def serviceStored (v : VehicleId) (s : State) : State :=
  let s := s.setVehicle v { s.vehicle v with servicePending := false }
  match s.link.held with
  | some { wait := .serviceDone v' (some seq), .. } =>
    if v' = v then finishHeld .ok (.serviceDone (s.vehicle v).revision (s.vehicle v).status (some seq)) s else s
  | _ => s

/-- The records of a VEHICLE_PUT or of a load request are stored, and the held request is answered (R119, R124). -/
def vehiclesStored (s : State) : State :=
  match s.link.held with
  | some { wait := .vehiclePut v, .. } =>
    finishHeld .ok (.putDone (s.vehicle v).revision (s.vehicle v).status) s
  | some { wait := .loadNext st placed next holder, .. } =>
    finishHeld st (.loadProgress placed next s.loadSession.isSome holder) s
  | _ => s

/-- CLASS_SET is answered when its store write and its sweep have both completed (R139). -/
def finishClassSet (s : State) : State :=
  match s.link.held with
  | some { wait := .classSet c true next swept changed, .. } =>
    match nextOfClass c next s with
    | none => finishHeld .ok (.classSet swept changed) s
    | some _ => s
  | _ => s

/-- The class record of a CLASS_SET is stored (R139). -/
def classStored (c : ClassId) (s : State) : State :=
  match s.link.held with
  | some { wait := .classSet c' _ next swept changed, .. } =>
    if c' = c then finishClassSet (setHeldWait (.classSet c true next swept changed) s) else s
  | _ => s

/-- The block that began a write takes its completion. -/
def writeStored (w : StoreWrite) (s : State) : State :=
  match w with
  | .hoseConfig h _ => answerHeld (.hoseSet h) .none s
  | .calibration h _ => calStored h s
  | .product p _ => productStored p s
  | .tankConfig t _ _ => answerHeld (.tankSet t) .none s
  | .strap t _ _ => answerHeld (.strapSet t) .none s
  | .pumpConfig t _ => answerHeld (.pumpSet t) .none s
  | .vehicles _ => vehiclesStored s
  | .usage v _ => usageStored v s
  | .hours v _ _ => answerHeld (.hoursSet v) (.putDone (s.vehicle v).revision (s.vehicle v).status) s
  | .service v _ _ _ => serviceStored v s
  | .classRecord c _ => classStored c s
  | .ackThrough _ => ackStored s
  | .siteSettings _ => answerHeld .siteSet .none s
  | .totalizers _ _ _ | .book _ _ | .bookRevision _ _ _ | .highWater _ | .wornMarks _ | .retiredMarks _ => s

/-! ### The writes (R194) -/

/-- The store begins the write that began first, when none is in flight (R194). -/
def beginStoreWrite (s : State) : State :=
  match s.store.inFlight, s.store.queue with
  | none, w :: rest => s.setStore { s.store with inFlight := some w, queue := rest }
  | _, _ => s

/-- The write in flight completes (R194). Without one in flight none completes. -/
def endStoreWrite (s : State) : State :=
  match s.store.inFlight with
  | none => s
  | some w =>
    writeStored w (s.setStore { s.store with inFlight := none, stored := applyWrite w s.store.stored })

/-! ### The sweep (R140) -/

/-- The sweep recomputes the next vehicle of the class (R140). -/
def sweepVehicle (s : State) : State :=
  match s.link.held with
  | some { wait := .classSet c stored next swept changed, .. } =>
    match nextOfClass c next s with
    | none => s
    | some v =>
      let before := (s.vehicle v).status
      let s := recompute v s
      let n := if (s.vehicle v).status = before then changed else changed + 1
      finishClassSet (setHeldWait (.classSet c stored (v.val + 1) (swept + 1) n) s)
  | _ => s

end Sys2Proof.Machine
end

