-- ==== Sys2Proof/Machine/Save.lean ====
section
/-! DEFINITION. Chapter 9, sections 9.3 and 9.4: the beginning of the power-fail save, what the save writes at its
completion, and a loss of supply or a reset without a save. -/

namespace Sys2Proof.Machine

open Sys2Proof

/-! ### The beginning of the save (R177, R201) -/

/-- Is a store write one of a stored-settings request? Its change is lost at a save (R177, R194). -/
def StoreWrite.ofRequest : StoreWrite → Bool
  | .hoseConfig _ _ | .calibration _ _ | .product _ _ | .tankConfig _ _ _ | .strap _ _ _ | .pumpConfig _ _
  | .vehicles _ | .hours _ _ _ | .service _ _ _ _ | .classRecord _ _ | .siteSettings _ => true
  | .totalizers _ _ _ | .book _ _ | .bookRevision _ _ _ | .usage _ _ | .ackThrough _ | .highWater _ | .wornMarks _
  | .retiredMarks _ => false

/-- The write of a stored-settings request that is in flight is abandoned (R177). It stands among the waiting writes
until the save ends, since the save writes the usage part that such a write held (R128). -/
def abandonWrite (st : Store) : Store :=
  match st.inFlight with
  | none => st
  | some w => if w.ofRequest then { st with inFlight := none, queue := w :: st.queue } else st

/-- The engine of a hose that is not yet SETTLED takes its final partial sample (R56, R178). -/
def lastSample (h : HoseId) (s : State) : State :=
  if (s.hose h).state.counted then s.setEngine h (finishMeasurement (s.engine h)) else s

/-- The link controller at the beginning of a save (R201). -/
def Link.cut (l : Link) : Link :=
  { l with rx := none, gapTimer := false, rxQueue := [], held := none, tx := [], attention := false }

/-- Every valve closes (R3, R177). -/
def closeValve (x : Hose) : Hose := { x with valve := .closed }

/-- Every pump starter switches off (R98, R177). -/
def starterOff (p : Pump) : Pump := { p with starter := false }

/-- The outputs that the supply monitor de-energizes (R177, 11.5). -/
def outputsOff (s : State) : State := 
  (s.setHoses (vmap closeValve s.hoses)).setPumps (vmap starterOff s.pumps)

/-- The power-fail save begins (R177, R178, R201); an erase in flight is cut short (R169). -/
def beginSave (cause : SaveCause) (s : State) : State :=
  let s := forAll allHoses lastSample (outputsOff s)
  (((s.setPhase (.saving cause false)).setStore (abandonWrite s.store)).setLink s.link.cut).setJournal
    { s.journal with erase := none }

/-! ### What the save writes (R178, R179) -/

/-- The snapshot of a hose, absent in IDLE and READY (R178). -/
def snapshotOf (s : State) (h : HoseId) : Option Snapshot :=
  let x := s.hose h
  match x.state, x.grant with
  | .idle, _ | .ready, _ | _, none => none
  | _, some g => some { hose := h, state := x.state, grant := g, measure := (s.engine h).snap }

/-- The receipt fields carried for a tank in RECEIVING or SETTLING (R88). -/
def carriedReceipt (s : State) (t : TankId) : Option CarriedReceipt :=
  (s.tank t).receipt.fields.map fun r =>
    { tank := t, openingNet := r.openingNet, openingTime := r.openingTime, docket := r.docket }

/-- Is a queued record carried? CALIBRATION and SERVICE records are discarded with their requests (R179). -/
def Record.carried : Record → Bool
  | .delivery _ | .receipt _ | .adjust _ | .interruption _ => true
  | .calibration _ | .service _ => false

/-- What the save writes to the power-fail area (R178, R179). -/
def areaOf (cause : SaveCause) (s : State) : Area :=
  { cause := cause, snapshots := allHoses.filterMap (snapshotOf s), receipts := allTanks.filterMap (carriedReceipt s),
    records := (s.journal.queue.map (·.record)).filter Record.carried }

/-- Does a waiting write hold the usage part of a vehicle? (R128, R147) -/
def StoreWrite.holdsUsage (v : VehicleId) : StoreWrite → Bool
  | .usage v' _ | .hours v' _ _ | .service v' _ _ _ => decide (v' = v)
  | _ => false

/-- Has the usage part of a vehicle a write in flight or waiting? (R128) -/
def usageUnstored (s : State) (v : VehicleId) (r : Vehicle) : Bool :=
  decide (r.usageWrite ≠ .none) || s.store.queue.any (StoreWrite.holdsUsage v)

/-- The save writes the usage parts that have a write in flight or waiting (R128), with their working values also where a
removal or creation of the record is lost at the save (assumption 42). -/
def saveUsage (s : State) (st : Stored) : Stored :=
  s.listedVehicles.foldl
    (fun st e =>
      if usageUnstored s e.1 e.2 then st.setVehicle e.1 { st.vehicle e.1 with usage := e.2.usage } else st) st

/-- The contents of the settings store after the save (R56, R95, R128, R169, R179). -/
def savedStore (cause : SaveCause) (s : State) : Stored :=
  let st := saveUsage s s.store.stored
  { st with
    totals := vmap (fun e => (e.grossTotal, e.netTotal)) s.engines
    books := vmap (fun x => x.book) s.tanks
    revisions := vmap (fun x => x.revision) s.tanks
    ack := s.journal.ack
    worn := s.journal.wornMarks
    retired := s.journal.retiredMarks
    area := some (areaOf cause s) }

/-- The save completes and the part enters reset (R177). It does not complete while a journal write is in flight. -/
def endSave (s : State) : State :=
  match s.phase with
  | .saving cause supplyOut =>
    if s.journal.writing then s
    else
      (s.setPhase (.inReset (.saved cause) supplyOut)).setStore
        { stored := savedStore cause s, queue := [], inFlight := none }
  | .running | .restartReply | .inReset _ _ | .restarting => s

/-! ### Supply warning, reset line and loss of supply (R177, R180, R185) -/

/-- A supply warning or an assertion of the reset line (R177, R185). It begins the save at once also while the reply to
RESTART is sent (assumption 45). -/
def takeResetCause (cause : SaveCause) (s : State) : State :=
  match s.phase with
  | .running | .restartReply => beginSave cause s
  | .restarting => s.setPhase (.inReset (.unsaved (some cause)) false)
  | .saving _ _ | .inReset _ _ => s

/-- A journal write cut short leaves a slot that is neither blank nor a record (R170, R171). -/
def cutJournalWrite (j : Journal) : Journal :=
  if j.writing then
    match j.active with
    | some g => { useSlot g .void j with writing := false }
    | none => { j with writing := false }
  else j

/-- The supply goes out without a save (R180): what was not stored is lost. -/
def loseSupply (s : State) : State :=
  let s := outputsOff s
  (((s.setPhase (.inReset (.unsaved none) true)).setLink s.link.cut).setJournal
    { cutJournalWrite s.journal with erase := none }).setStore { s.store with queue := [], inFlight := none }

/-- The supply goes out (R180, R185). A save completes within the hold-up of the supply. -/
def takeSupplyLoss (s : State) : State :=
  match s.phase with
  | .running | .restartReply | .restarting => loseSupply s
  | .saving cause _ => s.setPhase (.saving cause true)
  | .inReset origin _ => s.setPhase (.inReset origin true)

end Sys2Proof.Machine
end

