-- ==== Sys2Proof/Machine/Restart.lean ====
section
/-! DEFINITION. Chapter 9, section 9.5: restart. The blocks take their reset values from the settings store, the
journal scans, and the work that a save carried is re-established (R129, R144, R170, R171, R182 to R185). -/

namespace Sys2Proof.Machine

open Sys2Proof

/-! ### The last-reset cause (R180) -/

/-- The last-reset cause, from what began the reset and whether the supply went out (R180). -/
def resetCauseOf (origin : ResetOrigin) (supplyOut : Bool) : ResetCause :=
  match origin with
  | .saved .supplyWarning => if supplyOut then .powerOn else .supplyLow
  | .saved .resetLine => .resetLine
  | .saved .restartRequest => .restartRequest
  | .unsaved none => .powerOn
  | .unsaved (some c) =>
    if supplyOut then .powerOn
    else
      match c with
      | .supplyWarning => .supplyLow
      | .resetLine => .resetLine
      | .restartRequest => .restartRequest

/-- End reason of a delivery closed by a reset, from the cause of the save (R180). -/
def closedBy : SaveCause → EndReason
  | .supplyWarning => .powerLoss
  | .resetLine | .restartRequest => .reset

/-! ### The vehicle register and service accounting (R129, R130, R144) -/

/-- A vehicle record after a reset (R110, R129, R130). -/
def restoredVehicle (classes : Vector ClassRecord 32) (x : StoredVehicle) : Vehicle :=
  let r : Vehicle :=
    { host := x.host, revision := x.revision, usage := if x.host.inUse then x.usage else .fresh,
      marks := if x.host.inUse then x.marks else freshMarks, status := .ok, binding := none, servicePending := false,
      usageWrite := .none }
  { r with status := statusOf (classes.get r.host.cls) r }

/-- The vehicle table after a reset. -/
def restoredVehicles (st : Stored) : Sparse Vehicle :=
  (st.vehicles.map fun e => (e.1, restoredVehicle st.classes e.2)).filter fun e => decide (e.2 ≠ Vehicle.unused)

/-- The due list after a reset, in ascending index order (R144). -/
def restoredDueList (s : State) : List VehicleId :=
  (s.listedVehicles.filter fun e => e.2.host.inUse && e.2.status.listed).map (·.1)

/-! ### The journal's scan (R170, R171) -/

/-- Does a slot read back VOID? (R170, R203) -/
def Slot.readsVoid (x : Slot) : Bool := decide (readSlot x.image = .void)

/-- A segment as the scan finds it in the bytes of its slots (R170, R203). A retired or an erase mark stands also in the
segment that the high-water mark names (assumption 39), and a segment that holds VOID slots and no record is FULL
(assumption 50). -/
def scanSegment (st : Stored) (g : SegmentId) (x : Segment) : Segment :=
  if st.retired.get g then { x with state := .retired, worn := false, slots := [] }
  else if carriesMarker x.firstImage then { x with state := .erasing, worn := st.worn.get g, slots := [] }
  else
    { x with
      state := if g = st.highWater.segment then .active else if x.slots.isEmpty then .free else .full
      worn := st.worn.get g || x.slots.any Slot.readsVoid }

/-- The sequence number and timestamp of the record with the highest sequence of a list (R170). -/
def highest (rs : List JRecord) : Option (Nat × Nat) :=
  rs.foldl
    (fun best r =>
      match best with
      | none => some (r.stamp.seq, r.stamp.time)
      | some b => if b.1 < r.stamp.seq then some (r.stamp.seq, r.stamp.time) else some b) none

/-- The newest written record after the scan (R170). -/
def newestOf (found stored : Option (Nat × Nat)) : Option (Nat × Nat) :=
  match found, stored with
  | none, x => x
  | some f, none => some f
  | some f, some x => if f.1 < x.1 then some x else some f

/-- The journal after the scan, before a segment change that the scan calls for (R170, R171). -/
def scanned (st : Stored) (segments : Vector Segment 32) : Journal :=
  let j : Journal :=
    { segments := tabulate fun g => scanSegment st g (segments.get g), highWater := st.highWater,
      nextSeq := st.highWater.seq, newest := none, ack := st.ack, ackWrite := .none, queue := [], reservations := 0,
      writing := false, faulted := false, armed := true, erase := none }
  let found := highest j.written
  { j with
    nextSeq := max st.highWater.seq (match found with | some f => f.1 + 1 | none => 0)
    newest := newestOf found st.highWater.newest
    armed := !j.thresholdPasses st.site.threshold }

/-- The segment change when the scan finds the ACTIVE segment used to its last slot (R170). Where the segment that the
high-water mark names is RETIRED or ERASING, the next FREE segment becomes ACTIVE (assumption 39). -/
def scanChange (s : State) : State :=
  match s.journal.active with
  | some g => segmentChange g s
  | none => activateNext s.journal.highWater.segment s

/-! ### Step 1 of restart (R182) -/

/-- Every block at its reset value from the settings store (R182 step 1). -/
def resetBlocks (cause : ResetCause) (clock : SiteClock) (s : State) : State :=
  let st := s.store.stored
  let s : State :=
    { s with
      phase := .restarting
      clock := clock
      hoses := vmap Hose.reset st.hoseConfigs
      engines := vmap Engine.reset st.totals
      cals := vmap Calibration.reset st.cals
      products := vmap Product.reset st.products
      tanks := tabulate fun t =>
        Tank.reset (st.tankConfigs.get t) (st.straps.get t) (st.books.get t) (st.revisions.get t)
      pumps := tabulate fun t => Pump.reset (st.pumpConfigs.get t) (s.inputs.pressure.get t)
      slotHolder := none
      vehicles := restoredVehicles st
      classes := st.classes
      dueRevision := 0
      loadSession := none
      journal := scanned st s.journal.segments
      link := { Link.reset st.site s.inputs cause ⟨0, false⟩ with events := [], attention := false }
      store := { stored := st, queue := [], inFlight := none } }
  scanChange (s.setDueList (restoredDueList s))

/-! ### Step 2 of restart: the carried work (R183, R184) -/

/-- Does the power-fail area hold anything to be carried? (R184) -/
def Area.carries (a : Area) : Bool := !a.snapshots.isEmpty || !a.receipts.isEmpty || !a.records.isEmpty

/-- Was a snapshot taken in SETTLED? -/
def Snapshot.settled (p : Snapshot) : Bool := decide (p.state = .settled)

/-- Is a carried record a RECEIPT or an ADJUST record? -/
def Record.counts : Record → Bool
  | .receipt _ | .adjust _ => true
  | .delivery _ | .calibration _ | .service _ | .interruption _ => false

/-- The INTERRUPTION record (R184). -/
def interruptionOf (a : Area) (s : State) : InterruptionRecord :=
  { cause := s.link.lastReset, time := recordedTime s,
    hosesClosed := (a.snapshots.filter fun p => !p.settled).length,
    deliveriesCarried := (a.snapshots.filter Snapshot.settled).length,
    receiptsClosed := a.receipts.length,
    recordsCarried := (a.records.filter Record.counts).length }

/-- Restart queues a record and takes its reservation without the admission test (R184). -/
def queueAtRestart (r : Record) (s : State) : State := takeReservation (joinQueue r s)

/-- The end reason of a snapshot's delivery: the one set at entry to CLOSING, or that of the save (R183). -/
def Snapshot.endReason (c : SaveCause) (p : Snapshot) : EndReason :=
  if p.state = .closing then p.grant.endReason.getD (closedBy c) else closedBy c

/-- A hose re-established as SETTLED from its snapshot: the binding, the grant and the measurement (R56, R183). -/
def restoreHose (g : Grant) (p : Snapshot) (s : State) : State :=
  let s := s.setVehicle g.vehicle { s.vehicle g.vehicle with binding := some p.hose }
  let s := s.setHose p.hose
    { s.hose p.hose with
      state := .settled, valve := .closed, grant := some g, lastEnd := g.held.map (·.endReason) }
  s.setEngine p.hose ((s.engine p.hose).restore p.measure)

/-- Re-establish the hose of a snapshot; one not yet SETTLED carries out its settle accounting (R183). -/
def reestablish (c : SaveCause) (p : Snapshot) (s : State) : State :=
  if p.settled then restoreHose { p.grant with tankRes := 0, journalRes := true } p s
  else
    let g := { p.grant with
      tankRes := 0, journalRes := true, endReason := some (p.endReason c), held := none }
    takeReservation (settleAccounting p.hose g false (restoreHose g p s))

/-- The RECEIPT record of a carried receipt, closed as UNMEASURED (R88). -/
def carriedRecord (s : State) (r : CarriedReceipt) : Record :=
  .receipt
    { tank := r.tank, product := (s.tank r.tank).config.product, openingNet := r.openingNet,
      openingTime := r.openingTime, closingNet := none, delivered := none, docket := r.docket, volume := 0,
      difference := none, book := (s.tank r.tank).book, probeFail := false, unmeasured := true }

/-- A carried receipt closes: the book is stored, as at each close (R71; assumption 38). -/
def storeCarried (r : CarriedReceipt) (s : State) : State := beginWrite (.book r.tank (s.tank r.tank).book) s

/-- Step 2 of restart (R182, R183, R184). The carried receipts are closed before the re-established deliveries are
settled (R95); the queue takes the INTERRUPTION record, the carried records, the deliveries settled in ascending hose
order, and the records of the receipts in ascending tank order. -/
def restoreArea (a : Area) (s : State) : State :=
  let closed := a.receipts.map (carriedRecord s)
  let s := queueAtRestart (.interruption (interruptionOf a s)) (forAll a.receipts storeCarried s)
  let s := forAll a.records queueAtRestart s
  let s := forAll a.snapshots (reestablish a.cause) s
  forAll closed queueAtRestart s

/-- A journal left with fewer free slots than reservations is FAULTED from the start, without an event (R171, R184). -/
def faultAtRestart (s : State) : State :=
  s.setJournal { s.journal with faulted := decide (s.journal.free < s.journal.reservations) }

/-- Events that step 2 would raise in running service are not raised (R182). -/
def dropEvents (s : State) : State := s.setLink { s.link with events := [], attention := false }

/-- Steps 1 and 2 of restart (R182). -/
def restart (cause : ResetCause) (clock : SiteClock) (s : State) : State :=
  let s := resetBlocks cause clock s
  let s := match s.store.stored.area with
    | some a => if a.carries then restoreArea a s else s
    | none => s
  dropEvents (faultAtRestart s)

/-- The supply monitor releases the part from reset (R175, R180, R182). -/
def takeResetRelease (backupFailed : Bool) (s : State) : State :=
  match s.phase with
  | .inReset origin supplyOut =>
    restart (resetCauseOf origin supplyOut) (if backupFailed then ⟨0, false⟩ else s.clock) s
  | .running | .restartReply | .saving _ _ | .restarting => s

/-- A pump takes the level of its pressure switch (R182 step 5). -/
def pressureFrom (inputs : Inputs) (pumps : Vector Pump 4) : Vector Pump 4 :=
  tabulate fun t => { pumps.get t with pressureUp := inputs.pressure.get t }

/-- Steps 3 to 5 of restart: the area is cleared, the inputs are taken as they stand, the RESTART event is raised and
the part takes arrivals and frames (R182). -/
def takeAreaCleared (s : State) : State :=
  match s.phase with
  | .restarting =>
    let s := (s.setPhase .running).setStore { s.store with stored := { s.store.stored with area := none } }
    let s := s.setPumps (pressureFrom s.inputs s.pumps)
    raise .restart (.resetCause s.link.lastReset)
      (s.setLink { s.link with estop := s.inputs.estop, inspection := s.inputs.switchClosed })
  | .running | .restartReply | .saving _ _ | .inReset _ _ => s

end Sys2Proof.Machine
end

