-- ==== Sys2Proof/Machine/Link.lean ====
section
/-! DEFINITION. Chapter 10, the station link controller: the frame receiver, the link mode, the receive queue, the
taking of requests, the transmitter, and the controller's own requests. -/

namespace Sys2Proof.Machine

open Sys2Proof

/-! ### Requests of the controller (R176, R181, R197, R199, R200) -/

/-- What STATUS reads (R199). -/
def statusReply (s : State) : StatusReply :=
  { vendor := Config.vendorCode, part := Config.partCode, hardware := Config.hardwareRevision,
    lastReset := s.link.lastReset, online := s.link.online, site := s.link.site, inspection := s.link.inspection,
    estop := s.link.estop, clockValid := s.clock.valid, siteTime := s.clock.count, events := s.link.events.length,
    waiting := s.link.rxQueue.length }

/-- STATUS (R199). -/
def takeStatus (s : State) : State × Answer := (s, .reply .ok (.status (statusReply s)))

/-- EVENTS_READ (R197, R198). -/
def takeEventsRead (count : Byte) (s : State) : State × Answer :=
  if !inRange 1 32 count.toNat then refuse .range s
  else
    let read := s.link.events.take count.toNat
    let left := s.link.events.drop count.toNat
    (s.setLink { s.link with events := left, attention := !left.isEmpty },
      .reply .ok (.events read left.length))

/-- SITE_SET (R167, R200). -/
def takeSiteSet (linkTimeout standaloneCap : BitVec 16) (threshold : Byte) (s : State) : State × Answer :=
  if inRange 5 600 linkTimeout.toNat && inRange 0 9999 standaloneCap.toNat && inRange 10 95 threshold.toNat then
    let x : SiteSettings :=
      { linkTimeout := linkTimeout.toNat, standaloneCap := standaloneCap.toNat, threshold := threshold.toNat }
    let s := thresholdTest (s.setLink { s.link with site := x })
    (beginWrite (.siteSettings x) s, .hold .siteSet)
  else refuse .range s

/-- Does a site time lie before the newest written record's timestamp? (R176) -/
def beforeNewest (t : Nat) (s : State) : Bool :=
  match s.journal.newest with
  | some n => decide (t < n.2)
  | none => false

/-- TIME_SET (R175, R176). -/
def takeTimeSet (time : BitVec 32) (s : State) : State × Answer :=
  if beforeNewest time.toNat s then refuse .timeBack s
  else
    ((s.setClock { count := time.toNat, valid := true }).setJournal (restamp time.toNat s.journal), .reply .ok .none)

/-- RESTART (R181). -/
def takeRestart (s : State) : State × Answer :=
  if allHoses.all fun h => decide ((s.hose h).state = .idle) then
    (s.setPhase .restartReply, .reply .ok .none)
  else refuse .state s

/-! ### The taking of a request (R191) -/

/-- The block that owns a request takes it. -/
def handle (r : Request) (s : State) : State × Answer :=
  match r with
  | .authorize hose vehicle preset flags hours => takeAuthorize hose vehicle preset flags hours s
  | .cancel hose => takeCancel hose s
  | .stop hose => takeStopRequest hose s
  | .pause hose => takePause hose s
  | .resume hose => takeResume hose s
  | .hoseQuery hose => takeHoseQuery hose s
  | .hoseSet hose config => takeHoseSet hose config s
  | .totalizerRead hose => takeTotalizerRead hose s
  | .calOpen hose => takeCalOpen hose s
  | .calClose hose => takeCalClose hose s
  | .calWrite hose record => takeCalWrite hose record s
  | .calRead hose => takeCalRead hose s
  | .productSet code name beta => takeProductSet code name beta s
  | .productRead code => takeProductRead code s
  | .receiptBegin tank => takeReceiptBegin tank s
  | .receiptEnd tank docket => takeReceiptEnd tank docket s
  | .stockAdjust tank expected book => takeStockAdjust tank expected book s
  | .tankSet tank config => takeTankSet tank config s
  | .strapSet tank count points => takeStrapSet tank count points s
  | .tankQuery tank => takeTankQuery tank s
  | .strapRead tank => takeStrapRead tank s
  | .pumpSet tank config => takePumpSet tank config s
  | .pumpQuery tank => takePumpQuery tank s
  | .pumpClear tank => takePumpClear tank s
  | .vehicleGet index => takeVehicleGet index s
  | .vehicleFind tag => takeVehicleFind tag s
  | .vehiclePut index host revision => takeVehiclePut index host revision s
  | .vehicleLoadBegin start => takeLoadBegin start s
  | .vehicleLoadNext count records => takeLoadNext count records s
  | .vehicleLoadEnd => takeLoadEnd s
  | .classRead cls => takeClassRead cls s
  | .hoursSet index hours revision => takeHoursSet index hours revision s
  | .serviceDone index line flags hours revision => takeServiceDone index line flags hours revision s
  | .classSet cls record => takeClassSet cls record s
  | .dueListRead start count => takeDueListRead start count s
  | .serviceQuery index => takeServiceQuery index s
  | .journalRead start count => takeJournalRead start count s
  | .journalAck seq => takeJournalAck seq s
  | .journalStatus => takeJournalStatus s
  | .status => takeStatus s
  | .eventsRead count => takeEventsRead count s
  | .siteSet linkTimeout standaloneCap threshold => takeSiteSet linkTimeout standaloneCap threshold s
  | .timeSet time => takeTimeSet time s
  | .restart => takeRestart s

/-- The block's answer becomes a reply, or the request holds the link (R191, R194). -/
def settle (kind tag : Byte) (p : State × Answer) : State :=
  match p.2 with
  | .reply status body => pushReply kind tag status body p.1
  | .hold wait => { p.1 with link := { p.1.link with held := some { kind := kind, tag := tag, wait := wait } } }

/-- A frame is taken as a request: checks 1 and 2 of R191, then the block's own. -/
def takeFrame (f : Frame) (s : State) : State :=
  match f.content with
  | .unknownKind kind _ => pushReply kind f.tag .unknownKind .none s
  | .badLength kind _ => pushReply kind f.tag .badLength .none s
  | .request r => settle (requestKind r) f.tag (handle r s)

/-! ### The link mode (R172, R173) -/

/-- A valid frame restarts the link timer and, in STANDALONE, sets the mode ONLINE (R172). -/
def linkAlive (s : State) : State :=
  let was := s.link.online
  let s := s.setLink { s.link with online := true, linkTimer := some s.link.site.linkTimeout }
  if was then s else raise .mode .online s

/-- The link timer expires (R172, R173). -/
def linkExpires (s : State) : State :=
  match s.link.linkTimer with
  | none => s
  | some _ =>
    raise .mode .standalone ((s.setLoad none).setLink { s.link with online := false, linkTimer := none })

/-! ### The receive queue (R190, R191) -/

/-- A valid frame joins the receive queue, or is discarded when the queue is full (R190). -/
def offer (f : Frame) (s : State) : State :=
  if s.link.rxQueue.length < Config.receiveQueueLimit then
    s.setLink { s.link with rxQueue := s.link.rxQueue ++ [f] }
  else s

/-- May a frame be taken? No request is held, and its reply finds room: at most 4 replies wait in addition to the one
being sent (R191, R192; assumption 15). -/
def Link.mayTake (l : Link) : Bool := l.held.isNone && decide (l.tx.length ≤ Config.replyLimit)

/-- The head frame leaves the queue and is taken; a taking in STANDALONE sets the mode ONLINE first (R172, R191). -/
def takeNext (s : State) : State :=
  match s.phase, s.link.mayTake, s.link.rxQueue with
  | .running, true, f :: rest =>
    let s := s.setLink { s.link with rxQueue := rest }
    takeFrame f (if s.link.online then s else linkAlive s)
  | _, _, _ => s

/-- Take up to n frames. -/
def takeMany (n : Nat) (s : State) : State :=
  match n with
  | 0 => s
  | n + 1 => takeMany n (takeNext s)

/-- Frames are taken one after the other until a request holds the link, the transmitter has no room for a reply or the
queue is empty (R191, R192, R195). -/
def drain (s : State) : State := takeMany s.link.rxQueue.length s

/-- A valid frame reaches the controller (R172, R190, R191). -/
def frameArrives (f : Frame) (s : State) : State := drain (offer f (linkAlive s))

/-- The frame of a request completes (assumption 2). A frame whose body passes 1,024 bytes never completes (R188). -/
def hostRequest (tag : Byte) (r : Request) (s : State) : State :=
  if (putBody r).length ≤ Config.bodyLimit then frameArrives { tag := tag, content := contentOf r } s else s

/-! ### The frame receiver (R188, R189) -/

/-- The receiver returns to HUNT (R188). -/
def hunt (s : State) : State := s.setLink { s.link with rx := none, gapTimer := false }

/-- Body length of a frame under reception, from its first two bytes (R187). -/
def frameLength (b : List Byte) : Nat := (u16At b 0).toNat

/-- The bytes of a frame after its start byte: length 2, kind, tag, body, CRC 2 (R187). -/
def frameSize (b : List Byte) : Nat := frameLength b + 6

/-- Does the CRC of a whole frame agree? It covers every byte but the start byte and the CRC itself (R189). -/
def crcAgrees (b : List Byte) : Bool :=
  decide (crc16 (b.take (frameLength b + 4)) = u16At b (frameLength b + 4))

/-- The frame that whole bytes spell (R187). -/
def frameOf (b : List Byte) : Frame :=
  { tag := byteAt b 3, content := parseContent (byteAt b 2) ((b.drop 4).take (frameLength b)) }

/-- The bytes of a frame under reception are looked at after each byte (R188). -/
def receive (b : List Byte) (s : State) : State :=
  if 2 ≤ b.length && decide (Config.bodyLimit < frameLength b) then hunt s
  else if 2 ≤ b.length && decide (b.length = frameSize b) then
    if crcAgrees b then frameArrives (frameOf b) (hunt s) else hunt s
  else s.setLink { s.link with rx := some b, gapTimer := true }

/-- A byte reaches the receiver (R188). -/
def takeByte (x : Byte) (s : State) : State :=
  match s.link.rx with
  | none => if x = 0xA5#8 then receive [] s else s
  | some b => receive (b ++ [x]) s

/-- A framing error reaches the receiver (R186). -/
def takeFramingError (s : State) : State :=
  match s.link.rx with
  | none => s
  | some _ => hunt s

/-- The gap timer expires (R188). -/
def gapExpires (s : State) : State := if s.link.gapTimer then hunt s else s

/-! ### The transmitter (R181, R192) -/

/-- Is a reply the one that accepts RESTART? (R181) -/
def Reply.acceptsRestart (r : Reply) : Bool := decide (r.kind = 0xD4#8) && decide (r.status = .ok)

/-- The last byte of a reply has been sent (R181, R192). -/
def takeReplySent (s : State) : State :=
  match s.link.tx with
  | [] => s
  | r :: rest =>
    let s := s.setLink { s.link with tx := rest }
    if s.phase = .restartReply && r.acceptsRestart then beginSave .restartRequest s else s

end Sys2Proof.Machine
end

