-- ==== Sys2Proof/Machine/Field.lean ====
section
/-! DEFINITION. The meanings of the field arrivals and of the timers of hoses, tanks and pumps: one definition per
command. A part that is not running takes none of them (R177, R181, R182). An expiry of a timer that does not run has
no effect (assumption 3). -/

namespace Sys2Proof.Machine

open Sys2Proof

/-- The outcome of a command. -/
abbrev Result := Host.Outcome State Fault Refusal

/-- TAG_READ (R8). -/
def execTagRead (hose : HoseId) (tag : Tag) (hours : Option (BitVec 32)) (s : State) : Result :=
  .next (whenRunning s (takeTag hose tag (hours.map BitVec.toNat)))

/-- NOZZLE_LIFT (R14, R19). -/
def execNozzleLift (hose : HoseId) (s : State) : Result :=
  .next (whenRunning s (takeLift hose))

/-- NOZZLE_HANG (R22, R27). -/
def execNozzleHang (hose : HoseId) (s : State) : Result :=
  .next (whenRunning s (takeHang hose))

/-- AGREEING_PULSE (R6, R37). -/
def execAgreeingPulse (hose : HoseId) (s : State) : Result :=
  .next (whenRunning s (takeAgreeing hose))

/-- DISAGREEING_PULSE (R6, R38). -/
def execDisagreeingPulse (hose : HoseId) (s : State) : Result :=
  .next (whenRunning s (takeDisagreeing hose))

/-- TEMPERATURE_SAMPLE (R44). -/
def execTemperatureSample (hose : HoseId) (reading : Option Int) (s : State) : Result :=
  .next (whenRunning s fun s => s.setEngine hose (takeTemperature reading (s.engine hose)))

/-- HOLD_TIMER_EXPIRY (R45). -/
def execHoldTimerExpiry (hose : HoseId) (s : State) : Result :=
  .next (whenRunning s fun s => s.setEngine hose (lapseHold (s.engine hose)))

/-- SAMPLE_TIMER_EXPIRY (R21, R40). -/
def execSampleTimerExpiry (hose : HoseId) (s : State) : Result :=
  .next (whenRunning s (takeSample hose))

/-- READY_TIMER_EXPIRY (R15). -/
def execReadyTimerExpiry (hose : HoseId) (s : State) : Result :=
  .next (whenRunning s (readyExpires hose))

/-- NO_FLOW_TIMER_EXPIRY (R22). -/
def execNoFlowTimerExpiry (hose : HoseId) (s : State) : Result :=
  .next (whenRunning s (noFlowExpires hose))

/-- PAUSE_TIMER_EXPIRY (R24). -/
def execPauseTimerExpiry (hose : HoseId) (s : State) : Result :=
  .next (whenRunning s (pauseExpires hose))

/-- SETTLE_TIMER_EXPIRY (R28). -/
def execSettleTimerExpiry (hose : HoseId) (s : State) : Result :=
  .next (whenRunning s (settleExpires hose))

/-- CLOSING_LIMIT_EXPIRY (R27). -/
def execClosingLimitExpiry (hose : HoseId) (s : State) : Result :=
  .next (whenRunning s (closingExpires hose))

/-- REFUSAL_DISPLAY_EXPIRY (R13). -/
def execRefusalDisplayExpiry (hose : HoseId) (s : State) : Result :=
  .next (whenRunning s (displayEnds hose))

/-! ### Level inputs: a level that already stands is no arrival (R67, R98, R198), and the level is kept in every
phase, since restart takes it as it stands (R182). -/

/-- A level changes: it is kept, and a running part takes the change. -/
def levelChange (changed : Bool) (inputs : Inputs) (f : State → State) (s : State) : State :=
  if changed then whenRunning (s.setInputs inputs) f else s

/-- EMERGENCY_STOP_ACTIVE (R26, R106, R198). -/
def execEmergencyStopActive (s : State) : Result :=
  .next (levelChange (!s.inputs.estop) { s.inputs with estop := true } takeStop s)

/-- EMERGENCY_STOP_RELEASE (R26, R106, R198). -/
def execEmergencyStopRelease (s : State) : Result :=
  .next (levelChange s.inputs.estop { s.inputs with estop := false } takeRelease s)

/-- METROLOGY_SWITCH_CLOSE (R67). -/
def execMetrologySwitchClose (s : State) : Result :=
  .next (levelChange (!s.inputs.switchClosed) { s.inputs with switchClosed := true } takeSwitchClose s)

/-- METROLOGY_SWITCH_OPEN (R59, R67). -/
def execMetrologySwitchOpen (s : State) : Result :=
  .next (levelChange s.inputs.switchClosed { s.inputs with switchClosed := false } takeSwitchOpen s)

/-- The levels of the pressure switches with that of one tank changed. -/
def Inputs.setPressure (i : Inputs) (t : TankId) (up : Bool) : Inputs := { i with pressure := upd i.pressure t up }

/-- PRESSURE_UP (R98, R103, R104). -/
def execPressureUp (tank : TankId) (s : State) : Result :=
  .next (levelChange (!s.inputs.pressure.get tank) (s.inputs.setPressure tank true) (takePressureUp tank) s)

/-- PRESSURE_DOWN (R98, R103, R104). -/
def execPressureDown (tank : TankId) (s : State) : Result :=
  .next (levelChange (s.inputs.pressure.get tank) (s.inputs.setPressure tank false) (takePressureDown tank) s)

/-! ### Tanks and pumps -/

/-- PROBE_SAMPLE (R76, R77, R80). -/
def execProbeSample (tank : TankId) (reading : Option (Nat × Int)) (s : State) : Result :=
  .next (whenRunning s (takeProbe tank reading))

/-- STALE_TIMER_EXPIRY (R78). -/
def execStaleTimerExpiry (tank : TankId) (s : State) : Result :=
  .next (whenRunning s (probeStale tank))

/-- QUIET_TIMER_EXPIRY (R79). -/
def execQuietTimerExpiry (tank : TankId) (s : State) : Result :=
  .next (whenRunning s (tankQuiet tank))

/-- RECEIPT_SETTLE_TIMER_EXPIRY (R85, R86). -/
def execReceiptSettleTimerExpiry (tank : TankId) (s : State) : Result :=
  .next (whenRunning s (closeReceipt tank))

/-- START_TIMER_EXPIRY (R103). -/
def execStartTimerExpiry (tank : TankId) (s : State) : Result :=
  .next (whenRunning s (startExpires tank))

/-- RUN_ON_TIMER_EXPIRY (R101). -/
def execRunOnTimerExpiry (tank : TankId) (s : State) : Result :=
  .next (whenRunning s (runOnExpires tank))

end Sys2Proof.Machine
end

