-- ==== Sys2Proof/Machine/Power.lean ====
section
/-! DEFINITION. The meanings of the commands of the supply monitor and of restart (Chapter 9), one definition per
command. -/

namespace Sys2Proof.Machine

open Sys2Proof

/-- SUPPLY_WARNING (R177, R185). -/
def execSupplyWarning (s : State) : Result :=
  .next (takeResetCause .supplyWarning s)

/-- RESET_LINE_ASSERT (R177, R185). -/
def execResetLineAssert (s : State) : Result :=
  .next (takeResetCause .resetLine s)

/-- SUPPLY_LOSS (R180, R185). -/
def execSupplyLoss (s : State) : Result :=
  .next (takeSupplyLoss s)

/-- POWER_FAIL_SAVE_COMPLETE (R177, R178, R179). -/
def execPowerFailSaveComplete (s : State) : Result :=
  .next (endSave s)

/-- RESET_RELEASE (R182, R183, R184). -/
def execResetRelease (backupFailed : Bool) (s : State) : Result :=
  .next (takeResetRelease backupFailed s)

/-- POWER_FAIL_AREA_CLEARED (R182). -/
def execPowerFailAreaCleared (s : State) : Result :=
  .next (takeAreaCleared s)

end Sys2Proof.Machine
end

