-- ==== Sys2Proof/Machine/Requests.lean ====
section
/-! DEFINITION. The meanings of the host requests, one definition per command: the whole valid frame of the request
completes at the receiver (assumption 2), and what follows is the link controller's work (R172, R190, R191). -/

namespace Sys2Proof.Machine

open Sys2Proof

/-- AUTHORIZE (R9). -/
def execAuthorize (tag : Byte) (hose : Byte) (vehicle : BitVec 16) (preset : BitVec 16) (flags : Byte) (hours : BitVec 32)
    (s : State) : Result :=
  .next (whenRunning s (hostRequest tag (.authorize hose vehicle preset flags hours)))

/-- CANCEL (R18). -/
def execCancel (tag : Byte) (hose : Byte) (s : State) : Result :=
  .next (whenRunning s (hostRequest tag (.cancel hose)))

/-- STOP (R25). -/
def execStop (tag : Byte) (hose : Byte) (s : State) : Result :=
  .next (whenRunning s (hostRequest tag (.stop hose)))

/-- PAUSE (R23). -/
def execPause (tag : Byte) (hose : Byte) (s : State) : Result :=
  .next (whenRunning s (hostRequest tag (.pause hose)))

/-- RESUME (R24). -/
def execResume (tag : Byte) (hose : Byte) (s : State) : Result :=
  .next (whenRunning s (hostRequest tag (.resume hose)))

/-- HOSE_QUERY (R31). -/
def execHoseQuery (tag : Byte) (hose : Byte) (s : State) : Result :=
  .next (whenRunning s (hostRequest tag (.hoseQuery hose)))

/-- HOSE_SET (R32). -/
def execHoseSet (tag : Byte) (hose : Byte) (config : WireHoseConfig) (s : State) : Result :=
  .next (whenRunning s (hostRequest tag (.hoseSet hose config)))

/-- TOTALIZER_READ (R55). -/
def execTotalizerRead (tag : Byte) (hose : Byte) (s : State) : Result :=
  .next (whenRunning s (hostRequest tag (.totalizerRead hose)))

/-- CAL_OPEN (R60). -/
def execCalOpen (tag : Byte) (hose : Byte) (s : State) : Result :=
  .next (whenRunning s (hostRequest tag (.calOpen hose)))

/-- CAL_CLOSE (R60). -/
def execCalClose (tag : Byte) (hose : Byte) (s : State) : Result :=
  .next (whenRunning s (hostRequest tag (.calClose hose)))

/-- CAL_WRITE (R61). -/
def execCalWrite (tag : Byte) (hose : Byte) (record : WireCalibration) (s : State) : Result :=
  .next (whenRunning s (hostRequest tag (.calWrite hose record)))

/-- CAL_READ (R66). -/
def execCalRead (tag : Byte) (hose : Byte) (s : State) : Result :=
  .next (whenRunning s (hostRequest tag (.calRead hose)))

/-- PRODUCT_SET (R65). -/
def execProductSet (tag : Byte) (code : Byte) (name : Name) (beta : BitVec 16) (s : State) : Result :=
  .next (whenRunning s (hostRequest tag (.productSet code name beta)))

/-- PRODUCT_READ (R66). -/
def execProductRead (tag : Byte) (code : Byte) (s : State) : Result :=
  .next (whenRunning s (hostRequest tag (.productRead code)))

/-- RECEIPT_BEGIN (R81). -/
def execReceiptBegin (tag : Byte) (tank : Byte) (s : State) : Result :=
  .next (whenRunning s (hostRequest tag (.receiptBegin tank)))

/-- RECEIPT_END (R84). -/
def execReceiptEnd (tag : Byte) (tank : Byte) (docket : BitVec 32) (s : State) : Result :=
  .next (whenRunning s (hostRequest tag (.receiptEnd tank docket)))

/-- STOCK_ADJUST (R89). -/
def execStockAdjust (tag : Byte) (tank : Byte) (expected : BitVec 48) (book : BitVec 48) (s : State) : Result :=
  .next (whenRunning s (hostRequest tag (.stockAdjust tank expected book)))

/-- TANK_SET (R91). -/
def execTankSet (tag : Byte) (tank : Byte) (config : WireTankConfig) (s : State) : Result :=
  .next (whenRunning s (hostRequest tag (.tankSet tank config)))

/-- STRAP_SET (R92). -/
def execStrapSet (tag : Byte) (tank : Byte) (count : Byte) (points : List WireStrapPoint) (s : State) : Result :=
  .next (whenRunning s (hostRequest tag (.strapSet tank count points)))

/-- TANK_QUERY (R93). -/
def execTankQuery (tag : Byte) (tank : Byte) (s : State) : Result :=
  .next (whenRunning s (hostRequest tag (.tankQuery tank)))

/-- STRAP_READ (R94). -/
def execStrapRead (tag : Byte) (tank : Byte) (s : State) : Result :=
  .next (whenRunning s (hostRequest tag (.strapRead tank)))

/-- PUMP_SET (R107). -/
def execPumpSet (tag : Byte) (tank : Byte) (config : WirePumpConfig) (s : State) : Result :=
  .next (whenRunning s (hostRequest tag (.pumpSet tank config)))

/-- PUMP_QUERY (R108). -/
def execPumpQuery (tag : Byte) (tank : Byte) (s : State) : Result :=
  .next (whenRunning s (hostRequest tag (.pumpQuery tank)))

/-- PUMP_CLEAR (R105). -/
def execPumpClear (tag : Byte) (tank : Byte) (s : State) : Result :=
  .next (whenRunning s (hostRequest tag (.pumpClear tank)))

/-- VEHICLE_GET (R116). -/
def execVehicleGet (tag : Byte) (index : BitVec 16) (s : State) : Result :=
  .next (whenRunning s (hostRequest tag (.vehicleGet index)))

/-- VEHICLE_FIND (R113). -/
def execVehicleFind (tag : Byte) (vehicleTag : Tag) (s : State) : Result :=
  .next (whenRunning s (hostRequest tag (.vehicleFind vehicleTag)))

/-- VEHICLE_PUT (R118). -/
def execVehiclePut (tag : Byte) (index : BitVec 16) (host : WireHostPart) (revision : BitVec 16)
    (s : State) : Result :=
  .next (whenRunning s (hostRequest tag (.vehiclePut index host revision)))

/-- VEHICLE_LOAD_BEGIN (R122). -/
def execVehicleLoadBegin (tag : Byte) (start : BitVec 16) (s : State) : Result :=
  .next (whenRunning s (hostRequest tag (.vehicleLoadBegin start)))

/-- VEHICLE_LOAD_NEXT (R124). -/
def execVehicleLoadNext (tag : Byte) (count : Byte) (records : List WireHostPart) (s : State) : Result :=
  .next (whenRunning s (hostRequest tag (.vehicleLoadNext count records)))

/-- VEHICLE_LOAD_END (R126). -/
def execVehicleLoadEnd (tag : Byte) (s : State) : Result :=
  .next (whenRunning s (hostRequest tag (.vehicleLoadEnd)))

/-- CLASS_READ (R117). -/
def execClassRead (tag : Byte) (cls : Byte) (s : State) : Result :=
  .next (whenRunning s (hostRequest tag (.classRead cls)))

/-- HOURS_SET (R133). -/
def execHoursSet (tag : Byte) (index : BitVec 16) (hours : BitVec 32) (revision : BitVec 16) (s : State) : Result :=
  .next (whenRunning s (hostRequest tag (.hoursSet index hours revision)))

/-- SERVICE_DONE (R145). -/
def execServiceDone (tag : Byte) (index : BitVec 16) (line : Byte) (flags : Byte) (hours : BitVec 32) (revision : BitVec 16)
    (s : State) : Result :=
  .next (whenRunning s (hostRequest tag (.serviceDone index line flags hours revision)))

/-- CLASS_SET (R139). -/
def execClassSet (tag : Byte) (cls : Byte) (record : WireClass) (s : State) : Result :=
  .next (whenRunning s (hostRequest tag (.classSet cls record)))

/-- DUE_LIST_READ (R143). -/
def execDueListRead (tag : Byte) (start : BitVec 16) (count : Byte) (s : State) : Result :=
  .next (whenRunning s (hostRequest tag (.dueListRead start count)))

/-- SERVICE_QUERY (R150). -/
def execServiceQuery (tag : Byte) (index : BitVec 16) (s : State) : Result :=
  .next (whenRunning s (hostRequest tag (.serviceQuery index)))

/-- JOURNAL_READ (R162). -/
def execJournalRead (tag : Byte) (start : BitVec 32) (count : Byte) (s : State) : Result :=
  .next (whenRunning s (hostRequest tag (.journalRead start count)))

/-- JOURNAL_ACK (R163). -/
def execJournalAck (tag : Byte) (seq : BitVec 32) (s : State) : Result :=
  .next (whenRunning s (hostRequest tag (.journalAck seq)))

/-- JOURNAL_STATUS (R168). -/
def execJournalStatus (tag : Byte) (s : State) : Result :=
  .next (whenRunning s (hostRequest tag (.journalStatus)))

/-- STATUS (R199). -/
def execStatus (tag : Byte) (s : State) : Result :=
  .next (whenRunning s (hostRequest tag (.status)))

/-- EVENTS_READ (R197). -/
def execEventsRead (tag : Byte) (count : Byte) (s : State) : Result :=
  .next (whenRunning s (hostRequest tag (.eventsRead count)))

/-- SITE_SET (R200). -/
def execSiteSet (tag : Byte) (linkTimeout : BitVec 16) (standaloneCap : BitVec 16) (threshold : Byte)
    (s : State) : Result :=
  .next (whenRunning s (hostRequest tag (.siteSet linkTimeout standaloneCap threshold)))

/-- TIME_SET (R176). -/
def execTimeSet (tag : Byte) (time : BitVec 32) (s : State) : Result :=
  .next (whenRunning s (hostRequest tag (.timeSet time)))

/-- RESTART (R181). -/
def execRestart (tag : Byte) (s : State) : Result :=
  .next (whenRunning s (hostRequest tag (.restart)))

/-- UNKNOWN_KIND (R191): a valid frame whose kind names no request. A body above 1,024 bytes never completes. -/
def execUnknownKind (tag : Byte) (kind : Byte) (body : List Byte) (s : State) : Result :=
  .next (whenRunning s fun s =>
    if body.length ≤ Config.bodyLimit then frameArrives { tag := tag, content := parseContent kind body } s else s)

end Sys2Proof.Machine
end

