-- ==== Sys2Proof/Machine/Storage.lean ====
section
/-! DEFINITION. The meanings of the commands of the journal, of the settings store, of the class sweep, and of the
station link's receiver and transmitter, one definition per command. A completion that answers a held request lets the
next frames be taken (R191, R195). -/

namespace Sys2Proof.Machine

open Sys2Proof

/-- The part works on: also while the reply to RESTART is sent (R181). -/
def whenLive (s : State) (f : State → State) : State := if s.phase.live then f s else s

/-- A write in flight runs to its completion also while a save is made (R169, R177). -/
def whenWriting (s : State) (f : State → State) : State :=
  match s.phase with
  | .running | .restartReply | .saving _ _ => f s
  | .inReset _ _ | .restarting => s

/-- RX_BYTE (R188). -/
def execRxByte (byte : Byte) (s : State) : Result :=
  .next (whenRunning s (takeByte byte))

/-- FRAMING_ERROR (R186). -/
def execFramingError (s : State) : Result :=
  .next (whenRunning s takeFramingError)

/-- GAP_TIMER_EXPIRY (R188). -/
def execGapTimerExpiry (s : State) : Result :=
  .next (whenRunning s gapExpires)

/-- LINK_TIMER_EXPIRY (R172, R173). -/
def execLinkTimerExpiry (s : State) : Result :=
  .next (whenRunning s linkExpires)

/-- REPLY_SENT (R181, R192). A frame that waited for room at the transmitter is then taken. -/
def execReplySent (s : State) : Result :=
  .next (whenLive s fun s => drain (takeReplySent s))

/-- JOURNAL_WRITE_START (R153, R156). -/
def execJournalWriteStart (s : State) : Result :=
  .next (whenLive s fun s => drain (beginJournalWrite s))

/-- JOURNAL_WRITE_COMPLETE (R157, R159). -/
def execJournalWriteComplete (agrees : Bool) (s : State) : Result :=
  .next (whenWriting s fun s => drain (endJournalWrite agrees s))

/-- ERASE_START (R165, R171). -/
def execEraseStart (s : State) : Result :=
  .next (whenLive s startErase)

/-- ERASE_COMPLETE (R166). -/
def execEraseComplete (blank : Bool) (s : State) : Result :=
  .next (whenLive s (endErase blank))

/-- SETTINGS_WRITE_START (R194). -/
def execSettingsWriteStart (s : State) : Result :=
  .next (whenLive s beginStoreWrite)

/-- SETTINGS_WRITE_COMPLETE (R194). -/
def execSettingsWriteComplete (s : State) : Result :=
  .next (whenWriting s fun s => drain (endStoreWrite s))

/-- CLASS_SWEEP_VEHICLE (R140). -/
def execClassSweepVehicle (s : State) : Result :=
  .next (whenLive s fun s => drain (sweepVehicle s))

end Sys2Proof.Machine
end

