-- ==== Sys2Proof/Machine/Dispatch.lean ====
section
/-! DEFINITION. The dispatch: one arm per command, each one direct call of its meaning. -/

namespace Sys2Proof.Machine

def exec (i : Instr) (s : State) : Host.Outcome State Fault Refusal :=
  match i with
  | .tagRead hose tag hours => Sys2Proof.Machine.execTagRead hose tag hours s
  | .nozzleLift hose => Sys2Proof.Machine.execNozzleLift hose s
  | .nozzleHang hose => Sys2Proof.Machine.execNozzleHang hose s
  | .agreeingPulse hose => Sys2Proof.Machine.execAgreeingPulse hose s
  | .disagreeingPulse hose => Sys2Proof.Machine.execDisagreeingPulse hose s
  | .temperatureSample hose reading => Sys2Proof.Machine.execTemperatureSample hose reading s
  | .holdTimerExpiry hose => Sys2Proof.Machine.execHoldTimerExpiry hose s
  | .sampleTimerExpiry hose => Sys2Proof.Machine.execSampleTimerExpiry hose s
  | .readyTimerExpiry hose => Sys2Proof.Machine.execReadyTimerExpiry hose s
  | .noFlowTimerExpiry hose => Sys2Proof.Machine.execNoFlowTimerExpiry hose s
  | .pauseTimerExpiry hose => Sys2Proof.Machine.execPauseTimerExpiry hose s
  | .settleTimerExpiry hose => Sys2Proof.Machine.execSettleTimerExpiry hose s
  | .closingLimitExpiry hose => Sys2Proof.Machine.execClosingLimitExpiry hose s
  | .refusalDisplayExpiry hose => Sys2Proof.Machine.execRefusalDisplayExpiry hose s
  | .emergencyStopActive => Sys2Proof.Machine.execEmergencyStopActive s
  | .emergencyStopRelease => Sys2Proof.Machine.execEmergencyStopRelease s
  | .metrologySwitchClose => Sys2Proof.Machine.execMetrologySwitchClose s
  | .metrologySwitchOpen => Sys2Proof.Machine.execMetrologySwitchOpen s
  | .probeSample tank reading => Sys2Proof.Machine.execProbeSample tank reading s
  | .staleTimerExpiry tank => Sys2Proof.Machine.execStaleTimerExpiry tank s
  | .quietTimerExpiry tank => Sys2Proof.Machine.execQuietTimerExpiry tank s
  | .receiptSettleTimerExpiry tank => Sys2Proof.Machine.execReceiptSettleTimerExpiry tank s
  | .pressureUp tank => Sys2Proof.Machine.execPressureUp tank s
  | .pressureDown tank => Sys2Proof.Machine.execPressureDown tank s
  | .startTimerExpiry tank => Sys2Proof.Machine.execStartTimerExpiry tank s
  | .runOnTimerExpiry tank => Sys2Proof.Machine.execRunOnTimerExpiry tank s
  | .supplyWarning => Sys2Proof.Machine.execSupplyWarning s
  | .resetLineAssert => Sys2Proof.Machine.execResetLineAssert s
  | .supplyLoss => Sys2Proof.Machine.execSupplyLoss s
  | .powerFailSaveComplete => Sys2Proof.Machine.execPowerFailSaveComplete s
  | .resetRelease backupFailed => Sys2Proof.Machine.execResetRelease backupFailed s
  | .powerFailAreaCleared => Sys2Proof.Machine.execPowerFailAreaCleared s
  | .rxByte byte => Sys2Proof.Machine.execRxByte byte s
  | .framingError => Sys2Proof.Machine.execFramingError s
  | .gapTimerExpiry => Sys2Proof.Machine.execGapTimerExpiry s
  | .linkTimerExpiry => Sys2Proof.Machine.execLinkTimerExpiry s
  | .replySent => Sys2Proof.Machine.execReplySent s
  | .journalWriteStart => Sys2Proof.Machine.execJournalWriteStart s
  | .journalWriteComplete agrees => Sys2Proof.Machine.execJournalWriteComplete agrees s
  | .eraseStart => Sys2Proof.Machine.execEraseStart s
  | .eraseComplete blank => Sys2Proof.Machine.execEraseComplete blank s
  | .settingsWriteStart => Sys2Proof.Machine.execSettingsWriteStart s
  | .settingsWriteComplete => Sys2Proof.Machine.execSettingsWriteComplete s
  | .classSweepVehicle => Sys2Proof.Machine.execClassSweepVehicle s
  | .authorize tag hose vehicle preset flags hours => Sys2Proof.Machine.execAuthorize tag hose vehicle preset flags hours s
  | .cancel tag hose => Sys2Proof.Machine.execCancel tag hose s
  | .stop tag hose => Sys2Proof.Machine.execStop tag hose s
  | .pause tag hose => Sys2Proof.Machine.execPause tag hose s
  | .resume tag hose => Sys2Proof.Machine.execResume tag hose s
  | .hoseQuery tag hose => Sys2Proof.Machine.execHoseQuery tag hose s
  | .hoseSet tag hose config => Sys2Proof.Machine.execHoseSet tag hose config s
  | .totalizerRead tag hose => Sys2Proof.Machine.execTotalizerRead tag hose s
  | .calOpen tag hose => Sys2Proof.Machine.execCalOpen tag hose s
  | .calClose tag hose => Sys2Proof.Machine.execCalClose tag hose s
  | .calWrite tag hose record => Sys2Proof.Machine.execCalWrite tag hose record s
  | .calRead tag hose => Sys2Proof.Machine.execCalRead tag hose s
  | .productSet tag code name beta => Sys2Proof.Machine.execProductSet tag code name beta s
  | .productRead tag code => Sys2Proof.Machine.execProductRead tag code s
  | .receiptBegin tag tank => Sys2Proof.Machine.execReceiptBegin tag tank s
  | .receiptEnd tag tank docket => Sys2Proof.Machine.execReceiptEnd tag tank docket s
  | .stockAdjust tag tank expected book => Sys2Proof.Machine.execStockAdjust tag tank expected book s
  | .tankSet tag tank config => Sys2Proof.Machine.execTankSet tag tank config s
  | .strapSet tag tank count points => Sys2Proof.Machine.execStrapSet tag tank count points s
  | .tankQuery tag tank => Sys2Proof.Machine.execTankQuery tag tank s
  | .strapRead tag tank => Sys2Proof.Machine.execStrapRead tag tank s
  | .pumpSet tag tank config => Sys2Proof.Machine.execPumpSet tag tank config s
  | .pumpQuery tag tank => Sys2Proof.Machine.execPumpQuery tag tank s
  | .pumpClear tag tank => Sys2Proof.Machine.execPumpClear tag tank s
  | .vehicleGet tag index => Sys2Proof.Machine.execVehicleGet tag index s
  | .vehicleFind tag vehicleTag => Sys2Proof.Machine.execVehicleFind tag vehicleTag s
  | .vehiclePut tag index host revision => Sys2Proof.Machine.execVehiclePut tag index host revision s
  | .vehicleLoadBegin tag start => Sys2Proof.Machine.execVehicleLoadBegin tag start s
  | .vehicleLoadNext tag count records => Sys2Proof.Machine.execVehicleLoadNext tag count records s
  | .vehicleLoadEnd tag => Sys2Proof.Machine.execVehicleLoadEnd tag s
  | .classRead tag cls => Sys2Proof.Machine.execClassRead tag cls s
  | .hoursSet tag index hours revision => Sys2Proof.Machine.execHoursSet tag index hours revision s
  | .serviceDone tag index line flags hours revision => Sys2Proof.Machine.execServiceDone tag index line flags hours revision s
  | .classSet tag cls record => Sys2Proof.Machine.execClassSet tag cls record s
  | .dueListRead tag start count => Sys2Proof.Machine.execDueListRead tag start count s
  | .serviceQuery tag index => Sys2Proof.Machine.execServiceQuery tag index s
  | .journalRead tag start count => Sys2Proof.Machine.execJournalRead tag start count s
  | .journalAck tag seq => Sys2Proof.Machine.execJournalAck tag seq s
  | .journalStatus tag => Sys2Proof.Machine.execJournalStatus tag s
  | .status tag => Sys2Proof.Machine.execStatus tag s
  | .eventsRead tag count => Sys2Proof.Machine.execEventsRead tag count s
  | .siteSet tag linkTimeout standaloneCap threshold => Sys2Proof.Machine.execSiteSet tag linkTimeout standaloneCap threshold s
  | .timeSet tag time => Sys2Proof.Machine.execTimeSet tag time s
  | .restart tag => Sys2Proof.Machine.execRestart tag s
  | .unknownKind tag kind body => Sys2Proof.Machine.execUnknownKind tag kind body s

end Sys2Proof.Machine
end

