-- ==== Sys2Proof/WellFormed.lean ====
section
/-! DEFINITION. When a command is well formed: the lists that a request carries have the number of items that a frame
of its kind can carry (Chapter 11, table of kinds), and a frame of an unknown kind names no request and fits a frame. -/

namespace Sys2Proof

open Sys2Proof.Machine

/-- A request that a frame can carry: STRAP_SET with 2 to 32 points, VEHICLE_LOAD_NEXT with 1 to 8 records (R202). -/
def Request.wf : Request → Bool
  | .strapSet _ _ points => inRange 2 32 points.length
  | .vehicleLoadNext _ records => inRange 1 8 records.length
  | _ => true

/-- A command that can reach the part. -/
def Instr.wf : Instr → Bool
  | .strapSet _ tank count points => Request.wf (.strapSet tank count points)
  | .vehicleLoadNext _ count records => Request.wf (.vehicleLoadNext count records)
  | .unknownKind _ kind body => !kindKnown kind && decide (body.length ≤ Config.bodyLimit)
  | _ => true

end Sys2Proof
end

