-- ==== Sys2Proof/Safety.lean ====
section
/-! DEFINITION. What counts as a sound state of the part, in the terms that the statements use: the valves, the event
queue, the due list and the tables; and how a request finds the link and leaves it. -/

namespace Sys2Proof.Machine

open Sys2Proof

/-! ### Sound states -/

/-- The valve position that a hose state holds (R3). -/
def valveOf : HoseState → Valve
  | .flowing => .full
  | .trimming => .slow
  | .idle | .ready | .starting | .paused | .closing | .settled => .closed

/-- A valve is CLOSED, or stands as its hose's state holds it (R3). -/
abbrev Hose.valveFollows (x : Hose) : Prop := x.valve = .closed ∨ x.valve = valveOf x.state

/-- No valve is open but as its hose's state holds it (R3). -/
abbrev State.valvesSafe (s : State) : Prop := ∀ h : HoseId, (s.hose h).valveFollows

/-- An event queue as R196 keeps it: no two entries of one key, each with a count from 1 to 255. -/
abbrev eventsSound (es : List EventEntry) : Prop :=
  (es.map (·.key)).Nodup ∧ ∀ e ∈ es, 1 ≤ e.count ∧ e.count ≤ Config.raiseLimit

/-- The vehicle table has its canonical form. -/
def State.vehiclesSound (s : State) : Bool := Sparse.wf Vehicle.unused 512 s.vehicles

/-- The stored vehicle table has its canonical form. -/
def Stored.vehiclesSound (st : Stored) : Bool := Sparse.wf StoredVehicle.unused 512 st.vehicles

/-- The due list holds exactly the vehicles that are DUE or OVERDUE, each once (R141). -/
def State.dueSound (s : State) : Prop :=
  s.dueList.Nodup ∧ ∀ v : VehicleId, v ∈ s.dueList ↔ (s.vehicle v).status.listed = true

/-- States in which a hose's reservation counts for its tank: READY to CLOSING (R73). -/
def HoseState.reserves : HoseState → Bool
  | .ready | .starting | .flowing | .trimming | .paused | .closing => true
  | .idle | .settled => false

/-- The volume that a hose holds reserved at a tank (R2, R73). -/
def Hose.reservedOn (x : Hose) (t : TankId) : Nat :=
  match x.grant with
  | some g => if g.tank = t ∧ x.state.reserves = true then g.tankRes else 0
  | none => 0

/-- What a hose adds to a pump's demand (R99). -/
def Hose.demandOn (x : Hose) (t : TankId) : Nat := if x.config.tank = t ∧ x.state.demands = true then 1 else 0

/-- The sum of the reservations that the hoses hold at a tank (R73). -/
def State.reservedOn (s : State) (t : TankId) : Nat := (allHoses.map fun h => (s.hose h).reservedOn t).sum

/-- The hoses that count toward a pump's demand (R99). -/
def State.demandOn (s : State) (t : TankId) : Nat := (allHoses.map fun h => (s.hose h).demandOn t).sum

/-- Grants, bindings and reservations agree: a hose has a grant in every state but IDLE, a vehicle is bound to a hose
exactly when that hose's grant names it (R114), a READY grant holds the reservation of its preset (R12, R16), and a
tank's reserved volume is the sum of the hoses' reservations (R73). -/
structure State.GrantsAgree (s : State) : Prop where
  idle : ∀ h : HoseId, (s.hose h).grant = none ↔ (s.hose h).state = .idle
  bound : ∀ (v : VehicleId) (h : HoseId), (s.vehicle v).binding = some h ↔ ∃ g, (s.hose h).grant = some g ∧ g.vehicle = v
  ready : ∀ (h : HoseId) (g : Grant), (s.hose h).state = .ready → (s.hose h).grant = some g →
    g.tankRes = reservationOf g.preset
  reserved : ∀ t : TankId, (s.tank t).reserved = s.reservedOn t

/-- A pump's demand is the number of hoses of its tank in STARTING to PAUSED (R99). -/
def State.demandAgrees (s : State) : Prop := ∀ t : TankId, (s.pump t).demand = s.demandOn t

/-- The start slot is held by the pump in STARTING, and by none when no pump is (R102). -/
def State.slotAgrees (s : State) : Prop := ∀ t : TankId, s.slotHolder = some t ↔ (s.pump t).state = .starting

/-- The snapshots of the power-fail area are those of different hoses and of different vehicles (R114, R178). -/
def Stored.areaSound (st : Stored) : Prop :=
  ∀ a, st.area = some a → (a.snapshots.map (·.hose)).Nodup ∧ (a.snapshots.map (·.grant.vehicle)).Nodup

/-- The blocks of a running part hold the levels that stand at its inputs (R67, R98, R198). -/
structure State.LevelsAgree (s : State) : Prop where
  inspection : s.link.inspection = s.inputs.switchClosed
  estop : s.link.estop = s.inputs.estop
  pressure : ∀ t : TankId, (s.pump t).pressureUp = s.inputs.pressure.get t

/-- Every calibration record is PROTECTED (R59). -/
def State.protected (s : State) : Prop := ∀ h : HoseId, (s.cal h).opened = false

/-- The link's queues keep their limits, a held request has room for its reply (R190, R192), and the attention line
follows the event queue of a part that works on (R198). -/
structure State.LinkSound (s : State) : Prop where
  attention : s.link.attention = (s.phase.live && !s.link.events.isEmpty)
  waiting : s.link.rxQueue.length ≤ 4
  replies : s.link.tx.length + (if s.link.held.isSome then 1 else 0) ≤ 5

/-- At most one segment is ACTIVE, and it has a FREE slot; a FREE segment has only FREE slots; the segment under erase
is ERASING (R151, R158, R165). -/
structure Journal.SegmentsSound (j : Journal) : Prop where
  one : ∀ g k : SegmentId, (j.segment g).state = .active → (j.segment k).state = .active → g = k
  room : ∀ g : SegmentId, (j.segment g).state = .active → (j.segment g).slots.length < 64
  blank : ∀ g : SegmentId, (j.segment g).state = .free → (j.segment g).slots = []
  erasing : ∀ g : SegmentId, j.erase = some g → (j.segment g).state = .erasing

/-- A journal that is not FAULTED has a free slot for every reservation (R160). -/
def Journal.spare (j : Journal) : Prop := j.faulted = false → j.reservations ≤ j.free

/-- The part is in reset (R180). -/
def Phase.isReset : Phase → Bool
  | .inReset _ _ => true
  | .running | .restartReply | .saving _ _ | .restarting => false

/-- No two enabled records of a table carry the same non-zero tag (R112). -/
def tagsDistinct (host : VehicleId → HostPart) : Prop :=
  ∀ u v : VehicleId, (host u).inUse = true → (host u).enabled = true → (host v).inUse = true →
    (host v).enabled = true → (host u).tag = (host v).tag → (host u).tag ≠ 0 → u = v

/-- The writes of the settings store that have not completed, in the order in which they complete (R194). -/
def Store.waiting (st : Store) : List StoreWrite := st.inFlight.toList ++ st.queue

/-- The contents of the settings store after some of the writes that wait. -/
def Stored.after (st : Stored) (ws : List StoreWrite) : Stored := ws.foldl (fun st w => applyWrite w st) st

/-- The law of R112: it holds of the working table, and of the stored table now and after each write that waits; and
the writes that wait make the stored host parts the working ones, except in reset. -/
structure State.TagsSound (s : State) : Prop where
  working : tagsDistinct fun v => (s.vehicle v).host
  stored : ∀ n, tagsDistinct fun v => ((s.store.stored.after (s.store.waiting.take n)).vehicle v).host
  order : s.phase.isReset = false → ∀ v, ((s.store.stored.after s.store.waiting).vehicle v).host = (s.vehicle v).host

/-- The soundness that every step keeps: the tables in canonical form, the valves, the event queue, the due list; the
grants, the pumps and the start slot; the levels and the protection; the link; the journal; the tags. -/
structure State.Sound (s : State) : Prop where
  vehicles : s.vehiclesSound = true
  stored : s.store.stored.vehiclesSound = true
  valves : s.valvesSafe
  events : eventsSound s.link.events
  due : s.dueSound
  grants : s.GrantsAgree
  demand : s.demandAgrees
  slot : s.slotAgrees
  area : s.store.stored.areaSound
  levels : s.phase = .running → s.LevelsAgree
  sealed : s.phase = .running → s.inputs.switchClosed = false → s.protected
  resealed : s.phase = .restarting → s.protected
  link : s.LinkSound
  segments : s.phase.isReset = false → s.journal.SegmentsSound
  spare : s.phase.isReset = false → s.journal.spare
  tags : s.TagsSound

/-! ### A request and the link -/

/-- The link is free: the part runs ONLINE, no request is held, no frame waits, and the transmitter has room for a
reply. A frame that completes then is taken at once (R191, R192). -/
structure State.linkFree (s : State) : Prop where
  running : s.phase = .running
  online : s.link.online = true
  free : s.link.held = none
  empty : s.link.rxQueue = []
  room : s.link.tx.length ≤ 4

/-- The state after a valid frame has restarted the link timer ONLINE (R172). -/
def State.heard (s : State) : State := s.setLink { s.link with linkTimer := some s.link.site.linkTimeout }

/-- A reply has been handed to the transmitter (R192). -/
def State.answered (s : State) (kind tag : Byte) (status : StatusCode) (body : ReplyBody) : State :=
  s.setLink { s.link with tx := s.link.tx ++ [{ kind := kind, tag := tag, status := status, body := body }] }

/-- A request holds the link (R191, R195). -/
def State.holding (s : State) (kind tag : Byte) (wait : HeldWait) : State :=
  s.setLink { s.link with held := some { kind := kind, tag := tag, wait := wait } }

/-- The bytes of the frame of a request: start byte, length, kind, tag, body and CRC (R187, R189). -/
def frameBytes (tag : Byte) (r : Request) : List Byte :=
  let covered := beBytes 2 (putBody r).length ++ [requestKind r, tag] ++ putBody r
  0xA5#8 :: (covered ++ put16 (crc16 covered))

/-- The kinds whose requests have one body length, with that length (table of 11.1). STRAP_SET, 0x24, and
VEHICLE_LOAD_NEXT, 0x34, have several. -/
def bodyLengths : List (Nat × Nat) :=
  [(0x01, 10), (0x02, 1), (0x03, 1), (0x04, 1), (0x05, 1), (0x06, 1), (0x07, 13), (0x08, 1), (0x10, 1), (0x11, 1),
    (0x12, 37), (0x13, 1), (0x14, 11), (0x15, 1), (0x20, 1), (0x21, 5), (0x22, 13), (0x23, 16), (0x25, 1), (0x26, 1)]
  ++ [(0x28, 4), (0x29, 1), (0x2A, 1), (0x30, 2), (0x31, 8), (0x32, 23), (0x33, 2), (0x35, 0), (0x36, 1), (0x38, 8),
    (0x39, 10), (0x3A, 44), (0x3B, 3), (0x3C, 2), (0x40, 5), (0x41, 4), (0x42, 0), (0x50, 0), (0x51, 1), (0x52, 5),
    (0x53, 4), (0x54, 0)]

/-- Commands run one after the other. -/
def runAll : List Instr → State → Result
  | [], s => .next s
  | c :: rest, s =>
    match exec c s with
    | .next t => runAll rest t
    | .fault f => .fault f
    | .refused r => .refused r

/-- The command that brings the frame of a request. -/
def commandOf (tag : Byte) : Request → Instr
  | .authorize hose vehicle preset flags hours => .authorize tag hose vehicle preset flags hours
  | .cancel hose => .cancel tag hose
  | .stop hose => .stop tag hose
  | .pause hose => .pause tag hose
  | .resume hose => .resume tag hose
  | .hoseQuery hose => .hoseQuery tag hose
  | .hoseSet hose config => .hoseSet tag hose config
  | .totalizerRead hose => .totalizerRead tag hose
  | .calOpen hose => .calOpen tag hose
  | .calClose hose => .calClose tag hose
  | .calWrite hose record => .calWrite tag hose record
  | .calRead hose => .calRead tag hose
  | .productSet code name beta => .productSet tag code name beta
  | .productRead code => .productRead tag code
  | .receiptBegin tank => .receiptBegin tag tank
  | .receiptEnd tank docket => .receiptEnd tag tank docket
  | .stockAdjust tank expected book => .stockAdjust tag tank expected book
  | .tankSet tank config => .tankSet tag tank config
  | .strapSet tank count points => .strapSet tag tank count points
  | .tankQuery tank => .tankQuery tag tank
  | .strapRead tank => .strapRead tag tank
  | .pumpSet tank config => .pumpSet tag tank config
  | .pumpQuery tank => .pumpQuery tag tank
  | .pumpClear tank => .pumpClear tag tank
  | .vehicleGet index => .vehicleGet tag index
  | .vehicleFind vehicleTag => .vehicleFind tag vehicleTag
  | .vehiclePut index host revision => .vehiclePut tag index host revision
  | .vehicleLoadBegin start => .vehicleLoadBegin tag start
  | .vehicleLoadNext count records => .vehicleLoadNext tag count records
  | .vehicleLoadEnd => .vehicleLoadEnd tag
  | .classRead cls => .classRead tag cls
  | .hoursSet index hours revision => .hoursSet tag index hours revision
  | .serviceDone index line flags hours revision => .serviceDone tag index line flags hours revision
  | .classSet cls record => .classSet tag cls record
  | .dueListRead start count => .dueListRead tag start count
  | .serviceQuery index => .serviceQuery tag index
  | .journalRead start count => .journalRead tag start count
  | .journalAck seq => .journalAck tag seq
  | .journalStatus => .journalStatus tag
  | .status => .status tag
  | .eventsRead count => .eventsRead tag count
  | .siteSet linkTimeout standaloneCap threshold => .siteSet tag linkTimeout standaloneCap threshold
  | .timeSet time => .timeSet tag time
  | .restart => .restart tag

/-! ### Authorization (R7, R11) -/

/-- A vehicle carries a tag, and no other enabled record does (R112). -/
structure State.onlyCarrier (s : State) (tag : Tag) (v : VehicleId) : Prop where
  carries : (s.vehicle v).carries tag = true
  alone : ∀ u : VehicleId, (s.vehicle u).carries tag = true → u = v

/-- Two enabled in-use records that hold one tag (R112). -/
def HostPart.Clashes (p q : HostPart) : Prop :=
  p.inUse = true ∧ p.enabled = true ∧ p.tag ≠ 0 ∧ q.inUse = true ∧ q.enabled = true ∧ q.tag = p.tag

/-- A record whose host part is replaced: the revision advances, and the usage part and marks are kept while it stays in
use, and set anew at a creation or a removal (R119 step 1, R121). -/
def Vehicle.withHost (r : Vehicle) (p : HostPart) : Vehicle :=
  let keep := r.host.inUse = true ∧ p.inUse = true
  { r with
    host := p, revision := (r.revision + 1) % 65536
    usage := if keep then r.usage else { fuel := 0, hours := none, meter := false, regress := false }
    marks := if keep then r.marks else freshMarks }

/-- The host part at an index after the first `i` records of a load request stand from the index `next` on (R124). -/
def State.hostAfter (s : State) (next : Nat) (ps : List HostPart) (i : Nat) (x : VehicleId) : HostPart :=
  if next ≤ x.val ∧ x.val < next + i then ps.getD (x.val - next) HostPart.unused else (s.vehicle x).host

/-- Record `i` of a load request, `p`, reaches the index `v`, unbound (R124). -/
structure State.Reaches (s : State) (next : Nat) (ps : List HostPart) (i : Nat) (v : VehicleId) (p : HostPart) : Prop where
  index : v.val = next + i
  record : ps[i]? = some p
  unbound : (s.vehicle v).binding = none

/-- Record `i` of a load request is placed: no other record would hold its tag, those of the same request counted (R124). -/
structure State.Places (s : State) (next : Nat) (ps : List HostPart) (i : Nat) (v : VehicleId) (p : HostPart) : Prop
    extends s.Reaches next ps i v p where
  alone : ∀ x : VehicleId, x ≠ v → ¬p.Clashes (s.hostAfter next ps i x)

/-- Checks 1 to 10 of an authorization pass (R7). -/
structure State.mayAuthorize (s : State) (h : HoseId) (v : VehicleId) : Prop where
  stopReleased : s.link.estop = false
  notFaulted : s.journal.faulted = false
  slots : s.journal.reservations + 1 + 16 ≤ s.journal.free
  idle : (s.hose h).state = .idle
  inUse : (s.vehicle v).host.inUse = true
  enabled : (s.vehicle v).host.enabled = true
  unbound : (s.vehicle v).binding = none
  unlocked : (s.vehicle v).host.hostLocked = false
  allowed : (s.vehicle v).host.products.getLsbD (s.tank (s.hose h).config.tank).config.product.val = true
  notReceiving : ∀ r, (s.tank (s.hose h).config.tank).receipt ≠ .receiving r
  pump : (s.pump (s.hose h).config.tank).state ≠ .fault

/-- Checks 11 to 13 of an authorization pass (R7). -/
structure State.passesLate (s : State) (h : HoseId) (v : VehicleId) (path : GrantPath) (supervisor : Bool) : Prop where
  service : ¬((s.vehicle v).status = .overdue ∧ (s.classOf (s.vehicle v).host.cls).overdueAction = .refuse
    ∧ supervisor = false)
  standalone : path = .tag → s.link.online = false →
    (s.vehicle v).host.standalonePermit = true ∧ 0 < s.link.site.standaloneCap
  stock : 20000 ≤ (s.tank (s.hose h).config.tank).book - (s.tank (s.hose h).config.tank).config.heel
    - (s.tank (s.hose h).config.tank).reserved

/-- What a grant does to the state (R12). -/
structure Granted (s t : State) (h : HoseId) (g : Grant) : Prop where
  hose : t.hose h =
    { s.hose h with
      state := .ready, grant := some g, lastRefusal := none, stray := 0
      lamp := if g.statusAtGrant = .due ∨ g.statusAtGrant = .overdue then .amber else .green
      timers := { (s.hose h).timers with refusal := none, ready := some (s.hose h).config.readyTimeout } }
  tank : t.tank g.tank = { s.tank g.tank with reserved := (s.tank g.tank).reserved + g.tankRes }
  vehicle : t.vehicle g.vehicle = { s.vehicle g.vehicle with binding := some h }
  journal : t.journal = { s.journal with reservations := s.journal.reservations + 1 }
  link : t.link = (raise (.hoseState h) (.entered .ready) s).link
  frame : t = ((((s.setHose h (t.hose h)).setTank g.tank (t.tank g.tank)).setVehicle g.vehicle
    (t.vehicle g.vehicle)).setJournal t.journal).setLink t.link

/-! ### The lines of a service schedule (R134, R135) -/

/-- The figures of a schedule line of a vehicle as SERVICE_QUERY answers them (R134, R135, R150; a line that is not used:
assumption 43). -/
def Vehicle.lineFigures (r : Vehicle) (c : ClassRecord) (n : LineId) : LineReply :=
  let line := c.lines.get n
  let mark := r.marks.get n
  let fuel := r.usage.fuel - mark.fuel
  let measured :=
    match r.usage.meter, r.usage.hours, mark.hours with
    | true, some a, some b => some (a - b)
    | _, _, _ => none
  let hours := measured.getD (if c.burnRate = 0 then 0 else fuel * 10 / (c.burnRate * 1000))
  let byHours := if line.hour = 0 then none else some (hours * 1000 / line.hour)
  let byFuel := if line.fuel = 0 then none else some (fuel * 1000 / (line.fuel * 1000))
  { used := decide (line.hour ≠ 0 ∨ line.fuel ≠ 0), interval := line, mark := mark, fuelSince := fuel, hoursSince := hours,
    measured := measured.isSome, hourPerMille := byHours, fuelPerMille := byFuel,
    perMille := min 65535 (max (byHours.getD 0) (byFuel.getD 0)) }

/-- The worst line of a vehicle: the used line with the greatest per-mille, of equal ones the lowest (R135). -/
structure Vehicle.worstIs (r : Vehicle) (c : ClassRecord) (w : LineId) : Prop where
  used : (r.lineFigures c w).used = true
  greatest : ∀ n : LineId, (r.lineFigures c n).used = true →
    (r.lineFigures c n).perMille < (r.lineFigures c w).perMille
      ∨ (r.lineFigures c n).perMille = (r.lineFigures c w).perMille ∧ w ≤ n

/-! ### The start slot (R102) -/

/-- The pump that a freed start slot goes to: of the WAITING pumps the one of the best priority, the lowest value, and of
equal ones that of the lowest tank number (R102). -/
structure State.nextToStart (s : State) (j : TankId) : Prop where
  waits : (s.pump j).state = .waiting
  best : ∀ i : TankId, (s.pump i).state = .waiting →
    (s.pump j).config.priority < (s.pump i).config.priority
      ∨ (s.pump j).config.priority = (s.pump i).config.priority ∧ j ≤ i

/-- A pump has given up the start slot: the next pump to start holds it and starts, every other pump stays, and the slot
is free when no pump waits (R102). -/
structure SlotPassed (s t : State) (k : TankId) : Prop where
  granted : ∀ j : TankId, s.nextToStart j →
    t.slotHolder = some j ∧ t.pump j = { s.pump j with
      state := .starting, starter := true, startTimer := some (s.pump j).config.startTimeout }
  free : (∀ j : TankId, (s.pump j).state ≠ .waiting) → t.slotHolder = none
  stay : ∀ j : TankId, j ≠ k → ¬s.nextToStart j → t.pump j = s.pump j

/-! ### The journal's segments and FAULTED; the due list follows a status -/

/-- The number of segments passed over from a segment to another in circular order (R151). -/
def stepsAfter (g k : SegmentId) : Nat := (k.val + 31 - g.val) % 32

/-- The next FREE segment in circular order after a segment (R158). -/
structure Journal.NextFree (j : Journal) (g k : SegmentId) : Prop where
  free : (j.segment k).state = .free
  next : ∀ i : SegmentId, (j.segment i).state = .free → stepsAfter g k ≤ stepsAfter g i

/-- What a journal becomes when a segment has taken a slot (R158): below its last slot the other segments and the
high-water mark stand; a segment filled is followed by the next FREE segment, which becomes ACTIVE with its high-water
mark, whose store write is the only one that begins; with none FREE no segment is ACTIVE. -/
structure SegmentFollows (s t : State) (g : SegmentId) (seq : Nat) (newest : Option (Nat × Nat)) (writes : List StoreWrite) :
    Prop where
  room : (s.journal.segment g).slots.length + 1 < 64 →
    t.journal.highWater = s.journal.highWater ∧ (∀ k, k ≠ g → t.journal.segment k = s.journal.segment k) ∧ writes = []
  next : 64 ≤ (s.journal.segment g).slots.length + 1 → ∀ k, s.journal.NextFree g k →
    t.journal.highWater = { seq := seq, segment := k, newest := newest }
      ∧ t.journal.segment k = { s.journal.segment k with state := .active }
      ∧ (∀ i, i ≠ g → i ≠ k → t.journal.segment i = s.journal.segment i) ∧ writes = [.highWater t.journal.highWater]
  noneFree : 64 ≤ (s.journal.segment g).slots.length + 1 → (∀ k, (s.journal.segment k).state ≠ .free) →
    t.journal.highWater = s.journal.highWater ∧ (∀ k, k ≠ g → t.journal.segment k = s.journal.segment k) ∧ writes = []

/-- A segment that carries neither a retired mark nor the erase mark (R170). -/
def Stored.Unmarked (st : Stored) (found : Vector Segment 32) (g : SegmentId) : Prop :=
  st.retired.get g = false ∧ (found.get g).eraseMark = false

/-- A segment that the scan takes as FREE: unmarked, with every slot blank, and not the one that the high-water mark
names (R170). -/
structure Stored.FoundFree (st : Stored) (found : Vector Segment 32) (g : SegmentId) : Prop where
  unmarked : st.Unmarked found g
  blank : (found.get g).slots = []
  other : g ≠ st.highWater.segment

/-- Does the high-water mark name a segment that can go on taking records: an unmarked one with a slot left? (R170) -/
def Stored.GoesOn (st : Stored) (found : Vector Segment 32) : Prop :=
  st.Unmarked found st.highWater.segment ∧ (found.get st.highWater.segment).slots.length < 64

/-- What the scan at a reset makes of the segments it finds and of the stored marks: the journal `j`, and the store writes
`writes` that it begins (R158, R170, R171). Where the segment that the high-water mark names carries a mark, the clauses
`next` and `noneFree` are the model's reading (assumption 39); that `full` takes in a segment that holds VOID slots and no
record is its choice (assumption 50). -/
structure ScanLeaves (st : Stored) (found : Vector Segment 32) (j : Journal) (writes : List StoreWrite) : Prop where
  retired : ∀ g, st.retired.get g = true →
    j.segment g = { found.get g with state := .retired, worn := false, slots := [] }
  erasing : ∀ g, st.retired.get g = false → (found.get g).eraseMark = true →
    j.segment g = { found.get g with state := .erasing, worn := st.worn.get g, slots := [] }
  kept : ∀ g, st.Unmarked found g →
    j.segment g = { found.get g with
      state := (j.segment g).state, worn := st.worn.get g || (found.get g).slots.any fun x => decide (x = .void) }
  full : ∀ g, st.Unmarked found g → g ≠ st.highWater.segment → (found.get g).slots ≠ [] → (j.segment g).state = .full
  goesOn : st.GoesOn found → (j.segment st.highWater.segment).state = .active
    ∧ (∀ g, st.FoundFree found g → (j.segment g).state = .free) ∧ j.highWater = st.highWater ∧ writes = []
  filled : st.Unmarked found st.highWater.segment → 64 ≤ (found.get st.highWater.segment).slots.length →
    (j.segment st.highWater.segment).state = .full
  next : ¬st.GoesOn found → ∀ k, st.FoundFree found k →
    (∀ i, st.FoundFree found i → stepsAfter st.highWater.segment k ≤ stepsAfter st.highWater.segment i) →
    (j.segment k).state = .active ∧ (∀ i, st.FoundFree found i → i ≠ k → (j.segment i).state = .free)
      ∧ j.highWater = { seq := j.nextSeq, segment := k, newest := j.newest } ∧ writes = [.highWater j.highWater]
  noneFree : ¬st.GoesOn found → (∀ i, ¬st.FoundFree found i) → j.highWater = st.highWater ∧ writes = []
  above : st.highWater.seq ≤ j.nextSeq ∧ ∀ r ∈ j.written, r.stamp.seq < j.nextSeq
  least : j.nextSeq = st.highWater.seq ∨ ∃ r ∈ j.written, j.nextSeq = r.stamp.seq + 1
  noRecord : j.written = [] → j.newest = st.highWater.newest
  newest : j.written ≠ [] → ∃ r ∈ j.written, (∀ x ∈ j.written, x.stamp.seq ≤ r.stamp.seq)
    ∧ j.newest =
        match st.highWater.newest with
        | some n => if r.stamp.seq < n.1 then some n else some (r.stamp.seq, r.stamp.time)
        | none => some (r.stamp.seq, r.stamp.time)
  armed : j.armed = decide (j.held.length * 100 < j.usable * st.site.threshold)
  idle : j.writing = false ∧ j.erase = none ∧ j.ackWrite = .none

/-- The journal enters FAULTED: a request held for its record's journal write is answered OK at once without a number
and leaves the link (R64, R89, R147), and the FAULTED event is raised (R160). -/
structure EntersFaulted (s t : State) : Prop where
  faulted : t.journal.faulted = true
  early : ∀ (k tag : Byte) (wait : HeldWait), s.link.held = some { kind := k, tag := tag, wait := wait } →
    let answers := fun body : ReplyBody =>
      t.link = (raise .journal .faulted ((s.setLink { s.link with held := none }).answered (replyKind k) tag .ok body)).link
    match wait with
    | .calWrite h none => answers (.calWritten (s.cal h).data.count none)
    | .productSet _ none => answers (.productWritten none)
    | .serviceDone v none => answers (.serviceDone (s.vehicle v).revision (s.vehicle v).status none)
    | .stockAdjust _ book revision => answers (.adjusted book revision none)
    | _ => t.link = (raise .journal .faulted s).link
  alone : s.link.held = none → t.link = (raise .journal .faulted s).link

/-- The journal's fill threshold after a change of its records or of its usable slots (R167): `u` is the state before
the test. -/
def State.tested (u : State) : State :=
  let passes := u.journal.usable * u.link.site.threshold ≤ u.journal.held.length * 100
  if passes ∧ u.journal.armed = true then
    (raise .journal .threshold u).setJournal { u.journal with armed := false }
  else u.setJournal { u.journal with armed := !decide passes }

/-- What a FAULTED journal needs to leave FAULTED: free slots for its reservations (R161), and a number for its next
record or one that the head record keeps (R153; the reading of assumption 36). -/
structure Journal.Recovers (j : Journal) : Prop where
  faulted : j.faulted = true
  room : j.reservations ≤ j.free
  numbers : j.nextSeq ≤ 4294967295 ∨ ∃ (q : Queued) (rest : List Queued) (st : Stamp), j.queue = q :: rest ∧ q.stamp = some st

/-- What a change of a vehicle's status does to the due list and its revision (R141), and to the event queue, which takes
the SERVICE event at an append and at a change from DUE to OVERDUE alone (R142). -/
structure DueListFollows (s t : State) (v : VehicleId) (old new : ServiceStatus) : Prop where
  joins : new = .due ∨ new = .overdue → old = .ok ∨ old = .dueSoon →
    t.dueList = s.dueList ++ [v] ∧ t.dueRevision = (s.dueRevision + 1) % 65536
      ∧ t.link = (raise .service (.serviceStatus v new) s).link
  leaves : new = .ok ∨ new = .dueSoon → old = .due ∨ old = .overdue →
    t.dueList = s.dueList.filter (fun x => decide (x ≠ v)) ∧ t.dueRevision = (s.dueRevision + 1) % 65536
      ∧ t.link = s.link
  stays : (new = .due ∨ new = .overdue ↔ old = .due ∨ old = .overdue) →
    t.dueList = s.dueList ∧ t.dueRevision = s.dueRevision
  worse : new = .overdue → old = .due → t.link = (raise .service (.serviceStatus v new) s).link
  quiet : (new = .due ∨ new = .overdue ↔ old = .due ∨ old = .overdue) → ¬(new = .overdue ∧ old = .due) → t.link = s.link

/-! ### The end of a delivery (R15, R27, R28) -/

/-- What the release of a grant from READY does (R15); the end of its reservation lets a FAULTED journal leave FAULTED
(R161). -/
structure Released (s t : State) (h : HoseId) (g : Grant) (d : Detail) : Prop where
  hose : t.hose h =
    { s.hose h with
      state := .idle, grant := none, valve := .closed, lamp := .off
      timers := ⟨none, none, none, none, none, none⟩ }
  tank : t.tank g.tank = { s.tank g.tank with reserved := (s.tank g.tank).reserved - g.tankRes }
  vehicle : t.vehicle g.vehicle = { s.vehicle g.vehicle with binding := none }
  slot : t.journal.reservations = s.journal.reservations - 1
  recovers : { s.journal with reservations := s.journal.reservations - 1 }.Recovers →
    t.journal.faulted = false ∧ t.link = (raise (.hoseState h) d (raise .journal .recovered s)).link
  stays : ¬{ s.journal with reservations := s.journal.reservations - 1 }.Recovers →
    t.journal.faulted = s.journal.faulted ∧ t.link = (raise (.hoseState h) d s).link
  frame : t = ((((s.setHose h (t.hose h)).setTank g.tank (t.tank g.tank)).setVehicle g.vehicle
    (t.vehicle g.vehicle)).setJournal
      { s.journal with reservations := t.journal.reservations, faulted := t.journal.faulted }).setLink t.link

/-- A pump whose demand a hose drops (R99, R101). -/
def Pump.dropped (p : Pump) : Pump :=
  if p.demand ≠ 1 then { p with demand := p.demand - 1 }
  else
    match p.state with
    | .running =>
      if p.config.runOn = 0 then
        { p with demand := 0, state := .stopped, starter := false, startTimer := none, runOnTimer := none }
      else
        { p with demand := 0, state := .runOn, starter := true, startTimer := none, runOnTimer := some p.config.runOn }
    | .waiting => { p with demand := 0, state := .stopped, starter := false }
    | .stopped | .starting | .runOn | .fault => { p with demand := 0 }

/-- The events of an entry to CLOSING (R27 step 6). -/
def closingEvents (h : HoseId) (r : EndReason) (s : State) : State :=
  let s := raise (.hoseState h) (.entered .closing) s
  if r = .pumpFail then raise (.hoseFault h) .pumpFail s
  else if r = .measureFault then raise (.hoseFault h) .measureFault s
  else s

/-- What an entry to CLOSING does (R27). -/
structure Closed (s t : State) (h : HoseId) (r : EndReason) : Prop where
  hose : t.hose h =
    { s.hose h with
      state := .closing, valve := .closed, lamp := .off
      grant := (s.hose h).grant.map fun g => { g with endReason := some r }
      timers :=
        { ready := none, noFlow := none, pause := none, settle := some (s.hose h).config.settleTime,
          closing := some 30, refusal := none } }
  pump : t.pump (s.hose h).config.tank = (s.pump (s.hose h).config.tank).dropped
  link : t.link = (closingEvents h r s).link
  frame : t = ((s.setHose h (t.hose h)).setPump (s.hose h).config.tank (t.pump (s.hose h).config.tank)).setLink t.link

/-- The DELIVERY record of a hose whose measurement is final (R28 step 5). -/
def recordOf (s : State) (h : HoseId) (g : Grant) (r : EndReason) (start : RecTime) (overrun : Bool) (e : Engine) :
    DeliveryRecord :=
  { hose := h, tank := g.tank, product := g.product, vehicle := g.vehicle, tag := g.tag, path := g.path,
    hours := g.hours, preset := g.preset, gross := e.gross, net := e.net,
    average := if e.gross = 0 then e.t0 else Int.tdiv e.sum e.gross, endReason := r, grantFlags := g.flags,
    overspeed := e.overspeed, uncompensated := e.uncompensated, regress := g.regress, overrunLong := overrun,
    statusAtGrant := g.statusAtGrant, start := start, finish := recordedTime s,
    grossTotalizer := (e.grossTotal + e.gross) % 1000000000000 }

/-- A receipt in progress takes a delivery of a hose: its net less the hose's baseline, which is discarded (R83). -/
def Receipt.taking (r : Receipt) (h : HoseId) (net : Nat) : Receipt :=
  { r with
    delivered := r.delivered + ((net : Int) - ((r.baselines.get h).getD 0 : Nat))
    baselines := upd r.baselines h none }

/-- The tank that a delivery was taken from, after its settle accounting (R28, R73, R74, R83). -/
def Tank.settledBy (x : Tank) (h : HoseId) (res net : Nat) : Tank :=
  let book : Int := max (-140737488355327) (min 140737488355327 (x.book - net))
  { x with
    book := book, reserved := x.reserved - res, low := decide (book - x.config.heel < x.config.lowAlarm)
    receipt :=
      match x.receipt with
      | .normal => .normal
      | .receiving r => .receiving (r.taking h net)
      | .settling r n => .settling (r.taking h net) n }

/-- What an entry to SETTLED does (R28): the hose and its engine; the tank of the delivery, and the quiet timer of the
hose's tank when no other hose of it is counted (R79); the vehicle, with its recomputed status, unless its index is
unused (R127, R129); the record, the store writes and the event; and that every other object stands. -/
structure Settled (s t : State) (h : HoseId) (g : Grant) (d : DeliveryRecord) : Prop where
  hose : t.hose h =
    { s.hose h with
      state := .settled, valve := .closed, lamp := .off, timers := ⟨none, none, none, none, none, none⟩
      lastEnd := some d.endReason, grant := some { g with tankRes := 0, held := some d } }
  engine : t.engine h =
    { finishMeasurement (s.engine h) with
      grossTotal := ((s.engine h).grossTotal + d.gross) % 1000000000000
      netTotal := ((s.engine h).netTotal + d.net) % 1000000000000 }
  tanks : ∀ k : TankId, t.tank k =
    let x := if k = g.tank then (s.tank k).settledBy h g.tankRes d.net else s.tank k
    if (s.hose h).config.tank = k
        ∧ ∀ i : HoseId, i ≠ h → (s.hose i).config.tank = k → (s.hose i).state.counted = false then
      { x with quietTimer := some 60 }
    else x
  vehicle : (s.vehicle g.vehicle).host.inUse = true →
    let r := s.vehicle g.vehicle
    let r1 := { r with usage := { r.usage with fuel := min 281474976710655 (r.usage.fuel + d.net) } }
    t.vehicle g.vehicle =
      { r1 with
        status := statusOf (s.classOf r.host.cls) r1
        usageWrite := if r.usageWrite = .none then .inFlight else .again }
    ∧ (r.usageWrite = .none → .usage g.vehicle r1.usage ∈ t.store.queue)
  unused : (s.vehicle g.vehicle).host.inUse = false → t.vehicle g.vehicle = s.vehicle g.vehicle
  otherVehicles : ∀ v : VehicleId, v ≠ g.vehicle → t.vehicle v = s.vehicle v
  record : t.journal = { s.journal with queue := s.journal.queue ++ [{ record := .delivery d, stamp := none }] }
  writes : (∀ w ∈ s.store.queue, w ∈ t.store.queue) ∧ .book g.tank (t.tank g.tank).book ∈ t.store.queue ∧
    .totalizers h (t.engine h).grossTotal (t.engine h).netTotal ∈ t.store.queue
  event : ∃ e ∈ t.link.events, e.key = .hoseState h ∧ e.detail = .entered .settled
  others : ∀ k : HoseId, k ≠ h → t.hose k = s.hose k ∧ t.engine k = s.engine k
  frame : t = { s with hoses := t.hoses, engines := t.engines, tanks := t.tanks, vehicles := t.vehicles,
                       dueList := t.dueList, dueRevision := t.dueRevision, journal := t.journal
                       link := { s.link with events := t.link.events, attention := t.link.attention }
                       store := { s.store with queue := t.store.queue } }

end Sys2Proof.Machine
end

