-- ==== Sys2Proof/Certificates/Slice0/Obligations.lean ====
section
/-! DEFINITION. The statements about the model. OBLIGATIONS.json says of each what it claims and which sections of the
manual it rests on. A statement about a request holds of a link that is free (`State.linkFree`), where the frame is
taken at once; what a held or offline link does with a frame is stated apart. -/

section Statements

open Sys2Proof Sys2Proof.Machine

/-! ### The step and the queue of commands -/

/-- A step runs the command at the front of the queue on the state with the queue's rest. -/
def Obligations.StepRunsFrontCommand : Prop :=
  ∀ (c : Instr) (rest : List Instr) (s : State),
    step { s with pending := c :: rest } = exec c { s with pending := rest }

/-- With no command waiting a step is the passing of a second (the model's choice: assumption 3): the site clock counts
in every phase (R175), and in a running part each running timer has a second less, down to 0. -/
def Obligations.IdleStepPassesSecond : Prop :=
  ∀ s : State, s.pending = [] →
    ∃ t : State, step s = .next t
      ∧ t.clock = { count := (s.clock.count + 1) % 4294967296, valid := s.clock.valid }
      ∧ (s.phase ≠ .running → t = { s with clock := t.clock })
      ∧ (s.phase = .running →
          (∀ h : HoseId, t.hose h =
            { s.hose h with
              timers :=
                { ready := (s.hose h).timers.ready.map (· - 1), noFlow := (s.hose h).timers.noFlow.map (· - 1),
                  pause := (s.hose h).timers.pause.map (· - 1), settle := (s.hose h).timers.settle.map (· - 1),
                  closing := (s.hose h).timers.closing.map (· - 1),
                  refusal := (s.hose h).timers.refusal.map (· - 1) } })
          ∧ (∀ h : HoseId, t.engine h = { s.engine h with holdTimer := (s.engine h).holdTimer.map (· - 1) })
          ∧ (∀ k : TankId, t.tank k =
              { s.tank k with
                staleTimer := (s.tank k).staleTimer.map (· - 1), quietTimer := (s.tank k).quietTimer.map (· - 1)
                receipt :=
                  match (s.tank k).receipt with
                  | .settling r n => .settling r (n.map (· - 1))
                  | other => other })
          ∧ (∀ k : TankId, t.pump k =
              { s.pump k with
                startTimer := (s.pump k).startTimer.map (· - 1), runOnTimer := (s.pump k).runOnTimer.map (· - 1) })
          ∧ t.link = { s.link with linkTimer := s.link.linkTimer.map (· - 1) }
          ∧ t = { s with clock := t.clock, hoses := t.hoses, engines := t.engines, tanks := t.tanks, pumps := t.pumps,
                         link := t.link })

/-- Every command answers a next state in every state, and none touches the queue of the commands that wait. -/
def Obligations.CommandsCompleteKeepQueue : Prop :=
  ∀ (c : Instr) (s : State), ∃ t, exec c s = .next t ∧ t.pending = s.pending

/-! ### Reset and the soundness that every step keeps -/

/-- What the first reset leaves: the values that the reset columns of the chapters give, and the clock, which is not valid
(R175); its count is the model's choice (assumption 4). -/
def Obligations.ResetValues : Prop :=
  (∀ h : HoseId,
      (State.reset.hose h).state = .idle ∧ (State.reset.hose h).grant = none ∧ (State.reset.hose h).valve = .closed
      ∧ (State.reset.hose h).lamp = .off ∧ (State.reset.hose h).stray = 0 ∧ (State.reset.hose h).lastEnd = none
      ∧ ((State.reset.hose h).config.tank.val = h.val % 4)
      ∧ (State.reset.engine h).gross = 0 ∧ (State.reset.engine h).held = false
      ∧ (State.reset.engine h).latest = none ∧ (State.reset.cal h).opened = false)
  ∧ (∀ k : TankId,
      (State.reset.tank k).reserved = 0 ∧ (State.reset.tank k).probeValid = false
      ∧ (State.reset.tank k).quiet = false ∧ (State.reset.tank k).quietTimer = some 60
      ∧ (State.reset.tank k).relation = .unordered ∧ (State.reset.tank k).receipt = .normal
      ∧ (State.reset.pump k).state = .stopped ∧ (State.reset.pump k).demand = 0
      ∧ (State.reset.pump k).starter = false)
  ∧ (∀ v : VehicleId, (State.reset.vehicle v).host.inUse = false ∧ (State.reset.vehicle v).status = .ok)
  ∧ State.reset.clock = { count := 0, valid := false }
  ∧ State.reset.dueList = [] ∧ State.reset.dueRevision = 0 ∧ State.reset.loadSession = none
  ∧ State.reset.journal.queue = [] ∧ State.reset.journal.reservations = 0 ∧ State.reset.journal.free = 2048
  ∧ State.reset.journal.nextSeq = 1 ∧ State.reset.journal.faulted = false
  ∧ State.reset.link.online = false ∧ State.reset.link.linkTimer = none ∧ State.reset.link.rxQueue = []
  ∧ State.reset.link.held = none ∧ State.reset.link.attention = true
  ∧ State.reset.link.events.map (fun e => (e.key, e.detail)) = [(.restart, .resetCause .powerOn)]

/-- The reset state is sound: it meets the laws that every step keeps (R3, R59, R73, R99, R102, R112, R114, R141, R158,
R160, R190, R192, R196, R198). The reset state is that of the model's first start (assumption 4). -/
def Obligations.ResetIsSound : Prop := State.reset.Sound

/-- Every step keeps a sound state sound. Soundness says: no valve stands open but as its hose's state holds it (R3); a
vehicle is bound to a hose exactly when that hose's grant names it (R114), and a tank's reserved volume is the sum of its
hoses' reservations (R73); a pump's demand counts its hoses in STARTING to PAUSED (R99), and the start slot is held by the
pump in STARTING (R102); while the switch is open every calibration record is PROTECTED (R59), and the working levels
are those at the inputs; the due list holds exactly the vehicles that are DUE or OVERDUE, each once (R141); no two
enabled records carry the same tag, in the register and in the store after each write that waits (R112); a journal that
is not FAULTED has a free slot for every reservation (R160), at most one segment is ACTIVE and it has room (R158); the
event queue has one entry of a key with a count of 1 to 255 (R196), the attention line follows it (R198), at most four
frames and four further replies wait (R190, R192); and the tables stay in canonical form. That a frame waits for room at
the transmitter, which keeps the bound on the replies, is the model's reading (assumption 15); so is that a level which
already stands is no change (assumption 13). -/
def Obligations.StepKeepsSound : Prop := ∀ s t : State, s.Sound → step s = .next t → t.Sound

/-! ### The receiver and the formats -/

/-- The body that a well-formed request is sent with spells that request again, with every field at every value. Where
Chapter 11 gives a body in total length alone, its split into fields is the model's choice (assumption 5). -/
def Obligations.RequestsReadBack : Prop :=
  ∀ r : Request, r.wf = true → parseContent (requestKind r) (putBody r) = .request r

/-- The bytes of a frame, arriving one after the other at a receiver in HUNT, do what the command of its request does (that
the command stands for the arrival of the whole frame is the model's choice: assumption 2). -/
def Obligations.BytesMakeTheRequest : Prop :=
  ∀ (r : Request) (tag : Byte) (s : State),
    r.wf = true → s.phase = .running → s.link.rx = none → s.link.gapTimer = false →
    runAll ((frameBytes tag r).map .rxByte) s = exec (commandOf tag r) s

/-- In HUNT the receiver discards every byte but 0xA5, which starts a frame and the gap timer; a length above 1,024, a
framing error, the gap timer or a CRC that disagrees returns it to HUNT and drops what was received (R186 to R189). That
an expiry of the gap timer changes nothing while the timer is stopped is the model's choice (assumption 3). -/
def Obligations.ReceiverHuntsAndDrops : Prop :=
  (∀ s : State, s.phase = .running →
    (s.link.rx = none →
      (∀ b : Byte, b ≠ 0xA5#8 → exec (.rxByte b) s = .next s)
      ∧ exec (.rxByte 0xA5#8) s = .next (s.setLink { s.link with rx := some [], gapTimer := true })
      ∧ exec .framingError s = .next s)
    ∧ (∀ got : List Byte, s.link.rx = some got →
        exec .framingError s = .next (s.setLink { s.link with rx := none, gapTimer := false })
        ∧ (∀ b : Byte, got = [] →
            exec (.rxByte b) s = .next (s.setLink { s.link with rx := some [b], gapTimer := true }))
        ∧ (∀ a b : Byte, got = [a] → 1024 < a.toNat * 256 + b.toNat →
            exec (.rxByte b) s = .next (s.setLink { s.link with rx := none, gapTimer := false })))
    ∧ exec .gapTimerExpiry s =
        .next (if s.link.gapTimer then s.setLink { s.link with rx := none, gapTimer := false } else s))
  ∧ (∀ (r : Request) (tag : Byte) (crc : BitVec 16) (s : State),
    r.wf = true → s.phase = .running → s.link.rx = none → s.link.gapTimer = false →
    crc ≠ crc16 (beBytes 2 (putBody r).length ++ [requestKind r, tag] ++ putBody r) →
    runAll ((0xA5#8 :: (beBytes 2 (putBody r).length ++ [requestKind r, tag] ++ putBody r ++ put16 crc)).map .rxByte) s
      = .next s)

/-! ### The link mode, the receive queue and the transmitter -/

/-- A request that arrives while another holds the link, or while four replies wait beside the one being sent, restarts
the link timer and waits, or is dropped when four frames wait; a frame in STANDALONE sets the mode ONLINE before its
request is taken, the link timer sets STANDALONE and closes a load session (R172, R173, R190, R192). That a request's
command is the arrival of its frame, and that an expiry of the link timer changes nothing while the timer is stopped,
are the model's choices (assumptions 2 and 3); that a request waits for room at the transmitter is its reading
(assumption 15). -/
def Obligations.LinkQueueAndMode : Prop :=
  (∀ (r : Request) (tag : Byte) (s : State),
    r.wf = true → s.phase = .running → s.link.online = true → s.link.held ≠ none ∨ 4 < s.link.tx.length →
    exec (commandOf tag r) s =
      .next (if s.link.rxQueue.length < 4 then
          s.heard.setLink { s.heard.link with rxQueue := s.link.rxQueue ++ [{ tag := tag, content := .request r }] }
        else s.heard))
  ∧ (∀ s : State, s.phase = .running →
    (∀ (r : Request) (tag : Byte), r.wf = true → s.link.online = false →
      exec (commandOf tag r) s =
        exec (commandOf tag r) (raise .mode .online
          (s.setLink { s.link with online := true, linkTimer := some s.link.site.linkTimeout })))
    ∧ (∀ n : Nat, s.link.linkTimer = some n →
        exec .linkTimerExpiry s =
          .next (raise .mode .standalone
            { s with loadSession := none, link := { s.link with online := false, linkTimer := none } }))
    ∧ (s.link.linkTimer = none → exec .linkTimerExpiry s = .next s))

/-- A frame of an unknown kind is answered UNKNOWN_KIND, under the kind plus 0x80 or under 0xFF, and a frame of a kind of
Chapter 11 whose body length is not one that the table of 11.1 gives for it is answered BAD_LENGTH; neither changes
anything else. -/
def Obligations.UnknownKindsAnswered : Prop :=
  ∀ (s : State) (tag kind : Byte) (body : List Byte), s.linkFree → body.length ≤ 1024 →
    (kind.toNat ∉ bodyLengths.map (·.1) → kind ≠ 0x24#8 → kind ≠ 0x34#8 →
      exec (.unknownKind tag kind body) s =
        .next (s.heard.answered (if kind.toNat < 0x80 then kind + 0x80#8 else 0xFF#8) tag .unknownKind .none))
    ∧ (∀ (tank count : Byte) (points : List WireStrapPoint), points.length < 2 ∨ 32 < points.length → points.length ≤ 127 →
        exec (.strapSet tag tank count points) s = .next (s.heard.answered 0xA4#8 tag .badLength .none))
    ∧ (∀ (count : Byte) (records : List WireHostPart), records.length < 1 ∨ 8 < records.length → records.length ≤ 53 →
        exec (.vehicleLoadNext tag count records) s = .next (s.heard.answered 0xB4#8 tag .badLength .none))
    ∧ (s.link.rx = none → s.link.gapTimer = false →
        let covered := beBytes 2 body.length ++ [kind, tag] ++ body
        let sent := runAll ((0xA5#8 :: (covered ++ put16 (crc16 covered))).map .rxByte) s
        let refused := fun (c : StatusCode) =>
          sent = .next (s.heard.answered (if kind.toNat < 0x80 then kind + 0x80#8 else 0xFF#8) tag c .none)
        (kind.toNat ∉ bodyLengths.map (·.1) → kind ≠ 0x24#8 → kind ≠ 0x34#8 → refused .unknownKind)
        ∧ (∀ n : Nat, (kind.toNat, n) ∈ bodyLengths → body.length ≠ n → refused .badLength)
        ∧ (kind = 0x24#8 → (∀ n : Nat, 2 ≤ n → n ≤ 32 → body.length ≠ 2 + 8 * n) → refused .badLength)
        ∧ (kind = 0x34#8 → (∀ n : Nat, 1 ≤ n → n ≤ 8 → body.length ≠ 1 + 19 * n) → refused .badLength))

/-! ### Authorization (Chapter 1, sections 1.4 and 1.5) -/

/-- The code with which an authorization is refused: the first of the 13 checks of R7 that fails, the hour reading being
applied between checks 10 and 11, and after them the preset clamped below 1,000 mL (R11). -/
def Obligations.RefusalIsFirstFailedCheck : Prop :=
  ∀ (s : State) (h : HoseId) (a : AuthRequest),
    let k := (s.hose h).config.tank
    (s.link.estop = true → (authorizeHose h a s) = (s, .error .estop))
    ∧ (s.link.estop = false →
        (s.journal.faulted = true ∨ s.journal.free < s.journal.reservations + 1 + 16 →
          (authorizeHose h a s) = (s, .error .journalFull))
        ∧ (s.journal.faulted = false → s.journal.reservations + 1 + 16 ≤ s.journal.free →
            ((s.hose h).state ≠ .idle → authorizeHose h a s = (s, .error .state))
            ∧ ((s.hose h).state = .idle →
                (findVehicle a.who s = none → authorizeHose h a s = (s, .error .noVehicle))
                ∧ ∀ v : VehicleId, findVehicle a.who s = some v →
                  let r := s.vehicle v
                  let s1 := (applyHours v a.hours s).1
                  let r1 := s1.vehicle v
                  authorizeHose h a s =
                    if r.host.enabled = false then (s, .error .vehicleDisabled)
                    else if r.binding ≠ none then (s, .error .busyVehicle)
                    else if r.host.hostLocked = true then (s, .error .vehicleLocked)
                    else if r.host.products.getLsbD (s.tank k).config.product.val = false then (s, .error .product)
                    else if (s.tank k).receipt.isReceiving = true then (s, .error .tankReceiving)
                    else if (s.pump k).state = .fault then (s, .error .pumpFault)
                    else if r1.status = .overdue ∧ (s1.classOf r1.host.cls).overdueAction = .refuse
                        ∧ a.supervisor = false then (s1, .error .serviceOverdue)
                    else if a.path = .tag ∧ s1.link.online = false
                        ∧ (r1.host.standalonePermit = false ∨ s1.link.site.standaloneCap = 0) then
                      (s1, .error .standaloneDeny)
                    else if available (s1.tank (s1.hose h).config.tank) < 20000 then (s1, .error .noStock)
                    else if (clampFor h v a s1).preset < 1000 then
                      (s1, .error (if (clampFor h v a s1).capped then .serviceOverdue else .range))
                    else
                      let g := grantOf h v a (applyHours v a.hours s).2 s1
                      (makeGrant h g s1, .ok g))))

/-- The preset of a grant: the litres asked for, or the class default, in mL, clamped in the order of R11, with the flags
of the clamps that reduced it. -/
def Obligations.PresetClampsInOrder : Prop :=
  ∀ (s : State) (h : HoseId) (v : VehicleId) (a : AuthRequest),
    let r := s.vehicle v
    let c := s.classOf r.host.cls
    let litres := if a.presetL = 0 then c.defaultPreset else a.presetL
    let p1 := min (litres * 1000) 9999000
    let limited := r.status = .overdue ∧ c.overdueAction = .limit
    let p2 := if limited then min p1 (c.limp * 1000) else p1
    let alone := a.path = .tag ∧ s.link.online = false
    let p3 := if alone then min p2 (s.link.site.standaloneCap * 1000) else p2
    let x := s.tank (s.hose h).config.tank
    let p4 := min p3 ((x.book - x.config.heel - x.reserved).toNat * 1000000 / 1050000)
    (clampFor h v a s).preset = p4
    ∧ (clampFor h v a s).capped = decide (p2 < p1)
    ∧ (clampFor h v a s).standalone = decide alone
    ∧ (clampFor h v a s).stockLimited = decide (p4 < p3)

/-- A tag read at an IDLE hose whose authorization passes makes the grant of R12 with the class default preset. -/
def Obligations.TagReadGrants : Prop :=
  ∀ (s : State) (h : HoseId) (tag : Tag) (hours : Option (BitVec 32)) (v : VehicleId),
    s.phase = .running → s.vehiclesSound = true → tag ≠ 0 → s.onlyCarrier tag v → s.mayAuthorize h v →
    let n := hours.map BitVec.toNat
    let s1 := (applyHours v n s).1
    let a : AuthRequest := { path := .tag, who := .inl tag, supervisor := false, hours := n, presetL := 0 }
    let p := clampFor h v a s1
    s1.passesLate h v .tag false → 1000 ≤ p.preset →
    ∃ t : State, exec (.tagRead h tag hours) s = .next t
      ∧ Granted s1 t h
          { vehicle := v, path := .tag, tag := tag, tank := (s.hose h).config.tank,
            product := (s.tank (s.hose h).config.tank).config.product, hours := n,
            regress := (applyHours v n s).2, preset := p.preset, tankRes := (p.preset * 1050000 + 999999) / 1000000,
            journalRes := true,
            flags := { supervisor := false, capped := p.capped, standalone := p.standalone,
                       stockLimited := p.stockLimited },
            statusAtGrant := (s1.vehicle v).status, start := none, endReason := none, held := none }

/-- A tag read at an IDLE hose whose authorization is refused shows the refusal for 5 s; at a READY hose the grant's own
tag starts the ready timer again and any other is ignored; in every other state a tag read changes nothing. -/
def Obligations.TagReadOtherwise : Prop :=
  ∀ (s : State) (h : HoseId) (tag : Tag) (hours : Option (BitVec 32)), s.phase = .running →
    ((s.hose h).state = .idle →
      ∀ (s1 : State) (c : StatusCode),
        authorizeHose h
          { path := .tag, who := .inl tag, supervisor := false, hours := hours.map BitVec.toNat, presetL := 0 } s
            = (s1, .error c) →
        exec (.tagRead h tag hours) s =
          .next (raise (.hoseState h) (.refusal c)
            (s1.setHose h
              { s1.hose h with
                lastRefusal := some c, lamp := .red, timers := { (s1.hose h).timers with refusal := some 5 } })))
    ∧ ((s.hose h).state = .ready → ∀ g, (s.hose h).grant = some g →
        (tag ≠ 0 → tag = g.tag →
          exec (.tagRead h tag hours) s =
            .next (s.setHose h
              { s.hose h with
                timers := { (s.hose h).timers with ready := some (s.hose h).config.readyTimeout } }))
        ∧ (tag = 0 ∨ tag ≠ g.tag → exec (.tagRead h tag hours) s = .next s))
    ∧ ((s.hose h).state ≠ .idle → (s.hose h).state ≠ .ready → exec (.tagRead h tag hours) s = .next s)

/-- AUTHORIZE makes a grant with the preset asked for and the supervisor flag given, or is refused with the code of the
first failed check; a hose above 7, a vehicle above 511 or an undefined flag is refused with RANGE. That the grant
carries SUPERVISOR whatever the service status, and that an undefined flag is refused before every other check, are the
model's reading (assumptions 10 and 23). -/
def Obligations.AuthorizeGrants : Prop :=
  ∀ (s : State) (tag b f : Byte) (index preset : BitVec 16) (hours : BitVec 32), s.linkFree →
    (8 ≤ b.toNat ∨ 512 ≤ index.toNat ∨ f &&& 0xFC#8 ≠ 0#8 →
      exec (.authorize tag b index preset f hours) s = .next (s.heard.answered 0x81#8 tag .range .none))
    ∧ ∀ (h : HoseId) (v : VehicleId), b.toNat = h.val → index.toNat = v.val → f &&& 0xFC#8 = 0#8 →
      let n := if f.getLsbD 1 then some hours.toNat else none
      let a : AuthRequest :=
        { path := .host, who := .inr v, supervisor := f.getLsbD 0, hours := n, presetL := preset.toNat }
      (∀ (s1 : State) (c : StatusCode), authorizeHose h a s.heard = (s1, .error c) →
        exec (.authorize tag b index preset f hours) s = .next (s1.answered 0x81#8 tag c .none))
      ∧ (s.vehiclesSound = true → s.mayAuthorize h v →
          let s1 := (applyHours v n s.heard).1
          let p := clampFor h v a s1
          s1.passesLate h v .host (f.getLsbD 0) → 1000 ≤ p.preset →
          let flags : GrantFlags :=
            { supervisor := f.getLsbD 0, capped := p.capped, standalone := p.standalone, stockLimited := p.stockLimited }
          let g : Grant :=
            { vehicle := v, path := .host, tag := (s.vehicle v).host.tag, tank := (s.hose h).config.tank,
              product := (s.tank (s.hose h).config.tank).config.product, hours := n,
              regress := (applyHours v n s.heard).2, preset := p.preset,
              tankRes := (p.preset * 1050000 + 999999) / 1000000, journalRes := true, flags := flags,
              statusAtGrant := (s1.vehicle v).status, start := none, endReason := none, held := none }
          ∃ t : State, exec (.authorize tag b index preset f hours) s =
              .next (t.answered 0x81#8 tag .ok (.authorized g.preset g.tankRes flags g.statusAtGrant))
            ∧ Granted s1 t h g)

/-- The release of a READY grant, by the expiry of the ready timer or by CANCEL (R15, R18), and what a change of the
vehicle's service status does to it: into OVERDUE it is withdrawn under REFUSE without a supervisor, and under LIMIT its
preset and reservation are cut to a smaller limp allowance, or it is withdrawn when that is below 1,000 mL; otherwise the
lamp alone takes the colour of the status (R4, R16, R137); the due list follows the change of status (R141, R142). At the
release the end of the reservation lets a FAULTED journal leave FAULTED with its event (R161). That the cut sets CAPPED
only when it reduces the preset, and that a journal whose numbers are spent stays FAULTED, are the model's reading
(assumptions 11 and 36). -/
def Obligations.ReadyGrantIsReleased : Prop :=
  ∀ (s : State) (h : HoseId) (g : Grant), s.vehiclesSound = true → (s.hose h).grant = some g →
    g.journalRes = true →
    (∀ n : Nat, s.phase = .running → (s.hose h).state = .ready → (s.hose h).timers.ready = some n →
      ∃ t : State, exec (.readyTimerExpiry h) s = .next t ∧ Released s t h g .readyTimeout)
    ∧ (∀ tag b : Byte, s.linkFree → b.toNat = h.val → (s.hose h).state = .ready →
        ∃ t : State, exec (.cancel tag b) s = .next (t.answered 0x82#8 tag .ok .none) ∧ Released s.heard t h g .cancelled)
    ∧ (let r := s.vehicle g.vehicle
       let c := s.classOf r.host.cls
       let new := statusOf c r
       let limp := c.limp * 1000
       let refused := new = .overdue ∧ c.overdueAction = .refuse ∧ g.flags.supervisor = false
       let cut := new = .overdue ∧ c.overdueAction = .limit ∧ limp < g.preset
       (s.hose h).state = .ready → r.binding = some h → new ≠ r.status →
       ∃ u : State, u = { s with vehicles := u.vehicles, dueList := u.dueList, dueRevision := u.dueRevision, link := u.link }
         ∧ u.vehicle g.vehicle = { r with status := new }
         ∧ (∀ v : VehicleId, v ≠ g.vehicle → u.vehicle v = s.vehicle v)
         ∧ DueListFollows s u g.vehicle r.status new
         ∧ (refused ∨ (cut ∧ limp < 1000) → Released u (recompute g.vehicle s) h g .withdrawn)
         ∧ (¬refused → ¬(cut ∧ limp < 1000) →
             let lamp := if new = .due ∨ new = .overdue then Lamp.amber else Lamp.green
             let res := (limp * 1050000 + 999999) / 1000000
             (cut → recompute g.vehicle s =
               (u.setTank g.tank { s.tank g.tank with reserved := (s.tank g.tank).reserved - (g.tankRes - res) }).setHose h
                 { s.hose h with
                   lamp := lamp
                   grant := some { g with preset := limp, tankRes := res, flags := { g.flags with capped := true } } })
             ∧ (¬cut → recompute g.vehicle s = u.setHose h { s.hose h with lamp := lamp })))

/-! ### Lift, flow and the end of flow (Chapter 1, sections 1.5 to 1.8) -/

/-- A lift at a READY hose begins the delivery: the measurement starts, demand is raised, and the pump's state decides
between STARTING, FLOWING and CLOSING (R19, R35, R79, R100). -/
def Obligations.LiftBeginsDelivery : Prop :=
  ∀ (s : State) (h : HoseId) (g : Grant),
    s.phase = .running → (s.hose h).state = .ready → (s.hose h).grant = some g →
    let k := (s.hose h).config.tank
    let p := s.pump k
    let e := s.engine h
    let c := (s.cal h).data
    ∃ t : State, exec (.nozzleLift h) s = .next t
      ∧ t.engine h =
          { e with
            dP := 0, rg := 0, rn := 0, gross := 0, net := 0, sum := 0, errors := 0, faultReported := false, lastQ := 0
            overspeed := false, uncompensated := false, average := none, sampleTimer := true, t0 := temperatureUsed e
            latched := some { k := c.k, curve := c.curve, errorLimit := c.errorLimit, maxRate := c.maxRate,
                              beta := (s.product (s.tank k).config.product).data.beta } }
      ∧ t.tank k = (if s.countedOn k = 0 then { s.tank k with quiet := false, quietTimer := none } else s.tank k)
      ∧ (t.hose h).timers.ready = none
      ∧ (match p.state with
          | .stopped | .waiting | .starting =>
            (t.hose h).state = .starting ∧ (t.hose h).valve = .closed
              ∧ (t.hose h).grant = some { g with start := some (recordedTime s) }
              ∧ (t.pump k).demand = p.demand + 1
          | .running | .runOn =>
            (t.hose h).state = .flowing ∧ (t.hose h).valve = .full
              ∧ (t.hose h).timers.noFlow = some (s.hose h).config.noFlowTimeout
              ∧ (t.hose h).grant = some { g with start := some (recordedTime s) }
              ∧ (t.pump k).state = .running ∧ (t.pump k).demand = p.demand + 1
          | .fault =>
            (t.hose h).state = .closing ∧ (t.hose h).valve = .closed
              ∧ (t.hose h).grant = some { g with start := some (recordedTime s), endReason := some .pumpFail }
              ∧ (t.pump k).state = .fault ∧ (t.pump k).demand = p.demand)
      ∧ (p.state = .stopped → p.demand = 0 → s.link.estop = false → s.slotHolder = none →
          t.slotHolder = some k ∧ (t.pump k).state = .starting ∧ (t.pump k).starter = true
            ∧ (t.pump k).startTimer = some p.config.startTimeout)
      ∧ (p.state = .stopped → p.demand = 0 → s.link.estop = false → s.slotHolder ≠ none →
          t.slotHolder = s.slotHolder ∧ (t.pump k).state = .waiting)
      ∧ (∀ j : HoseId, j ≠ h → t.engine j = s.engine j ∧ (p.state ≠ .runOn → t.hose j = s.hose j))
      ∧ (∀ j : TankId, j ≠ k → t.tank j = s.tank j ∧ t.pump j = s.pump j)
      ∧ t = { s with hoses := t.hoses, engines := t.engines, tanks := t.tanks, pumps := t.pumps,
                     slotHolder := t.slotHolder, link := t.link }

/-- A lift at an IDLE hose raises UNAUTHORISED_LIFT and does nothing else; after READY a lift changes nothing, and a hang
changes nothing in IDLE, READY, CLOSING and SETTLED; the end of a refusal display turns the lamp OFF (R5, R13, R14). That
an expiry of the display changes nothing while its timer is stopped is the model's choice (assumption 3). -/
def Obligations.LiftHangAndDisplayOtherwise : Prop :=
  (∀ (s : State) (h : HoseId), s.phase = .running →
    ((s.hose h).state = .idle → exec (.nozzleLift h) s = .next (raise (.hoseState h) .unauthorisedLift s))
    ∧ ((s.hose h).state ≠ .idle → (s.hose h).state ≠ .ready → exec (.nozzleLift h) s = .next s)
    ∧ ((s.hose h).state = .idle ∨ (s.hose h).state = .ready ∨ (s.hose h).state = .closing
        ∨ (s.hose h).state = .settled → exec (.nozzleHang h) s = .next s))
  ∧ (∀ (s : State) (h : HoseId), s.phase = .running →
    (∀ n : Nat, (s.hose h).timers.refusal = some n →
      exec (.refusalDisplayExpiry h) s =
        .next (s.setHose h { s.hose h with lamp := .off, timers := { (s.hose h).timers with refusal := none } }))
    ∧ ((s.hose h).timers.refusal = none → exec (.refusalDisplayExpiry h) s = .next s))

/-- What closes a delivery (R27): a nozzle hang and STOP in STARTING to PAUSED, the no-flow timer in FLOWING and TRIMMING,
the pause timer in PAUSED, each with its end reason. -/
def Obligations.FlowIsClosed : Prop :=
  ∀ (s : State) (h : HoseId),
    let st := (s.hose h).state
    (s.phase = .running → st = .starting ∨ st = .flowing ∨ st = .trimming ∨ st = .paused →
      ∃ t : State, exec (.nozzleHang h) s = .next t ∧ Closed s t h .nozzleHung)
    ∧ (∀ n, s.phase = .running → st = .flowing ∨ st = .trimming → (s.hose h).timers.noFlow = some n →
        ∃ t : State, exec (.noFlowTimerExpiry h) s = .next t ∧ Closed s t h .noFlow)
    ∧ (∀ n, s.phase = .running → st = .paused → (s.hose h).timers.pause = some n →
        ∃ t : State, exec (.pauseTimerExpiry h) s = .next t ∧ Closed s t h .pauseTimeout)
    ∧ (∀ tag b : Byte, s.linkFree → b.toNat = h.val → st = .starting ∨ st = .flowing ∨ st = .trimming ∨ st = .paused →
        ∃ t : State, exec (.stop tag b) s = .next (t.answered 0x83#8 tag .ok .none) ∧ Closed s.heard t h .hostStop)

/-- PAUSE closes the valve and starts the pause timer; RESUME opens it SLOW or FULL by the remaining volume and starts
the no-flow timer again (R23, R24). -/
def Obligations.PauseAndResume : Prop :=
  ∀ (s : State) (h : HoseId) (g : Grant) (tag b : Byte), s.linkFree → b.toNat = h.val → (s.hose h).grant = some g →
    ((s.hose h).state = .flowing ∨ (s.hose h).state = .trimming →
      exec (.pause tag b) s =
        .next ((raise (.hoseState h) (.entered .paused)
          (s.heard.setHose h
            { s.hose h with
              state := .paused, valve := .closed
              timers := { (s.hose h).timers with noFlow := none, pause := some (s.hose h).config.pauseTimeout } })).answered
          0x84#8 tag .ok .none))
    ∧ ((s.hose h).state = .paused →
        let slow : Bool := decide ((g.preset : Int) - (s.engine h).gross ≤ (s.hose h).config.slowVolume)
        let st : HoseState := if slow then .trimming else .flowing
        exec (.resume tag b) s =
          .next ((raise (.hoseState h) (.entered st)
            (s.heard.setHose h
              { s.hose h with
                state := st, valve := if slow then .slow else .full
                timers := { (s.hose h).timers with pause := none, noFlow := some (s.hose h).config.noFlowTimeout } })).answered
            0x85#8 tag .ok .none))

/-- The emergency stop: each hose in STARTING to PAUSED closes with ESTOP, a READY grant is withdrawn, the others stay;
every pump stops and the start slot is free; its release raises its event and moves no hose, and each pump with demand
requests the slot, which one of them takes when it is free (R26, R102, R106, R198). -/
def Obligations.EmergencyStopClosesAll : Prop :=
  ∀ s : State, s.phase = .running →
    (s.inputs.estop = false → (∀ h : HoseId, (s.hose h).state = .ready → (s.hose h).grant ≠ none) →
      ∃ t : State, exec .emergencyStopActive s = .next t
        ∧ t.inputs.estop = true ∧ t.link.estop = true ∧ t.slotHolder = none
        ∧ (∀ h : HoseId,
            match (s.hose h).state with
            | .ready => (t.hose h).state = .idle ∧ (t.hose h).grant = none ∧ (t.hose h).valve = .closed
            | .starting | .flowing | .trimming | .paused =>
              (t.hose h).state = .closing ∧ (t.hose h).valve = .closed
                ∧ (t.hose h).grant = (s.hose h).grant.map fun g => { g with endReason := some .estop }
            | .idle | .closing | .settled => t.hose h = s.hose h)
        ∧ (∀ k : TankId, (t.pump k).state = .stopped ∧ (t.pump k).starter = false ∧ (t.pump k).startTimer = none
            ∧ (t.pump k).runOnTimer = none)
        ∧ t.engines = s.engines)
    ∧ (s.inputs.estop = true →
        ∃ t : State, exec .emergencyStopRelease s = .next t
          ∧ t.inputs.estop = false ∧ t.link.estop = false ∧ t.hoses = s.hoses ∧ t.engines = s.engines
          ∧ (∀ k : TankId,
              if 0 < (s.pump k).demand ∧ (s.pump k).state = .stopped then
                if s.slotHolder = none ∧ t.slotHolder = some k then
                  t.pump k = { s.pump k with
                    state := .starting, starter := true, startTimer := some (s.pump k).config.startTimeout }
                else t.pump k = { s.pump k with state := .waiting, starter := false }
              else t.pump k = s.pump k)
          ∧ (s.slotHolder ≠ none → t.slotHolder = s.slotHolder)
          ∧ (s.slotHolder = none →
              match t.slotHolder with
              | some k => 0 < (s.pump k).demand ∧ (s.pump k).state = .stopped
              | none => ∀ k : TankId, (s.pump k).demand = 0 ∨ (s.pump k).state ≠ .stopped)
          ∧ ∃ e ∈ t.link.events, e.key = .mode ∧ e.detail = .estopReleased)

/-! ### Measurement (Chapter 2) and the settle (Chapter 1, section 1.8) -/

/-- An agreeing pulse counts from STARTING to CLOSING and restarts the hose's no-flow or settle timer; elsewhere it is
stray (R6, R37). -/
def Obligations.AgreeingPulseCounts : Prop :=
  ∀ (s : State) (h : HoseId), s.phase = .running →
    let x := s.hose h
    let counted := s.setEngine h { s.engine h with dP := min 65535 ((s.engine h).dP + 1) }
    match x.state with
    | .starting | .paused => exec (.agreeingPulse h) s = .next (counted.setHose h x)
    | .flowing | .trimming =>
      exec (.agreeingPulse h) s =
        .next (counted.setHose h { x with timers := { x.timers with noFlow := some x.config.noFlowTimeout } })
    | .closing =>
      exec (.agreeingPulse h) s =
        .next (counted.setHose h { x with timers := { x.timers with settle := some x.config.settleTime } })
    | .idle | .ready | .settled =>
      exec (.agreeingPulse h) s =
        .next (raise (.hoseFault h) .strayFlow (s.setHose h { x with stray := min 65535 (x.stray + 1) }))

/-- A disagreeing pulse counts as an error from STARTING to CLOSING; the first count above the latched limit closes the
delivery with MEASURE_FAULT, once; elsewhere the pulse is stray (R6, R38). -/
def Obligations.DisagreeingPulseCounts : Prop :=
  ∀ (s : State) (h : HoseId), s.phase = .running →
    let x := s.hose h
    let e := s.engine h
    let n := min 65535 (e.errors + 1)
    let x' :=
      match x.state with
      | .flowing | .trimming => { x with timers := { x.timers with noFlow := some x.config.noFlowTimeout } }
      | .closing => { x with timers := { x.timers with settle := some x.config.settleTime } }
      | .idle | .ready | .starting | .paused | .settled => x
    (x.state = .idle ∨ x.state = .ready ∨ x.state = .settled →
      exec (.disagreeingPulse h) s =
        .next (raise (.hoseFault h) .strayFlow (s.setHose h { x with stray := min 65535 (x.stray + 1) })))
    ∧ (∀ l : Latched, e.latched = some l → x.state ≠ .idle → x.state ≠ .ready → x.state ≠ .settled →
        (n ≤ l.errorLimit ∨ e.faultReported = true →
          exec (.disagreeingPulse h) s = .next ((s.setHose h x').setEngine h { e with errors := n }))
        ∧ (l.errorLimit < n → e.faultReported = false →
            let u := (s.setHose h x').setEngine h { e with errors := n, faultReported := true }
            (x.state = .closing → exec (.disagreeingPulse h) s = .next u)
            ∧ (x.state ≠ .closing →
                ∃ t : State, exec (.disagreeingPulse h) s = .next t ∧ Closed u t h .measureFault)))

/-- A valid temperature sample is stored and holds for 60 s; an invalid one changes nothing; the expiry of the hold timer
lapses the hold and keeps the latest temperature (R44, R45). -/
def Obligations.TemperatureIsHeld : Prop :=
  ∀ (s : State) (h : HoseId), s.phase = .running →
    (∀ t : Int, exec (.temperatureSample h (some t)) s =
      .next (s.setEngine h { s.engine h with latest := some t, held := true, holdTimer := some 60 }))
    ∧ (∃ t : State, exec (.temperatureSample h none) s = .next t ∧ t.engine h = s.engine h ∧ t = { s with engines := t.engines }
        ∧ ∀ j : HoseId, t.engine j = s.engine j)
    ∧ (∀ n : Nat, (s.engine h).holdTimer = some n →
        exec (.holdTimerExpiry h) s =
          .next (s.setEngine h { s.engine h with held := false, holdTimer := none }))

/-- The seven stages of a full sample (R40 to R49): the counts taken, the flow rate, the meter factor of the curve, the gross
and net increments with their residues, the temperature sum; and the final partial sample with the average temperature
and the residues discarded (R50 to R52). -/
def Obligations.SampleArithmetic : Prop :=
  (∀ (e : Engine) (l : Latched), e.latched = some l →
    let q := min 65535 (e.dP * 2400 / l.k)
    let n := e.dP * 1000 * tableAt 1 l.curve q + e.rg
    let dVg := n / (l.k * 100000)
    let t : Int := if e.held then (match e.latest with | some x => max (-2000) (min 7000 x) | none => 1500) else 1500
    let d : Int := (l.beta : Int) * (t - 1500)
    let c : Int := 1000000 - (if d < 0 then -(((d.natAbs + 50) / 100 : Nat) : Int) else (((d.natAbs + 50) / 100 : Nat) : Int))
    let m := dVg * (max 950000 (min 1050000 c)).toNat + e.rn
    fullSample e =
      { e with
        dP := 0, lastQ := q, overspeed := e.overspeed || decide (l.maxRate < q), rg := n % (l.k * 100000)
        gross := min 4294967295 (e.gross + dVg), rn := m % 1000000, net := min 4294967295 (e.net + m / 1000000)
        sum := e.sum + dVg * t, uncompensated := e.uncompensated || !e.held })
  ∧ (∀ (e : Engine) (l : Latched), e.latched = some l →
    let n := e.dP * 1000 * tableAt 1 l.curve e.lastQ + e.rg
    let dVg := n / (l.k * 100000)
    let t := temperatureUsed e
    let m := dVg * vcf l.beta t + e.rn
    let gross := min 4294967295 (e.gross + dVg)
    let sum := e.sum + dVg * t
    finishMeasurement e =
      { e with
        sampleTimer := false, dP := 0, rg := 0, rn := 0, gross := gross, net := min 4294967295 (e.net + m / 1000000)
        sum := sum, uncompensated := e.uncompensated || !e.held
        average := some (if gross = 0 then e.t0 else Int.tdiv sum gross) })

/-- A table of points in rising order (a meter-factor curve, R42, or a strapping table, R76): clamped to its end points
and interpolated between neighbours with the quotient truncated toward zero. -/
def Obligations.TablesInterpolate : Prop :=
  ∀ (scale : Nat) (points : List (Nat × Nat)), rising (points.map (·.1)) = true →
    (∀ (x1 y1 x : Nat) (rest : List (Nat × Nat)), points = (x1, y1) :: rest → x ≤ x1 →
      tableAt scale points x = y1 * scale)
    ∧ (∀ (xn yn x : Nat) (front : List (Nat × Nat)), points = front ++ [(xn, yn)] → xn ≤ x →
      tableAt scale points x = yn * scale)
    ∧ (∀ (x1 y1 x2 y2 x : Nat) (front back : List (Nat × Nat)),
        points = front ++ (x1, y1) :: (x2, y2) :: back → x1 ≤ x → x < x2 →
        (tableAt scale points x : Int) =
          y1 * scale + Int.tdiv (((y2 : Int) - y1) * scale * ((x : Int) - x1)) ((x2 : Int) - x1))

/-- A sample completion in FLOWING, TRIMMING and PAUSED is compared with the preset: at the preset less the prestop the
delivery closes with PRESET_REACHED, from FLOWING at the slow volume it trims; in STARTING and CLOSING nothing is
compared (R21, R40). That an expiry of the sample timer changes nothing while the timer is stopped is the model's choice
(assumption 3). -/
def Obligations.SampleIsCompared : Prop :=
  ∀ (s : State) (h : HoseId) (g : Grant), s.phase = .running → (s.hose h).grant = some g →
    let x := s.hose h
    let u := s.setEngine h (fullSample (s.engine h))
    let gross := (fullSample (s.engine h)).gross
    ((s.engine h).sampleTimer = false → exec (.sampleTimerExpiry h) s = .next s)
    ∧ ((s.engine h).sampleTimer = true →
        (x.state = .starting ∨ x.state = .closing → exec (.sampleTimerExpiry h) s = .next u)
        ∧ (x.state = .flowing ∨ x.state = .trimming ∨ x.state = .paused →
            (g.preset ≤ gross + x.config.prestop →
              ∃ t : State, exec (.sampleTimerExpiry h) s = .next t ∧ Closed u t h .presetReached)
            ∧ (gross + x.config.prestop < g.preset →
                exec (.sampleTimerExpiry h) s =
                  .next (if x.state = .flowing ∧ g.preset ≤ gross + x.config.slowVolume then
                      raise (.hoseState h) (.entered .trimming)
                        (u.setHose h { x with state := .trimming, valve := .slow })
                    else u))))

/-- The settle of a CLOSING hose, by its settle timer or by the closing limit, which marks the delivery OVERRUN_LONG
(R27, R28). The vehicle of a delivery is bound to its hose (R114). -/
def Obligations.ClosingHoseSettles : Prop :=
  ∀ (s : State) (h : HoseId) (g : Grant) (r : EndReason) (start : RecTime),
    s.phase = .running → s.vehiclesSound = true → (s.hose h).state = .closing → (s.hose h).grant = some g →
    g.endReason = some r → g.start = some start → (s.vehicle g.vehicle).binding = some h →
    let e := finishMeasurement (s.engine h)
    (∀ n : Nat, (s.hose h).timers.settle = some n →
      ∃ t : State, exec (.settleTimerExpiry h) s = .next t ∧ Settled s t h g (recordOf s h g r start false e))
    ∧ (∀ n : Nat, (s.hose h).timers.closing = some n →
      ∃ t : State, exec (.closingLimitExpiry h) s = .next t ∧ Settled s t h g (recordOf s h g r start true e)
        ∧ ∃ x ∈ t.link.events, x.key = .hoseFault h ∧ x.detail = .overrunLong)

/-! ### The metrology switch and calibration (Chapter 3) -/

/-- The metrology switch begins inspection when it closes, and when it opens seals the part and protects every calibration
record; CAL_OPEN needs it closed, CAL_CLOSE does not (R59, R60, R67). That a level which already stands is no change is
the model's reading (assumption 13). -/
def Obligations.SwitchAndProtection : Prop :=
  (∀ s : State, s.phase = .running →
    (s.inputs.switchClosed = false →
      exec .metrologySwitchClose s =
        .next (raise .mode .inspection
          { s with inputs := { s.inputs with switchClosed := true }, link := { s.link with inspection := true } })
      ∧ exec .metrologySwitchOpen s = .next s)
    ∧ (s.inputs.switchClosed = true →
        (∃ t : State, exec .metrologySwitchOpen s = .next t
          ∧ t.inputs = { s.inputs with switchClosed := false } ∧ t.link.inspection = false
          ∧ (∀ h : HoseId, t.cal h = { s.cal h with opened := false })
          ∧ (∃ e ∈ t.link.events, e.key = .mode ∧ e.detail = .sealed)
          ∧ t = { s with inputs := t.inputs, cals := t.cals, link := t.link })
        ∧ exec .metrologySwitchClose s = .next s))
  ∧ (∀ (s : State) (h : HoseId) (tag b : Byte), s.linkFree → b.toNat = h.val →
    (s.inputs.switchClosed = true →
      exec (.calOpen tag b) s = .next ((s.heard.setCal h { s.cal h with opened := true }).answered 0x90#8 tag .ok .none))
    ∧ (s.inputs.switchClosed = false →
        exec (.calOpen tag b) s = .next (s.heard.answered 0x90#8 tag .switchOpen .none))
    ∧ exec (.calClose tag b) s = .next ((s.heard.setCal h { s.cal h with opened := false }).answered 0x91#8 tag .ok .none))

/-- CAL_WRITE and PRODUCT_SET: their checks in order with the ranges of each field, and an accepted one replaces the
working values, takes a slot reservation, queues a CALIBRATION record and holds the link (R57, R61, R62, R65). That a name
with an unprintable byte fails check 1 of PRODUCT_SET is the model's reading (assumption 23). -/
def Obligations.CalibrationWrites : Prop :=
  ∀ (s : State) (tag b : Byte), s.linkFree →
    (∀ (h : HoseId) (w : WireCalibration), b.toNat = h.val →
      let c := s.cal h
      let points := (w.points.toList.take w.count.toNat).map fun p => (p.rate.toNat, p.factor.toNat)
      let inside := 10 ≤ w.k.toNat ∧ w.k.toNat ≤ 2000 ∧ 2 ≤ w.count.toNat ∧ w.count.toNat ≤ 5
        ∧ (points.map (·.1)).Pairwise (· < ·) ∧ (∀ p ∈ points, 90000 ≤ p.2 ∧ p.2 ≤ 110000)
        ∧ 1 ≤ w.errorLimit.toNat ∧ 100 ≤ w.maxRate.toNat
      let d : CalData :=
        { k := w.k.toNat, curve := points, errorLimit := w.errorLimit.toNat, maxRate := w.maxRate.toNat,
          count := c.data.count + 1 }
      (c.opened = false → exec (.calWrite tag b w) s = .next (s.heard.answered 0x92#8 tag .protected_ .none))
      ∧ (c.opened = true → (s.hose h).state ≠ .idle ∨ c.pending = true →
          exec (.calWrite tag b w) s = .next (s.heard.answered 0x92#8 tag .state .none))
      ∧ (c.opened = true → (s.hose h).state = .idle → c.pending = false →
          (¬inside ∨ 65535 ≤ c.data.count →
            exec (.calWrite tag b w) s = .next (s.heard.answered 0x92#8 tag .range .none))
          ∧ (inside → c.data.count < 65535 →
            (s.journal.faulted = true ∨ s.journal.free < s.journal.reservations + 1 →
              exec (.calWrite tag b w) s = .next (s.heard.answered 0x92#8 tag .journalFull .none))
            ∧ (s.journal.faulted = false → s.journal.reservations + 1 ≤ s.journal.free →
                exec (.calWrite tag b w) s =
                  .next (((s.heard.setCal h { c with data := d, pending := true }).setJournal
                    { s.journal with
                      reservations := s.journal.reservations + 1
                      queue := s.journal.queue ++
                        [{ record := .calibration (.hose h c.data.k d.k d.curve.length
                            (match c.data.curve with | [] => 0 | p :: _ => p.2)
                            (match d.curve with | [] => 0 | p :: _ => p.2) (c.data.count + 1)),
                           stamp := none }] }).holding 0x12#8 tag (.calWrite h none))))))
    ∧ (∀ (p : ProductId) (name : Name) (beta : BitVec 16), b.toNat = p.val + 1 →
        let cmd : Instr := .productSet tag b name beta
        let inside := beta.toNat ≤ 2000 ∧ ∀ x ∈ name.toList, 0x20 ≤ x.toNat ∧ x.toNat ≤ 0x7E
        let idle := ∀ h : HoseId, (s.tank (s.hose h).config.tank).config.product = p → (s.hose h).state = .idle
        (¬inside → exec cmd s = .next (s.heard.answered 0x94#8 tag .range .none))
        ∧ (inside → s.inputs.switchClosed = false → exec cmd s = .next (s.heard.answered 0x94#8 tag .switchOpen .none))
        ∧ (inside → s.inputs.switchClosed = true → ¬idle ∨ (s.product p).pending = true →
            exec cmd s = .next (s.heard.answered 0x94#8 tag .state .none))
        ∧ (inside → s.inputs.switchClosed = true → idle → (s.product p).pending = false →
            (s.journal.faulted = true ∨ s.journal.free < s.journal.reservations + 1 →
              exec cmd s = .next (s.heard.answered 0x94#8 tag .journalFull .none))
            ∧ (s.journal.faulted = false → s.journal.reservations + 1 ≤ s.journal.free →
                exec cmd s =
                  .next (((s.heard.setProduct p { data := { name := name, beta := beta.toNat }, pending := true }).setJournal
                    { s.journal with
                      reservations := s.journal.reservations + 1
                      queue := s.journal.queue ++
                        [{ record := .calibration (.product p (s.product p).data.beta beta.toNat name),
                           stamp := none }] }).holding 0x14#8 tag (.productSet p none)))))

/-! ### Tanks and stock (Chapter 4) -/

/-- A valid probe sample: level, temperature, probe gross and net, probe VALID for 30 s; on a QUIET tank in NORMAL the
variance relation follows, with an event when it changes into ABOVE, BELOW or UNORDERED; an invalid sample changes
nothing (R76, R77, R80). -/
def Obligations.ProbeSampleIsCompared : Prop :=
  ∀ (s : State) (k : TankId), s.phase = .running →
    exec (.probeSample k none) s = .next s
    ∧ ∀ (level : Nat) (temp : Int),
      let x := s.tank k
      let gross := tableAt 1000 x.strap level
      let net := gross * vcf (s.product x.config.product).data.beta (max (-2000) (min 7000 temp)) / 1000000
      let x1 := { x with
        level := some level, temperature := some temp, probeValid := true, staleTimer := some 30
        probeGross := some gross, probeNet := some net }
      let tol : Int := max 200000 (Int.tdiv (x.book * 5) 1000)
      let d : Int := net - x.book
      let rel : Relation :=
        if x.book < 0 then .unordered else if tol < d then .above else if tol < -d then .below else .within
      (x.quiet = false ∨ x.receipt ≠ .normal → exec (.probeSample k (some (level, temp))) s = .next (s.setTank k x1))
      ∧ (x.quiet = true → x.receipt = .normal →
          ∃ t : State, exec (.probeSample k (some (level, temp))) s = .next t
            ∧ t.tank k = { x1 with relation := rel, difference := if x.book < 0 then none else some d }
            ∧ (rel = x.relation ∨ rel = .within → t.link = s.link)
            ∧ (rel ≠ x.relation → rel ≠ .within →
                t.link = (raise (.tankVariance k)
                  (match rel with | .above => .above | .below => .below | .within | .unordered => .unordered) s).link)
            ∧ t = (s.setTank k (t.tank k)).setLink t.link)

/-- The stale timer makes the probe STALE and the relation UNORDERED; the quiet timer makes the tank QUIET (R78 to R80). -/
def Obligations.TankTimersExpire : Prop :=
  ∀ (s : State) (k : TankId), s.phase = .running →
    (∀ n : Nat, (s.tank k).staleTimer = some n →
      exec (.staleTimerExpiry k) s =
        .next (let u := s.setTank k
                 { s.tank k with
                   probeValid := false, staleTimer := none, relation := .unordered, difference := none }
               if (s.tank k).relation = .unordered then u else raise (.tankVariance k) .unordered u))
    ∧ (∀ n : Nat, (s.tank k).quietTimer = some n →
        exec (.quietTimerExpiry k) s = .next (s.setTank k { s.tank k with quiet := true, quietTimer := none }))

/-- The closing of a receipt: measured with the probe VALID, by the docket or UNMEASURED with it STALE; the book credited,
the RECEIPT record queued, and the receipt state NORMAL (R85, R86, R87). That the book is stored also at a close that
credits nothing is the model's reading (R71, assumption 38). -/
def Obligations.ReceiptCloses : Prop :=
  ∀ (s : State) (k : TankId) (r : Receipt) (n : Nat), s.phase = .running → (s.tank k).receipt = .settling r (some n) →
    let x := s.tank k
    let sat : Int → Int := fun b => max (-140737488355327) (min 140737488355327 b)
    let base (volume book : Int) : ReceiptRecord :=
      { tank := k, product := x.config.product, openingNet := r.openingNet, openingTime := r.openingTime,
        closingNet := none, delivered := none, docket := r.docket, volume := volume, difference := none, book := book,
        probeFail := false, unmeasured := false }
    let result (rec : ReceiptRecord) : Prop :=
      ∃ t : State, exec (.receiptSettleTimerExpiry k) s = .next t
        ∧ t.tank k =
          { x with
            receipt := .normal, book := rec.book, low := decide (rec.book - x.config.heel < x.config.lowAlarm) }
        ∧ t.journal = { s.journal with queue := s.journal.queue ++ [{ record := .receipt rec, stamp := none }] }
        ∧ t.store = { s.store with queue := s.store.queue ++ [.book k rec.book] }
        ∧ (∃ e ∈ t.link.events, e.key = .tankLevel k)
        ∧ t = (((s.setTank k (t.tank k)).setJournal t.journal).setStore t.store).setLink t.link
    (∀ closing : Nat, x.probeValid = true → x.probeNet = some closing →
      let delivered : Int :=
        ((allHoses.filter fun h => decide ((s.hose h).config.tank = k) && (s.hose h).state.counted).map fun h =>
          ((s.engine h).net : Int) - ((r.baselines.get h).getD 0 : Nat)).foldl (· + ·) r.delivered
      let volume : Int := closing - r.openingNet + delivered
      result { base volume (sat (x.book + volume)) with
        closingNet := some closing, delivered := some delivered, difference := r.docket.map fun d => volume - d })
    ∧ (∀ d : Nat, x.probeValid = false → r.docket = some d →
        result { base d (sat (x.book + d)) with probeFail := true })
    ∧ (x.probeValid = false → r.docket = none → result { base 0 x.book with unmeasured := true })

/-- RECEIPT_BEGIN and RECEIPT_END: the checks in order; a receipt begins with the probe net, the baselines of the counted
hoses and a slot reservation, and every READY grant on the tank is withdrawn with its event, its tank reservation, its
slot reservation and its binding (R15, R16, R81, R82); the end of a receipt starts its settle time (R84). That the grants
are withdrawn in ascending hose order is the model's choice (assumption 40). -/
def Obligations.ReceiptRequests : Prop :=
  ∀ (s : State) (k : TankId) (tag b : Byte), s.linkFree → b.toNat = k.val →
    let x := s.tank k
    (x.receipt ≠ .normal → exec (.receiptBegin tag b) s = .next (s.heard.answered 0xA0#8 tag .state .none))
    ∧ (x.receipt = .normal → x.probeValid = false →
        exec (.receiptBegin tag b) s = .next (s.heard.answered 0xA0#8 tag .probe .none))
    ∧ (x.receipt = .normal → x.probeValid = true →
        (s.journal.faulted = true ∨ s.journal.free < s.journal.reservations + 1 →
          exec (.receiptBegin tag b) s = .next (s.heard.answered 0xA0#8 tag .journalFull .none))
        ∧ ∀ net : Nat, s.journal.faulted = false → s.journal.reservations + 1 ≤ s.journal.free → x.probeNet = some net →
          (∀ h : HoseId, (s.hose h).config.tank = k → (s.hose h).state ≠ .ready) →
          ∃ r : Receipt, exec (.receiptBegin tag b) s =
              .next (((s.heard.setJournal { s.journal with reservations := s.journal.reservations + 1 }).setTank k
                { x with receipt := .receiving r }).answered 0xA0#8 tag .ok (.receiptBegun net (recordedTime s)))
            ∧ r.openingNet = net ∧ r.openingTime = recordedTime s ∧ r.delivered = 0 ∧ r.docket = none
            ∧ ∀ h : HoseId, r.baselines.get h =
                if (s.hose h).config.tank = k ∧ (s.hose h).state.counted = true then some (s.engine h).net else none)
    ∧ (∀ net : Nat, x.receipt = .normal → x.probeValid = true → s.journal.faulted = false →
        s.journal.reservations + 1 ≤ s.journal.free → x.probeNet = some net → s.vehiclesSound = true →
        let ready := allHoses.filter fun h => decide ((s.hose h).config.tank = k) && decide ((s.hose h).state = .ready)
        (∀ h ∈ ready, ∃ g : Grant, (s.hose h).grant = some g ∧ g.tank = k ∧ g.journalRes = true) →
        let held := fun h : HoseId => match (s.hose h).grant with | some g => g.tankRes | none => 0
        ∃ (t : State) (r : Receipt),
          exec (.receiptBegin tag b) s = .next (t.answered 0xA0#8 tag .ok (.receiptBegun net (recordedTime s)))
          ∧ r.openingNet = net ∧ r.openingTime = recordedTime s ∧ r.delivered = 0 ∧ r.docket = none
          ∧ (∀ h : HoseId, r.baselines.get h =
              if (s.hose h).config.tank = k ∧ (s.hose h).state.counted = true then some (s.engine h).net else none)
          ∧ t.tank k = { x with receipt := .receiving r, reserved := x.reserved - (ready.map held).sum }
          ∧ t.journal = { s.journal with reservations := s.journal.reservations + 1 - ready.length }
          ∧ (∀ h : HoseId, t.hose h =
              if h ∈ ready then
                { s.hose h with
                  state := .idle, grant := none, valve := .closed, lamp := .off
                  timers := ⟨none, none, none, none, none, none⟩ }
              else s.hose h)
          ∧ (∀ (h : HoseId) (g : Grant), h ∈ ready → (s.hose h).grant = some g →
              t.vehicle g.vehicle = { s.vehicle g.vehicle with binding := none })
          ∧ (∀ v : VehicleId, (∀ (h : HoseId) (g : Grant), h ∈ ready → (s.hose h).grant = some g → g.vehicle ≠ v) →
              t.vehicle v = s.vehicle v)
          ∧ t.link = (ready.foldl (fun u h => raise (.hoseState h) .withdrawn u) s.heard).link
          ∧ (∀ j : TankId, j ≠ k → t.tank j = s.tank j)
          ∧ t = { s.heard with hoses := t.hoses, tanks := t.tanks, vehicles := t.vehicles, journal := t.journal
                               link := t.link })
    ∧ (∀ docket : BitVec 32,
        (2000000 < docket.toNat → exec (.receiptEnd tag b docket) s = .next (s.heard.answered 0xA1#8 tag .range .none))
        ∧ (docket.toNat ≤ 2000000 →
            (∀ r : Receipt, x.receipt = .receiving r →
              exec (.receiptEnd tag b docket) s =
                .next ((s.heard.setTank k
                  { x with
                    receipt := .settling
                      { r with docket := if docket.toNat = 0 then none else some (docket.toNat * 1000) }
                      (some x.config.receiptSettle) }).answered 0xA1#8 tag .ok .none))
            ∧ ((∀ r : Receipt, x.receipt ≠ .receiving r) →
                exec (.receiptEnd tag b docket) s = .next (s.heard.answered 0xA1#8 tag .state .none))))

/-- STOCK_ADJUST replaces a book that is as expected, with a slot reservation and an ADJUST record, or answers REVISION,
with RANGE for a book below −(2^47 − 1); TANK_SET and STRAP_SET are refused with RANGE outside their ranges, need every
hose on the tank IDLE and the receipt NORMAL, and hold the link for their store write (R70, R89, R91, R92). -/
def Obligations.StockAndTankConfiguration : Prop :=
  (∀ (s : State) (k : TankId) (tag b : Byte) (expected book : BitVec 48), s.linkFree → b.toNat = k.val →
    let x := s.tank k
    let revision := (x.revision + 1) % 65536
    let cmd : Instr := .stockAdjust tag b expected book
    (book.toInt < -140737488355327 → exec cmd s = .next (s.heard.answered 0xA2#8 tag .range .none))
    ∧ (-140737488355327 ≤ book.toInt → x.book ≠ expected.toInt →
        exec cmd s = .next (s.heard.answered 0xA2#8 tag .revision (.bookConflict x.book x.revision)))
    ∧ (-140737488355327 ≤ book.toInt → x.book = expected.toInt →
        (s.journal.faulted = true ∨ s.journal.free < s.journal.reservations + 1 →
          exec cmd s = .next (s.heard.answered 0xA2#8 tag .journalFull .none))
        ∧ (s.journal.faulted = false → s.journal.reservations + 1 ≤ s.journal.free →
            ∃ t : State, exec cmd s = .next (t.holding 0x22#8 tag (.stockAdjust k book.toInt revision))
              ∧ t.tank k =
                { x with
                  book := book.toInt, revision := revision
                  low := decide (book.toInt - x.config.heel < x.config.lowAlarm) }
              ∧ t.journal =
                  { s.journal with
                    reservations := s.journal.reservations + 1
                    queue := s.journal.queue ++
                      [{ record := .adjust { tank := k, oldBook := x.book, newBook := book.toInt, revision := revision },
                         stamp := none }] }
              ∧ t = ((s.heard.setTank k (t.tank k)).setJournal t.journal).setLink t.link)))
  ∧ (∀ (s : State) (k : TankId) (tag b : Byte), s.linkFree → b.toNat = k.val →
    let x := s.tank k
    let free := (∀ h : HoseId, (s.hose h).config.tank = k → (s.hose h).state = .idle) ∧ x.receipt = .normal
    let revision := (x.revision + 1) % 65536
    let last := fun p : Strap => match p.getLast? with | some y => y.2 * 1000 | none => 0
    (∀ w : WireTankConfig,
      let inside := 1 ≤ w.product.toNat ∧ w.product.toNat ≤ 4 ∧ 1000 ≤ w.capacity.toNat ∧ w.capacity.toNat ≤ 2000000
        ∧ w.heel.toNat < w.capacity.toNat ∧ w.lowAlarm.toNat ≤ w.capacity.toNat ∧ 60 ≤ w.receiptSettle.toNat
        ∧ w.receiptSettle.toNat ≤ 3600 ∧ last x.strap ≤ w.capacity.toNat * 1000
      (¬inside → exec (.tankSet tag b w) s = .next (s.heard.answered 0xA3#8 tag .range .none))
      ∧ (inside → ¬free → exec (.tankSet tag b w) s = .next (s.heard.answered 0xA3#8 tag .state .none))
      ∧ (∀ p : ProductId, w.product.toNat = p.val + 1 → inside → free →
          let c : TankConfig :=
            { product := p, capacity := w.capacity.toNat * 1000, heel := w.heel.toNat * 1000,
              lowAlarm := w.lowAlarm.toNat * 1000, receiptSettle := w.receiptSettle.toNat }
          ∃ t : State, exec (.tankSet tag b w) s = .next (t.holding 0x23#8 tag (.tankSet k))
            ∧ t.tank k = { x with config := c, revision := revision, low := decide (x.book - c.heel < c.lowAlarm) }
            ∧ t.store = { s.store with queue := s.store.queue ++ [.tankConfig k c revision] }
            ∧ t = ((s.heard.setTank k (t.tank k)).setStore t.store).setLink t.link))
    ∧ (∀ (n : Byte) (ps : List WireStrapPoint), Request.wf (.strapSet b n ps) = true →
        let p : Strap := ps.map fun y => (y.level.toNat, y.volume.toNat)
        let inside := n.toNat = ps.length ∧ (∀ y ∈ p, y.1 ≤ 99999) ∧ (p.map (·.1)).Pairwise (· < ·)
          ∧ (p.map (·.2)).Pairwise (· ≤ ·) ∧ last p ≤ x.config.capacity
        (¬inside → exec (.strapSet tag b n ps) s = .next (s.heard.answered 0xA4#8 tag .range .none))
        ∧ (inside → ¬free → exec (.strapSet tag b n ps) s = .next (s.heard.answered 0xA4#8 tag .state .none))
        ∧ (inside → free →
            exec (.strapSet tag b n ps) s =
              .next (((s.heard.setTank k { x with strap := p, revision := revision }).setStore
                { s.store with queue := s.store.queue ++ [.strap k p revision] }).holding 0x24#8 tag (.strapSet k)))))

/-! ### Pumps (Chapter 5) -/

/-- The pressure switch rises at a STARTING pump with demand: RUNNING, and the hoses of its tank in STARTING flow; without
demand the pump runs on or stops; in both cases the start slot passes to the WAITING pump of the best priority, of equal
ones to the lowest tank number, which starts, and it is free when none waits; at a STOPPED or WAITING pump the rise is
unexpected (R98, R102 to R104). -/
def Obligations.PressureUpRuns : Prop :=
  ∀ (s : State) (k : TankId), s.phase = .running → s.inputs.pressure.get k = false →
    let p := s.pump k
    let i : Inputs := { s.inputs with pressure := upd s.inputs.pressure k true }
    (p.state = .starting → 0 < p.demand →
      ∃ t : State, exec (.pressureUp k) s = .next t ∧ t.inputs = i
        ∧ t.pump k = { p with state := .running, starter := true, startTimer := none, pressureUp := true }
        ∧ SlotPassed s t k
        ∧ (∀ h : HoseId, (s.hose h).config.tank = k → (s.hose h).state = .starting →
            t.hose h = { s.hose h with
              state := .flowing, valve := .full
              timers := { (s.hose h).timers with noFlow := some (s.hose h).config.noFlowTimeout } })
        ∧ (∀ h : HoseId, (s.hose h).config.tank ≠ k ∨ (s.hose h).state ≠ .starting → t.hose h = s.hose h)
        ∧ t = { s with inputs := t.inputs, hoses := t.hoses, pumps := t.pumps, slotHolder := t.slotHolder, link := t.link })
    ∧ (p.state = .starting → p.demand = 0 →
        ∃ t : State, exec (.pressureUp k) s = .next t ∧ t.inputs = i
          ∧ t.pump k =
            (if p.config.runOn = 0 then
              { p with state := .stopped, starter := false, startTimer := none, runOnTimer := none, pressureUp := true }
            else
              { p with
                state := .runOn, starter := true, startTimer := none, runOnTimer := some p.config.runOn
                pressureUp := true })
          ∧ SlotPassed s t k
          ∧ t = { s with inputs := t.inputs, pumps := t.pumps, slotHolder := t.slotHolder })
    ∧ (p.state = .stopped ∨ p.state = .waiting →
        exec (.pressureUp k) s =
          .next (raise (.pump k) .pressureUnexpected ({ s with inputs := i }.setPump k { p with pressureUp := true })))
    ∧ (p.state = .running ∨ p.state = .runOn ∨ p.state = .fault →
        exec (.pressureUp k) s = .next ({ s with inputs := i }.setPump k { p with pressureUp := true }))

/-- A fall of pressure at a RUNNING or RUN_ON pump and the start timer put the pump in FAULT with its cause and event, and
the hoses that wait on it or flow from it close with PUMP_FAIL; at the start timeout the slot passes on as R102 says; the
run-on timer stops a pump (R98, R101 to R104). -/
def Obligations.PumpFaultsAndStops : Prop :=
  (∀ (s : State) (k : TankId), s.phase = .running → s.inputs.pressure.get k = true →
    let p := s.pump k
    (p.state = .running ∨ p.state = .runOn →
      ∃ t : State, exec (.pressureDown k) s = .next t
        ∧ (t.pump k).state = .fault ∧ (t.pump k).starter = false ∧ (t.pump k).lastFault = some .pressureLost
        ∧ (t.pump k).pressureUp = false
        ∧ (∃ e ∈ t.link.events, e.key = .pump k ∧ e.detail = .pressureLost)
        ∧ (∀ h : HoseId, p.state = .running → (s.hose h).config.tank = k →
            (s.hose h).state = .flowing ∨ (s.hose h).state = .trimming ∨ (s.hose h).state = .paused →
            (t.hose h).state = .closing ∧ (t.hose h).valve = .closed
              ∧ (t.hose h).grant = (s.hose h).grant.map fun g => { g with endReason := some .pumpFail })
        ∧ (∀ h : HoseId, (s.hose h).config.tank ≠ k ∨ p.state = .runOn → t.hose h = s.hose h)
        ∧ (∀ j : TankId, j ≠ k → t.pump j = s.pump j))
    ∧ (p.state ≠ .running → p.state ≠ .runOn →
        exec (.pressureDown k) s =
          .next ({ s with inputs := { s.inputs with pressure := upd s.inputs.pressure k false } }.setPump k
            { p with pressureUp := false })))
  ∧ (∀ (s : State) (k : TankId) (n : Nat), s.phase = .running →
    ((s.pump k).state = .starting → (s.pump k).startTimer = some n →
      ∃ t : State, exec (.startTimerExpiry k) s = .next t
        ∧ (t.pump k).state = .fault ∧ (t.pump k).starter = false ∧ (t.pump k).lastFault = some .startTimeout
        ∧ (t.pump k).startTimer = none ∧ SlotPassed s t k
        ∧ (∃ e ∈ t.link.events, e.key = .pump k ∧ e.detail = .startTimeout)
        ∧ (∀ h : HoseId, (s.hose h).config.tank = k → (s.hose h).state = .starting →
            (t.hose h).state = .closing
              ∧ (t.hose h).grant = (s.hose h).grant.map fun g => { g with endReason := some .pumpFail })
        ∧ (∀ h : HoseId, (s.hose h).config.tank ≠ k ∨ (s.hose h).state ≠ .starting → t.hose h = s.hose h)
        ∧ t = { s with hoses := t.hoses, pumps := t.pumps, slotHolder := t.slotHolder, link := t.link })
    ∧ ((s.pump k).state = .runOn → (s.pump k).runOnTimer = some n →
        exec (.runOnTimerExpiry k) s =
          .next (s.setPump k
            { s.pump k with state := .stopped, starter := false, startTimer := none, runOnTimer := none })))

/-- PUMP_CLEAR takes a pump out of FAULT, PUMP_SET configures one that is STOPPED or in FAULT; in every other state both
are refused with STATE (R105, R107). -/
def Obligations.PumpRequests : Prop :=
  ∀ (s : State) (k : TankId) (tag b : Byte), s.linkFree → b.toNat = k.val →
    let p := s.pump k
    (p.state = .fault →
      exec (.pumpClear tag b) s = .next ((s.heard.setPump k { p with state := .stopped }).answered 0xAA#8 tag .ok .none))
    ∧ (p.state ≠ .fault → exec (.pumpClear tag b) s = .next (s.heard.answered 0xAA#8 tag .state .none))
    ∧ (∀ w : WirePumpConfig,
        let inside := w.runOn.toNat ≤ 120 ∧ 2 ≤ w.startTimeout.toNat ∧ w.startTimeout.toNat ≤ 60 ∧ w.priority.toNat ≤ 3
        let c : PumpConfig :=
          { runOn := w.runOn.toNat, startTimeout := w.startTimeout.toNat, priority := w.priority.toNat }
        (¬inside → exec (.pumpSet tag b w) s = .next (s.heard.answered 0xA8#8 tag .range .none))
        ∧ (inside → p.state = .stopped ∨ p.state = .fault →
            exec (.pumpSet tag b w) s =
              .next (((s.heard.setPump k { p with config := c }).setStore
                { s.store with queue := s.store.queue ++ [.pumpConfig k c] }).holding 0x28#8 tag (.pumpSet k)))
        ∧ (inside → p.state ≠ .stopped → p.state ≠ .fault →
            exec (.pumpSet tag b w) s = .next (s.heard.answered 0xA8#8 tag .state .none)))

/-! ### The vehicle register and service accounting (Chapters 6 and 7) -/

/-- VEHICLE_PUT: RANGE for a host part outside check 1, REVISION against another revision, with the record, BOUND for a
change of a bound vehicle's identity, DUP_TAG for a tag that another enabled record carries (R112, R118). An accepted one
replaces the host part, advances the revision, keeps the usage part and marks of a record that stays in use and sets
those of a creation or a removal anew, recomputes the status, and holds the link for its store write (R119, R121); on a
bound vehicle it leaves the hose as it is, but for a lock, which withdraws its grant in READY (R16, R115). That an
unprintable fleet number fails check 1 is the model's reading (assumption 23), and so is that a binding of an unused
index refuses with BOUND (assumption 25). -/
def Obligations.VehiclePutPlaces : Prop :=
  ∀ (s : State) (v : VehicleId) (tag : Byte) (index expected : BitVec 16) (w : WireHostPart),
    s.linkFree → s.vehiclesSound = true → index.toNat = v.val →
    let r := s.vehicle v
    let cmd : Instr := .vehiclePut tag index w expected
    let used := w.flags.getLsbD 0
    let inside := used = true → w.cls.toNat ≤ 31 ∧ w.products.toNat ≤ 15 ∧ w.flags.toNat ≤ 15
      ∧ ∀ x ∈ w.fleet.toList, 0x20 ≤ x.toNat ∧ x.toNat ≤ 0x7E
    (¬inside → exec cmd s = .next (s.heard.answered 0xB2#8 tag .range .none))
    ∧ (inside → r.revision ≠ expected.toNat →
        exec cmd s = .next (s.heard.answered 0xB2#8 tag .revision (.revisionConflict r.revision (vehicleImage v r))))
    ∧ (∀ c : ClassId, inside → (used = true → w.cls.toNat = c.val) → r.revision = expected.toNat →
      let p : HostPart :=
        if used then
          { inUse := true, tag := w.tag, fleet := w.fleet, cls := c, products := w.products.setWidth 4,
            enabled := w.flags.getLsbD 1, hostLocked := w.flags.getLsbD 2, standalonePermit := w.flags.getLsbD 3 }
        else HostPart.unused
      let keep := r.host.inUse = true ∧ p.inUse = true
      let u : Usage := if keep then r.usage else { fuel := 0, hours := none, meter := false, regress := false }
      let m : Vector Mark 4 := if keep then r.marks else freshMarks
      let r1 : Vehicle := { r with host := p, revision := (r.revision + 1) % 65536, usage := u, marks := m }
      let placed : PlacedRecord :=
        { vehicle := v, host := p, revision := (r.revision + 1) % 65536, fresh := !decide keep }
      let stored := fun t : State => t.setStore { s.store with queue := s.store.queue ++ [.vehicles [placed]] }
      let unique := ∀ x : VehicleId, x ≠ v → ¬p.Clashes (s.vehicle x).host
      let holder := fun x : VehicleId =>
        x ≠ v ∧ p.Clashes (s.vehicle x).host ∧ ∀ y : VehicleId, y ≠ v → p.Clashes (s.vehicle y).host → y = x
      let same := p.inUse = true ∧ r.host.inUse = true ∧ p.tag = r.host.tag ∧ p.cls = r.host.cls
      (r.binding = none →
        (∀ x : VehicleId, holder x → exec cmd s = .next (s.heard.answered 0xB2#8 tag .dupTag (.dupTag x)))
        ∧ (unique →
            ∃ t : State, exec cmd s = .next (t.holding 0x32#8 tag (.vehiclePut v))
              ∧ t.vehicle v = { r1 with status := statusOf (s.classOf p.cls) r1 }
              ∧ (∀ x : VehicleId, x ≠ v → t.vehicle x = s.vehicle x)
              ∧ t.store.queue = s.store.queue ++ [.vehicles [placed]]
              ∧ t.hoses = s.hoses))
      ∧ (∀ h : HoseId, r.binding = some h →
        (¬same → exec cmd s = .next (s.heard.answered 0xB2#8 tag .bound (.boundTo h)))
        ∧ (same →
          (∀ x : VehicleId, holder x → exec cmd s = .next (s.heard.answered 0xB2#8 tag .dupTag (.dupTag x)))
          ∧ (unique → r.status = statusOf (s.classOf r.host.cls) r →
              ((s.hose h).state ≠ .ready ∨ p.hostLocked = false →
                exec cmd s = .next ((stored (s.heard.setVehicle v r1)).holding 0x32#8 tag (.vehiclePut v)))
              ∧ (∀ g : Grant, (s.hose h).state = .ready → p.hostLocked = true → (s.hose h).grant = some g →
                  g.vehicle = v → g.journalRes = true →
                  ∃ t : State, exec cmd s = .next ((stored t).holding 0x32#8 tag (.vehiclePut v))
                    ∧ Released (s.heard.setVehicle v r1) t h g .withdrawn)))))

/-- The load session: BEGIN opens it, END closes it with the next index, each refused with STATE in the other state; NEXT is
refused with STATE while it is CLOSED and with RANGE for a count that is not that of its records or a record outside
check 1. NEXT places the records one at a time at consecutive indices: a bound index and index 512 end the session with
LOAD_ENDED, wherever in the request they come; a tag that another enabled record holds, those of the same request
counted, stops it with DUP_TAG and the holder, the session OPEN at that index; else every record is placed. The records
placed are written together and the request is held; with none placed it is answered at once (R122 to R124, R126). -/
def Obligations.LoadSessionPlaces : Prop :=
  (∀ (s : State) (tag : Byte), s.linkFree →
    (∀ start : BitVec 16,
      (start.toNat < 512 →
        exec (.vehicleLoadBegin tag start) s =
          .next (match s.loadSession with
            | none => { s.heard with loadSession := some start.toNat }.answered 0xB3#8 tag .ok .none
            | some _ => s.heard.answered 0xB3#8 tag .state .none))
      ∧ (512 ≤ start.toNat →
          exec (.vehicleLoadBegin tag start) s = .next (s.heard.answered 0xB3#8 tag .range .none)))
    ∧ exec (.vehicleLoadEnd tag) s =
        .next (match s.loadSession with
          | none => s.heard.answered 0xB5#8 tag .state .none
          | some next => { s.heard with loadSession := none }.answered 0xB5#8 tag .ok (.loadClosed next)))
  ∧ (∀ (s : State) (tag count : Byte) (ws : List WireHostPart), s.linkFree → s.vehiclesSound = true →
    1 ≤ ws.length → ws.length ≤ 8 →
    (s.loadSession = none →
      exec (.vehicleLoadNext tag count ws) s = .next (s.heard.answered 0xB4#8 tag .state .none))
    ∧ (∀ next : Nat, s.loadSession = some next → count.toNat ≠ ws.length →
        exec (.vehicleLoadNext tag count ws) s = .next (s.heard.answered 0xB4#8 tag .range .none))
    ∧ (∀ (next : Nat) (w : WireHostPart), s.loadSession = some next → w ∈ ws → hostPartOf w = none →
        exec (.vehicleLoadNext tag count ws) s = .next (s.heard.answered 0xB4#8 tag .range .none))
    ∧ (∀ (next n : Nat) (ps : List HostPart), s.loadSession = some next → count.toNat = ws.length →
        ws.map hostPartOf = ps.map some → n ≤ ps.length → next + n ≤ 512 →
        (∀ i : Nat, i < n → ∃ (v : VehicleId) (p : HostPart), s.Places next ps i v p) →
        let ends := fun (status : StatusCode) (holder : Option VehicleId) =>
          ∃ (t : State) (placed : List PlacedRecord),
            (n = 0 → exec (.vehicleLoadNext tag count ws) s =
              .next (t.answered 0xB4#8 tag status (.loadProgress 0 next (decide (status ≠ .loadEnded)) holder)))
            ∧ (1 ≤ n → exec (.vehicleLoadNext tag count ws) s =
                .next ((t.setStore { s.store with queue := s.store.queue ++ [.vehicles placed] }).holding 0x34#8 tag
                  (.loadNext status n (next + n) holder)))
            ∧ t.loadSession = (if status = .loadEnded then none else some (next + n))
            ∧ placed.length = n
            ∧ (∀ (i : Nat) (v : VehicleId) (p : HostPart), i < n → s.Places next ps i v p →
                let r := (s.vehicle v).withHost p
                t.vehicle v = { r with status := statusOf (s.classOf p.cls) r }
                ∧ placed[i]? = some { vehicle := v, host := p, revision := r.revision,
                                      fresh := !((s.vehicle v).host.inUse && p.inUse) })
            ∧ (∀ x : VehicleId, x.val < next ∨ next + n ≤ x.val → t.vehicle x = s.vehicle x)
            ∧ t = { s.heard with vehicles := t.vehicles, dueList := t.dueList, dueRevision := t.dueRevision
                                 loadSession := t.loadSession, link := t.link }
            ∧ t.link = { s.heard.link with events := t.link.events, attention := t.link.attention }
        (n = ps.length → next + n < 512 → ends .ok none)
        ∧ (1 ≤ n → next + n = 512 → ends .loadEnded none)
        ∧ (∀ (v : VehicleId) (h : HoseId), n < ps.length → v.val = next + n → (s.vehicle v).binding = some h →
            ends .loadEnded none)
        ∧ (∀ (v x : VehicleId) (p : HostPart), s.Reaches next ps n v p → x ≠ v → p.Clashes (s.hostAfter next ps n x) →
            (∀ y : VehicleId, y ≠ v → p.Clashes (s.hostAfter next ps n y) → y = x) → ends .dupTag (some x))))

/-- HOURS_SET stores a reading above or below the one held and recomputes the status, refused with NO_VEHICLE and REVISION;
a reading of an authorization below the last sets HOURS_REGRESS and leaves the last, another becomes the last (R131,
R133). -/
def Obligations.HourReadings : Prop :=
  (∀ (s : State) (v : VehicleId) (tag : Byte) (index expected : BitVec 16) (hours : BitVec 32),
    s.linkFree → s.vehiclesSound = true → index.toNat = v.val →
    let r := s.vehicle v
    (r.host.inUse = false →
      exec (.hoursSet tag index hours expected) s = .next (s.heard.answered 0xB8#8 tag .noVehicle .none))
    ∧ (r.host.inUse = true → r.revision ≠ expected.toNat →
        exec (.hoursSet tag index hours expected) s =
          .next (s.heard.answered 0xB8#8 tag .revision (.revisionConflict r.revision (vehicleImage v r))))
    ∧ (r.host.inUse = true → r.revision = expected.toNat → r.binding = none →
        let u : Usage := { r.usage with hours := some hours.toNat, meter := true, regress := false }
        let revision := (r.revision + 1) % 65536
        let r1 : Vehicle := { r with usage := u, revision := revision }
        ∃ t : State, exec (.hoursSet tag index hours expected) s = .next (t.holding 0x38#8 tag (.hoursSet v))
          ∧ t.vehicle v = { r1 with status := statusOf (s.classOf r.host.cls) r1 }
          ∧ (∀ x : VehicleId, x ≠ v → t.vehicle x = s.vehicle x)
          ∧ t.store = { s.store with queue := s.store.queue ++ [.hours v u revision] }
          ∧ t.journal = s.journal ∧ t.hoses = s.hoses))
  ∧ (∀ (s : State) (v : VehicleId) (n : Nat), s.vehiclesSound = true → (s.vehicle v).binding = none →
    let r := s.vehicle v
    let out := applyReading v n s
    (match r.usage.hours with
      | some last =>
        if n < last then out.2 = true ∧ (out.1.vehicle v).usage = { r.usage with regress := true }
        else out.2 = false ∧ (out.1.vehicle v).usage = { r.usage with hours := some n, meter := true, regress := false }
      | none =>
        out.2 = false ∧ (out.1.vehicle v).usage = { r.usage with hours := some n, meter := true, regress := false })
    ∧ (out.1.vehicle v).revision = r.revision ∧ (out.1.vehicle v).host = r.host
    ∧ (out.1.vehicle v).status = statusOf (s.classOf r.host.cls) { r with usage := (out.1.vehicle v).usage }
    ∧ out.1.hoses = s.hoses ∧ ∀ x : VehicleId, x ≠ v → out.1.vehicle x = s.vehicle x)

/-- The status of an in-use vehicle follows its worst line: the greatest per-mille of a used line decides between OK,
DUE_SOON, DUE and OVERDUE; with no used line it is OK (R134 to R136). A recomputation that leaves the status changes
nothing; one that changes it writes it, and the due list follows: an append at the end or a removal with the revision
advanced, and the SERVICE event at an append and at a change from DUE to OVERDUE alone (R137, R141, R142); what a hose in
READY does with the report is ReadyGrantIsReleased's. -/
def Obligations.StatusFollowsWorstLine : Prop :=
  (∀ (s : State) (v : VehicleId), s.vehiclesSound = true →
    let r := s.vehicle v
    let new := statusOf (s.classOf r.host.cls) r
    let t := recompute v s
    (new = r.status → t = s)
    ∧ (new ≠ r.status → (∀ h : HoseId, r.binding = some h → (s.hose h).state ≠ .ready) →
        t.vehicle v = { r with status := new } ∧ (∀ x : VehicleId, x ≠ v → t.vehicle x = s.vehicle x)
        ∧ DueListFollows s t v r.status new
        ∧ t = { s with vehicles := t.vehicles, dueList := t.dueList, dueRevision := t.dueRevision, link := t.link }))
  ∧ ∀ (c : ClassRecord) (r : Vehicle), r.host.inUse = true →
    let used := fun n : LineId => (c.lines.get n).hour ≠ 0 ∨ (c.lines.get n).fuel ≠ 0
    let fuel := fun n : LineId => r.usage.fuel - (r.marks.get n).fuel
    let hours := fun n : LineId =>
      match r.usage.meter, r.usage.hours, (r.marks.get n).hours with
      | true, some a, some b => a - b
      | _, _, _ => if c.burnRate = 0 then 0 else fuel n * 10 / (c.burnRate * 1000)
    let perMille := fun n : LineId =>
      min 65535 (max (if (c.lines.get n).hour = 0 then 0 else hours n * 1000 / (c.lines.get n).hour)
        (if (c.lines.get n).fuel = 0 then 0 else fuel n * 1000 / ((c.lines.get n).fuel * 1000)))
    ((∀ n : LineId, ¬used n) → statusOf c r = .ok)
    ∧ ∀ w : LineId, used w → (∀ n : LineId, used n → perMille n ≤ perMille w) →
        statusOf c r =
          if perMille w < c.warn then .ok
          else if perMille w < 1000 then .dueSoon
          else if perMille w < 1000 + c.grace then .due
          else .overdue

/-- SERVICE_DONE: its checks in order, RANGE for an index above 511, a line of 0 or above 4 or a flag that is not defined
(R145, R202); an accepted one sets the marks of line 1 to the line given, advances the revision, takes a slot reservation,
queues the SERVICE record, and is pending with the link held (R145, R146, R148). On a bound vehicle whose grant stands in
READY the two changes of status reach the hose, as ReadyGrantIsReleased says; everywhere else no hose and no other vehicle
changes. That a flag that is not defined is refused before every other check, and that the status is computed a first time
at the reading, before the marks are set, are the model's reading (assumptions 23 and 12). -/
def Obligations.ServiceDoneMarksLines : Prop :=
  (∀ (s : State) (tag line flags : Byte) (index expected : BitVec 16) (hours : BitVec 32), s.linkFree →
    512 ≤ index.toNat ∨ line.toNat = 0 ∨ 5 ≤ line.toNat ∨ flags &&& 0xFE#8 ≠ 0#8 →
    exec (.serviceDone tag index line flags hours expected) s = .next (s.heard.answered 0xB9#8 tag .range .none))
  ∧ (∀ (s : State) (v : VehicleId) (l : LineId) (tag line flags : Byte) (index expected : BitVec 16) (hours : BitVec 32),
    s.linkFree → s.vehiclesSound = true → index.toNat = v.val → line.toNat = l.val + 1 → flags &&& 0xFE#8 = 0#8 →
    let r := s.vehicle v
    let cmd : Instr := .serviceDone tag index line flags hours expected
    (r.host.inUse = false → exec cmd s = .next (s.heard.answered 0xB9#8 tag .noVehicle .none))
    ∧ (r.host.inUse = true →
        (r.revision ≠ expected.toNat →
          exec cmd s = .next (s.heard.answered 0xB9#8 tag .revision (.revisionConflict r.revision (vehicleImage v r))))
        ∧ (r.revision = expected.toNat →
            (r.servicePending = true → exec cmd s = .next (s.heard.answered 0xB9#8 tag .state .none))
            ∧ (r.servicePending = false → s.journal.faulted = true ∨ s.journal.free < s.journal.reservations + 1 →
                exec cmd s = .next (s.heard.answered 0xB9#8 tag .journalFull .none))
            ∧ (r.servicePending = false → s.journal.faulted = false → s.journal.reservations + 1 ≤ s.journal.free →
                let c := s.classOf r.host.cls
                let reading := if flags.getLsbD 0 then some hours.toNat else none
                let marked := match reading with | some n => some n | none => r.usage.hours
                let revision := (r.revision + 1) % 65536
                let regress := match reading, r.usage.hours with | some n, some last => decide (n < last) | _, _ => false
                let usage : Usage :=
                  match reading with
                  | none => r.usage
                  | some n =>
                    if regress then { r.usage with regress := true }
                    else { r.usage with hours := some n, meter := true, regress := false }
                let s1 := match reading with | some n => (applyReading v n s.heard).1 | none => s.heard
                ∃ (m : Vector Mark 4) (rec : ServiceRecord),
                  let s2 := recompute v (s1.setVehicle v { s1.vehicle v with marks := m, revision := revision })
                  let t := (s2.setJournal { s2.journal with
                      reservations := s2.journal.reservations + 1
                      queue := s2.journal.queue ++ [{ record := .service rec, stamp := none }] }).setVehicle v
                    { s2.vehicle v with servicePending := true }
                  exec cmd s = .next (t.holding 0x39#8 tag (.serviceDone v none))
                  ∧ (∀ n : LineId,
                      m.get n = if n.val ≤ l.val then { hours := marked, fuel := r.usage.fuel } else r.marks.get n)
                  ∧ rec =
                      { vehicle := v, tag := r.host.tag, fleet := r.host.fleet, line := l, hours := reading
                        markHours := marked, fuel := r.usage.fuel, statusBefore := r.status
                        worstBefore := rec.worstBefore, statusAfter := (s2.vehicle v).status, regress := regress
                        revision := revision }
                  ∧ (∀ (w : LineId) (n : Nat), rec.worstBefore = some (w, n) ↔
                      r.worstIs c w ∧ n = (r.lineFigures c w).perMille)
                  ∧ ((∀ h : HoseId, r.binding = some h → (s.hose h).state ≠ .ready) →
                      let r2 : Vehicle := { r with usage := usage, marks := m, revision := revision }
                      t.vehicle v = { r2 with
                          status := statusOf c r2, servicePending := true, usageWrite := (t.vehicle v).usageWrite }
                      ∧ t.journal = { s.journal with
                          reservations := s.journal.reservations + 1
                          queue := s.journal.queue ++ [{ record := .service rec, stamp := none }] }
                      ∧ t.hoses = s.hoses ∧ t.tanks = s.tanks
                      ∧ ∀ x : VehicleId, x ≠ v → t.vehicle x = s.vehicle x)))))

/-- CLASS_SET is refused with RANGE for a field outside its range; else it replaces the class record at once, begins its
store write and its sweep, and holds the link; the sweep recomputes the vehicles of the class in ascending order, and the
request is answered with the counts when the last is recomputed and the record stored (R111, R139, R140). The codes 0 for
LIMIT and 1 for REFUSE are the model's choice (assumption 5); that an unprintable name is refused with the ranges, and
that the sweep answers in its last step, are its reading (assumptions 23 and 33). -/
def Obligations.ClassSetSweeps : Prop :=
  ∀ s : State,
    (∀ (tag b : Byte) (w : WireClass) (c : ClassId), s.linkFree → b.toNat = c.val →
      let inside := (w.overdueAction = 0#8 ∨ w.overdueAction = 1#8)
        ∧ (∀ x ∈ w.name.toList, 0x20 ≤ x.toNat ∧ x.toNat ≤ 0x7E) ∧ w.defaultPreset.toNat ≤ 9999
        ∧ w.burnRate.toNat ≤ 2000 ∧ 1 ≤ w.warn.toNat ∧ w.warn.toNat ≤ 999 ∧ w.grace.toNat ≤ 1000
        ∧ w.limp.toNat ≤ 9999 ∧ ∀ n : LineId, (w.lines.get n).fuel.toNat ≤ 4000000
      let r : ClassRecord :=
        { name := w.name, defaultPreset := w.defaultPreset.toNat, burnRate := w.burnRate.toNat, warn := w.warn.toNat,
          grace := w.grace.toNat, overdueAction := if w.overdueAction = 0#8 then .limit else .refuse,
          limp := w.limp.toNat, lines := vmap (fun l => { hour := l.hour.toNat, fuel := l.fuel.toNat }) w.lines }
      (¬inside → exec (.classSet tag b w) s = .next (s.heard.answered 0xBA#8 tag .range .none))
      ∧ (inside →
          exec (.classSet tag b w) s =
            .next (((s.heard.setClass c r).setStore
              { s.store with queue := s.store.queue ++ [.classRecord c r] }).holding 0x3A#8 tag (.classSet c false 0 0 0))))
    ∧ (∀ (k tag : Byte) (c : ClassId) (stored : Bool) (next swept changed : Nat) (v : VehicleId),
        s.phase = .running → s.link.rxQueue = [] →
        s.link.held = some { kind := k, tag := tag, wait := .classSet c stored next swept changed } →
        nextOfClass c next s = some v →
        let u := recompute v s
        let n := if (u.vehicle v).status = (s.vehicle v).status then changed else changed + 1
        exec .classSweepVehicle s =
          .next (if stored = true ∧ nextOfClass c (v.val + 1) u = none then
              (u.setLink { u.link with held := none }).answered (replyKind k) tag .ok (.classSet (swept + 1) n)
            else u.holding k tag (.classSet c stored (v.val + 1) (swept + 1) n)))
    ∧ (∀ (c : ClassId) (start : Nat) (v : VehicleId), s.vehiclesSound = true →
        (nextOfClass c start s = some v ↔
          start ≤ v.val ∧ (s.vehicle v).host.inUse = true ∧ (s.vehicle v).host.cls = c
            ∧ ∀ x : VehicleId, start ≤ x.val → x.val < v.val →
                ¬((s.vehicle x).host.inUse = true ∧ (s.vehicle x).host.cls = c)))

/-! ### The journal (Chapter 8) -/

/-- The journal write begins on the head record when none is in flight, a segment is ACTIVE and the journal is not
FAULTED: a record that has no number yet takes the next number and its timestamp, and with the numbers spent the journal
enters FAULTED, which answers the request held for its record and raises the event (R153, R156, R160). -/
def Obligations.JournalWriteBegins : Prop :=
  ∀ (s : State) (q : Queued) (rest : List Queued), s.phase = .running → s.link.rxQueue = [] →
    s.journal.queue = q :: rest → s.journal.writing = false → s.journal.active ≠ none → s.journal.faulted = false →
    (∀ st : Stamp, q.stamp = some st → exec .journalWriteStart s = .next (s.setJournal { s.journal with writing := true }))
    ∧ (q.stamp = none →
        (s.journal.nextSeq ≤ 4294967295 →
          exec .journalWriteStart s =
            .next (s.setJournal
              { s.journal with
                writing := true, nextSeq := s.journal.nextSeq + 1
                queue :=
                  { record := q.record,
                    stamp := some
                      { seq := s.journal.nextSeq,
                        time :=
                          match s.journal.newest with
                          | some n => if s.clock.valid then max s.clock.count n.2 else n.2
                          | none => if s.clock.valid then s.clock.count else 0,
                        valid := s.clock.valid } } :: rest }))
        ∧ (4294967295 < s.journal.nextSeq →
            ∃ t : State, exec .journalWriteStart s = .next t ∧ EntersFaulted s t
              ∧ t = { s with journal := { s.journal with faulted := true }, link := t.link }))

/-- A journal write that agrees: the slot is WRITTEN, the record leaves the queue and ends its reservation, a segment that
is filled is followed by the next FREE one with its high-water mark, the owner is told (a SETTLED hose goes to IDLE and its
vehicle is free; the calibration store and service accounting begin their store writes and a request that is held for
the record keeps the number; STOCK_ADJUST is answered and the book stored), and the fill threshold is tested (R29, R63,
R65, R89, R147, R157, R158, R167); one that fails: the slot is VOID, the segment worn with its mark stored, the record
waits with its number, and the journal enters FAULTED when free slots fall below the reservations (R158 to R160). That
no write is in flight after either completion, the retry and the next write being begun in steps of their own, and that
the book is stored also at the write of an ADJUST record that was carried across a reset, are the model's choices
(assumptions 6 and 52). -/
def Obligations.JournalWriteEnds : Prop :=
  ∀ (s : State) (g : SegmentId) (r : Record) (st : Stamp) (rest : List Queued),
    s.phase = .running → s.link.rxQueue = [] → s.journal.writing = true → s.journal.active = some g →
    s.journal.queue = { record := r, stamp := some st } :: rest → s.journal.SegmentsSound → s.journal.spare →
    let used := (s.journal.segment g).slots
    let after : SegmentState := if used.length + 1 < 64 then .active else .full
    (∃ (u : State) (ws : List StoreWrite), exec (.journalWriteComplete true) s = .next u.tested
      ∧ u.journal = { s.journal with
          segments := u.journal.segments, highWater := u.journal.highWater, queue := rest
          reservations := s.journal.reservations - 1, writing := false, newest := some (st.seq, st.time) }
      ∧ u.journal.segment g = { s.journal.segment g with
          state := after, slots := used ++ [.written { record := r, stamp := st }] }
      ∧ SegmentFollows s u g
          (match rest with | { record := _, stamp := some x } :: _ => x.seq | _ => s.journal.nextSeq)
          (some (st.seq, st.time)) ws
      ∧ u.store = { s.store with
          queue := s.store.queue ++ ws ++
            match r with
            | .calibration (.hose h _ _ _ _ _ _) => [.calibration h (s.cal h).data]
            | .calibration (.product p _ _ _) => [.product p (s.product p).data]
            | .service x =>
              [.service x.vehicle (s.vehicle x.vehicle).marks (s.vehicle x.vehicle).revision (s.vehicle x.vehicle).usage]
            | .adjust a => [.bookRevision a.tank (s.tank a.tank).book (s.tank a.tank).revision]
            | .delivery _ | .receipt _ | .interruption _ => [] }
      ∧ (∀ (d : DeliveryRecord) (x : Grant), r = .delivery d → (s.hose d.hose).state = .settled →
          (s.hose d.hose).grant = some x → s.vehiclesSound = true →
          u.hose d.hose =
            { s.hose d.hose with
              state := .idle, grant := none, valve := .closed, lamp := .off
              timers := ⟨none, none, none, none, none, none⟩ }
          ∧ u.vehicle x.vehicle = { s.vehicle x.vehicle with binding := none }
          ∧ (∀ v : VehicleId, v ≠ x.vehicle → u.vehicle v = s.vehicle v)
          ∧ u.link = (raise (.hoseState d.hose) (.entered .idle)
              (s.setJournal { s.journal with newest := some (st.seq, st.time) })).link)
      ∧ ((∀ d : DeliveryRecord, r ≠ .delivery d) → u.vehicles = s.vehicles)
      ∧ (∀ h : HoseId, (∀ d : DeliveryRecord, r = .delivery d → d.hose ≠ h) → u.hose h = s.hose h)
      ∧ (∀ (k tag : Byte) (wait : HeldWait), s.link.held = some { kind := k, tag := tag, wait := wait } →
          let keeps := fun w : HeldWait =>
            u.link = { s.link with held := some { kind := k, tag := tag, wait := w } }
          (∀ (h : HoseId) (k1 k2 n f1 f2 c : Nat), r = .calibration (.hose h k1 k2 n f1 f2 c) → wait = .calWrite h none →
            keeps (.calWrite h (some st.seq)))
          ∧ (∀ (p : ProductId) (b1 b2 : Nat) (name : Name), r = .calibration (.product p b1 b2 name) →
              wait = .productSet p none → keeps (.productSet p (some st.seq)))
          ∧ (∀ x : ServiceRecord, r = .service x → wait = .serviceDone x.vehicle none →
              keeps (.serviceDone x.vehicle (some st.seq)))
          ∧ (∀ (a : AdjustRecord) (book : Int), r = .adjust a → wait = .stockAdjust a.tank book a.revision →
              u.link = ((s.setLink { s.link with held := none }).answered (replyKind k) tag .ok
                (.adjusted a.newBook a.revision (some st.seq))).link))
      ∧ ((∀ d : DeliveryRecord, r ≠ .delivery d) → s.link.held = none → u.link = s.link)
      ∧ u = { s with hoses := u.hoses, vehicles := u.vehicles, journal := u.journal, link := u.link, store := u.store })
    ∧ (∃ (t : State) (m : Vector Bool 32) (ws : List StoreWrite), exec (.journalWriteComplete false) s = .next t
        ∧ t.journal = { s.journal with
            segments := t.journal.segments, highWater := t.journal.highWater, writing := false
            faulted := t.journal.faulted }
        ∧ t.journal.segment g = { s.journal.segment g with state := after, worn := true, slots := used ++ [.void] }
        ∧ SegmentFollows s t g st.seq s.journal.newest ws
        ∧ t.store = { s.store with
            queue := s.store.queue ++ (if (s.journal.segment g).worn then [] else [.wornMarks m]) ++ ws }
        ∧ (∀ k : SegmentId, m.get k = ((s.journal.segment k).worn || decide (k = g)))
        ∧ (s.journal.faulted = false → t.journal.free < t.journal.reservations → EntersFaulted s t)
        ∧ (s.journal.faulted = true ∨ t.journal.reservations ≤ t.journal.free →
            t.journal.faulted = s.journal.faulted ∧ t.link = s.link)
        ∧ t = { s with journal := t.journal, link := t.link, store := t.store })

/-- An erase begins on the first segment whose erase was cut short, in the circular order of the segments, else on the
eligible one that holds the oldest records; at its end a blank segment that is not worn is FREE, or ACTIVE at once when
none is, and another is RETIRED with its mark stored and its event, and the fill threshold is tested; a FAULTED journal
leaves FAULTED when free slots are again at least the reservations, with its event (R151, R161, R165 to R167, R171). That
the command eraseStart changes nothing when no erase may begin, and that none follows at once on the end of another, are
the model's choices (assumption 6), and so is that an eligible segment without a record stands after those with records
(assumption 49); that a failed erase clears the worn mark, and that a journal whose numbers are spent stays FAULTED, are its
reading (assumptions 19 and 36). -/
def Obligations.ErasesBeginAndEnd : Prop :=
  (∀ s : State, s.phase = .running →
    (∀ (g : SegmentId) (rest : List SegmentId), s.journal.erase = none →
      s.journal.cutShort ++ s.journal.eligibleSegments s.store.stored.ack = g :: rest →
      ∃ t : State, exec .eraseStart s = .next t
        ∧ t.journal.erase = some g ∧ (t.journal.segment g).state = .erasing ∧ (t.journal.segment g).eraseMark = true
        ∧ (t.journal.segment g).slots = [] ∧ (t.journal.segment g).worn = (s.journal.segment g).worn
        ∧ (∀ k : SegmentId, k ≠ g → t.journal.segment k = s.journal.segment k)
        ∧ t = { s with journal := { s.journal with segments := t.journal.segments, erase := t.journal.erase } })
    ∧ (s.journal.erase ≠ none ∨ s.journal.cutShort ++ s.journal.eligibleSegments s.store.stored.ack = [] →
        exec .eraseStart s = .next s)
    ∧ (∀ g : SegmentId, g ∈ s.journal.cutShort ↔ (s.journal.segment g).state = .erasing)
    ∧ s.journal.cutShort.Pairwise
        (fun g k => stepsAfter s.journal.highWater.segment g < stepsAfter s.journal.highWater.segment k)
    ∧ (∀ n : Nat,
        (∀ g : SegmentId, g ∈ s.journal.eligibleSegments n ↔
          (s.journal.segment g).state = .full
            ∧ ∀ r : JRecord, .written r ∈ (s.journal.segment g).slots → r.stamp.seq ≤ n)
        ∧ (s.journal.eligibleSegments n).Nodup
        ∧ (s.journal.eligibleSegments n).Pairwise (fun g k =>
            ∀ r : JRecord, .written r ∈ (s.journal.segment k).slots →
              ∃ q : JRecord, .written q ∈ (s.journal.segment g).slots ∧ q.stamp.seq ≤ r.stamp.seq)))
  ∧ (∀ (s : State) (g : SegmentId), s.phase = .running → s.journal.erase = some g →
    let recovered := fun (j : Journal) => ({ j with faulted := s.journal.faulted } : Journal).Recovers
    ((s.journal.segment g).worn = false →
      ∃ t : State, exec (.eraseComplete true) s = .next t
        ∧ t.journal.erase = none ∧ (t.journal.segment g).slots = [] ∧ (t.journal.segment g).eraseMark = false
        ∧ (t.journal.segment g).worn = false
        ∧ (∀ k : SegmentId, k ≠ g → t.journal.segment k = s.journal.segment k)
        ∧ (s.journal.active ≠ none → s.journal.active ≠ some g → (t.journal.segment g).state = .free
            ∧ t.journal.highWater = s.journal.highWater ∧ t.store = s.store)
        ∧ (s.journal.active = none → (t.journal.segment g).state = .active
            ∧ t.journal.highWater =
              { seq := (match s.journal.queue with
                  | { record := _, stamp := some x } :: _ => x.seq
                  | _ => s.journal.nextSeq),
                segment := g, newest := s.journal.newest }
            ∧ t.store = { s.store with queue := s.store.queue ++ [.highWater t.journal.highWater] })
        ∧ (recovered t.journal → t.journal.faulted = false ∧ t.link = (raise .journal .recovered s).link)
        ∧ (¬recovered t.journal → t.journal.faulted = s.journal.faulted ∧ t.link = s.link)
        ∧ t = { s with journal := t.journal, link := t.link, store := t.store }
        ∧ t.journal = { s.journal with
            segments := t.journal.segments, highWater := t.journal.highWater, erase := none, faulted := t.journal.faulted })
    ∧ (∀ blank : Bool, blank = false ∨ (s.journal.segment g).worn = true →
        ∃ (t u : State) (m : Vector Bool 32), exec (.eraseComplete blank) s = .next t
          ∧ (u.journal.segment g).state = .retired ∧ (u.journal.segment g).worn = false
          ∧ (u.journal.segment g).slots = []
          ∧ (∀ k : SegmentId, k ≠ g → u.journal.segment k = s.journal.segment k)
          ∧ (∀ k : SegmentId, m.get k = decide (k = g ∨ (s.journal.segment k).state = .retired))
          ∧ u = { s with
              journal := { s.journal with segments := u.journal.segments, erase := none }
              store := { s.store with queue := s.store.queue ++ [.retiredMarks m] }
              link := (raise .journal .segmentRetired s).link }
          ∧ (u.tested.journal.Recovers →
              t = raise .journal .recovered (u.tested.setJournal { u.tested.journal with faulted := false }))
          ∧ (¬u.tested.journal.Recovers → t = u.tested)))

/-- JOURNAL_ACK: HELD in inspection, RANGE above the newest record, no change below the oldest held record, else the
acknowledged-through sequence rises and its store write begins (R68, R163, R164). -/
def Obligations.JournalAcknowledged : Prop :=
  ∀ (s : State) (tag : Byte) (seq : BitVec 32), s.linkFree →
    let held := fun a : Nat => s.journal.written.filter fun r => decide (a < r.stamp.seq)
    (s.link.inspection = true → exec (.journalAck tag seq) s = .next (s.heard.answered 0xC1#8 tag .held .none))
    ∧ (s.link.inspection = false →
        (s.journal.newest = none ∨ (∃ n, s.journal.newest = some n ∧ n.1 < seq.toNat) →
          exec (.journalAck tag seq) s = .next (s.heard.answered 0xC1#8 tag .range .none))
        ∧ (∀ n, s.journal.newest = some n → seq.toNat ≤ n.1 →
            (held s.journal.ack = [] ∨ (∃ r rest, held s.journal.ack = r :: rest ∧ seq.toNat < r.stamp.seq) →
              exec (.journalAck tag seq) s =
                .next (s.heard.answered 0xC1#8 tag .ok (.acked s.journal.ack (held s.journal.ack).length)))
            ∧ (∀ r rest, held s.journal.ack = r :: rest → r.stamp.seq ≤ seq.toNat →
                ∃ t : State, exec (.journalAck tag seq) s =
                    .next (t.answered 0xC1#8 tag .ok (.acked seq.toNat (held seq.toNat).length))
                  ∧ t.journal.ack = seq.toNat
                  ∧ (s.journal.ackWrite = .none →
                      t.store.queue = s.store.queue ++ [.ackThrough seq.toNat] ∧ t.journal.ackWrite = .inFlight)
                  ∧ (s.journal.ackWrite ≠ .none → t.store = s.store ∧ t.journal.ackWrite = .again)
                  ∧ t.journal.segments = s.journal.segments ∧ t.journal.queue = s.journal.queue
                  ∧ t.hoses = s.hoses)))

/-! ### The settings store (Chapter 10, sections 10.5 and 10.7) -/

/-- The settings store makes one write at a time in the order in which they began. At the completion of a write the store
holds it; the block that began it takes the completion; and the request that waits for it, whichever of the requests that
hold the link it is, is answered and the link released (R63, R65, R119, R124, R128, R133, R139, R147, R164, R165, R194).
That each write begins in a step of its own, and that a completion leaves the next write unbegun, are the model's choices
(assumption 6); that a reply reports the values as they stand when it is built is its reading (assumption 22). -/
def Obligations.StoreWritesAndAnswers : Prop :=
  (∀ s : State, s.phase = .running →
    (∀ (w : StoreWrite) (rest : List StoreWrite), s.store.inFlight = none → s.store.queue = w :: rest →
      exec .settingsWriteStart s = .next (s.setStore { s.store with inFlight := some w, queue := rest }))
    ∧ (s.store.inFlight ≠ none ∨ s.store.queue = [] → exec .settingsWriteStart s = .next s))
  ∧ (∀ (s : State) (k tag : Byte), s.phase = .running → s.link.rxQueue = [] →
    let st := s.store.stored
    let taken := fun (u : State) (stored : Stored) => u.setStore { s.store with inFlight := none, stored := stored }
    let answered := fun (u : State) (c : StatusCode) (body : ReplyBody) =>
      (u.setLink { s.link with held := none }).answered (replyKind k) tag c body
    let done := fun (u : State) (stored : Stored) (body : ReplyBody) => answered (taken u stored) .ok body
    let waits := fun wait : HeldWait => s.link.held = some { kind := k, tag := tag, wait := wait }
    let completes := fun (w : StoreWrite) (t : State) =>
      s.store.inFlight = some w → exec .settingsWriteComplete s = .next t
    let vehicleStored := fun (v : VehicleId) (x : StoredVehicle) => (st.setVehicle v x)
    (∀ (h : HoseId) (c : HoseConfig), waits (.hoseSet h) →
      completes (.hoseConfig h c) (done s { st with hoseConfigs := upd st.hoseConfigs h c } .none))
    ∧ (∀ (t : TankId) (c : TankConfig) (n : Nat), waits (.tankSet t) →
        completes (.tankConfig t c n)
          (done s { st with tankConfigs := upd st.tankConfigs t c, revisions := upd st.revisions t n } .none))
    ∧ (∀ (t : TankId) (p : Strap) (n : Nat), waits (.strapSet t) →
        completes (.strap t p n) (done s { st with straps := upd st.straps t p, revisions := upd st.revisions t n } .none))
    ∧ (∀ (t : TankId) (c : PumpConfig), waits (.pumpSet t) →
        completes (.pumpConfig t c) (done s { st with pumpConfigs := upd st.pumpConfigs t c } .none))
    ∧ (∀ x : SiteSettings, waits .siteSet → completes (.siteSettings x) (done s { st with site := x } .none))
    ∧ (∀ (h : HoseId) (d : CalData) (seq : Nat), waits (.calWrite h (some seq)) →
        completes (.calibration h d)
          (done (s.setCal h { s.cal h with pending := false }) { st with cals := upd st.cals h d }
            (.calWritten (s.cal h).data.count (some seq))))
    ∧ (∀ (p : ProductId) (d : ProductData) (seq : Nat), waits (.productSet p (some seq)) →
        completes (.product p d)
          (done (s.setProduct p { s.product p with pending := false }) { st with products := upd st.products p d }
            (.productWritten (some seq))))
    ∧ (∀ (v : VehicleId) (p : PlacedRecord), waits (.vehiclePut v) →
        completes (.vehicles [p])
          (done s
            (vehicleStored p.vehicle
              { host := p.host, revision := p.revision
                usage := if p.fresh then { fuel := 0, hours := none, meter := false, regress := false }
                  else (st.vehicle p.vehicle).usage
                marks := if p.fresh then freshMarks else (st.vehicle p.vehicle).marks })
            (.putDone (s.vehicle v).revision (s.vehicle v).status)))
    ∧ (∀ (ps : List PlacedRecord) (c : StatusCode) (placed next : Nat) (holder : Option VehicleId),
        waits (.loadNext c placed next holder) → st.vehiclesSound = true → (ps.map (·.vehicle)).Nodup →
        ∃ x : Stored,
          completes (.vehicles ps)
            (answered (taken s x) c (.loadProgress placed next s.loadSession.isSome holder))
          ∧ x = { st with vehicles := x.vehicles }
          ∧ (∀ p ∈ ps, (x.vehicle p.vehicle).host = p.host ∧ (x.vehicle p.vehicle).revision = p.revision)
          ∧ (∀ v : VehicleId, (∀ p ∈ ps, p.vehicle ≠ v) → x.vehicle v = st.vehicle v))
    ∧ (∀ (v : VehicleId) (u : Usage) (n : Nat), waits (.hoursSet v) →
        completes (.hours v u n)
          (done s (vehicleStored v { st.vehicle v with usage := u, revision := n })
            (.putDone (s.vehicle v).revision (s.vehicle v).status)))
    ∧ (∀ (v : VehicleId) (m : Vector Mark 4) (n : Nat) (u : Usage) (seq : Nat), s.vehiclesSound = true →
        waits (.serviceDone v (some seq)) →
        completes (.service v m n u)
          (done (s.setVehicle v { s.vehicle v with servicePending := false })
            (vehicleStored v { st.vehicle v with marks := m, revision := n, usage := u })
            (.serviceDone (s.vehicle v).revision (s.vehicle v).status (some seq))))
    ∧ (∀ (c : ClassId) (r : ClassRecord) (next swept changed : Nat), waits (.classSet c false next swept changed) →
        (nextOfClass c next s = none →
          completes (.classRecord c r) (done s { st with classes := upd st.classes c r } (.classSet swept changed)))
        ∧ (nextOfClass c next s ≠ none →
            completes (.classRecord c r)
              ((taken s { st with classes := upd st.classes c r }).holding k tag (.classSet c true next swept changed))))
    ∧ (∀ (v : VehicleId) (u : Usage), s.vehiclesSound = true →
        let x := vehicleStored v { st.vehicle v with usage := u }
        let r := s.vehicle v
        (r.usageWrite = .none → completes (.usage v u) (taken s x))
        ∧ (r.usageWrite = .inFlight →
            completes (.usage v u) ((taken s x).setVehicle v { r with usageWrite := .none }))
        ∧ (r.usageWrite = .again →
            completes (.usage v u)
              (((taken s x).setVehicle v { r with usageWrite := .inFlight }).setStore
                { queue := s.store.queue ++ [.usage v r.usage], inFlight := none, stored := x })))
    ∧ (∀ n : Nat,
        let x := { st with ack := n }
        (s.journal.ackWrite = .none → completes (.ackThrough n) (taken s x))
        ∧ (s.journal.ackWrite = .inFlight →
            completes (.ackThrough n) ((taken s x).setJournal { s.journal with ackWrite := .none }))
        ∧ (s.journal.ackWrite = .again →
            completes (.ackThrough n)
              (((taken s x).setJournal { s.journal with ackWrite := .inFlight }).setStore
                { queue := s.store.queue ++ [.ackThrough s.journal.ack], inFlight := none, stored := x }))
        ∧ (∀ g : SegmentId, s.store.inFlight = some (.ackThrough n) → s.journal.erase = none →
            (s.journal.segment g).state = .full →
            (∀ r : JRecord, .written r ∈ (s.journal.segment g).slots → r.stamp.seq ≤ n) →
            ∃ (t u : State) (k : SegmentId), exec .settingsWriteComplete s = .next t ∧ exec .eraseStart t = .next u
              ∧ u.journal.erase = some k))
    ∧ (∀ (h : HoseId) (gross net : Nat),
        completes (.totalizers h gross net) (taken s { st with totals := upd st.totals h (gross, net) }))
    ∧ (∀ (t : TankId) (b : Int), completes (.book t b) (taken s { st with books := upd st.books t b }))
    ∧ (∀ (t : TankId) (b : Int) (n : Nat),
        completes (.bookRevision t b n)
          (taken s { st with books := upd st.books t b, revisions := upd st.revisions t n }))
    ∧ (∀ x : HighWater, completes (.highWater x) (taken s { st with highWater := x }))
    ∧ (∀ m : Vector Bool 32, completes (.wornMarks m) (taken s { st with worn := m })
        ∧ completes (.retiredMarks m) (taken s { st with retired := m })))

/-- HOSE_SET configures an IDLE hose and holds the link for its store write, SITE_SET replaces the site settings with the
fill threshold tested, and raises THRESHOLD when the test passes while ARMED, the link timer running on as it was; each is
refused with RANGE outside its ranges, HOSE_SET with STATE when the hose is not IDLE (R1, R32, R167, R200). -/
def Obligations.HoseAndSiteSettings : Prop :=
  ∀ (s : State) (tag b : Byte), s.linkFree →
    (∀ (h : HoseId) (w : WireHoseConfig), b.toNat = h.val →
      ((s.hose h).state ≠ .idle → exec (.hoseSet tag b w) s = .next (s.heard.answered 0x87#8 tag .state .none))
      ∧ ((s.hose h).state = .idle →
          let inside := w.tank.toNat ≤ 3 ∧ w.prestop.toNat ≤ 5000 ∧ w.slowVolume.toNat ≤ 500
            ∧ 10 ≤ w.readyTimeout.toNat ∧ w.readyTimeout.toNat ≤ 600 ∧ 10 ≤ w.noFlowTimeout.toNat
            ∧ w.noFlowTimeout.toNat ≤ 300 ∧ 30 ≤ w.pauseTimeout.toNat ∧ w.pauseTimeout.toNat ≤ 1800
            ∧ 1 ≤ w.settleTime.toNat ∧ w.settleTime.toNat ≤ 10
          (¬inside → exec (.hoseSet tag b w) s = .next (s.heard.answered 0x87#8 tag .range .none))
          ∧ (∀ k : TankId, inside → w.tank.toNat = k.val →
              let c : HoseConfig :=
                { tank := k, prestop := w.prestop.toNat, slowVolume := w.slowVolume.toNat * 1000,
                  readyTimeout := w.readyTimeout.toNat, noFlowTimeout := w.noFlowTimeout.toNat,
                  pauseTimeout := w.pauseTimeout.toNat, settleTime := w.settleTime.toNat }
              exec (.hoseSet tag b w) s =
                .next (((s.heard.setHose h { s.hose h with config := c }).setStore
                  { s.store with queue := s.store.queue ++ [.hoseConfig h c] }).holding 0x07#8 tag (.hoseSet h)))))
    ∧ (∀ lt cap : BitVec 16,
        let inside := 5 ≤ lt.toNat ∧ lt.toNat ≤ 600 ∧ cap.toNat ≤ 9999 ∧ 10 ≤ b.toNat ∧ b.toNat ≤ 95
        let x : SiteSettings := { linkTimeout := lt.toNat, standaloneCap := cap.toNat, threshold := b.toNat }
        (¬inside → exec (.siteSet tag lt cap b) s = .next (s.heard.answered 0xD2#8 tag .range .none))
        ∧ (inside →
            let passes := s.journal.usable * b.toNat ≤ s.journal.held.length * 100
            let u := (s.setLink { s.link with site := x, linkTimer := some s.link.site.linkTimeout }).setStore
              { s.store with queue := s.store.queue ++ [.siteSettings x] }
            exec (.siteSet tag lt cap b) s =
              .next ((if passes ∧ s.journal.armed = true then
                  (raise .journal .threshold u).setJournal { s.journal with armed := false }
                else u.setJournal { s.journal with armed := !decide passes }).holding 0x52#8 tag .siteSet)))

/-- TIME_SET sets the clock, or TIME_BACK before the newest record; EVENTS_READ takes the oldest entries off the event
queue, and the attention line follows; RESTART is refused with STATE unless every hose is IDLE, and the end of its reply
begins the save; the end of any other reply lets a frame that waited be taken (R176, R181, R192, R197, R198). That
TIME_SET stamps anew a record that is being written is the model's reading (assumption 37), and so is that a frame waits
while the transmitter has no room (assumption 15). -/
def Obligations.ControllerRequestsAndSending : Prop :=
  (∀ (s : State) (tag : Byte), s.linkFree →
    (∀ time : BitVec 32,
      ((∃ n, s.journal.newest = some n ∧ time.toNat < n.2) →
        exec (.timeSet tag time) s = .next (s.heard.answered 0xD3#8 tag .timeBack .none))
      ∧ ((∀ n, s.journal.newest = some n → n.2 ≤ time.toNat) →
          exec (.timeSet tag time) s =
            .next (({ s.heard with clock := { count := time.toNat, valid := true } }.setJournal
              (match s.journal.writing, s.journal.queue with
                | true, { record := r, stamp := some st } :: rest =>
                  { s.journal with
                    queue :=
                      { record := r, stamp := some { seq := st.seq, time := time.toNat, valid := true } } :: rest }
                | _, _ => s.journal)).answered 0xD3#8 tag .ok .none)))
    ∧ (∀ count : Byte,
        (count.toNat < 1 ∨ 32 < count.toNat →
          exec (.eventsRead tag count) s = .next (s.heard.answered 0xD1#8 tag .range .none))
        ∧ (1 ≤ count.toNat → count.toNat ≤ 32 →
            exec (.eventsRead tag count) s =
              .next ((s.heard.setLink
                { s.heard.link with
                  events := s.link.events.drop count.toNat
                  attention := decide (count.toNat < s.link.events.length) }).answered 0xD1#8 tag .ok
                (.events (s.link.events.take count.toNat) (s.link.events.length - count.toNat)))))
    ∧ ((∀ h : HoseId, (s.hose h).state = .idle) →
        exec (.restart tag) s = .next ({ s.heard with phase := .restartReply }.answered 0xD4#8 tag .ok .none))
    ∧ ((∃ h : HoseId, (s.hose h).state ≠ .idle) →
        exec (.restart tag) s = .next (s.heard.answered 0xD4#8 tag .state .none)))
  ∧ (∀ (s : State) (r : Reply) (rest : List Reply), s.link.tx = r :: rest →
    (s.phase = .running → s.link.rxQueue = [] ∨ s.link.held ≠ none →
      exec .replySent s = .next (s.setLink { s.link with tx := rest }))
    ∧ (∀ (tag kind : Byte) (body : List Byte), s.phase = .running → s.link.online = true → s.link.held = none →
        rest.length ≤ 4 → s.link.rxQueue = [{ tag := tag, content := .unknownKind kind body }] →
        exec .replySent s =
          .next ((s.setLink { s.link with tx := rest, rxQueue := [] }).answered (replyKind kind) tag .unknownKind .none))
    ∧ (s.phase = .restartReply → r.kind = 0xD4#8 → r.status = .ok →
        ∃ t : State, exec .replySent s = .next t ∧ t.phase = .saving .restartRequest false))

/-! ### Queries -/

/-- The queries on hoses, calibration, tanks and pumps answer what they read and change nothing but the link timer. That
PUMP_QUERY lists the tank numbers of the waiting pumps in ascending order is the model's choice (assumption 48). -/
def Obligations.FieldQueriesRead : Prop :=
  ∀ (s : State) (tag b : Byte), s.linkFree →
    (∀ h : HoseId, b.toNat = h.val →
      let x := s.hose h
      let e := s.engine h
      let live : Bool := decide (x.state ≠ .idle) && decide (x.state ≠ .ready)
      let c := s.cal h
      let p := (s.tank x.config.tank).config.product
      exec (.hoseQuery tag b) s = .next (s.heard.answered 0x86#8 tag .ok (.hose
        { state := x.state, valve := x.valve, lamp := x.lamp, tank := x.config.tank,
          vehicle := x.grant.map (·.vehicle), preset := x.grant.map (·.preset), tankRes := x.grant.map (·.tankRes),
          flags := x.grant.map (·.flags), live := if live then some (e.gross, e.net, e.lastQ) else none,
          errors := if live then some e.errors else none, lastRefusal := x.lastRefusal, stray := x.stray,
          lastEnd := x.lastEnd }))
      ∧ exec (.totalizerRead tag b) s =
          .next (s.heard.answered 0x88#8 tag .ok (.totalizers e.grossTotal e.netTotal x.state))
      ∧ exec (.calRead tag b) s = .next (s.heard.answered 0x93#8 tag .ok (.cal
          { data := c.data, opened := c.opened, pending := c.pending, product := p, productData := (s.product p).data,
            switchClosed := s.inputs.switchClosed })))
    ∧ (∀ p : ProductId, b.toNat = p.val + 1 →
        exec (.productRead tag b) s =
          .next (s.heard.answered 0x95#8 tag .ok (.product (s.product p).data (s.product p).pending)))
    ∧ (∀ k : TankId, b.toNat = k.val →
        let x := s.tank k
        let p := s.pump k
        exec (.tankQuery tag b) s = .next (s.heard.answered 0xA5#8 tag .ok (.tank
          { config := x.config, strapPoints := x.strap.length, book := x.book, reserved := x.reserved,
            available := (x.book - x.config.heel - x.reserved).toNat, ullage := (x.config.capacity - x.book).toNat,
            low := x.low, revision := x.revision, probeValid := x.probeValid, level := x.level,
            temperature := x.temperature, probeGross := x.probeGross, probeNet := x.probeNet, quiet := x.quiet,
            relation := x.relation, difference := x.difference,
            receipt :=
              match x.receipt with
              | .normal => .normal
              | .receiving r => .receiving r.openingNet r.openingTime r.delivered r.docket
              | .settling r left => .settling r.openingNet r.openingTime r.delivered r.docket left }))
        ∧ exec (.strapRead tag b) s = .next (s.heard.answered 0xA6#8 tag .ok (.strap x.strap))
        ∧ exec (.pumpQuery tag b) s = .next (s.heard.answered 0xA9#8 tag .ok (.pump
            { state := p.state, demand := p.demand, starter := p.starter, pressureUp := p.pressureUp,
              config := p.config,
              secondsLeft :=
                if p.state = .starting then p.startTimer else if p.state = .runOn then p.runOnTimer else none,
              lastFault := p.lastFault, slotHolder := s.slotHolder,
              waiting := allTanks.filter fun j => decide ((s.pump j).state = .waiting) })))

/-- The queries on vehicles, classes, the due list, the journal and the part answer what they read and change nothing but the
link timer; VEHICLE_FIND answers with the one enabled record that carries the tag, and NO_VEHICLE otherwise. The records of
the journal's WRITTEN slots are read in ascending sequence order (R162). The bytes that VEHICLE_GET and JOURNAL_READ return
have each field of the vehicle record (11.4) and of the DELIVERY slot (11.3) at its place, every slot has its common part
and its check word, and the fields of the other kinds stand in the order of their rules as far as their widths are given
(R203). That JOURNAL_READ answers the working acknowledged-through sequence, and what SERVICE_QUERY answers of a line that
is not used, are the model's choices (assumptions 44 and 43), and so is that the empty count and K fields of a product's
CALIBRATION record stand as zeros after its listed fields (assumption 8). -/
def Obligations.RegisterQueriesAndFind : Prop :=
  (∀ (s : State) (tag : Byte), s.linkFree →
    (∀ (index : BitVec 16) (v : VehicleId), index.toNat = v.val →
      exec (.vehicleGet tag index) s = .next (s.heard.answered 0xB0#8 tag .ok (.vehicle (vehicleImage v (s.vehicle v))))
      ∧ ((s.vehicle v).host.inUse = false →
          exec (.serviceQuery tag index) s = .next (s.heard.answered 0xBC#8 tag .noVehicle .none))
      ∧ ((s.vehicle v).host.inUse = true →
          ∃ r : ServiceReply, exec (.serviceQuery tag index) s = .next (s.heard.answered 0xBC#8 tag .ok (.service r))
            ∧ (let x := s.vehicle v
               let c := s.classOf x.host.cls
               r = { status := x.status, cls := x.host.cls, warn := c.warn, grace := c.grace, action := c.overdueAction,
                     meter := x.usage.meter, hours := x.usage.hours, regress := x.usage.regress, fuel := x.usage.fuel,
                     lines := [0, 1, 2, 3].map (x.lineFigures c), worst := r.worst, position := r.position,
                     pending := x.servicePending }
               ∧ ∀ w : LineId, r.worst = some w ↔ x.worstIs c w)
            ∧ (r.position.isSome = true ↔ v ∈ s.dueList) ∧ ∀ n : Nat, r.position = some n → s.dueList[n]? = some v))
    ∧ (∀ index : BitVec 16, 512 ≤ index.toNat →
        exec (.vehicleGet tag index) s = .next (s.heard.answered 0xB0#8 tag .range .none)
        ∧ exec (.serviceQuery tag index) s = .next (s.heard.answered 0xBC#8 tag .range .none))
    ∧ (∀ (b : Byte) (c : ClassId), b.toNat = c.val →
        exec (.classRead tag b) s =
          .next (s.heard.answered 0xB6#8 tag .ok (.classInfo (s.classOf c)
            (s.listedVehicles.filter fun e => e.2.host.inUse && decide (e.2.host.cls = c)).length)))
    ∧ (∀ (start : BitVec 16) (count : Byte),
        (512 ≤ start.toNat ∨ count.toNat < 1 ∨ 32 < count.toNat →
          exec (.dueListRead tag start count) s = .next (s.heard.answered 0xBB#8 tag .range .none))
        ∧ (start.toNat < 512 → 1 ≤ count.toNat → count.toNat ≤ 32 →
            ∃ es : List DueEntry, exec (.dueListRead tag start count) s =
                .next (s.heard.answered 0xBB#8 tag .ok (.dueList s.dueList.length s.dueRevision es))
              ∧ es.map (fun e => (e.vehicle, e.fleet, e.status)) =
                ((s.dueList.drop start.toNat).take count.toNat).map (fun v =>
                  (v, (s.vehicle v).host.fleet, (s.vehicle v).status))
              ∧ ∀ e ∈ es,
                  let x := s.vehicle e.vehicle
                  let c := s.classOf x.host.cls
                  ∀ (w : LineId) (n : Nat), e.worst = some (w, n) ↔ x.worstIs c w ∧ n = (x.lineFigures c w).perMille))
    ∧ (∀ (start : BitVec 32) (count : Byte),
        (count.toNat < 1 ∨ 8 < count.toNat →
          exec (.journalRead tag start count) s = .next (s.heard.answered 0xC0#8 tag .range .none))
        ∧ (1 ≤ count.toNat → count.toNat ≤ 8 →
            let found := s.journal.written.filter fun r => decide (start.toNat ≤ r.stamp.seq)
            exec (.journalRead tag start count) s =
              .next (s.heard.answered 0xC0#8 tag .ok (.records
                ((found.take count.toNat).map fun r => { record := r, image := slotImage r }) s.journal.ack
                ((found.drop count.toNat).head?.map fun r => r.stamp.seq)))))
    ∧ exec (.journalStatus tag) s =
        .next (s.heard.answered 0xC2#8 tag .ok (.journalStatus
          (let j := s.journal
           let segments := fun p : Segment → Bool => ((List.finRange 32).filter fun g => p (j.segment g)).length
           { free := j.free, reservations := j.reservations
             heldRecords := (j.written.filter fun r => decide (j.ack < r.stamp.seq)).length, usable := j.usable
             oldest := j.written.head?.map (fun r => r.stamp.seq), newest := j.newest.map (·.1)
             oldestHeld := (j.written.filter fun r => decide (j.ack < r.stamp.seq)).head?.map (fun r => r.stamp.seq)
             ackWorking := j.ack, ackStored := s.store.stored.ack
             active := j.active.map (fun g => (g, (j.segment g).slots.length)), queued := j.queue.length
             writing := j.writing, erasing := j.erase, eligible := (j.eligibleSegments s.store.stored.ack).length
             retired := segments fun x => decide (x.state = .retired), worn := segments (·.worn)
             faulted := j.faulted, armed := j.armed })))
    ∧ s.journal.written.Pairwise (fun a b => a.stamp.seq ≤ b.stamp.seq)
    ∧ (∀ r : JRecord, r ∈ s.journal.written ↔ ∃ g : SegmentId, .written r ∈ (s.journal.segment g).slots)
    ∧ (∃ r : StatusReply, exec (.status tag) s = .next (s.heard.answered 0xD0#8 tag .ok (.status r))
        ∧ r.vendor = Config.vendorCode ∧ r.part = Config.partCode ∧ r.hardware = Config.hardwareRevision
        ∧ r.lastReset = s.link.lastReset ∧ r.online = true ∧ r.site = s.link.site ∧ r.inspection = s.link.inspection
        ∧ r.estop = s.link.estop ∧ r.clockValid = s.clock.valid ∧ r.siteTime = s.clock.count
        ∧ r.events = s.link.events.length ∧ r.waiting = 0))
  ∧ (∀ (s : State) (tag : Byte) (t : Tag), s.linkFree → s.vehiclesSound = true →
    (∀ v : VehicleId, t ≠ 0 → s.onlyCarrier t v →
      exec (.vehicleFind tag t) s =
        .next (s.heard.answered 0xB1#8 tag .ok (.found v (s.vehicle v).revision (s.vehicle v).binding)))
    ∧ (t = 0 ∨ (∀ v : VehicleId, (s.vehicle v).carries t = false) →
        exec (.vehicleFind tag t) s = .next (s.heard.answered 0xB1#8 tag .noVehicle .none)))
  ∧ (∀ r : JRecord,
    let b := slotImage r
    let at_ := fun (o n : Nat) => (b.drop o).take n
    b.length = 64 ∧ at_ 0 1 = beBytes 1 r.record.kind ∧ at_ 1 4 = beBytes 4 r.stamp.seq
    ∧ at_ 5 4 = beBytes 4 r.stamp.time ∧ at_ 9 1 = beBytes 1 r.stamp.valid.toNat
    ∧ at_ 62 2 = beBytes 2 (crc16 (b.take 62)).toNat
    ∧ (∀ d : DeliveryRecord, r.record = .delivery d →
        at_ 10 1 = beBytes 1 d.hose.val ∧ at_ 11 1 = beBytes 1 d.tank.val ∧ at_ 12 1 = beBytes 1 (d.product.val + 1)
        ∧ at_ 13 2 = beBytes 2 d.vehicle.val ∧ at_ 15 8 = beBytes 8 d.tag.toNat ∧ at_ 23 4 = beBytes 4 (d.hours.getD 0)
        ∧ at_ 27 4 = beBytes 4 d.preset ∧ at_ 31 4 = beBytes 4 d.gross ∧ at_ 35 4 = beBytes 4 d.net
        ∧ at_ 39 2 = beBytes 2 (d.average % 65536).toNat ∧ at_ 41 1 = beBytes 1 d.endReason.value
        ∧ at_ 42 2 = beBytes 2
            (d.overspeed.toNat + 2 * d.uncompensated.toNat + 4 * d.regress.toNat + 8 * d.grantFlags.standalone.toNat
              + 16 * d.grantFlags.supervisor.toNat + 32 * d.grantFlags.capped.toNat
              + 64 * d.grantFlags.stockLimited.toNat + 128 * d.overrunLong.toNat + 256 * d.hours.isSome.toNat
              + 512 * d.start.valid.toNat + 1024 * d.finish.valid.toNat + 2048 * (decide (d.path = .host)).toNat)
        ∧ at_ 44 1 = beBytes 1 d.statusAtGrant.value ∧ at_ 45 4 = beBytes 4 d.start.time
        ∧ at_ 49 4 = beBytes 4 d.finish.time ∧ at_ 53 5 = beBytes 5 d.grossTotalizer ∧ at_ 58 4 = beBytes 4 0)
    ∧ (∀ x : ReceiptRecord, r.record = .receipt x →
        at_ 10 1 = beBytes 1 x.tank.val ∧ at_ 11 1 = beBytes 1 (x.product.val + 1))
    ∧ (∀ (h : HoseId) (k1 k2 n f1 f2 c : Nat), r.record = .calibration (.hose h k1 k2 n f1 f2 c) →
        at_ 10 1 = beBytes 1 h.val ∧ at_ 11 2 = beBytes 2 k1 ∧ at_ 13 2 = beBytes 2 k2 ∧ at_ 15 1 = beBytes 1 n
        ∧ at_ 16 4 = beBytes 4 f1 ∧ at_ 20 4 = beBytes 4 f2)
    ∧ (∀ (p : ProductId) (b1 b2 : Nat) (name : Name), r.record = .calibration (.product p b1 b2 name) →
        at_ 10 1 = beBytes 1 255 ∧ at_ 11 1 = beBytes 1 (p.val + 1) ∧ at_ 12 2 = beBytes 2 b1 ∧ at_ 14 2 = beBytes 2 b2
        ∧ at_ 16 8 = name.toList ∧ at_ 24 38 = List.replicate 38 0#8)
    ∧ (∀ x : ServiceRecord, r.record = .service x →
        at_ 10 2 = beBytes 2 x.vehicle.val ∧ at_ 12 8 = beBytes 8 x.tag.toNat ∧ at_ 20 8 = x.fleet.toList
        ∧ at_ 28 1 = beBytes 1 (x.line.val + 1) ∧ at_ 29 4 = beBytes 4 (x.hours.getD 0)
        ∧ at_ 33 4 = beBytes 4 (x.markHours.getD 0) ∧ at_ 37 6 = beBytes 6 x.fuel
        ∧ at_ 43 1 = beBytes 1 x.statusBefore.value)
    ∧ (∀ x : AdjustRecord, r.record = .adjust x →
        at_ 10 1 = beBytes 1 x.tank.val ∧ at_ 11 6 = beBytes 6 (x.oldBook % 281474976710656).toNat
        ∧ at_ 17 6 = beBytes 6 (x.newBook % 281474976710656).toNat ∧ at_ 23 2 = beBytes 2 x.revision
        ∧ at_ 25 37 = List.replicate 37 0#8))
  ∧ (∀ (v : VehicleId) (r : Vehicle),
    let b := vehicleImage v r
    let at_ := fun (o n : Nat) => (b.drop o).take n
    b.length = 76 ∧ at_ 0 2 = beBytes 2 v.val ∧ at_ 2 8 = beBytes 8 r.host.tag.toNat ∧ at_ 10 8 = r.host.fleet.toList
    ∧ at_ 18 1 = beBytes 1 r.host.cls.val ∧ at_ 19 1 = beBytes 1 r.host.products.toNat
    ∧ at_ 20 1 = beBytes 1
        (r.host.inUse.toNat + 2 * r.host.enabled.toNat + 4 * r.host.hostLocked.toNat + 8 * r.host.standalonePermit.toNat)
    ∧ at_ 21 2 = beBytes 2 r.revision ∧ at_ 23 6 = beBytes 6 r.usage.fuel ∧ at_ 29 4 = beBytes 4 (r.usage.hours.getD 0)
    ∧ at_ 33 1 = beBytes 1
        (r.usage.hours.isSome.toNat + 2 * r.usage.meter.toNat + 4 * r.usage.regress.toNat
          + 16 * (r.marks.get 0).hours.isSome.toNat + 32 * (r.marks.get 1).hours.isSome.toNat
          + 64 * (r.marks.get 2).hours.isSome.toNat + 128 * (r.marks.get 3).hours.isSome.toNat)
    ∧ (∀ n : LineId, at_ (34 + 10 * n.val) 4 = beBytes 4 ((r.marks.get n).hours.getD 0)
        ∧ at_ (38 + 10 * n.val) 6 = beBytes 6 (r.marks.get n).fuel)
    ∧ at_ 74 1 = beBytes 1 r.status.value
    ∧ at_ 75 1 = beBytes 1 (match r.binding with | some h => h.val | none => 0xFF))

/-- Refusals that change nothing but the link timer: a hose number above 7, a tank number above 3, a product code outside
1 to 4, a class above 31 and a vehicle index above 511 with RANGE; CANCEL, STOP, PAUSE and RESUME with STATE in every
state of the hose but those that admit them. -/
def Obligations.RequestsRefused : Prop :=
  (∀ (s : State) (tag b : Byte), s.linkFree →
    let refused := fun (k : Byte) => (.next (s.heard.answered k tag .range .none) : Result)
    (8 ≤ b.toNat →
      exec (.cancel tag b) s = refused 0x82#8 ∧ exec (.stop tag b) s = refused 0x83#8
      ∧ exec (.pause tag b) s = refused 0x84#8 ∧ exec (.resume tag b) s = refused 0x85#8
      ∧ exec (.hoseQuery tag b) s = refused 0x86#8 ∧ exec (.totalizerRead tag b) s = refused 0x88#8
      ∧ exec (.calOpen tag b) s = refused 0x90#8 ∧ exec (.calClose tag b) s = refused 0x91#8
      ∧ exec (.calRead tag b) s = refused 0x93#8
      ∧ (∀ w, exec (.hoseSet tag b w) s = refused 0x87#8) ∧ (∀ w, exec (.calWrite tag b w) s = refused 0x92#8))
    ∧ (4 ≤ b.toNat →
        exec (.receiptBegin tag b) s = refused 0xA0#8 ∧ (∀ d, exec (.receiptEnd tag b d) s = refused 0xA1#8)
        ∧ (∀ x y, exec (.stockAdjust tag b x y) s = refused 0xA2#8) ∧ (∀ w, exec (.tankSet tag b w) s = refused 0xA3#8)
        ∧ exec (.tankQuery tag b) s = refused 0xA5#8 ∧ exec (.strapRead tag b) s = refused 0xA6#8
        ∧ (∀ w, exec (.pumpSet tag b w) s = refused 0xA8#8) ∧ exec (.pumpQuery tag b) s = refused 0xA9#8
        ∧ exec (.pumpClear tag b) s = refused 0xAA#8)
    ∧ (b.toNat = 0 ∨ 5 ≤ b.toNat →
        exec (.productRead tag b) s = refused 0x95#8 ∧ ∀ n beta, exec (.productSet tag b n beta) s = refused 0x94#8)
    ∧ (32 ≤ b.toNat → exec (.classRead tag b) s = refused 0xB6#8 ∧ ∀ w, exec (.classSet tag b w) s = refused 0xBA#8)
    ∧ (∀ index : BitVec 16, 512 ≤ index.toNat →
        (∀ w r, exec (.vehiclePut tag index w r) s = refused 0xB2#8)
        ∧ (∀ n r, exec (.hoursSet tag index n r) s = refused 0xB8#8)
        ∧ ∀ l f n r, exec (.serviceDone tag index l f n r) s = refused 0xB9#8))
  ∧ (∀ (s : State) (h : HoseId) (tag b : Byte), s.linkFree → b.toNat = h.val →
    let st := (s.hose h).state
    (st ≠ .ready → exec (.cancel tag b) s = .next (s.heard.answered 0x82#8 tag .state .none))
    ∧ (st = .idle ∨ st = .ready ∨ st = .closing ∨ st = .settled →
        exec (.stop tag b) s = .next (s.heard.answered 0x83#8 tag .state .none))
    ∧ (st ≠ .flowing → st ≠ .trimming → exec (.pause tag b) s = .next (s.heard.answered 0x84#8 tag .state .none))
    ∧ (st ≠ .paused → exec (.resume tag b) s = .next (s.heard.answered 0x85#8 tag .state .none)))

/-! ### Events (Chapter 10, section 10.6) -/

/-- Raising an event: an entry of its key keeps its place and first time, counts one more up to 255 and takes the detail;
without one a new entry joins the end with count 1 (R196). -/
def Obligations.EventsCoalesce : Prop :=
  ∀ (s : State) (k : EventKey) (d : Detail),
    (∀ (front back : List EventEntry) (e : EventEntry), s.link.events = front ++ e :: back → e.key = k →
      (∀ x ∈ front ++ back, x.key ≠ k) →
      (raise k d s).link.events = front ++ { e with count := min 255 (e.count + 1), detail := d } :: back)
    ∧ ((∀ x ∈ s.link.events, x.key ≠ k) →
        (raise k d s).link.events =
          s.link.events ++
            [{ key := k, count := 1, detail := d,
               first :=
                if s.clock.valid then { time := s.clock.count, valid := true }
                else { time := match s.journal.newest with | some n => n.2 | none => 0, valid := false } }])

/-! ### The power-fail save and restart (Chapter 9) -/

/-- A supply warning or the reset line begins the save: every valve closes, every starter switches off, each delivery not yet
SETTLED takes its final partial sample and the link is cut; a loss of supply is marked in a save or in reset, and
without a save what was not stored is lost (R177, R178, R180, R201). That a loss of supply in a save only marks it
(assumption 17), and that pump states, working values (assumption 26) and lamps (assumption 27) stand through the save,
are the model's reading. -/
def Obligations.SaveBeginsOrSupplyGoes : Prop :=
  (∀ s : State,
    let began := fun (c : SaveCause) (o : Result) =>
      ∃ t : State, o = .next t ∧ t.phase = .saving c false
        ∧ (∀ h : HoseId, t.hose h = { s.hose h with valve := .closed })
        ∧ (∀ k : TankId, t.pump k = { s.pump k with starter := false })
        ∧ (∀ h : HoseId, t.engine h =
            if (s.hose h).state.counted = true then finishMeasurement (s.engine h) else s.engine h)
        ∧ t.link = { s.link with rx := none, gapTimer := false, rxQueue := [], held := none, tx := [], attention := false }
        ∧ t.journal = { s.journal with erase := none } ∧ t.store.stored = s.store.stored
        ∧ t = { s with phase := t.phase, hoses := t.hoses, pumps := t.pumps, engines := t.engines, link := t.link,
                       journal := t.journal, store := t.store }
    (s.phase = .running → began .supplyWarning (exec .supplyWarning s) ∧ began .resetLine (exec .resetLineAssert s))
    ∧ (∀ (c : SaveCause) (out : Bool), s.phase = .saving c out →
        exec .supplyWarning s = .next s ∧ exec .resetLineAssert s = .next s))
  ∧ (∀ s : State,
    (∀ (c : SaveCause) (out : Bool), s.phase = .saving c out →
      exec .supplyLoss s = .next { s with phase := .saving c true })
    ∧ (∀ (o : ResetOrigin) (out : Bool), s.phase = .inReset o out →
        exec .supplyLoss s = .next { s with phase := .inReset o true })
    ∧ (s.phase = .running ∨ s.phase = .restartReply ∨ s.phase = .restarting →
        ∃ t : State, exec .supplyLoss s = .next t ∧ t.phase = .inReset (.unsaved none) true
          ∧ (∀ h : HoseId, (t.hose h).valve = .closed) ∧ (∀ k : TankId, (t.pump k).starter = false)
          ∧ t.store = { stored := s.store.stored, queue := [], inFlight := none }))

/-- The save completes when no journal write is in flight, which is the model's reading (assumption 17): the store holds
the books and revisions, the totalizers, the acknowledged-through sequence, the worn and retired marks, the usage parts
that had a write in flight or waiting (assumptions 21 and 42), and the area with the snapshots, the receipts in progress
and the queued records; the part is in reset (R88, R128, R177 to R179). That the stored high-water mark stays as it was,
also when its store write waits, is the model's reading (assumption 18). -/
def Obligations.SaveCompletes : Prop :=
  ∀ (s : State) (c : SaveCause) (out : Bool), s.phase = .saving c out →
    s.vehiclesSound = true → s.store.stored.vehiclesSound = true →
    (s.journal.writing = true → exec .powerFailSaveComplete s = .next s)
    ∧ (s.journal.writing = false →
        let old := s.store.stored
        ∃ (t : State) (a : Area), exec .powerFailSaveComplete s = .next t
          ∧ t.phase = .inReset (.saved c) out ∧ t.store.queue = [] ∧ t.store.inFlight = none
          ∧ t.store.stored.area = some a ∧ a.cause = c
          ∧ (∀ h : HoseId, t.store.stored.totals.get h = ((s.engine h).grossTotal, (s.engine h).netTotal))
          ∧ (∀ k : TankId, t.store.stored.books.get k = (s.tank k).book
              ∧ t.store.stored.revisions.get k = (s.tank k).revision)
          ∧ t.store.stored.ack = s.journal.ack
          ∧ (∀ g : SegmentId, t.store.stored.worn.get g = (s.journal.segment g).worn
              ∧ t.store.stored.retired.get g = decide ((s.journal.segment g).state = .retired))
          ∧ (∀ v : VehicleId,
              let r := s.vehicle v
              let x := old.vehicle v
              let unstored := r.usageWrite ≠ .none ∨ (∃ u, .usage v u ∈ s.store.queue)
                ∨ (∃ u n, .hours v u n ∈ s.store.queue) ∨ (∃ m n u, .service v m n u ∈ s.store.queue)
              (¬unstored → t.store.stored.vehicle v = x)
              ∧ (unstored → r ≠ Vehicle.unused → t.store.stored.vehicle v = { x with usage := r.usage }))
          ∧ (∀ p ∈ a.snapshots, (s.hose p.hose).state ≠ .idle ∧ (s.hose p.hose).state ≠ .ready
              ∧ p.state = (s.hose p.hose).state ∧ (s.hose p.hose).grant = some p.grant
              ∧ p.measure.gross = (s.engine p.hose).gross ∧ p.measure.net = (s.engine p.hose).net)
          ∧ (∀ (h : HoseId) (g : Grant), (s.hose h).grant = some g → (s.hose h).state ≠ .idle →
              (s.hose h).state ≠ .ready → ∃ p ∈ a.snapshots, p.hose = h)
          ∧ (∀ x : CarriedReceipt, x ∈ a.receipts ↔
              ∃ r : Receipt, ((s.tank x.tank).receipt = .receiving r ∨ ∃ n, (s.tank x.tank).receipt = .settling r n)
                ∧ x.openingNet = r.openingNet ∧ x.openingTime = r.openingTime ∧ x.docket = r.docket)
          ∧ a.receipts.Pairwise (fun x y => x.tank.val < y.tank.val)
          ∧ a.records = (s.journal.queue.map (·.record)).filter
              (fun r => match r with | .calibration _ | .service _ => false | _ => true)
          ∧ t = { s with phase := t.phase, store := t.store }
          ∧ t.store.stored = { old with
              vehicles := t.store.stored.vehicles, totals := t.store.stored.totals, books := t.store.stored.books
              revisions := t.store.stored.revisions, ack := t.store.stored.ack, worn := t.store.stored.worn
              retired := t.store.stored.retired, area := some a })

/-- Release from reset with a power-fail area that carries nothing (one that no save has written, or one without a
snapshot, a receipt or a record) sets the last-reset cause of R180 and puts every block at its stored or reset values,
the vehicles with their computed statuses and the due list rebuilt in index order (R129, R144), with no event; the
journal is what the scan makes of the segments found (R170, R171: the marks, the ACTIVE segment and the segment change
after a full one, the worn marks, the next sequence number, the newest record, the threshold state). The write that
clears the area ends restart: the inputs are taken as they stand and the RESTART event is raised (R182). The cause
of a reset without a save in which the supply then goes out is the model's reading (assumption 20), and so is the scan
where the segment that the high-water mark names carries a retired or an erase mark (assumption 39); that a segment found
with VOID slots and no record is FULL is its choice (assumption 50). -/
def Obligations.RestartResetsAndEnds : Prop :=
  (∀ (s : State) (o : ResetOrigin) (out backupFailed : Bool), s.phase = .inReset o out →
    s.store.stored.vehiclesSound = true →
    (∀ a : Area, s.store.stored.area = some a → a.snapshots = [] ∧ a.receipts = [] ∧ a.records = []) →
    let st := s.store.stored
    ∃ t : State, exec (.resetRelease backupFailed) s = .next t
      ∧ t.phase = .restarting ∧ t.link.events = [] ∧ t.link.online = false
      ∧ t.link.lastReset =
          (match o with
            | .saved .supplyWarning => if out then .powerOn else .supplyLow
            | .saved .resetLine => .resetLine
            | .saved .restartRequest => .restartRequest
            | .unsaved none => .powerOn
            | .unsaved (some .supplyWarning) => if out then .powerOn else .supplyLow
            | .unsaved (some .resetLine) => if out then .powerOn else .resetLine
            | .unsaved (some .restartRequest) => if out then .powerOn else .restartRequest)
      ∧ t.inputs = s.inputs ∧ t.clock = (if backupFailed then { count := 0, valid := false } else s.clock)
      ∧ (∀ h : HoseId, t.hose h =
            { config := st.hoseConfigs.get h, state := .idle, grant := none, timers := ⟨none, none, none, none, none, none⟩
              lastRefusal := none, stray := 0, lastEnd := none, valve := .closed, lamp := .off }
          ∧ t.engine h =
            { dP := 0, rg := 0, rn := 0, gross := 0, net := 0, sum := 0, errors := 0, faultReported := false, lastQ := 0
              t0 := 1500, overspeed := false, uncompensated := false, latched := none, sampleTimer := false
              average := none, latest := none, held := false, holdTimer := none
              grossTotal := (st.totals.get h).1, netTotal := (st.totals.get h).2 }
          ∧ t.cal h = { data := st.cals.get h, opened := false, pending := false })
      ∧ (∀ k : TankId, t.tank k =
          { config := st.tankConfigs.get k, strap := st.straps.get k, book := st.books.get k, reserved := 0
            low := decide (st.books.get k - (st.tankConfigs.get k).heel < (st.tankConfigs.get k).lowAlarm)
            revision := st.revisions.get k, probeValid := false, staleTimer := none, level := none, temperature := none,
            probeGross := none, probeNet := none, quiet := false, quietTimer := some 60, relation := .unordered,
            difference := none, receipt := .normal })
      ∧ (∀ k : TankId, (t.pump k).config = st.pumpConfigs.get k ∧ (t.pump k).state = .stopped ∧ (t.pump k).demand = 0
          ∧ (t.pump k).starter = false ∧ (t.pump k).lastFault = none ∧ (t.pump k).startTimer = none
          ∧ (t.pump k).runOnTimer = none)
      ∧ (∀ p : ProductId, t.product p = { data := st.products.get p, pending := false })
      ∧ (∀ v : VehicleId,
          let x := st.vehicle v
          let r := t.vehicle v
          r.host = x.host ∧ r.revision = x.revision ∧ r.binding = none ∧ r.servicePending = false
          ∧ (x.host.inUse = true → r.usage = x.usage ∧ r.marks = x.marks)
          ∧ r.status = statusOf (st.classes.get x.host.cls) r)
      ∧ t.dueList.Pairwise (fun u v => u.val < v.val)
      ∧ (∀ v : VehicleId, v ∈ t.dueList ↔
          (t.vehicle v).host.inUse = true ∧ ((t.vehicle v).status = .due ∨ (t.vehicle v).status = .overdue))
      ∧ t.dueRevision = 0 ∧ t.classes = st.classes ∧ t.loadSession = none ∧ t.slotHolder = none
      ∧ t.journal.queue = [] ∧ t.journal.reservations = 0 ∧ t.journal.faulted = false ∧ t.journal.ack = st.ack
      ∧ t.store.stored = st ∧ ScanLeaves st s.journal.segments t.journal t.store.queue)
  ∧ (∀ s : State, s.phase = .restarting →
    ∃ t : State, exec .powerFailAreaCleared s = .next t
      ∧ t.phase = .running ∧ t.store.stored = { s.store.stored with area := none } ∧ t.store.queue = s.store.queue
      ∧ t.link.estop = s.inputs.estop ∧ t.link.inspection = s.inputs.switchClosed ∧ t.link.attention = true
      ∧ (∀ k : TankId, t.pump k = { s.pump k with pressureUp := s.inputs.pressure.get k })
      ∧ (s.link.events = [] → t.link.events.map (fun e => (e.key, e.count, e.detail)) =
          [(.restart, 1, .resetCause s.link.lastReset)])
      ∧ t = { s with phase := t.phase, store := t.store, pumps := t.pumps, link := t.link })

/-- Restart with an area that carries work, whose snapshots are of different hoses and vehicles (R114, R178): the queue
takes the INTERRUPTION record, the carried records in their order, the deliveries settled now and the receipts closed as
UNMEASURED with the saved book (R88, R95, R184), one reservation for each; each hose with a snapshot is SETTLED with its
grant, its binding and its measurement, ended by the cause of the save or by the reason of its CLOSING; a delivery not
yet SETTLED carries out its settle accounting, one SETTLED before the save does not repeat it (R56, R183). That the
average is recomputed also for a SETTLED snapshot is the model's choice (assumption 41), and so is the book that a
carried receipt's close stores (assumption 38). -/
def Obligations.RestartCarriesWork : Prop :=
  ∀ (s : State) (o : ResetOrigin) (out backupFailed : Bool) (a : Area),
    s.phase = .inReset o out → s.store.stored.area = some a →
    a.snapshots ≠ [] ∨ a.receipts ≠ [] ∨ a.records ≠ [] →
    s.store.stored.vehiclesSound = true → s.store.stored.areaSound →
    let st := s.store.stored
    let done := fun p : Snapshot => decide (p.state = .settled)
    let ended := a.snapshots.filter fun p => !done p
    let reason := fun p : Snapshot =>
      match p.state, p.grant.endReason with
      | .closing, some r => r
      | _, _ => if a.cause = .supplyWarning then .powerLoss else .reset
    let totals := fun p : Snapshot =>
      let n := st.totals.get p.hose
      if done p then n else ((n.1 + p.measure.gross) % 1000000000000, (n.2 + p.measure.net) % 1000000000000)
    let average := fun p : Snapshot =>
      if p.measure.gross = 0 then p.measure.t0 else Int.tdiv p.measure.sum p.measure.gross
    ∃ t : State, exec (.resetRelease backupFailed) s = .next t
      ∧ t.phase = .restarting ∧ t.link.events = [] ∧ t.store.stored = st
      ∧ (let now := recordedTime t
         let record := fun p : Snapshot =>
          ({ hose := p.hose, tank := p.grant.tank, product := p.grant.product, vehicle := p.grant.vehicle,
             tag := p.grant.tag, path := p.grant.path, hours := p.grant.hours, preset := p.grant.preset,
             gross := p.measure.gross, net := p.measure.net, average := average p, endReason := reason p,
             grantFlags := p.grant.flags, overspeed := p.measure.overspeed, uncompensated := p.measure.uncompensated,
             regress := p.grant.regress, overrunLong := false, statusAtGrant := p.grant.statusAtGrant,
             start := p.grant.start.getD now, finish := now, grossTotalizer := (totals p).1 } : DeliveryRecord)
         t.journal.queue.map (·.record) =
          .interruption
            { cause := t.link.lastReset, time := now, hosesClosed := ended.length,
              deliveriesCarried := (a.snapshots.filter done).length, receiptsClosed := a.receipts.length,
              recordsCarried := (a.records.filter fun r => match r with | .receipt _ | .adjust _ => true | _ => false).length }
          :: (a.records ++ ended.map (fun p => .delivery (record p))
            ++ a.receipts.map fun r => .receipt
              { tank := r.tank, product := (st.tankConfigs.get r.tank).product, openingNet := r.openingNet,
                openingTime := r.openingTime, closingNet := none, delivered := none, docket := r.docket, volume := 0,
                difference := none, book := st.books.get r.tank, probeFail := false, unmeasured := true })
         ∧ (∀ p ∈ a.snapshots,
            t.hose p.hose =
              { Hose.reset (st.hoseConfigs.get p.hose) with
                state := .settled
                lastEnd := if done p then p.grant.held.map (·.endReason) else some (reason p)
                grant := some
                  (if done p then { p.grant with tankRes := 0, journalRes := true }
                  else { p.grant with
                    tankRes := 0, journalRes := true, endReason := some (reason p), held := some (record p) }) }
            ∧ t.engine p.hose =
              { Engine.reset (totals p) with
                gross := p.measure.gross, net := p.measure.net, sum := p.measure.sum, t0 := p.measure.t0
                errors := p.measure.errors, overspeed := p.measure.overspeed
                uncompensated := p.measure.uncompensated, average := some (average p) }
            ∧ (t.vehicle p.grant.vehicle).binding = some p.hose))
      ∧ (∀ q ∈ t.journal.queue, q.stamp = none) ∧ t.journal.reservations = t.journal.queue.length
      ∧ t.journal.faulted = decide (t.journal.free < t.journal.reservations)
      ∧ (∀ h : HoseId, (∀ p ∈ a.snapshots, p.hose ≠ h) →
          t.hose h = Hose.reset (st.hoseConfigs.get h) ∧ t.engine h = Engine.reset (st.totals.get h))
      ∧ (∀ k : TankId,
          (t.tank k).book = ((ended.filter fun p => decide (p.grant.tank = k)).map (·.measure.net)).foldl
            (fun (b : Int) (n : Nat) => max (-140737488355327) (min 140737488355327 (b - n))) (st.books.get k)
          ∧ (t.tank k).reserved = 0 ∧ (t.tank k).receipt = .normal
          ∧ (t.tank k).low = decide ((t.tank k).book - (t.tank k).config.heel < (t.tank k).config.lowAlarm))
      ∧ (∀ p ∈ ended, (st.vehicle p.grant.vehicle).host.inUse = true →
          (t.vehicle p.grant.vehicle).usage.fuel =
            min 281474976710655 ((st.vehicle p.grant.vehicle).usage.fuel + p.measure.net))
      ∧ (∀ v : VehicleId, (∀ p ∈ ended, p.grant.vehicle ≠ v) → (st.vehicle v).host.inUse = true →
          (t.vehicle v).usage = (st.vehicle v).usage)
      ∧ (∀ v : VehicleId, (∀ p ∈ a.snapshots, p.grant.vehicle ≠ v) → (t.vehicle v).binding = none)
      ∧ (∀ p ∈ ended, .totalizers p.hose (totals p).1 (totals p).2 ∈ t.store.queue)
      ∧ (∀ r ∈ a.receipts, .book r.tank (st.books.get r.tank) ∈ t.store.queue)

end Statements
end

