-- ==== Sys2Proof/Laws/State.lean ====
section
/-! SUPPORT. One lemma per field and per update of the state, true by rfl, and what each object reads as after an
update of it or of another one. -/

namespace Sys2Proof.Machine

open Sys2Proof

variable (s : State)

/-! ### setHose -/

@[simp] theorem State.setHose_phase (h : HoseId) (x : Hose) : (s.setHose h x).phase = s.phase := rfl
@[simp] theorem State.setHose_clock (h : HoseId) (x : Hose) : (s.setHose h x).clock = s.clock := rfl
@[simp] theorem State.setHose_inputs (h : HoseId) (x : Hose) : (s.setHose h x).inputs = s.inputs := rfl
@[simp] theorem State.setHose_hoses (h : HoseId) (x : Hose) : (s.setHose h x).hoses = upd s.hoses h x := rfl
@[simp] theorem State.setHose_engines (h : HoseId) (x : Hose) : (s.setHose h x).engines = s.engines := rfl
@[simp] theorem State.setHose_cals (h : HoseId) (x : Hose) : (s.setHose h x).cals = s.cals := rfl
@[simp] theorem State.setHose_products (h : HoseId) (x : Hose) : (s.setHose h x).products = s.products := rfl
@[simp] theorem State.setHose_tanks (h : HoseId) (x : Hose) : (s.setHose h x).tanks = s.tanks := rfl
@[simp] theorem State.setHose_pumps (h : HoseId) (x : Hose) : (s.setHose h x).pumps = s.pumps := rfl
@[simp] theorem State.setHose_slotHolder (h : HoseId) (x : Hose) : (s.setHose h x).slotHolder = s.slotHolder := rfl
@[simp] theorem State.setHose_vehicles (h : HoseId) (x : Hose) : (s.setHose h x).vehicles = s.vehicles := rfl
@[simp] theorem State.setHose_classes (h : HoseId) (x : Hose) : (s.setHose h x).classes = s.classes := rfl
@[simp] theorem State.setHose_dueList (h : HoseId) (x : Hose) : (s.setHose h x).dueList = s.dueList := rfl
@[simp] theorem State.setHose_dueRevision (h : HoseId) (x : Hose) : (s.setHose h x).dueRevision = s.dueRevision := rfl
@[simp] theorem State.setHose_loadSession (h : HoseId) (x : Hose) : (s.setHose h x).loadSession = s.loadSession := rfl
@[simp] theorem State.setHose_journal (h : HoseId) (x : Hose) : (s.setHose h x).journal = s.journal := rfl
@[simp] theorem State.setHose_link (h : HoseId) (x : Hose) : (s.setHose h x).link = s.link := rfl
@[simp] theorem State.setHose_store (h : HoseId) (x : Hose) : (s.setHose h x).store = s.store := rfl
@[simp] theorem State.setHose_pending (h : HoseId) (x : Hose) : (s.setHose h x).pending = s.pending := rfl

/-! ### setEngine -/

@[simp] theorem State.setEngine_phase (h : HoseId) (x : Engine) : (s.setEngine h x).phase = s.phase := rfl
@[simp] theorem State.setEngine_clock (h : HoseId) (x : Engine) : (s.setEngine h x).clock = s.clock := rfl
@[simp] theorem State.setEngine_inputs (h : HoseId) (x : Engine) : (s.setEngine h x).inputs = s.inputs := rfl
@[simp] theorem State.setEngine_hoses (h : HoseId) (x : Engine) : (s.setEngine h x).hoses = s.hoses := rfl
@[simp] theorem State.setEngine_engines (h : HoseId) (x : Engine) :
    (s.setEngine h x).engines = upd s.engines h x := rfl
@[simp] theorem State.setEngine_cals (h : HoseId) (x : Engine) : (s.setEngine h x).cals = s.cals := rfl
@[simp] theorem State.setEngine_products (h : HoseId) (x : Engine) : (s.setEngine h x).products = s.products := rfl
@[simp] theorem State.setEngine_tanks (h : HoseId) (x : Engine) : (s.setEngine h x).tanks = s.tanks := rfl
@[simp] theorem State.setEngine_pumps (h : HoseId) (x : Engine) : (s.setEngine h x).pumps = s.pumps := rfl
@[simp] theorem State.setEngine_slotHolder (h : HoseId) (x : Engine) :
    (s.setEngine h x).slotHolder = s.slotHolder := rfl
@[simp] theorem State.setEngine_vehicles (h : HoseId) (x : Engine) : (s.setEngine h x).vehicles = s.vehicles := rfl
@[simp] theorem State.setEngine_classes (h : HoseId) (x : Engine) : (s.setEngine h x).classes = s.classes := rfl
@[simp] theorem State.setEngine_dueList (h : HoseId) (x : Engine) : (s.setEngine h x).dueList = s.dueList := rfl
@[simp] theorem State.setEngine_dueRevision (h : HoseId) (x : Engine) :
    (s.setEngine h x).dueRevision = s.dueRevision := rfl
@[simp] theorem State.setEngine_loadSession (h : HoseId) (x : Engine) :
    (s.setEngine h x).loadSession = s.loadSession := rfl
@[simp] theorem State.setEngine_journal (h : HoseId) (x : Engine) : (s.setEngine h x).journal = s.journal := rfl
@[simp] theorem State.setEngine_link (h : HoseId) (x : Engine) : (s.setEngine h x).link = s.link := rfl
@[simp] theorem State.setEngine_store (h : HoseId) (x : Engine) : (s.setEngine h x).store = s.store := rfl
@[simp] theorem State.setEngine_pending (h : HoseId) (x : Engine) : (s.setEngine h x).pending = s.pending := rfl

/-! ### setCal -/

@[simp] theorem State.setCal_phase (h : HoseId) (x : Calibration) : (s.setCal h x).phase = s.phase := rfl
@[simp] theorem State.setCal_clock (h : HoseId) (x : Calibration) : (s.setCal h x).clock = s.clock := rfl
@[simp] theorem State.setCal_inputs (h : HoseId) (x : Calibration) : (s.setCal h x).inputs = s.inputs := rfl
@[simp] theorem State.setCal_hoses (h : HoseId) (x : Calibration) : (s.setCal h x).hoses = s.hoses := rfl
@[simp] theorem State.setCal_engines (h : HoseId) (x : Calibration) : (s.setCal h x).engines = s.engines := rfl
@[simp] theorem State.setCal_cals (h : HoseId) (x : Calibration) : (s.setCal h x).cals = upd s.cals h x := rfl
@[simp] theorem State.setCal_products (h : HoseId) (x : Calibration) : (s.setCal h x).products = s.products := rfl
@[simp] theorem State.setCal_tanks (h : HoseId) (x : Calibration) : (s.setCal h x).tanks = s.tanks := rfl
@[simp] theorem State.setCal_pumps (h : HoseId) (x : Calibration) : (s.setCal h x).pumps = s.pumps := rfl
@[simp] theorem State.setCal_slotHolder (h : HoseId) (x : Calibration) :
    (s.setCal h x).slotHolder = s.slotHolder := rfl
@[simp] theorem State.setCal_vehicles (h : HoseId) (x : Calibration) : (s.setCal h x).vehicles = s.vehicles := rfl
@[simp] theorem State.setCal_classes (h : HoseId) (x : Calibration) : (s.setCal h x).classes = s.classes := rfl
@[simp] theorem State.setCal_dueList (h : HoseId) (x : Calibration) : (s.setCal h x).dueList = s.dueList := rfl
@[simp] theorem State.setCal_dueRevision (h : HoseId) (x : Calibration) :
    (s.setCal h x).dueRevision = s.dueRevision := rfl
@[simp] theorem State.setCal_loadSession (h : HoseId) (x : Calibration) :
    (s.setCal h x).loadSession = s.loadSession := rfl
@[simp] theorem State.setCal_journal (h : HoseId) (x : Calibration) : (s.setCal h x).journal = s.journal := rfl
@[simp] theorem State.setCal_link (h : HoseId) (x : Calibration) : (s.setCal h x).link = s.link := rfl
@[simp] theorem State.setCal_store (h : HoseId) (x : Calibration) : (s.setCal h x).store = s.store := rfl
@[simp] theorem State.setCal_pending (h : HoseId) (x : Calibration) : (s.setCal h x).pending = s.pending := rfl

/-! ### setProduct -/

@[simp] theorem State.setProduct_phase (p : ProductId) (x : Product) : (s.setProduct p x).phase = s.phase := rfl
@[simp] theorem State.setProduct_clock (p : ProductId) (x : Product) : (s.setProduct p x).clock = s.clock := rfl
@[simp] theorem State.setProduct_inputs (p : ProductId) (x : Product) : (s.setProduct p x).inputs = s.inputs := rfl
@[simp] theorem State.setProduct_hoses (p : ProductId) (x : Product) : (s.setProduct p x).hoses = s.hoses := rfl
@[simp] theorem State.setProduct_engines (p : ProductId) (x : Product) : (s.setProduct p x).engines = s.engines := rfl
@[simp] theorem State.setProduct_cals (p : ProductId) (x : Product) : (s.setProduct p x).cals = s.cals := rfl
@[simp] theorem State.setProduct_products (p : ProductId) (x : Product) :
    (s.setProduct p x).products = upd s.products p x := rfl
@[simp] theorem State.setProduct_tanks (p : ProductId) (x : Product) : (s.setProduct p x).tanks = s.tanks := rfl
@[simp] theorem State.setProduct_pumps (p : ProductId) (x : Product) : (s.setProduct p x).pumps = s.pumps := rfl
@[simp] theorem State.setProduct_slotHolder (p : ProductId) (x : Product) :
    (s.setProduct p x).slotHolder = s.slotHolder := rfl
@[simp] theorem State.setProduct_vehicles (p : ProductId) (x : Product) :
    (s.setProduct p x).vehicles = s.vehicles := rfl
@[simp] theorem State.setProduct_classes (p : ProductId) (x : Product) : (s.setProduct p x).classes = s.classes := rfl
@[simp] theorem State.setProduct_dueList (p : ProductId) (x : Product) : (s.setProduct p x).dueList = s.dueList := rfl
@[simp] theorem State.setProduct_dueRevision (p : ProductId) (x : Product) :
    (s.setProduct p x).dueRevision = s.dueRevision := rfl
@[simp] theorem State.setProduct_loadSession (p : ProductId) (x : Product) :
    (s.setProduct p x).loadSession = s.loadSession := rfl
@[simp] theorem State.setProduct_journal (p : ProductId) (x : Product) : (s.setProduct p x).journal = s.journal := rfl
@[simp] theorem State.setProduct_link (p : ProductId) (x : Product) : (s.setProduct p x).link = s.link := rfl
@[simp] theorem State.setProduct_store (p : ProductId) (x : Product) : (s.setProduct p x).store = s.store := rfl
@[simp] theorem State.setProduct_pending (p : ProductId) (x : Product) : (s.setProduct p x).pending = s.pending := rfl

/-! ### setTank -/

@[simp] theorem State.setTank_phase (t : TankId) (x : Tank) : (s.setTank t x).phase = s.phase := rfl
@[simp] theorem State.setTank_clock (t : TankId) (x : Tank) : (s.setTank t x).clock = s.clock := rfl
@[simp] theorem State.setTank_inputs (t : TankId) (x : Tank) : (s.setTank t x).inputs = s.inputs := rfl
@[simp] theorem State.setTank_hoses (t : TankId) (x : Tank) : (s.setTank t x).hoses = s.hoses := rfl
@[simp] theorem State.setTank_engines (t : TankId) (x : Tank) : (s.setTank t x).engines = s.engines := rfl
@[simp] theorem State.setTank_cals (t : TankId) (x : Tank) : (s.setTank t x).cals = s.cals := rfl
@[simp] theorem State.setTank_products (t : TankId) (x : Tank) : (s.setTank t x).products = s.products := rfl
@[simp] theorem State.setTank_tanks (t : TankId) (x : Tank) : (s.setTank t x).tanks = upd s.tanks t x := rfl
@[simp] theorem State.setTank_pumps (t : TankId) (x : Tank) : (s.setTank t x).pumps = s.pumps := rfl
@[simp] theorem State.setTank_slotHolder (t : TankId) (x : Tank) : (s.setTank t x).slotHolder = s.slotHolder := rfl
@[simp] theorem State.setTank_vehicles (t : TankId) (x : Tank) : (s.setTank t x).vehicles = s.vehicles := rfl
@[simp] theorem State.setTank_classes (t : TankId) (x : Tank) : (s.setTank t x).classes = s.classes := rfl
@[simp] theorem State.setTank_dueList (t : TankId) (x : Tank) : (s.setTank t x).dueList = s.dueList := rfl
@[simp] theorem State.setTank_dueRevision (t : TankId) (x : Tank) : (s.setTank t x).dueRevision = s.dueRevision := rfl
@[simp] theorem State.setTank_loadSession (t : TankId) (x : Tank) : (s.setTank t x).loadSession = s.loadSession := rfl
@[simp] theorem State.setTank_journal (t : TankId) (x : Tank) : (s.setTank t x).journal = s.journal := rfl
@[simp] theorem State.setTank_link (t : TankId) (x : Tank) : (s.setTank t x).link = s.link := rfl
@[simp] theorem State.setTank_store (t : TankId) (x : Tank) : (s.setTank t x).store = s.store := rfl
@[simp] theorem State.setTank_pending (t : TankId) (x : Tank) : (s.setTank t x).pending = s.pending := rfl

/-! ### setPump -/

@[simp] theorem State.setPump_phase (t : TankId) (x : Pump) : (s.setPump t x).phase = s.phase := rfl
@[simp] theorem State.setPump_clock (t : TankId) (x : Pump) : (s.setPump t x).clock = s.clock := rfl
@[simp] theorem State.setPump_inputs (t : TankId) (x : Pump) : (s.setPump t x).inputs = s.inputs := rfl
@[simp] theorem State.setPump_hoses (t : TankId) (x : Pump) : (s.setPump t x).hoses = s.hoses := rfl
@[simp] theorem State.setPump_engines (t : TankId) (x : Pump) : (s.setPump t x).engines = s.engines := rfl
@[simp] theorem State.setPump_cals (t : TankId) (x : Pump) : (s.setPump t x).cals = s.cals := rfl
@[simp] theorem State.setPump_products (t : TankId) (x : Pump) : (s.setPump t x).products = s.products := rfl
@[simp] theorem State.setPump_tanks (t : TankId) (x : Pump) : (s.setPump t x).tanks = s.tanks := rfl
@[simp] theorem State.setPump_pumps (t : TankId) (x : Pump) : (s.setPump t x).pumps = upd s.pumps t x := rfl
@[simp] theorem State.setPump_slotHolder (t : TankId) (x : Pump) : (s.setPump t x).slotHolder = s.slotHolder := rfl
@[simp] theorem State.setPump_vehicles (t : TankId) (x : Pump) : (s.setPump t x).vehicles = s.vehicles := rfl
@[simp] theorem State.setPump_classes (t : TankId) (x : Pump) : (s.setPump t x).classes = s.classes := rfl
@[simp] theorem State.setPump_dueList (t : TankId) (x : Pump) : (s.setPump t x).dueList = s.dueList := rfl
@[simp] theorem State.setPump_dueRevision (t : TankId) (x : Pump) : (s.setPump t x).dueRevision = s.dueRevision := rfl
@[simp] theorem State.setPump_loadSession (t : TankId) (x : Pump) : (s.setPump t x).loadSession = s.loadSession := rfl
@[simp] theorem State.setPump_journal (t : TankId) (x : Pump) : (s.setPump t x).journal = s.journal := rfl
@[simp] theorem State.setPump_link (t : TankId) (x : Pump) : (s.setPump t x).link = s.link := rfl
@[simp] theorem State.setPump_store (t : TankId) (x : Pump) : (s.setPump t x).store = s.store := rfl
@[simp] theorem State.setPump_pending (t : TankId) (x : Pump) : (s.setPump t x).pending = s.pending := rfl

/-! ### setClass -/

@[simp] theorem State.setClass_phase (c : ClassId) (x : ClassRecord) : (s.setClass c x).phase = s.phase := rfl
@[simp] theorem State.setClass_clock (c : ClassId) (x : ClassRecord) : (s.setClass c x).clock = s.clock := rfl
@[simp] theorem State.setClass_inputs (c : ClassId) (x : ClassRecord) : (s.setClass c x).inputs = s.inputs := rfl
@[simp] theorem State.setClass_hoses (c : ClassId) (x : ClassRecord) : (s.setClass c x).hoses = s.hoses := rfl
@[simp] theorem State.setClass_engines (c : ClassId) (x : ClassRecord) : (s.setClass c x).engines = s.engines := rfl
@[simp] theorem State.setClass_cals (c : ClassId) (x : ClassRecord) : (s.setClass c x).cals = s.cals := rfl
@[simp] theorem State.setClass_products (c : ClassId) (x : ClassRecord) :
    (s.setClass c x).products = s.products := rfl
@[simp] theorem State.setClass_tanks (c : ClassId) (x : ClassRecord) : (s.setClass c x).tanks = s.tanks := rfl
@[simp] theorem State.setClass_pumps (c : ClassId) (x : ClassRecord) : (s.setClass c x).pumps = s.pumps := rfl
@[simp] theorem State.setClass_slotHolder (c : ClassId) (x : ClassRecord) :
    (s.setClass c x).slotHolder = s.slotHolder := rfl
@[simp] theorem State.setClass_vehicles (c : ClassId) (x : ClassRecord) :
    (s.setClass c x).vehicles = s.vehicles := rfl
@[simp] theorem State.setClass_classes (c : ClassId) (x : ClassRecord) :
    (s.setClass c x).classes = upd s.classes c x := rfl
@[simp] theorem State.setClass_dueList (c : ClassId) (x : ClassRecord) : (s.setClass c x).dueList = s.dueList := rfl
@[simp] theorem State.setClass_dueRevision (c : ClassId) (x : ClassRecord) :
    (s.setClass c x).dueRevision = s.dueRevision := rfl
@[simp] theorem State.setClass_loadSession (c : ClassId) (x : ClassRecord) :
    (s.setClass c x).loadSession = s.loadSession := rfl
@[simp] theorem State.setClass_journal (c : ClassId) (x : ClassRecord) : (s.setClass c x).journal = s.journal := rfl
@[simp] theorem State.setClass_link (c : ClassId) (x : ClassRecord) : (s.setClass c x).link = s.link := rfl
@[simp] theorem State.setClass_store (c : ClassId) (x : ClassRecord) : (s.setClass c x).store = s.store := rfl
@[simp] theorem State.setClass_pending (c : ClassId) (x : ClassRecord) : (s.setClass c x).pending = s.pending := rfl

/-! ### setVehicle -/

@[simp] theorem State.setVehicle_phase (v : VehicleId) (x : Vehicle) : (s.setVehicle v x).phase = s.phase := rfl
@[simp] theorem State.setVehicle_clock (v : VehicleId) (x : Vehicle) : (s.setVehicle v x).clock = s.clock := rfl
@[simp] theorem State.setVehicle_inputs (v : VehicleId) (x : Vehicle) : (s.setVehicle v x).inputs = s.inputs := rfl
@[simp] theorem State.setVehicle_hoses (v : VehicleId) (x : Vehicle) : (s.setVehicle v x).hoses = s.hoses := rfl
@[simp] theorem State.setVehicle_engines (v : VehicleId) (x : Vehicle) : (s.setVehicle v x).engines = s.engines := rfl
@[simp] theorem State.setVehicle_cals (v : VehicleId) (x : Vehicle) : (s.setVehicle v x).cals = s.cals := rfl
@[simp] theorem State.setVehicle_products (v : VehicleId) (x : Vehicle) :
    (s.setVehicle v x).products = s.products := rfl
@[simp] theorem State.setVehicle_tanks (v : VehicleId) (x : Vehicle) : (s.setVehicle v x).tanks = s.tanks := rfl
@[simp] theorem State.setVehicle_pumps (v : VehicleId) (x : Vehicle) : (s.setVehicle v x).pumps = s.pumps := rfl
@[simp] theorem State.setVehicle_slotHolder (v : VehicleId) (x : Vehicle) :
    (s.setVehicle v x).slotHolder = s.slotHolder := rfl
@[simp] theorem State.setVehicle_vehicles (v : VehicleId) (x : Vehicle) :
    (s.setVehicle v x).vehicles = Sparse.set .unused s.vehicles v.val x := rfl
@[simp] theorem State.setVehicle_classes (v : VehicleId) (x : Vehicle) : (s.setVehicle v x).classes = s.classes := rfl
@[simp] theorem State.setVehicle_dueList (v : VehicleId) (x : Vehicle) : (s.setVehicle v x).dueList = s.dueList := rfl
@[simp] theorem State.setVehicle_dueRevision (v : VehicleId) (x : Vehicle) :
    (s.setVehicle v x).dueRevision = s.dueRevision := rfl
@[simp] theorem State.setVehicle_loadSession (v : VehicleId) (x : Vehicle) :
    (s.setVehicle v x).loadSession = s.loadSession := rfl
@[simp] theorem State.setVehicle_journal (v : VehicleId) (x : Vehicle) : (s.setVehicle v x).journal = s.journal := rfl
@[simp] theorem State.setVehicle_link (v : VehicleId) (x : Vehicle) : (s.setVehicle v x).link = s.link := rfl
@[simp] theorem State.setVehicle_store (v : VehicleId) (x : Vehicle) : (s.setVehicle v x).store = s.store := rfl
@[simp] theorem State.setVehicle_pending (v : VehicleId) (x : Vehicle) : (s.setVehicle v x).pending = s.pending := rfl

/-! ### setHoses -/

@[simp] theorem State.setHoses_phase (xs : Vector Hose 8) : (s.setHoses xs).phase = s.phase := rfl
@[simp] theorem State.setHoses_clock (xs : Vector Hose 8) : (s.setHoses xs).clock = s.clock := rfl
@[simp] theorem State.setHoses_inputs (xs : Vector Hose 8) : (s.setHoses xs).inputs = s.inputs := rfl
@[simp] theorem State.setHoses_hoses (xs : Vector Hose 8) : (s.setHoses xs).hoses = xs := rfl
@[simp] theorem State.setHoses_engines (xs : Vector Hose 8) : (s.setHoses xs).engines = s.engines := rfl
@[simp] theorem State.setHoses_cals (xs : Vector Hose 8) : (s.setHoses xs).cals = s.cals := rfl
@[simp] theorem State.setHoses_products (xs : Vector Hose 8) : (s.setHoses xs).products = s.products := rfl
@[simp] theorem State.setHoses_tanks (xs : Vector Hose 8) : (s.setHoses xs).tanks = s.tanks := rfl
@[simp] theorem State.setHoses_pumps (xs : Vector Hose 8) : (s.setHoses xs).pumps = s.pumps := rfl
@[simp] theorem State.setHoses_slotHolder (xs : Vector Hose 8) : (s.setHoses xs).slotHolder = s.slotHolder := rfl
@[simp] theorem State.setHoses_vehicles (xs : Vector Hose 8) : (s.setHoses xs).vehicles = s.vehicles := rfl
@[simp] theorem State.setHoses_classes (xs : Vector Hose 8) : (s.setHoses xs).classes = s.classes := rfl
@[simp] theorem State.setHoses_dueList (xs : Vector Hose 8) : (s.setHoses xs).dueList = s.dueList := rfl
@[simp] theorem State.setHoses_dueRevision (xs : Vector Hose 8) : (s.setHoses xs).dueRevision = s.dueRevision := rfl
@[simp] theorem State.setHoses_loadSession (xs : Vector Hose 8) : (s.setHoses xs).loadSession = s.loadSession := rfl
@[simp] theorem State.setHoses_journal (xs : Vector Hose 8) : (s.setHoses xs).journal = s.journal := rfl
@[simp] theorem State.setHoses_link (xs : Vector Hose 8) : (s.setHoses xs).link = s.link := rfl
@[simp] theorem State.setHoses_store (xs : Vector Hose 8) : (s.setHoses xs).store = s.store := rfl
@[simp] theorem State.setHoses_pending (xs : Vector Hose 8) : (s.setHoses xs).pending = s.pending := rfl

/-! ### setCals -/

@[simp] theorem State.setCals_phase (xs : Vector Calibration 8) : (s.setCals xs).phase = s.phase := rfl
@[simp] theorem State.setCals_clock (xs : Vector Calibration 8) : (s.setCals xs).clock = s.clock := rfl
@[simp] theorem State.setCals_inputs (xs : Vector Calibration 8) : (s.setCals xs).inputs = s.inputs := rfl
@[simp] theorem State.setCals_hoses (xs : Vector Calibration 8) : (s.setCals xs).hoses = s.hoses := rfl
@[simp] theorem State.setCals_engines (xs : Vector Calibration 8) : (s.setCals xs).engines = s.engines := rfl
@[simp] theorem State.setCals_cals (xs : Vector Calibration 8) : (s.setCals xs).cals = xs := rfl
@[simp] theorem State.setCals_products (xs : Vector Calibration 8) : (s.setCals xs).products = s.products := rfl
@[simp] theorem State.setCals_tanks (xs : Vector Calibration 8) : (s.setCals xs).tanks = s.tanks := rfl
@[simp] theorem State.setCals_pumps (xs : Vector Calibration 8) : (s.setCals xs).pumps = s.pumps := rfl
@[simp] theorem State.setCals_slotHolder (xs : Vector Calibration 8) : (s.setCals xs).slotHolder = s.slotHolder := rfl
@[simp] theorem State.setCals_vehicles (xs : Vector Calibration 8) : (s.setCals xs).vehicles = s.vehicles := rfl
@[simp] theorem State.setCals_classes (xs : Vector Calibration 8) : (s.setCals xs).classes = s.classes := rfl
@[simp] theorem State.setCals_dueList (xs : Vector Calibration 8) : (s.setCals xs).dueList = s.dueList := rfl
@[simp] theorem State.setCals_dueRevision (xs : Vector Calibration 8) :
    (s.setCals xs).dueRevision = s.dueRevision := rfl
@[simp] theorem State.setCals_loadSession (xs : Vector Calibration 8) :
    (s.setCals xs).loadSession = s.loadSession := rfl
@[simp] theorem State.setCals_journal (xs : Vector Calibration 8) : (s.setCals xs).journal = s.journal := rfl
@[simp] theorem State.setCals_link (xs : Vector Calibration 8) : (s.setCals xs).link = s.link := rfl
@[simp] theorem State.setCals_store (xs : Vector Calibration 8) : (s.setCals xs).store = s.store := rfl
@[simp] theorem State.setCals_pending (xs : Vector Calibration 8) : (s.setCals xs).pending = s.pending := rfl

/-! ### setPumps -/

@[simp] theorem State.setPumps_phase (xs : Vector Pump 4) : (s.setPumps xs).phase = s.phase := rfl
@[simp] theorem State.setPumps_clock (xs : Vector Pump 4) : (s.setPumps xs).clock = s.clock := rfl
@[simp] theorem State.setPumps_inputs (xs : Vector Pump 4) : (s.setPumps xs).inputs = s.inputs := rfl
@[simp] theorem State.setPumps_hoses (xs : Vector Pump 4) : (s.setPumps xs).hoses = s.hoses := rfl
@[simp] theorem State.setPumps_engines (xs : Vector Pump 4) : (s.setPumps xs).engines = s.engines := rfl
@[simp] theorem State.setPumps_cals (xs : Vector Pump 4) : (s.setPumps xs).cals = s.cals := rfl
@[simp] theorem State.setPumps_products (xs : Vector Pump 4) : (s.setPumps xs).products = s.products := rfl
@[simp] theorem State.setPumps_tanks (xs : Vector Pump 4) : (s.setPumps xs).tanks = s.tanks := rfl
@[simp] theorem State.setPumps_pumps (xs : Vector Pump 4) : (s.setPumps xs).pumps = xs := rfl
@[simp] theorem State.setPumps_slotHolder (xs : Vector Pump 4) : (s.setPumps xs).slotHolder = s.slotHolder := rfl
@[simp] theorem State.setPumps_vehicles (xs : Vector Pump 4) : (s.setPumps xs).vehicles = s.vehicles := rfl
@[simp] theorem State.setPumps_classes (xs : Vector Pump 4) : (s.setPumps xs).classes = s.classes := rfl
@[simp] theorem State.setPumps_dueList (xs : Vector Pump 4) : (s.setPumps xs).dueList = s.dueList := rfl
@[simp] theorem State.setPumps_dueRevision (xs : Vector Pump 4) : (s.setPumps xs).dueRevision = s.dueRevision := rfl
@[simp] theorem State.setPumps_loadSession (xs : Vector Pump 4) : (s.setPumps xs).loadSession = s.loadSession := rfl
@[simp] theorem State.setPumps_journal (xs : Vector Pump 4) : (s.setPumps xs).journal = s.journal := rfl
@[simp] theorem State.setPumps_link (xs : Vector Pump 4) : (s.setPumps xs).link = s.link := rfl
@[simp] theorem State.setPumps_store (xs : Vector Pump 4) : (s.setPumps xs).store = s.store := rfl
@[simp] theorem State.setPumps_pending (xs : Vector Pump 4) : (s.setPumps xs).pending = s.pending := rfl

/-! ### setJournal -/

@[simp] theorem State.setJournal_phase (j : Journal) : (s.setJournal j).phase = s.phase := rfl
@[simp] theorem State.setJournal_clock (j : Journal) : (s.setJournal j).clock = s.clock := rfl
@[simp] theorem State.setJournal_inputs (j : Journal) : (s.setJournal j).inputs = s.inputs := rfl
@[simp] theorem State.setJournal_hoses (j : Journal) : (s.setJournal j).hoses = s.hoses := rfl
@[simp] theorem State.setJournal_engines (j : Journal) : (s.setJournal j).engines = s.engines := rfl
@[simp] theorem State.setJournal_cals (j : Journal) : (s.setJournal j).cals = s.cals := rfl
@[simp] theorem State.setJournal_products (j : Journal) : (s.setJournal j).products = s.products := rfl
@[simp] theorem State.setJournal_tanks (j : Journal) : (s.setJournal j).tanks = s.tanks := rfl
@[simp] theorem State.setJournal_pumps (j : Journal) : (s.setJournal j).pumps = s.pumps := rfl
@[simp] theorem State.setJournal_slotHolder (j : Journal) : (s.setJournal j).slotHolder = s.slotHolder := rfl
@[simp] theorem State.setJournal_vehicles (j : Journal) : (s.setJournal j).vehicles = s.vehicles := rfl
@[simp] theorem State.setJournal_classes (j : Journal) : (s.setJournal j).classes = s.classes := rfl
@[simp] theorem State.setJournal_dueList (j : Journal) : (s.setJournal j).dueList = s.dueList := rfl
@[simp] theorem State.setJournal_dueRevision (j : Journal) : (s.setJournal j).dueRevision = s.dueRevision := rfl
@[simp] theorem State.setJournal_loadSession (j : Journal) : (s.setJournal j).loadSession = s.loadSession := rfl
@[simp] theorem State.setJournal_journal (j : Journal) : (s.setJournal j).journal = j := rfl
@[simp] theorem State.setJournal_link (j : Journal) : (s.setJournal j).link = s.link := rfl
@[simp] theorem State.setJournal_store (j : Journal) : (s.setJournal j).store = s.store := rfl
@[simp] theorem State.setJournal_pending (j : Journal) : (s.setJournal j).pending = s.pending := rfl

/-! ### setLink -/

@[simp] theorem State.setLink_phase (l : Link) : (s.setLink l).phase = s.phase := rfl
@[simp] theorem State.setLink_clock (l : Link) : (s.setLink l).clock = s.clock := rfl
@[simp] theorem State.setLink_inputs (l : Link) : (s.setLink l).inputs = s.inputs := rfl
@[simp] theorem State.setLink_hoses (l : Link) : (s.setLink l).hoses = s.hoses := rfl
@[simp] theorem State.setLink_engines (l : Link) : (s.setLink l).engines = s.engines := rfl
@[simp] theorem State.setLink_cals (l : Link) : (s.setLink l).cals = s.cals := rfl
@[simp] theorem State.setLink_products (l : Link) : (s.setLink l).products = s.products := rfl
@[simp] theorem State.setLink_tanks (l : Link) : (s.setLink l).tanks = s.tanks := rfl
@[simp] theorem State.setLink_pumps (l : Link) : (s.setLink l).pumps = s.pumps := rfl
@[simp] theorem State.setLink_slotHolder (l : Link) : (s.setLink l).slotHolder = s.slotHolder := rfl
@[simp] theorem State.setLink_vehicles (l : Link) : (s.setLink l).vehicles = s.vehicles := rfl
@[simp] theorem State.setLink_classes (l : Link) : (s.setLink l).classes = s.classes := rfl
@[simp] theorem State.setLink_dueList (l : Link) : (s.setLink l).dueList = s.dueList := rfl
@[simp] theorem State.setLink_dueRevision (l : Link) : (s.setLink l).dueRevision = s.dueRevision := rfl
@[simp] theorem State.setLink_loadSession (l : Link) : (s.setLink l).loadSession = s.loadSession := rfl
@[simp] theorem State.setLink_journal (l : Link) : (s.setLink l).journal = s.journal := rfl
@[simp] theorem State.setLink_link (l : Link) : (s.setLink l).link = l := rfl
@[simp] theorem State.setLink_store (l : Link) : (s.setLink l).store = s.store := rfl
@[simp] theorem State.setLink_pending (l : Link) : (s.setLink l).pending = s.pending := rfl

/-! ### setStore -/

@[simp] theorem State.setStore_phase (x : Store) : (s.setStore x).phase = s.phase := rfl
@[simp] theorem State.setStore_clock (x : Store) : (s.setStore x).clock = s.clock := rfl
@[simp] theorem State.setStore_inputs (x : Store) : (s.setStore x).inputs = s.inputs := rfl
@[simp] theorem State.setStore_hoses (x : Store) : (s.setStore x).hoses = s.hoses := rfl
@[simp] theorem State.setStore_engines (x : Store) : (s.setStore x).engines = s.engines := rfl
@[simp] theorem State.setStore_cals (x : Store) : (s.setStore x).cals = s.cals := rfl
@[simp] theorem State.setStore_products (x : Store) : (s.setStore x).products = s.products := rfl
@[simp] theorem State.setStore_tanks (x : Store) : (s.setStore x).tanks = s.tanks := rfl
@[simp] theorem State.setStore_pumps (x : Store) : (s.setStore x).pumps = s.pumps := rfl
@[simp] theorem State.setStore_slotHolder (x : Store) : (s.setStore x).slotHolder = s.slotHolder := rfl
@[simp] theorem State.setStore_vehicles (x : Store) : (s.setStore x).vehicles = s.vehicles := rfl
@[simp] theorem State.setStore_classes (x : Store) : (s.setStore x).classes = s.classes := rfl
@[simp] theorem State.setStore_dueList (x : Store) : (s.setStore x).dueList = s.dueList := rfl
@[simp] theorem State.setStore_dueRevision (x : Store) : (s.setStore x).dueRevision = s.dueRevision := rfl
@[simp] theorem State.setStore_loadSession (x : Store) : (s.setStore x).loadSession = s.loadSession := rfl
@[simp] theorem State.setStore_journal (x : Store) : (s.setStore x).journal = s.journal := rfl
@[simp] theorem State.setStore_link (x : Store) : (s.setStore x).link = s.link := rfl
@[simp] theorem State.setStore_store (x : Store) : (s.setStore x).store = x := rfl
@[simp] theorem State.setStore_pending (x : Store) : (s.setStore x).pending = s.pending := rfl

/-! ### setSlot -/

@[simp] theorem State.setSlot_phase (t : Option TankId) : (s.setSlot t).phase = s.phase := rfl
@[simp] theorem State.setSlot_clock (t : Option TankId) : (s.setSlot t).clock = s.clock := rfl
@[simp] theorem State.setSlot_inputs (t : Option TankId) : (s.setSlot t).inputs = s.inputs := rfl
@[simp] theorem State.setSlot_hoses (t : Option TankId) : (s.setSlot t).hoses = s.hoses := rfl
@[simp] theorem State.setSlot_engines (t : Option TankId) : (s.setSlot t).engines = s.engines := rfl
@[simp] theorem State.setSlot_cals (t : Option TankId) : (s.setSlot t).cals = s.cals := rfl
@[simp] theorem State.setSlot_products (t : Option TankId) : (s.setSlot t).products = s.products := rfl
@[simp] theorem State.setSlot_tanks (t : Option TankId) : (s.setSlot t).tanks = s.tanks := rfl
@[simp] theorem State.setSlot_pumps (t : Option TankId) : (s.setSlot t).pumps = s.pumps := rfl
@[simp] theorem State.setSlot_slotHolder (t : Option TankId) : (s.setSlot t).slotHolder = t := rfl
@[simp] theorem State.setSlot_vehicles (t : Option TankId) : (s.setSlot t).vehicles = s.vehicles := rfl
@[simp] theorem State.setSlot_classes (t : Option TankId) : (s.setSlot t).classes = s.classes := rfl
@[simp] theorem State.setSlot_dueList (t : Option TankId) : (s.setSlot t).dueList = s.dueList := rfl
@[simp] theorem State.setSlot_dueRevision (t : Option TankId) : (s.setSlot t).dueRevision = s.dueRevision := rfl
@[simp] theorem State.setSlot_loadSession (t : Option TankId) : (s.setSlot t).loadSession = s.loadSession := rfl
@[simp] theorem State.setSlot_journal (t : Option TankId) : (s.setSlot t).journal = s.journal := rfl
@[simp] theorem State.setSlot_link (t : Option TankId) : (s.setSlot t).link = s.link := rfl
@[simp] theorem State.setSlot_store (t : Option TankId) : (s.setSlot t).store = s.store := rfl
@[simp] theorem State.setSlot_pending (t : Option TankId) : (s.setSlot t).pending = s.pending := rfl

/-! ### setLoad -/

@[simp] theorem State.setLoad_phase (n : Option Nat) : (s.setLoad n).phase = s.phase := rfl
@[simp] theorem State.setLoad_clock (n : Option Nat) : (s.setLoad n).clock = s.clock := rfl
@[simp] theorem State.setLoad_inputs (n : Option Nat) : (s.setLoad n).inputs = s.inputs := rfl
@[simp] theorem State.setLoad_hoses (n : Option Nat) : (s.setLoad n).hoses = s.hoses := rfl
@[simp] theorem State.setLoad_engines (n : Option Nat) : (s.setLoad n).engines = s.engines := rfl
@[simp] theorem State.setLoad_cals (n : Option Nat) : (s.setLoad n).cals = s.cals := rfl
@[simp] theorem State.setLoad_products (n : Option Nat) : (s.setLoad n).products = s.products := rfl
@[simp] theorem State.setLoad_tanks (n : Option Nat) : (s.setLoad n).tanks = s.tanks := rfl
@[simp] theorem State.setLoad_pumps (n : Option Nat) : (s.setLoad n).pumps = s.pumps := rfl
@[simp] theorem State.setLoad_slotHolder (n : Option Nat) : (s.setLoad n).slotHolder = s.slotHolder := rfl
@[simp] theorem State.setLoad_vehicles (n : Option Nat) : (s.setLoad n).vehicles = s.vehicles := rfl
@[simp] theorem State.setLoad_classes (n : Option Nat) : (s.setLoad n).classes = s.classes := rfl
@[simp] theorem State.setLoad_dueList (n : Option Nat) : (s.setLoad n).dueList = s.dueList := rfl
@[simp] theorem State.setLoad_dueRevision (n : Option Nat) : (s.setLoad n).dueRevision = s.dueRevision := rfl
@[simp] theorem State.setLoad_loadSession (n : Option Nat) : (s.setLoad n).loadSession = n := rfl
@[simp] theorem State.setLoad_journal (n : Option Nat) : (s.setLoad n).journal = s.journal := rfl
@[simp] theorem State.setLoad_link (n : Option Nat) : (s.setLoad n).link = s.link := rfl
@[simp] theorem State.setLoad_store (n : Option Nat) : (s.setLoad n).store = s.store := rfl
@[simp] theorem State.setLoad_pending (n : Option Nat) : (s.setLoad n).pending = s.pending := rfl

/-! ### setPhase -/

@[simp] theorem State.setPhase_phase (p : Phase) : (s.setPhase p).phase = p := rfl
@[simp] theorem State.setPhase_clock (p : Phase) : (s.setPhase p).clock = s.clock := rfl
@[simp] theorem State.setPhase_inputs (p : Phase) : (s.setPhase p).inputs = s.inputs := rfl
@[simp] theorem State.setPhase_hoses (p : Phase) : (s.setPhase p).hoses = s.hoses := rfl
@[simp] theorem State.setPhase_engines (p : Phase) : (s.setPhase p).engines = s.engines := rfl
@[simp] theorem State.setPhase_cals (p : Phase) : (s.setPhase p).cals = s.cals := rfl
@[simp] theorem State.setPhase_products (p : Phase) : (s.setPhase p).products = s.products := rfl
@[simp] theorem State.setPhase_tanks (p : Phase) : (s.setPhase p).tanks = s.tanks := rfl
@[simp] theorem State.setPhase_pumps (p : Phase) : (s.setPhase p).pumps = s.pumps := rfl
@[simp] theorem State.setPhase_slotHolder (p : Phase) : (s.setPhase p).slotHolder = s.slotHolder := rfl
@[simp] theorem State.setPhase_vehicles (p : Phase) : (s.setPhase p).vehicles = s.vehicles := rfl
@[simp] theorem State.setPhase_classes (p : Phase) : (s.setPhase p).classes = s.classes := rfl
@[simp] theorem State.setPhase_dueList (p : Phase) : (s.setPhase p).dueList = s.dueList := rfl
@[simp] theorem State.setPhase_dueRevision (p : Phase) : (s.setPhase p).dueRevision = s.dueRevision := rfl
@[simp] theorem State.setPhase_loadSession (p : Phase) : (s.setPhase p).loadSession = s.loadSession := rfl
@[simp] theorem State.setPhase_journal (p : Phase) : (s.setPhase p).journal = s.journal := rfl
@[simp] theorem State.setPhase_link (p : Phase) : (s.setPhase p).link = s.link := rfl
@[simp] theorem State.setPhase_store (p : Phase) : (s.setPhase p).store = s.store := rfl
@[simp] theorem State.setPhase_pending (p : Phase) : (s.setPhase p).pending = s.pending := rfl

/-! ### setClock -/

@[simp] theorem State.setClock_phase (c : SiteClock) : (s.setClock c).phase = s.phase := rfl
@[simp] theorem State.setClock_clock (c : SiteClock) : (s.setClock c).clock = c := rfl
@[simp] theorem State.setClock_inputs (c : SiteClock) : (s.setClock c).inputs = s.inputs := rfl
@[simp] theorem State.setClock_hoses (c : SiteClock) : (s.setClock c).hoses = s.hoses := rfl
@[simp] theorem State.setClock_engines (c : SiteClock) : (s.setClock c).engines = s.engines := rfl
@[simp] theorem State.setClock_cals (c : SiteClock) : (s.setClock c).cals = s.cals := rfl
@[simp] theorem State.setClock_products (c : SiteClock) : (s.setClock c).products = s.products := rfl
@[simp] theorem State.setClock_tanks (c : SiteClock) : (s.setClock c).tanks = s.tanks := rfl
@[simp] theorem State.setClock_pumps (c : SiteClock) : (s.setClock c).pumps = s.pumps := rfl
@[simp] theorem State.setClock_slotHolder (c : SiteClock) : (s.setClock c).slotHolder = s.slotHolder := rfl
@[simp] theorem State.setClock_vehicles (c : SiteClock) : (s.setClock c).vehicles = s.vehicles := rfl
@[simp] theorem State.setClock_classes (c : SiteClock) : (s.setClock c).classes = s.classes := rfl
@[simp] theorem State.setClock_dueList (c : SiteClock) : (s.setClock c).dueList = s.dueList := rfl
@[simp] theorem State.setClock_dueRevision (c : SiteClock) : (s.setClock c).dueRevision = s.dueRevision := rfl
@[simp] theorem State.setClock_loadSession (c : SiteClock) : (s.setClock c).loadSession = s.loadSession := rfl
@[simp] theorem State.setClock_journal (c : SiteClock) : (s.setClock c).journal = s.journal := rfl
@[simp] theorem State.setClock_link (c : SiteClock) : (s.setClock c).link = s.link := rfl
@[simp] theorem State.setClock_store (c : SiteClock) : (s.setClock c).store = s.store := rfl
@[simp] theorem State.setClock_pending (c : SiteClock) : (s.setClock c).pending = s.pending := rfl

/-! ### setInputs -/

@[simp] theorem State.setInputs_phase (i : Inputs) : (s.setInputs i).phase = s.phase := rfl
@[simp] theorem State.setInputs_clock (i : Inputs) : (s.setInputs i).clock = s.clock := rfl
@[simp] theorem State.setInputs_inputs (i : Inputs) : (s.setInputs i).inputs = i := rfl
@[simp] theorem State.setInputs_hoses (i : Inputs) : (s.setInputs i).hoses = s.hoses := rfl
@[simp] theorem State.setInputs_engines (i : Inputs) : (s.setInputs i).engines = s.engines := rfl
@[simp] theorem State.setInputs_cals (i : Inputs) : (s.setInputs i).cals = s.cals := rfl
@[simp] theorem State.setInputs_products (i : Inputs) : (s.setInputs i).products = s.products := rfl
@[simp] theorem State.setInputs_tanks (i : Inputs) : (s.setInputs i).tanks = s.tanks := rfl
@[simp] theorem State.setInputs_pumps (i : Inputs) : (s.setInputs i).pumps = s.pumps := rfl
@[simp] theorem State.setInputs_slotHolder (i : Inputs) : (s.setInputs i).slotHolder = s.slotHolder := rfl
@[simp] theorem State.setInputs_vehicles (i : Inputs) : (s.setInputs i).vehicles = s.vehicles := rfl
@[simp] theorem State.setInputs_classes (i : Inputs) : (s.setInputs i).classes = s.classes := rfl
@[simp] theorem State.setInputs_dueList (i : Inputs) : (s.setInputs i).dueList = s.dueList := rfl
@[simp] theorem State.setInputs_dueRevision (i : Inputs) : (s.setInputs i).dueRevision = s.dueRevision := rfl
@[simp] theorem State.setInputs_loadSession (i : Inputs) : (s.setInputs i).loadSession = s.loadSession := rfl
@[simp] theorem State.setInputs_journal (i : Inputs) : (s.setInputs i).journal = s.journal := rfl
@[simp] theorem State.setInputs_link (i : Inputs) : (s.setInputs i).link = s.link := rfl
@[simp] theorem State.setInputs_store (i : Inputs) : (s.setInputs i).store = s.store := rfl
@[simp] theorem State.setInputs_pending (i : Inputs) : (s.setInputs i).pending = s.pending := rfl

/-! ### setDueList -/

@[simp] theorem State.setDueList_phase (vs : List VehicleId) : (s.setDueList vs).phase = s.phase := rfl
@[simp] theorem State.setDueList_clock (vs : List VehicleId) : (s.setDueList vs).clock = s.clock := rfl
@[simp] theorem State.setDueList_inputs (vs : List VehicleId) : (s.setDueList vs).inputs = s.inputs := rfl
@[simp] theorem State.setDueList_hoses (vs : List VehicleId) : (s.setDueList vs).hoses = s.hoses := rfl
@[simp] theorem State.setDueList_engines (vs : List VehicleId) : (s.setDueList vs).engines = s.engines := rfl
@[simp] theorem State.setDueList_cals (vs : List VehicleId) : (s.setDueList vs).cals = s.cals := rfl
@[simp] theorem State.setDueList_products (vs : List VehicleId) : (s.setDueList vs).products = s.products := rfl
@[simp] theorem State.setDueList_tanks (vs : List VehicleId) : (s.setDueList vs).tanks = s.tanks := rfl
@[simp] theorem State.setDueList_pumps (vs : List VehicleId) : (s.setDueList vs).pumps = s.pumps := rfl
@[simp] theorem State.setDueList_slotHolder (vs : List VehicleId) : (s.setDueList vs).slotHolder = s.slotHolder := rfl
@[simp] theorem State.setDueList_vehicles (vs : List VehicleId) : (s.setDueList vs).vehicles = s.vehicles := rfl
@[simp] theorem State.setDueList_classes (vs : List VehicleId) : (s.setDueList vs).classes = s.classes := rfl
@[simp] theorem State.setDueList_dueList (vs : List VehicleId) : (s.setDueList vs).dueList = vs := rfl
@[simp] theorem State.setDueList_dueRevision (vs : List VehicleId) :
    (s.setDueList vs).dueRevision = s.dueRevision := rfl
@[simp] theorem State.setDueList_loadSession (vs : List VehicleId) :
    (s.setDueList vs).loadSession = s.loadSession := rfl
@[simp] theorem State.setDueList_journal (vs : List VehicleId) : (s.setDueList vs).journal = s.journal := rfl
@[simp] theorem State.setDueList_link (vs : List VehicleId) : (s.setDueList vs).link = s.link := rfl
@[simp] theorem State.setDueList_store (vs : List VehicleId) : (s.setDueList vs).store = s.store := rfl
@[simp] theorem State.setDueList_pending (vs : List VehicleId) : (s.setDueList vs).pending = s.pending := rfl

/-! ### setDueRevision -/

@[simp] theorem State.setDueRevision_phase (n : Nat) : (s.setDueRevision n).phase = s.phase := rfl
@[simp] theorem State.setDueRevision_clock (n : Nat) : (s.setDueRevision n).clock = s.clock := rfl
@[simp] theorem State.setDueRevision_inputs (n : Nat) : (s.setDueRevision n).inputs = s.inputs := rfl
@[simp] theorem State.setDueRevision_hoses (n : Nat) : (s.setDueRevision n).hoses = s.hoses := rfl
@[simp] theorem State.setDueRevision_engines (n : Nat) : (s.setDueRevision n).engines = s.engines := rfl
@[simp] theorem State.setDueRevision_cals (n : Nat) : (s.setDueRevision n).cals = s.cals := rfl
@[simp] theorem State.setDueRevision_products (n : Nat) : (s.setDueRevision n).products = s.products := rfl
@[simp] theorem State.setDueRevision_tanks (n : Nat) : (s.setDueRevision n).tanks = s.tanks := rfl
@[simp] theorem State.setDueRevision_pumps (n : Nat) : (s.setDueRevision n).pumps = s.pumps := rfl
@[simp] theorem State.setDueRevision_slotHolder (n : Nat) : (s.setDueRevision n).slotHolder = s.slotHolder := rfl
@[simp] theorem State.setDueRevision_vehicles (n : Nat) : (s.setDueRevision n).vehicles = s.vehicles := rfl
@[simp] theorem State.setDueRevision_classes (n : Nat) : (s.setDueRevision n).classes = s.classes := rfl
@[simp] theorem State.setDueRevision_dueList (n : Nat) : (s.setDueRevision n).dueList = s.dueList := rfl
@[simp] theorem State.setDueRevision_dueRevision (n : Nat) : (s.setDueRevision n).dueRevision = n := rfl
@[simp] theorem State.setDueRevision_loadSession (n : Nat) : (s.setDueRevision n).loadSession = s.loadSession := rfl
@[simp] theorem State.setDueRevision_journal (n : Nat) : (s.setDueRevision n).journal = s.journal := rfl
@[simp] theorem State.setDueRevision_link (n : Nat) : (s.setDueRevision n).link = s.link := rfl
@[simp] theorem State.setDueRevision_store (n : Nat) : (s.setDueRevision n).store = s.store := rfl
@[simp] theorem State.setDueRevision_pending (n : Nat) : (s.setDueRevision n).pending = s.pending := rfl

/-! ### Objects after an update of another kind of object -/

@[simp] theorem State.setHose_engine (h : HoseId) (x : Hose) (i : HoseId) :
    (s.setHose h x).engine i = s.engine i := rfl
@[simp] theorem State.setHose_cal (h : HoseId) (x : Hose) (i : HoseId) : (s.setHose h x).cal i = s.cal i := rfl
@[simp] theorem State.setHose_product (h : HoseId) (x : Hose) (i : ProductId) :
    (s.setHose h x).product i = s.product i := rfl
@[simp] theorem State.setHose_tank (h : HoseId) (x : Hose) (i : TankId) : (s.setHose h x).tank i = s.tank i := rfl
@[simp] theorem State.setHose_pump (h : HoseId) (x : Hose) (i : TankId) : (s.setHose h x).pump i = s.pump i := rfl
@[simp] theorem State.setHose_classOf (h : HoseId) (x : Hose) (i : ClassId) :
    (s.setHose h x).classOf i = s.classOf i := rfl
@[simp] theorem State.setHose_vehicle (h : HoseId) (x : Hose) (i : VehicleId) :
    (s.setHose h x).vehicle i = s.vehicle i := rfl

@[simp] theorem State.setEngine_hose (h : HoseId) (x : Engine) (i : HoseId) :
    (s.setEngine h x).hose i = s.hose i := rfl
@[simp] theorem State.setEngine_cal (h : HoseId) (x : Engine) (i : HoseId) : (s.setEngine h x).cal i = s.cal i := rfl
@[simp] theorem State.setEngine_product (h : HoseId) (x : Engine) (i : ProductId) :
    (s.setEngine h x).product i = s.product i := rfl
@[simp] theorem State.setEngine_tank (h : HoseId) (x : Engine) (i : TankId) :
    (s.setEngine h x).tank i = s.tank i := rfl
@[simp] theorem State.setEngine_pump (h : HoseId) (x : Engine) (i : TankId) :
    (s.setEngine h x).pump i = s.pump i := rfl
@[simp] theorem State.setEngine_classOf (h : HoseId) (x : Engine) (i : ClassId) :
    (s.setEngine h x).classOf i = s.classOf i := rfl
@[simp] theorem State.setEngine_vehicle (h : HoseId) (x : Engine) (i : VehicleId) :
    (s.setEngine h x).vehicle i = s.vehicle i := rfl

@[simp] theorem State.setCal_hose (h : HoseId) (x : Calibration) (i : HoseId) : (s.setCal h x).hose i = s.hose i := rfl
@[simp] theorem State.setCal_engine (h : HoseId) (x : Calibration) (i : HoseId) :
    (s.setCal h x).engine i = s.engine i := rfl
@[simp] theorem State.setCal_product (h : HoseId) (x : Calibration) (i : ProductId) :
    (s.setCal h x).product i = s.product i := rfl
@[simp] theorem State.setCal_tank (h : HoseId) (x : Calibration) (i : TankId) : (s.setCal h x).tank i = s.tank i := rfl
@[simp] theorem State.setCal_pump (h : HoseId) (x : Calibration) (i : TankId) : (s.setCal h x).pump i = s.pump i := rfl
@[simp] theorem State.setCal_classOf (h : HoseId) (x : Calibration) (i : ClassId) :
    (s.setCal h x).classOf i = s.classOf i := rfl
@[simp] theorem State.setCal_vehicle (h : HoseId) (x : Calibration) (i : VehicleId) :
    (s.setCal h x).vehicle i = s.vehicle i := rfl

@[simp] theorem State.setProduct_hose (p : ProductId) (x : Product) (i : HoseId) :
    (s.setProduct p x).hose i = s.hose i := rfl
@[simp] theorem State.setProduct_engine (p : ProductId) (x : Product) (i : HoseId) :
    (s.setProduct p x).engine i = s.engine i := rfl
@[simp] theorem State.setProduct_cal (p : ProductId) (x : Product) (i : HoseId) :
    (s.setProduct p x).cal i = s.cal i := rfl
@[simp] theorem State.setProduct_tank (p : ProductId) (x : Product) (i : TankId) :
    (s.setProduct p x).tank i = s.tank i := rfl
@[simp] theorem State.setProduct_pump (p : ProductId) (x : Product) (i : TankId) :
    (s.setProduct p x).pump i = s.pump i := rfl
@[simp] theorem State.setProduct_classOf (p : ProductId) (x : Product) (i : ClassId) :
    (s.setProduct p x).classOf i = s.classOf i := rfl
@[simp] theorem State.setProduct_vehicle (p : ProductId) (x : Product) (i : VehicleId) :
    (s.setProduct p x).vehicle i = s.vehicle i := rfl

@[simp] theorem State.setTank_hose (t : TankId) (x : Tank) (i : HoseId) : (s.setTank t x).hose i = s.hose i := rfl
@[simp] theorem State.setTank_engine (t : TankId) (x : Tank) (i : HoseId) :
    (s.setTank t x).engine i = s.engine i := rfl
@[simp] theorem State.setTank_cal (t : TankId) (x : Tank) (i : HoseId) : (s.setTank t x).cal i = s.cal i := rfl
@[simp] theorem State.setTank_product (t : TankId) (x : Tank) (i : ProductId) :
    (s.setTank t x).product i = s.product i := rfl
@[simp] theorem State.setTank_pump (t : TankId) (x : Tank) (i : TankId) : (s.setTank t x).pump i = s.pump i := rfl
@[simp] theorem State.setTank_classOf (t : TankId) (x : Tank) (i : ClassId) :
    (s.setTank t x).classOf i = s.classOf i := rfl
@[simp] theorem State.setTank_vehicle (t : TankId) (x : Tank) (i : VehicleId) :
    (s.setTank t x).vehicle i = s.vehicle i := rfl

@[simp] theorem State.setPump_hose (t : TankId) (x : Pump) (i : HoseId) : (s.setPump t x).hose i = s.hose i := rfl
@[simp] theorem State.setPump_engine (t : TankId) (x : Pump) (i : HoseId) :
    (s.setPump t x).engine i = s.engine i := rfl
@[simp] theorem State.setPump_cal (t : TankId) (x : Pump) (i : HoseId) : (s.setPump t x).cal i = s.cal i := rfl
@[simp] theorem State.setPump_product (t : TankId) (x : Pump) (i : ProductId) :
    (s.setPump t x).product i = s.product i := rfl
@[simp] theorem State.setPump_tank (t : TankId) (x : Pump) (i : TankId) : (s.setPump t x).tank i = s.tank i := rfl
@[simp] theorem State.setPump_classOf (t : TankId) (x : Pump) (i : ClassId) :
    (s.setPump t x).classOf i = s.classOf i := rfl
@[simp] theorem State.setPump_vehicle (t : TankId) (x : Pump) (i : VehicleId) :
    (s.setPump t x).vehicle i = s.vehicle i := rfl

@[simp] theorem State.setClass_hose (c : ClassId) (x : ClassRecord) (i : HoseId) :
    (s.setClass c x).hose i = s.hose i := rfl
@[simp] theorem State.setClass_engine (c : ClassId) (x : ClassRecord) (i : HoseId) :
    (s.setClass c x).engine i = s.engine i := rfl
@[simp] theorem State.setClass_cal (c : ClassId) (x : ClassRecord) (i : HoseId) :
    (s.setClass c x).cal i = s.cal i := rfl
@[simp] theorem State.setClass_product (c : ClassId) (x : ClassRecord) (i : ProductId) :
    (s.setClass c x).product i = s.product i := rfl
@[simp] theorem State.setClass_tank (c : ClassId) (x : ClassRecord) (i : TankId) :
    (s.setClass c x).tank i = s.tank i := rfl
@[simp] theorem State.setClass_pump (c : ClassId) (x : ClassRecord) (i : TankId) :
    (s.setClass c x).pump i = s.pump i := rfl
@[simp] theorem State.setClass_vehicle (c : ClassId) (x : ClassRecord) (i : VehicleId) :
    (s.setClass c x).vehicle i = s.vehicle i := rfl

@[simp] theorem State.setVehicle_hose (v : VehicleId) (x : Vehicle) (i : HoseId) :
    (s.setVehicle v x).hose i = s.hose i := rfl
@[simp] theorem State.setVehicle_engine (v : VehicleId) (x : Vehicle) (i : HoseId) :
    (s.setVehicle v x).engine i = s.engine i := rfl
@[simp] theorem State.setVehicle_cal (v : VehicleId) (x : Vehicle) (i : HoseId) :
    (s.setVehicle v x).cal i = s.cal i := rfl
@[simp] theorem State.setVehicle_product (v : VehicleId) (x : Vehicle) (i : ProductId) :
    (s.setVehicle v x).product i = s.product i := rfl
@[simp] theorem State.setVehicle_tank (v : VehicleId) (x : Vehicle) (i : TankId) :
    (s.setVehicle v x).tank i = s.tank i := rfl
@[simp] theorem State.setVehicle_pump (v : VehicleId) (x : Vehicle) (i : TankId) :
    (s.setVehicle v x).pump i = s.pump i := rfl
@[simp] theorem State.setVehicle_classOf (v : VehicleId) (x : Vehicle) (i : ClassId) :
    (s.setVehicle v x).classOf i = s.classOf i := rfl

@[simp] theorem State.setHoses_engine (xs : Vector Hose 8) (i : HoseId) : (s.setHoses xs).engine i = s.engine i := rfl
@[simp] theorem State.setHoses_cal (xs : Vector Hose 8) (i : HoseId) : (s.setHoses xs).cal i = s.cal i := rfl
@[simp] theorem State.setHoses_product (xs : Vector Hose 8) (i : ProductId) :
    (s.setHoses xs).product i = s.product i := rfl
@[simp] theorem State.setHoses_tank (xs : Vector Hose 8) (i : TankId) : (s.setHoses xs).tank i = s.tank i := rfl
@[simp] theorem State.setHoses_pump (xs : Vector Hose 8) (i : TankId) : (s.setHoses xs).pump i = s.pump i := rfl
@[simp] theorem State.setHoses_classOf (xs : Vector Hose 8) (i : ClassId) :
    (s.setHoses xs).classOf i = s.classOf i := rfl
@[simp] theorem State.setHoses_vehicle (xs : Vector Hose 8) (i : VehicleId) :
    (s.setHoses xs).vehicle i = s.vehicle i := rfl

@[simp] theorem State.setCals_hose (xs : Vector Calibration 8) (i : HoseId) : (s.setCals xs).hose i = s.hose i := rfl
@[simp] theorem State.setCals_engine (xs : Vector Calibration 8) (i : HoseId) :
    (s.setCals xs).engine i = s.engine i := rfl
@[simp] theorem State.setCals_product (xs : Vector Calibration 8) (i : ProductId) :
    (s.setCals xs).product i = s.product i := rfl
@[simp] theorem State.setCals_tank (xs : Vector Calibration 8) (i : TankId) : (s.setCals xs).tank i = s.tank i := rfl
@[simp] theorem State.setCals_pump (xs : Vector Calibration 8) (i : TankId) : (s.setCals xs).pump i = s.pump i := rfl
@[simp] theorem State.setCals_classOf (xs : Vector Calibration 8) (i : ClassId) :
    (s.setCals xs).classOf i = s.classOf i := rfl
@[simp] theorem State.setCals_vehicle (xs : Vector Calibration 8) (i : VehicleId) :
    (s.setCals xs).vehicle i = s.vehicle i := rfl

@[simp] theorem State.setPumps_hose (xs : Vector Pump 4) (i : HoseId) : (s.setPumps xs).hose i = s.hose i := rfl
@[simp] theorem State.setPumps_engine (xs : Vector Pump 4) (i : HoseId) : (s.setPumps xs).engine i = s.engine i := rfl
@[simp] theorem State.setPumps_cal (xs : Vector Pump 4) (i : HoseId) : (s.setPumps xs).cal i = s.cal i := rfl
@[simp] theorem State.setPumps_product (xs : Vector Pump 4) (i : ProductId) :
    (s.setPumps xs).product i = s.product i := rfl
@[simp] theorem State.setPumps_tank (xs : Vector Pump 4) (i : TankId) : (s.setPumps xs).tank i = s.tank i := rfl
@[simp] theorem State.setPumps_classOf (xs : Vector Pump 4) (i : ClassId) :
    (s.setPumps xs).classOf i = s.classOf i := rfl
@[simp] theorem State.setPumps_vehicle (xs : Vector Pump 4) (i : VehicleId) :
    (s.setPumps xs).vehicle i = s.vehicle i := rfl

@[simp] theorem State.setJournal_hose (j : Journal) (i : HoseId) : (s.setJournal j).hose i = s.hose i := rfl
@[simp] theorem State.setJournal_engine (j : Journal) (i : HoseId) : (s.setJournal j).engine i = s.engine i := rfl
@[simp] theorem State.setJournal_cal (j : Journal) (i : HoseId) : (s.setJournal j).cal i = s.cal i := rfl
@[simp] theorem State.setJournal_product (j : Journal) (i : ProductId) :
    (s.setJournal j).product i = s.product i := rfl
@[simp] theorem State.setJournal_tank (j : Journal) (i : TankId) : (s.setJournal j).tank i = s.tank i := rfl
@[simp] theorem State.setJournal_pump (j : Journal) (i : TankId) : (s.setJournal j).pump i = s.pump i := rfl
@[simp] theorem State.setJournal_classOf (j : Journal) (i : ClassId) : (s.setJournal j).classOf i = s.classOf i := rfl
@[simp] theorem State.setJournal_vehicle (j : Journal) (i : VehicleId) :
    (s.setJournal j).vehicle i = s.vehicle i := rfl

@[simp] theorem State.setLink_hose (l : Link) (i : HoseId) : (s.setLink l).hose i = s.hose i := rfl
@[simp] theorem State.setLink_engine (l : Link) (i : HoseId) : (s.setLink l).engine i = s.engine i := rfl
@[simp] theorem State.setLink_cal (l : Link) (i : HoseId) : (s.setLink l).cal i = s.cal i := rfl
@[simp] theorem State.setLink_product (l : Link) (i : ProductId) : (s.setLink l).product i = s.product i := rfl
@[simp] theorem State.setLink_tank (l : Link) (i : TankId) : (s.setLink l).tank i = s.tank i := rfl
@[simp] theorem State.setLink_pump (l : Link) (i : TankId) : (s.setLink l).pump i = s.pump i := rfl
@[simp] theorem State.setLink_classOf (l : Link) (i : ClassId) : (s.setLink l).classOf i = s.classOf i := rfl
@[simp] theorem State.setLink_vehicle (l : Link) (i : VehicleId) : (s.setLink l).vehicle i = s.vehicle i := rfl

@[simp] theorem State.setStore_hose (x : Store) (i : HoseId) : (s.setStore x).hose i = s.hose i := rfl
@[simp] theorem State.setStore_engine (x : Store) (i : HoseId) : (s.setStore x).engine i = s.engine i := rfl
@[simp] theorem State.setStore_cal (x : Store) (i : HoseId) : (s.setStore x).cal i = s.cal i := rfl
@[simp] theorem State.setStore_product (x : Store) (i : ProductId) : (s.setStore x).product i = s.product i := rfl
@[simp] theorem State.setStore_tank (x : Store) (i : TankId) : (s.setStore x).tank i = s.tank i := rfl
@[simp] theorem State.setStore_pump (x : Store) (i : TankId) : (s.setStore x).pump i = s.pump i := rfl
@[simp] theorem State.setStore_classOf (x : Store) (i : ClassId) : (s.setStore x).classOf i = s.classOf i := rfl
@[simp] theorem State.setStore_vehicle (x : Store) (i : VehicleId) : (s.setStore x).vehicle i = s.vehicle i := rfl

@[simp] theorem State.setSlot_hose (t : Option TankId) (i : HoseId) : (s.setSlot t).hose i = s.hose i := rfl
@[simp] theorem State.setSlot_engine (t : Option TankId) (i : HoseId) : (s.setSlot t).engine i = s.engine i := rfl
@[simp] theorem State.setSlot_cal (t : Option TankId) (i : HoseId) : (s.setSlot t).cal i = s.cal i := rfl
@[simp] theorem State.setSlot_product (t : Option TankId) (i : ProductId) :
    (s.setSlot t).product i = s.product i := rfl
@[simp] theorem State.setSlot_tank (t : Option TankId) (i : TankId) : (s.setSlot t).tank i = s.tank i := rfl
@[simp] theorem State.setSlot_pump (t : Option TankId) (i : TankId) : (s.setSlot t).pump i = s.pump i := rfl
@[simp] theorem State.setSlot_classOf (t : Option TankId) (i : ClassId) : (s.setSlot t).classOf i = s.classOf i := rfl
@[simp] theorem State.setSlot_vehicle (t : Option TankId) (i : VehicleId) :
    (s.setSlot t).vehicle i = s.vehicle i := rfl

@[simp] theorem State.setLoad_hose (n : Option Nat) (i : HoseId) : (s.setLoad n).hose i = s.hose i := rfl
@[simp] theorem State.setLoad_engine (n : Option Nat) (i : HoseId) : (s.setLoad n).engine i = s.engine i := rfl
@[simp] theorem State.setLoad_cal (n : Option Nat) (i : HoseId) : (s.setLoad n).cal i = s.cal i := rfl
@[simp] theorem State.setLoad_product (n : Option Nat) (i : ProductId) : (s.setLoad n).product i = s.product i := rfl
@[simp] theorem State.setLoad_tank (n : Option Nat) (i : TankId) : (s.setLoad n).tank i = s.tank i := rfl
@[simp] theorem State.setLoad_pump (n : Option Nat) (i : TankId) : (s.setLoad n).pump i = s.pump i := rfl
@[simp] theorem State.setLoad_classOf (n : Option Nat) (i : ClassId) : (s.setLoad n).classOf i = s.classOf i := rfl
@[simp] theorem State.setLoad_vehicle (n : Option Nat) (i : VehicleId) : (s.setLoad n).vehicle i = s.vehicle i := rfl

@[simp] theorem State.setPhase_hose (p : Phase) (i : HoseId) : (s.setPhase p).hose i = s.hose i := rfl
@[simp] theorem State.setPhase_engine (p : Phase) (i : HoseId) : (s.setPhase p).engine i = s.engine i := rfl
@[simp] theorem State.setPhase_cal (p : Phase) (i : HoseId) : (s.setPhase p).cal i = s.cal i := rfl
@[simp] theorem State.setPhase_product (p : Phase) (i : ProductId) : (s.setPhase p).product i = s.product i := rfl
@[simp] theorem State.setPhase_tank (p : Phase) (i : TankId) : (s.setPhase p).tank i = s.tank i := rfl
@[simp] theorem State.setPhase_pump (p : Phase) (i : TankId) : (s.setPhase p).pump i = s.pump i := rfl
@[simp] theorem State.setPhase_classOf (p : Phase) (i : ClassId) : (s.setPhase p).classOf i = s.classOf i := rfl
@[simp] theorem State.setPhase_vehicle (p : Phase) (i : VehicleId) : (s.setPhase p).vehicle i = s.vehicle i := rfl

@[simp] theorem State.setClock_hose (c : SiteClock) (i : HoseId) : (s.setClock c).hose i = s.hose i := rfl
@[simp] theorem State.setClock_engine (c : SiteClock) (i : HoseId) : (s.setClock c).engine i = s.engine i := rfl
@[simp] theorem State.setClock_cal (c : SiteClock) (i : HoseId) : (s.setClock c).cal i = s.cal i := rfl
@[simp] theorem State.setClock_product (c : SiteClock) (i : ProductId) : (s.setClock c).product i = s.product i := rfl
@[simp] theorem State.setClock_tank (c : SiteClock) (i : TankId) : (s.setClock c).tank i = s.tank i := rfl
@[simp] theorem State.setClock_pump (c : SiteClock) (i : TankId) : (s.setClock c).pump i = s.pump i := rfl
@[simp] theorem State.setClock_classOf (c : SiteClock) (i : ClassId) : (s.setClock c).classOf i = s.classOf i := rfl
@[simp] theorem State.setClock_vehicle (c : SiteClock) (i : VehicleId) : (s.setClock c).vehicle i = s.vehicle i := rfl

@[simp] theorem State.setInputs_hose (i : Inputs) (k : HoseId) : (s.setInputs i).hose k = s.hose k := rfl
@[simp] theorem State.setInputs_engine (i : Inputs) (k : HoseId) : (s.setInputs i).engine k = s.engine k := rfl
@[simp] theorem State.setInputs_cal (i : Inputs) (k : HoseId) : (s.setInputs i).cal k = s.cal k := rfl
@[simp] theorem State.setInputs_product (i : Inputs) (k : ProductId) : (s.setInputs i).product k = s.product k := rfl
@[simp] theorem State.setInputs_tank (i : Inputs) (k : TankId) : (s.setInputs i).tank k = s.tank k := rfl
@[simp] theorem State.setInputs_pump (i : Inputs) (k : TankId) : (s.setInputs i).pump k = s.pump k := rfl
@[simp] theorem State.setInputs_classOf (i : Inputs) (k : ClassId) : (s.setInputs i).classOf k = s.classOf k := rfl
@[simp] theorem State.setInputs_vehicle (i : Inputs) (k : VehicleId) : (s.setInputs i).vehicle k = s.vehicle k := rfl

@[simp] theorem State.setDueList_hose (vs : List VehicleId) (i : HoseId) : (s.setDueList vs).hose i = s.hose i := rfl
@[simp] theorem State.setDueList_engine (vs : List VehicleId) (i : HoseId) :
    (s.setDueList vs).engine i = s.engine i := rfl
@[simp] theorem State.setDueList_cal (vs : List VehicleId) (i : HoseId) : (s.setDueList vs).cal i = s.cal i := rfl
@[simp] theorem State.setDueList_product (vs : List VehicleId) (i : ProductId) :
    (s.setDueList vs).product i = s.product i := rfl
@[simp] theorem State.setDueList_tank (vs : List VehicleId) (i : TankId) : (s.setDueList vs).tank i = s.tank i := rfl
@[simp] theorem State.setDueList_pump (vs : List VehicleId) (i : TankId) : (s.setDueList vs).pump i = s.pump i := rfl
@[simp] theorem State.setDueList_classOf (vs : List VehicleId) (i : ClassId) :
    (s.setDueList vs).classOf i = s.classOf i := rfl
@[simp] theorem State.setDueList_vehicle (vs : List VehicleId) (i : VehicleId) :
    (s.setDueList vs).vehicle i = s.vehicle i := rfl

@[simp] theorem State.setDueRevision_hose (n : Nat) (i : HoseId) : (s.setDueRevision n).hose i = s.hose i := rfl
@[simp] theorem State.setDueRevision_engine (n : Nat) (i : HoseId) : (s.setDueRevision n).engine i = s.engine i := rfl
@[simp] theorem State.setDueRevision_cal (n : Nat) (i : HoseId) : (s.setDueRevision n).cal i = s.cal i := rfl
@[simp] theorem State.setDueRevision_product (n : Nat) (i : ProductId) :
    (s.setDueRevision n).product i = s.product i := rfl
@[simp] theorem State.setDueRevision_tank (n : Nat) (i : TankId) : (s.setDueRevision n).tank i = s.tank i := rfl
@[simp] theorem State.setDueRevision_pump (n : Nat) (i : TankId) : (s.setDueRevision n).pump i = s.pump i := rfl
@[simp] theorem State.setDueRevision_classOf (n : Nat) (i : ClassId) :
    (s.setDueRevision n).classOf i = s.classOf i := rfl
@[simp] theorem State.setDueRevision_vehicle (n : Nat) (i : VehicleId) :
    (s.setDueRevision n).vehicle i = s.vehicle i := rfl

/-! ### Objects after an update of their own kind -/

theorem upd_get_self {α : Type} {n : Nat} (v : Vector α n) (i : Fin n) (x : α) : (upd v i x).get i = x := by
  simp [upd, Vector.get_eq_getElem]

theorem upd_get_ne {α : Type} {n : Nat} (v : Vector α n) {i k : Fin n} (x : α) (h : k ≠ i) :
    (upd v i x).get k = v.get k := by
  have hne : i.val ≠ k.val := fun e => h (Fin.ext e.symm)
  simp [upd, Vector.get_eq_getElem, hne]

@[simp] theorem State.setHose_hose_self (i : HoseId) (x : Hose) : (s.setHose i x).hose i = x := upd_get_self _ i x
theorem State.setHose_hose_ne {i k : HoseId} (x : Hose) (h : k ≠ i) : (s.setHose i x).hose k = s.hose k :=
  upd_get_ne _ x h
@[simp] theorem State.setEngine_engine_self (i : HoseId) (x : Engine) : (s.setEngine i x).engine i = x := upd_get_self _ i x
theorem State.setEngine_engine_ne {i k : HoseId} (x : Engine) (h : k ≠ i) : (s.setEngine i x).engine k = s.engine k :=
  upd_get_ne _ x h
@[simp] theorem State.setCal_cal_self (i : HoseId) (x : Calibration) : (s.setCal i x).cal i = x := upd_get_self _ i x
theorem State.setCal_cal_ne {i k : HoseId} (x : Calibration) (h : k ≠ i) : (s.setCal i x).cal k = s.cal k :=
  upd_get_ne _ x h
@[simp] theorem State.setProduct_product_self (i : ProductId) (x : Product) : (s.setProduct i x).product i = x := upd_get_self _ i x
theorem State.setProduct_product_ne {i k : ProductId} (x : Product) (h : k ≠ i) : (s.setProduct i x).product k = s.product k :=
  upd_get_ne _ x h
@[simp] theorem State.setTank_tank_self (i : TankId) (x : Tank) : (s.setTank i x).tank i = x := upd_get_self _ i x
theorem State.setTank_tank_ne {i k : TankId} (x : Tank) (h : k ≠ i) : (s.setTank i x).tank k = s.tank k :=
  upd_get_ne _ x h
@[simp] theorem State.setPump_pump_self (i : TankId) (x : Pump) : (s.setPump i x).pump i = x := upd_get_self _ i x
theorem State.setPump_pump_ne {i k : TankId} (x : Pump) (h : k ≠ i) : (s.setPump i x).pump k = s.pump k :=
  upd_get_ne _ x h
@[simp] theorem State.setClass_classOf_self (i : ClassId) (x : ClassRecord) : (s.setClass i x).classOf i = x := upd_get_self _ i x
theorem State.setClass_classOf_ne {i k : ClassId} (x : ClassRecord) (h : k ≠ i) : (s.setClass i x).classOf k = s.classOf k :=
  upd_get_ne _ x h

end Sys2Proof.Machine
end

