-- ==== Sys2Proof/Laws/Link.lean ====
section
/-! SUPPORT. What the link controller does with the frame of a request: on a free link the request is taken at once, by
the block that owns it; and when a frame waits. -/

namespace Sys2Proof.Machine

open Sys2Proof

@[simp] theorem put16_length (x : BitVec 16) : (put16 x).length = 2 := rfl
@[simp] theorem put32_length (x : BitVec 32) : (put32 x).length = 4 := rfl
@[simp] theorem put48_length (x : BitVec 48) : (put48 x).length = 6 := rfl
@[simp] theorem put64_length (x : BitVec 64) : (put64 x).length = 8 := rfl
@[simp] theorem putName_length (n : Name) : (putName n).length = 8 := by simp [putName]
@[simp] theorem putHostPart_length (w : WireHostPart) : (putHostPart w).length = 19 := by simp [putHostPart]
@[simp] theorem putStrapPoint_length (p : WireStrapPoint) : (putStrapPoint p).length = 8 := by simp [putStrapPoint]
@[simp] theorem putCurvePoint_length (p : WireCurvePoint) : (putCurvePoint p).length = 6 := by simp [putCurvePoint]
@[simp] theorem putLine_length (l : WireLine) : (putLine l).length = 6 := by simp [putLine]

/-- Items of one length, one after the other. -/
theorem flatMap_length {α : Type} {f : α → List Byte} {k : Nat} (hf : ∀ x, (f x).length = k) (xs : List α) :
    (xs.flatMap f).length = k * xs.length := by
  induction xs with
  | nil => simp
  | cons x rest ih => rw [List.flatMap_cons, List.length_append, ih, hf, List.length_cons]; ring

/-- The body of a well-formed request has a length that suits its kind, and fits a frame. -/
theorem putBody_suits {r : Request} (hr : r.wf = true) :
    lengthSuits (requestKind r) (putBody r).length = true ∧ (putBody r).length ≤ Config.bodyLimit := by
  cases r with
  | strapSet t n ps =>
    simp only [Request.wf, inRange, Bool.and_eq_true, decide_eq_true_eq] at hr
    have hl : (putBody (.strapSet t n ps)).length = 8 * ps.length + 2 := by
      simp only [putBody, List.length_append, flatMap_length putStrapPoint_length, List.length_cons, List.length_nil]
      omega
    rw [hl]
    refine ⟨?_, by simp only [Config.bodyLimit]; omega⟩
    show ((8 * ps.length + 2 - 2) % 8 == 0 && inRange 18 258 (8 * ps.length + 2)) = true
    simp only [inRange, Bool.and_eq_true, decide_eq_true_eq, beq_iff_eq]
    omega
  | vehicleLoadNext n ws =>
    simp only [Request.wf, inRange, Bool.and_eq_true, decide_eq_true_eq] at hr
    have hl : (putBody (.vehicleLoadNext n ws)).length = 19 * ws.length + 1 := by
      simp only [putBody, List.length_append, flatMap_length putHostPart_length, List.length_cons, List.length_nil]
      omega
    rw [hl]
    refine ⟨?_, by simp only [Config.bodyLimit]; omega⟩
    show ((19 * ws.length + 1 - 1) % 19 == 0 && inRange 20 153 (19 * ws.length + 1)) = true
    simp only [inRange, Bool.and_eq_true, decide_eq_true_eq, beq_iff_eq]
    omega
  | calWrite h w =>
    have hl : (putBody (.calWrite h w)).length = 37 := by
      simp [putBody, flatMap_length putCurvePoint_length]
    rw [hl]; exact ⟨rfl, by decide⟩
  | classSet c w =>
    have hl : (putBody (.classSet c w)).length = 44 := by
      simp [putBody, flatMap_length putLine_length]
    rw [hl]; exact ⟨rfl, by decide⟩
  | productSet c n b =>
    have hl : (putBody (.productSet c n b)).length = 11 := by simp [putBody]
    rw [hl]; exact ⟨rfl, by decide⟩
  | vehiclePut v w r =>
    have hl : (putBody (.vehiclePut v w r)).length = 23 := by simp [putBody]
    rw [hl]; exact ⟨rfl, by decide⟩
  | _ => exact ⟨rfl, by simp [putBody, Config.bodyLimit]⟩

theorem contentOf_wf {r : Request} (hr : r.wf = true) : contentOf r = .request r := by
  simp [contentOf, (putBody_suits hr).1]

/-- The command of a request is its frame's completion at a running part. -/
theorem exec_commandOf (tag : Byte) (r : Request) (s : State) :
    exec (commandOf tag r) s = .next (whenRunning s (hostRequest tag r)) := by cases r <;> rfl

theorem whenRunning_running {s : State} (h : s.phase = .running) (f : State → State) : whenRunning s f = f s := by
  simp [whenRunning, h]

theorem linkAlive_online {s : State} (h : s.link.online = true) : linkAlive s = s.heard := by
  have hl : ∀ (l : Link) (n : Timer), l.online = true →
      { l with online := true, linkTimer := n } = ({ l with linkTimer := n } : Link) := by
    intro l n ho; rw [← ho]
  unfold linkAlive
  dsimp only
  rw [if_pos h]
  exact congrArg s.setLink (hl _ _ h)

/-- The head frame is taken by a part that runs, when no request holds the link and its reply finds room. -/
theorem takeNext_head {s : State} {f : Frame} {rest : List Frame} (hr : s.phase = .running) (hh : s.link.held = none)
    (hx : s.link.tx.length ≤ 4) (hq : s.link.rxQueue = f :: rest) (ho : s.link.online = true) :
    takeNext s = takeFrame f (s.setLink { s.link with rxQueue := rest }) := by
  have hm : s.link.mayTake = true := by simp [Link.mayTake, hh, Config.replyLimit, hx]
  unfold takeNext
  simp only [hr, hm, hq]
  rw [if_pos (by exact ho)]

/-- A frame that completes on a free link is taken at once. -/
theorem frameArrives_free {s : State} (hs : s.linkFree) (f : Frame) : frameArrives f s = takeFrame f s.heard := by
  obtain ⟨hr, ho, hh, hq, hx⟩ := hs
  have hoffer : offer f s.heard = s.setLink { s.heard.link with rxQueue := [f] } := by
    simp [offer, State.heard, State.setLink, hq, Config.receiveQueueLimit]
  have hl : ({ s.heard.link with rxQueue := [] } : Link) = s.heard.link := by
    rw [← hq]; rfl
  have htake : takeNext (s.setLink { s.heard.link with rxQueue := [f] }) = takeFrame f s.heard := by
    rw [takeNext_head (f := f) (rest := []) (by exact hr) (by exact hh) (by exact hx) rfl (by exact ho)]
    show takeFrame f (s.setLink { s.heard.link with rxQueue := [] }) = _
    rw [hl]; rfl
  unfold frameArrives
  rw [linkAlive_online ho, hoffer]
  exact htake

/-- A well-formed request that arrives on a free link is taken at once by its block, and its answer settled. -/
theorem hostRequest_free {s : State} (hs : s.linkFree) {r : Request} (hr : r.wf = true) (tag : Byte) :
    hostRequest tag r s = settle (requestKind r) tag (handle r s.heard) := by
  simp only [hostRequest, (putBody_suits hr).2, if_true, contentOf_wf hr, frameArrives_free hs, takeFrame]

theorem exec_free {s : State} (hs : s.linkFree) {r : Request} (hr : r.wf = true) (tag : Byte) :
    exec (commandOf tag r) s = .next (settle (requestKind r) tag (handle r s.heard)) := by
  rw [exec_commandOf, whenRunning_running hs.running, hostRequest_free hs hr]

/-- A block's answer is handed to the transmitter under the reply kind of the request. -/
theorem settle_reply (kind tag : Byte) (s : State) (c : StatusCode) (b : ReplyBody) :
    settle kind tag (s, .reply c b) = s.answered (replyKind kind) tag c b := rfl

/-- A request whose block does not answer yet holds the link. -/
theorem settle_hold (kind tag : Byte) (s : State) (w : HeldWait) :
    settle kind tag (s, .hold w) = s.holding kind tag w := rfl

end Sys2Proof.Machine
end

