-- ==== Sys2Proof/Laws/Tables.lean ====
section
/-! SUPPORT. The laws of the tables: positions of a vector built or mapped, and the sparse tables of records, whose
canonical form every write keeps and where a read gives what was last written. -/

namespace Sys2Proof.Machine

open Sys2Proof

/-! ### Vectors -/

@[simp] theorem vmap_get {α β : Type} {n : Nat} (f : α → β) (v : Vector α n) (i : Fin n) :
    (vmap f v).get i = f (v.get i) := by
  simp [vmap, Vector.get]
  rfl

@[simp] theorem tabulate_get {α : Type} {n : Nat} (f : Fin n → α) (i : Fin n) : (tabulate f).get i = f i := by
  simp [tabulate, Vector.get]
  rfl

/-! ### Sparse tables -/

variable {α : Type} [DecidableEq α] {d x : α} {m : Sparse α} {k i b : Nat}

omit [DecidableEq α] in
/-- In a table whose first index lies above k, index k is not listed. -/
theorem Sparse.get_of_below (h : m.all (fun e => decide (k < e.1)) = true) : Sparse.get d m k = d := by
  induction m with
  | nil => rfl
  | cons e rest ih =>
    simp only [List.all_cons, Bool.and_eq_true, decide_eq_true_eq] at h
    have hne : e.1 ≠ k := Nat.ne_of_gt h.1
    simp only [Sparse.get, hne, if_false]
    exact ih h.2

theorem Sparse.wf_cons {e : Nat × α} {rest : Sparse α} :
    Sparse.wf d b (e :: rest) = true ↔
      e.1 < b ∧ e.2 ≠ d ∧ (rest.all (fun f => decide (e.1 < f.1))) = true ∧ Sparse.wf d b rest = true := by
  obtain ⟨j, y⟩ := e
  simp [Sparse.wf, and_assoc]

omit [DecidableEq α] in
theorem Sparse.all_above_trans {j : Nat} (hj : k < j) (h : m.all (fun e => decide (j < e.1)) = true) :
    m.all (fun e => decide (k < e.1)) = true := by
  simp only [List.all_eq_true, decide_eq_true_eq] at h ⊢
  intro e he
  exact Nat.lt_trans hj (h e he)

/-- A read at the index written gives what was written. -/
theorem Sparse.get_set_self (hw : Sparse.wf d b m = true) : Sparse.get d (Sparse.set d m k x) k = x := by
  induction m with
  | nil => by_cases hx : x = d <;> simp [Sparse.set, Sparse.get, hx]
  | cons e rest ih =>
    obtain ⟨j, y⟩ := e
    obtain ⟨-, -, habove, hrest⟩ := Sparse.wf_cons.mp hw
    by_cases hlt : k < j
    · by_cases hx : x = d
      · subst hx
        have : Sparse.get x ((j, y) :: rest) k = x :=
          Sparse.get_of_below (by
            simp only [List.all_cons, Bool.and_eq_true, decide_eq_true_eq]
            exact ⟨hlt, Sparse.all_above_trans hlt habove⟩)
        simpa [Sparse.set, hlt] using this
      · simp [Sparse.set, Sparse.get, hlt, hx]
    · by_cases heq : k = j
      · subst heq
        by_cases hx : x = d
        · subst hx
          simpa [Sparse.set] using Sparse.get_of_below (d := x) habove
        · simp [Sparse.set, Sparse.get, hx]
      · have hne : ¬ j = k := fun h => heq h.symm
        simpa [Sparse.set, Sparse.get, hlt, heq, hne] using ih hrest

/-- A write leaves every other index alone. -/
theorem Sparse.get_set_ne (hk : i ≠ k) : Sparse.get d (Sparse.set d m k x) i = Sparse.get d m i := by
  induction m with
  | nil =>
    have : ¬ k = i := fun h => hk h.symm
    by_cases hx : x = d <;> simp [Sparse.set, Sparse.get, hx, this]
  | cons e rest ih =>
    obtain ⟨j, y⟩ := e
    have hki : ¬ k = i := fun h => hk h.symm
    by_cases hlt : k < j
    · by_cases hx : x = d <;> simp [Sparse.set, Sparse.get, hlt, hx, hki]
    · by_cases heq : k = j
      · subst heq
        by_cases hx : x = d <;> simp [Sparse.set, Sparse.get, hx, hki]
      · have hset : Sparse.set d ((j, y) :: rest) k x = (j, y) :: Sparse.set d rest k x := by
          simp [Sparse.set, hlt, heq]
        by_cases hji : j = i
        · rw [hset]; simp [Sparse.get, hji]
        · rw [hset]; simpa [Sparse.get, hji] using ih

theorem Sparse.set_all_above {j : Nat} (hj : j < k) (h : m.all (fun e => decide (j < e.1)) = true) :
    (Sparse.set d m k x).all (fun e => decide (j < e.1)) = true := by
  induction m with
  | nil => by_cases hx : x = d <;> simp [Sparse.set, hx, hj]
  | cons e rest ih =>
    obtain ⟨n, y⟩ := e
    simp only [List.all_cons, Bool.and_eq_true, decide_eq_true_eq] at h
    by_cases hlt : k < n
    · by_cases hx : x = d <;> simp [Sparse.set, hlt, hx, hj, h.1] <;> simpa using h.2
    · by_cases heq : k = n
      · by_cases hx : x = d <;> simp [Sparse.set, heq, hx, h.1] <;> simpa using h.2
      · simp only [Sparse.set, hlt, heq, if_false, List.all_cons, Bool.and_eq_true, decide_eq_true_eq]
        exact ⟨h.1, ih h.2⟩

/-- A write keeps the canonical form. -/
theorem Sparse.wf_set (hk : k < b) (hw : Sparse.wf d b m = true) : Sparse.wf d b (Sparse.set d m k x) = true := by
  induction m with
  | nil => by_cases hx : x = d <;> simp [Sparse.set, Sparse.wf, hx, hk]
  | cons e rest ih =>
    obtain ⟨j, y⟩ := e
    obtain ⟨hb, hy, habove, hrest⟩ := Sparse.wf_cons.mp hw
    by_cases hlt : k < j
    · by_cases hx : x = d
      · simpa [Sparse.set, hlt, hx] using hw
      · have : Sparse.set d ((j, y) :: rest) k x = (k, x) :: (j, y) :: rest := by simp [Sparse.set, hlt, hx]
        rw [this]
        refine Sparse.wf_cons.mpr ⟨hk, hx, ?_, hw⟩
        simp only [List.all_cons, Bool.and_eq_true, decide_eq_true_eq]
        exact ⟨hlt, Sparse.all_above_trans hlt habove⟩
    · by_cases heq : k = j
      · subst heq
        by_cases hx : x = d
        · simpa [Sparse.set, hx] using hrest
        · have : Sparse.set d ((k, y) :: rest) k x = (k, x) :: rest := by simp [Sparse.set, hx]
          rw [this]
          exact Sparse.wf_cons.mpr ⟨hk, hx, habove, hrest⟩
      · have : Sparse.set d ((j, y) :: rest) k x = (j, y) :: Sparse.set d rest k x := by
          simp [Sparse.set, hlt, heq]
        rw [this]
        exact Sparse.wf_cons.mpr ⟨hb, hy, Sparse.set_all_above (by omega) habove, ih hrest⟩

/-- In canonical form the entries are the indices that do not read as the unlisted one, with what they read as. -/
theorem Sparse.mem_iff (hw : Sparse.wf d b m = true) : (k, x) ∈ m ↔ Sparse.get d m k = x ∧ x ≠ d := by
  induction m with
  | nil =>
    simp only [List.not_mem_nil, Sparse.get, false_iff, not_and, not_not]
    exact fun h => h.symm
  | cons e rest ih =>
    obtain ⟨j, y⟩ := e
    obtain ⟨-, hy, habove, hrest⟩ := Sparse.wf_cons.mp hw
    have ih := ih hrest
    by_cases hj : j = k
    · subst hj
      have hg : Sparse.get d rest j = d := Sparse.get_of_below habove
      constructor
      · rintro (_ | ⟨_, hr⟩)
        · simpa [Sparse.get] using hy
        · rw [hg] at ih; exact absurd (ih.mp hr).1.symm (ih.mp hr).2
      · rintro ⟨h, -⟩; simp [Sparse.get] at h; simp [h]
    · have : ¬ k = j := fun h => hj h.symm
      simp only [List.mem_cons, Prod.mk.injEq, this, false_and, false_or, Sparse.get, hj, if_false]
      exact ih

/-- In canonical form no index is listed twice. -/
theorem Sparse.nodup_keys (hw : Sparse.wf d b m = true) : (m.map (·.1)).Nodup := by
  induction m with
  | nil => simp
  | cons e rest ih =>
    obtain ⟨-, -, habove, hrest⟩ := Sparse.wf_cons.mp hw
    simp only [List.all_eq_true, decide_eq_true_eq] at habove
    refine List.nodup_cons.mpr ⟨fun hm => ?_, ih hrest⟩
    obtain ⟨f, hf, he⟩ := List.mem_map.mp hm
    have := habove f hf
    dsimp only at he
    omega

/-- A table whose records are mapped, without those that become the unlisted one, is in canonical form. -/
theorem Sparse.wf_map_filter {β : Type} [DecidableEq β] {d' : β} (f : α → β) (hw : Sparse.wf d b m = true) :
    Sparse.wf d' b ((m.map fun e => (e.1, f e.2)).filter fun e => decide (e.2 ≠ d')) = true := by
  induction m with
  | nil => rfl
  | cons e rest ih =>
    obtain ⟨hb, -, habove, hrest⟩ := Sparse.wf_cons.mp hw
    have ih := ih hrest
    by_cases hx : f e.2 = d'
    · simpa [hx] using ih
    · have : ((e :: rest).map fun e => (e.1, f e.2)).filter (fun e => decide (e.2 ≠ d'))
          = (e.1, f e.2) :: (rest.map fun e => (e.1, f e.2)).filter (fun e => decide (e.2 ≠ d')) := by simp [hx]
      rw [this]
      refine Sparse.wf_cons.mpr ⟨hb, hx, ?_, ih⟩
      simp only [List.all_eq_true, List.mem_filter, List.mem_map, decide_eq_true_eq] at habove ⊢
      rintro g ⟨⟨a, ha, rfl⟩, -⟩
      exact habove a ha

/-! ### Vehicle records -/

theorem State.setVehicle_vehicle_self {s : State} {v : VehicleId} {r : Vehicle} (h : s.vehiclesSound = true) :
    (s.setVehicle v r).vehicle v = r := Sparse.get_set_self h

theorem State.setVehicle_vehicle_ne {s : State} {v u : VehicleId} {r : Vehicle} (h : u ≠ v) :
    (s.setVehicle v r).vehicle u = s.vehicle u :=
  Sparse.get_set_ne fun e => h (Fin.ext e)

theorem State.setVehicle_sound {s : State} {v : VehicleId} {r : Vehicle} (h : s.vehiclesSound = true) :
    (s.setVehicle v r).vehiclesSound = true := Sparse.wf_set v.isLt h


/-- The listed vehicles of a sound table are the indices that do not read as unused. -/
theorem State.mem_listedVehicles {s : State} (h : s.vehiclesSound = true) (v : VehicleId) (r : Vehicle) :
    (v, r) ∈ s.listedVehicles ↔ s.vehicle v = r ∧ r ≠ .unused := by
  have hi : (v.val, r) ∈ s.vehicles ↔ s.vehicle v = r ∧ r ≠ .unused := Sparse.mem_iff h
  rw [← hi, State.listedVehicles, List.mem_filterMap]
  constructor
  · rintro ⟨⟨k, x⟩, hm, he⟩
    split at he
    · cases he; exact hm
    · cases he
  · intro hm
    exact ⟨(v.val, r), hm, by simp⟩

/-- No vehicle is listed twice. -/
theorem State.nodup_listedVehicles {s : State} (h : s.vehiclesSound = true) : (s.listedVehicles.map (·.1)).Nodup := by
  have hk := Sparse.nodup_keys h
  unfold State.listedVehicles
  generalize s.vehicles = m at hk
  induction m with
  | nil => simp
  | cons e rest ih =>
    obtain ⟨hn, hr⟩ := List.nodup_cons.mp hk
    have ih := ih hr
    by_cases hb : e.1 < 512
    · simp only [hb, dite_true, List.filterMap_cons, List.map_cons]
      refine List.nodup_cons.mpr ⟨fun hm => hn ?_, ih⟩
      obtain ⟨f, hf, he⟩ := List.mem_map.mp hm
      obtain ⟨g, hg, hge⟩ := List.mem_filterMap.mp hf
      split at hge
      · cases hge
        exact List.mem_map.mpr ⟨g, hg, congrArg Fin.val he⟩
      · cases hge
    · simpa [hb] using ih

end Sys2Proof.Machine
end

