-- ==== Sys2Proof/Laws/Operands.lean ====
section
/-! SUPPORT. The laws of the numbers that requests carry: which byte or word names which hose, tank, product, class,
vehicle or line, and which names none; and the look-up of a vehicle by its tag. -/

namespace Sys2Proof.Machine

open Sys2Proof

/-! ### Numbers in requests -/

theorem finOf_some {n x : Nat} {i : Fin n} (e : x = i.val) : finOf n x = some i := by
  subst e; unfold finOf; rw [dif_pos i.isLt]

theorem finOf_none {n x : Nat} (e : n ≤ x) : finOf n x = none := by
  unfold finOf; rw [dif_neg (by omega)]

theorem hoseOf_some {b : Byte} {h : HoseId} (e : b.toNat = h.val) : hoseOf b = some h := finOf_some e
theorem hoseOf_none {b : Byte} (e : 8 ≤ b.toNat) : hoseOf b = none := finOf_none e

theorem tankOf_some {b : Byte} {k : TankId} (e : b.toNat = k.val) : tankOf b = some k := finOf_some e
theorem tankOf_none {b : Byte} (e : 4 ≤ b.toNat) : tankOf b = none := finOf_none e

theorem classOf_some {b : Byte} {c : ClassId} (e : b.toNat = c.val) : classOf b = some c := finOf_some e
theorem classOf_none {b : Byte} (e : 32 ≤ b.toNat) : classOf b = none := finOf_none e

theorem vehicleOf_some {b : BitVec 16} {v : VehicleId} (e : b.toNat = v.val) : vehicleOf b = some v := finOf_some e
theorem vehicleOf_none {b : BitVec 16} (e : 512 ≤ b.toNat) : vehicleOf b = none := finOf_none e

theorem productOf_some {b : Byte} {p : ProductId} (e : b.toNat = p.val + 1) : productOf b = some p := by
  unfold productOf; rw [if_neg (by omega)]; exact finOf_some (by omega)

theorem productOf_none {b : Byte} (e : b.toNat = 0 ∨ 5 ≤ b.toNat) : productOf b = none := by
  unfold productOf; split
  · rfl
  · exact finOf_none (by omega)

theorem lineOf_some {b : Byte} {l : LineId} (e : b.toNat = l.val + 1) : lineOf b = some l := by
  unfold lineOf; rw [if_neg (by omega)]; exact finOf_some (by omega)

/-! ### The reservation of a preset -/

theorem reservationOf_eq (p : Nat) : reservationOf p = (p * 1050000 + 999999) / 1000000 := by
  unfold reservationOf ceilDiv; rw [Nat.add_sub_assoc (by norm_num)]

/-! ### Vehicles by their tags (R112, R113) -/

/-- A record that carries a tag is listed. -/
theorem listed_of_carries {s : State} {v : VehicleId} {tag : Tag} (hw : s.vehiclesSound = true)
    (h : (s.vehicle v).carries tag = true) : (v, s.vehicle v) ∈ s.listedVehicles := by
  rw [State.mem_listedVehicles hw]
  refine ⟨rfl, fun e => ?_⟩
  rw [e] at h; simp [Vehicle.carries, Vehicle.unused, HostPart.unused] at h

/-- The one record that carries a tag is found by it. -/
theorem findByTag_only {s : State} {tag : Tag} {v : VehicleId} (hw : s.vehiclesSound = true) (ht : tag ≠ 0)
    (h : s.onlyCarrier tag v) : findByTag tag s = some v := by
  unfold findByTag
  rw [if_neg ht]
  cases hf : s.listedVehicles.find? fun e => e.2.carries tag with
  | none =>
    rw [List.find?_eq_none] at hf
    exact absurd h.carries (hf _ (listed_of_carries hw h.carries))
  | some e =>
    have h1 := List.find?_some hf
    have h2 := List.mem_of_find?_eq_some hf
    obtain ⟨u, r⟩ := e
    rw [State.mem_listedVehicles hw] at h2
    obtain ⟨h2, _⟩ := h2
    simp only at h1
    rw [← h2] at h1
    simp [h.alone u h1]

/-- A tag that no record carries finds none. -/
theorem findByTag_none {s : State} {tag : Tag} (hw : s.vehiclesSound = true)
    (h : tag = 0 ∨ ∀ v : VehicleId, (s.vehicle v).carries tag = false) : findByTag tag s = none := by
  unfold findByTag
  rcases h with h | h
  · rw [if_pos h]
  · split
    · rfl
    · rw [Option.map_eq_none_iff, List.find?_eq_none]
      rintro ⟨v, r⟩ hm
      rw [State.mem_listedVehicles hw] at hm
      obtain ⟨rfl, _⟩ := hm
      show ¬ (s.vehicle v).carries tag = true
      rw [h]; decide

/-- No other enabled record holds the tag of a record to be placed. -/
theorem tagHolder_none {s : State} {v : VehicleId} {p : HostPart} (hw : s.vehiclesSound = true)
    (h : ∀ x : VehicleId, x ≠ v → p.tag = 0 ∨ (s.vehicle x).carries p.tag = false) : tagHolder v p s = none := by
  unfold tagHolder
  split
  · rename_i hc
    simp only [Bool.and_eq_true, decide_eq_true_eq] at hc
    rw [Option.map_eq_none_iff, List.find?_eq_none]
    rintro ⟨u, r⟩ hm
    rw [State.mem_listedVehicles hw] at hm
    obtain ⟨rfl, _⟩ := hm
    simp only [Bool.and_eq_true, decide_eq_true_eq, not_and, Bool.not_eq_true]
    intro hu
    rcases h u hu with h | h
    · exact absurd h hc.2
    · exact h
  · rfl

end Sys2Proof.Machine
end

