-- ==== Sys2Proof/Laws/Blocks.lean ====
section
/-! SUPPORT. What each operation that the blocks share can do: one lemma for each, that gives its answer as the state it
was given with the few parts it may have changed. -/

namespace Sys2Proof.Machine

open Sys2Proof

/-! ### Events (R196) -/

/-- Raising changes the event queue and the attention line alone. -/
theorem raise_frame (k : EventKey) (d : Detail) (s : State) : raise k d s =
    s.setLink { s.link with
      events := (raise k d s).link.events, attention := (raise k d s).link.attention } := rfl

/-- The events after a raising. -/
theorem raise_events (k : EventKey) (d : Detail) (s : State) : (raise k d s).link.events =
    if s.link.events.any (fun e => decide (e.key = k)) then
      s.link.events.map fun e =>
        if e.key = k then { e with count := min Config.raiseLimit (e.count + 1), detail := d } else e
    else s.link.events ++ [{ key := k, first := recordedTime s, count := 1, detail := d }] := rfl

/-- The raised detail stands in the queue. -/
theorem raise_mem (k : EventKey) (d : Detail) (s : State) :
    ∃ e ∈ (raise k d s).link.events, e.key = k ∧ e.detail = d := by
  rw [raise_events]
  split
  · rename_i h
    obtain ⟨e, he, hk⟩ := List.any_eq_true.mp h
    refine ⟨_, List.mem_map.mpr ⟨e, he, rfl⟩, ?_⟩
    simp only [decide_eq_true_eq] at hk; simp [hk]
  · exact ⟨_, List.mem_append_right _ (List.mem_singleton.mpr rfl), rfl, rfl⟩

/-- A raising takes no key off the queue. -/
theorem raise_keeps (k : EventKey) (d : Detail) (k' : EventKey) (s : State) (h : ∃ e ∈ s.link.events, e.key = k') :
    ∃ e ∈ (raise k d s).link.events, e.key = k' := by
  rw [raise_events]
  obtain ⟨e, he, hk⟩ := h
  split
  · refine ⟨_, List.mem_map.mpr ⟨e, he, rfl⟩, ?_⟩
    split <;> exact hk
  · exact ⟨e, List.mem_append_left _ he, hk⟩

/-- What a raising makes of the link depends on the link, the clock, the phase and the newest record alone. -/
theorem raise_link_congr {s t : State} (k : EventKey) (d : Detail) (hl : t.link = s.link) (hc : t.clock = s.clock)
    (hp : t.phase = s.phase) (hn : t.journal.newest = s.journal.newest) : (raise k d t).link = (raise k d s).link := by
  unfold raise recordedTime State.setLink; rw [hl, hc, hp, hn]

/-! ### Phases and the receive queue -/

theorem whenLive_running {s : State} (h : s.phase = .running) (f : State → State) : whenLive s f = f s := by
  unfold whenLive; rw [h]; rfl

theorem whenWriting_running {s : State} (h : s.phase = .running) (f : State → State) : whenWriting s f = f s := by
  unfold whenWriting; rw [h]

/-- With an empty receive queue no frame is taken. -/
theorem drain_empty {s : State} (h : s.link.rxQueue = []) : drain s = s := by
  unfold drain; rw [h]; rfl

/-- While a request holds the link, or the transmitter has no room, no frame is taken (R192, R195). -/
theorem takeMany_blocked (n : Nat) (s : State) (h : s.link.mayTake = false) : takeMany n s = s := by
  induction n generalizing s with
  | zero => rfl
  | succ n ih =>
    have : takeNext s = s := by
      unfold takeNext
      split
      · rename_i h2 _; rw [h] at h2; cases h2
      · rfl
    rw [takeMany, this, ih s h]

/-- While a request holds the link no frame is taken (R195). -/
theorem takeMany_held (n : Nat) (s : State) (h : s.link.held.isSome = true) : takeMany n s = s :=
  takeMany_blocked n s (by unfold Link.mayTake; cases e : s.link.held <;> simp_all)

/-! ### Hoses in order -/

theorem mem_allHoses (h : HoseId) : h ∈ allHoses := by revert h; decide
theorem allHoses_nodup : allHoses.Nodup := by decide
theorem mem_allSegments (g : SegmentId) : g ∈ allSegments := by revert g; decide

theorem mem_hosesOn (s : State) (k : TankId) (h : HoseId) : h ∈ s.hosesOn k ↔ (s.hose h).config.tank = k := by
  unfold State.hosesOn
  rw [List.mem_filter]
  simp [mem_allHoses]

theorem mem_segmentsAfter (k g : SegmentId) : g ∈ segmentsAfter k := by
  unfold segmentsAfter
  rw [List.mem_map]
  refine ⟨g - (k + 1), mem_allSegments _, by simp⟩

/-! ### The journal's lists (R151, R162, R165) -/

theorem mem_writtenOf (slots : List Slot) (r : JRecord) : r ∈ writtenOf slots ↔ .written r ∈ slots := by
  unfold writtenOf
  rw [List.mem_filterMap]
  constructor
  · rintro ⟨x, hx, e⟩
    cases x with
    | written y => cases e; exact hx
    | void => cases e
  · exact fun h => ⟨_, h, rfl⟩

/-- The written records are those of the slots, in ascending sequence order. -/
theorem mem_written (j : Journal) (r : JRecord) :
    r ∈ j.written ↔ ∃ g : SegmentId, .written r ∈ (j.segment g).slots := by
  unfold Journal.written
  rw [List.mem_insertionSort, List.mem_flatMap]
  simp only [mem_writtenOf, mem_segmentsAfter, true_and]

theorem written_sorted (j : Journal) : j.written.Pairwise fun a b => a.stamp.seq ≤ b.stamp.seq :=
  have : Std.Total fun a b : JRecord => a.stamp.seq ≤ b.stamp.seq := ⟨fun a b => Nat.le_total a.stamp.seq b.stamp.seq⟩
  have : IsTrans JRecord fun a b => a.stamp.seq ≤ b.stamp.seq := ⟨fun _ _ _ => Nat.le_trans⟩
  List.pairwise_insertionSort _ _

theorem asOld_iff (x y : Segment) : x.asOld y = true ↔
    ∀ r : JRecord, .written r ∈ y.slots → ∃ q : JRecord, .written q ∈ x.slots ∧ q.stamp.seq ≤ r.stamp.seq := by
  simp only [Segment.asOld, List.all_eq_true, List.any_eq_true, decide_eq_true_eq, mem_writtenOf]

/-- The eligible segments are the FULL ones whose records are all acknowledged, the oldest records first. -/
theorem mem_eligibleSegments (j : Journal) (n : Nat) (g : SegmentId) : g ∈ j.eligibleSegments n ↔
    (j.segment g).state = .full ∧ ∀ r : JRecord, .written r ∈ (j.segment g).slots → r.stamp.seq ≤ n := by
  unfold Journal.eligibleSegments
  rw [List.mem_insertionSort, List.mem_filter]
  simp only [mem_segmentsAfter, true_and, eligible, Bool.and_eq_true, decide_eq_true_eq, List.all_eq_true, mem_writtenOf]

theorem eligibleSegments_sorted (j : Journal) (n : Nat) :
    (j.eligibleSegments n).Pairwise fun g k => (j.segment g).asOld (j.segment k) = true :=
  have : Std.Total fun g k : SegmentId => (j.segment g).asOld (j.segment k) = true := ⟨fun g k => by
    rw [asOld_iff, asOld_iff]
    by_contra c
    push Not at c
    obtain ⟨⟨r, hr, a⟩, q, hq, b⟩ := c
    have := a q hq; have := b r hr; omega⟩
  have : IsTrans SegmentId fun g k => (j.segment g).asOld (j.segment k) = true := ⟨fun g k l a b => by
    rw [asOld_iff] at a b ⊢
    intro r hr
    obtain ⟨q, hq, c⟩ := b r hr
    obtain ⟨p, hp, d⟩ := a q hq
    exact ⟨p, hp, d.trans c⟩⟩
  List.pairwise_insertionSort _ _

/-- The segments whose erase was cut short are the ERASING ones. -/
theorem mem_cutShort (j : Journal) (g : SegmentId) : g ∈ j.cutShort ↔ (j.segment g).state = .erasing := by
  unfold Journal.cutShort
  rw [List.mem_filter]
  simp [mem_segmentsAfter]

/-- What each member's function keeps, running it for a list keeps. -/
theorem forAll_keeps {α β : Type} {f : α → State → State} (P : State → β) (hf : ∀ x s, P (f x s) = P s)
    (xs : List α) : ∀ s, P (forAll xs f s) = P s := by
  induction xs with
  | nil => intro s; rfl
  | cons x xs ih => intro s; exact (ih (f x s)).trans (hf x s)

/-! ### Tanks (R75, R79) -/

theorem upd_same {α : Type} {n : Nat} (v : Vector α n) (i : Fin n) : upd v i (v.get i) = v := by
  unfold upd
  ext j hj
  rw [Vector.getElem_set]
  split
  · rename_i h; subst h; rfl
  · rfl

theorem upd_upd {α : Type} {n : Nat} (v : Vector α n) (i : Fin n) (x y : α) : upd (upd v i x) i y = upd v i y := by
  unfold upd; exact Vector.set_set ..

/-- The test of the low alarm sets the tank's low flag and may raise an event. -/
theorem lowTest_frame (k : TankId) (s : State) : ∃ b ev att, lowTest k s =
    { s with
      tanks := upd s.tanks k { s.tank k with low := b }, link := { s.link with events := ev, attention := att } } := by
  unfold lowTest
  simp only
  have h0 : ∀ (s : State) (l : Bool), l = (s.tank k).low → s = { s with
      tanks := upd s.tanks k { s.tank k with low := l }
      link := { s.link with events := s.link.events, attention := s.link.attention } } := by
    intro s l hl
    subst hl
    show s = { s with tanks := upd s.tanks k (s.tank k) }
    rw [show upd s.tanks k (s.tank k) = s.tanks from upd_same _ _]
  split
  · exact ⟨true, (raise (.tankLevel k) .low s).link.events, (raise (.tankLevel k) .low s).link.attention, rfl⟩
  · split
    · exact ⟨false, s.link.events, s.link.attention, rfl⟩
    · exact ⟨(s.tank k).low, s.link.events, s.link.attention, h0 s _ rfl⟩

/-- The test of the capacity may raise an event. -/
theorem capacityTest_frame (k : TankId) (s : State) :
    ∃ ev att, capacityTest k s = { s with link := { s.link with events := ev, attention := att } } := by
  unfold capacityTest; split
  · exact ⟨_, _, rfl⟩
  · exact ⟨s.link.events, s.link.attention, rfl⟩

/-! ### The journal (R158, R160, R161, R167) -/

theorem Journal.setSegment_self (j : Journal) (g : SegmentId) (x : Segment) : (j.setSegment g x).segment g = x :=
  upd_get_self _ _ _

theorem Journal.setSegment_ne (j : Journal) {g k : SegmentId} (x : Segment) (h : k ≠ g) :
    (j.setSegment g x).segment k = j.segment k := upd_get_ne _ _ h

/-- The ACTIVE segment is one whose state is ACTIVE. -/
theorem Journal.active_state {j : Journal} {g : SegmentId} (h : j.active = some g) : (j.segment g).state = .active := by
  unfold Journal.active at h
  exact of_decide_eq_true (List.find?_some (p := fun g => decide ((j.segment g).state = .active)) h)

/-- The threshold test may arm, or raise its event and disarm. -/
theorem thresholdTest_frame (s : State) : ∃ b ev att, thresholdTest s =
    { s with journal := { s.journal with armed := b }, link := { s.link with events := ev, attention := att } } := by
  unfold thresholdTest; simp only
  split
  · exact ⟨_, _, _, rfl⟩
  · split
    · exact ⟨_, _, _, rfl⟩
    · exact ⟨s.journal.armed, s.link.events, s.link.attention, rfl⟩

/-- Are the sequence numbers spent? (R153) -/
theorem Journal.spent_eq_false (j : Journal) : j.spent = false ↔
    j.nextSeq ≤ 4294967295 ∨ ∃ (q : Queued) (rest : List Queued) (st : Stamp), j.queue = q :: rest ∧ q.stamp = some st := by
  have h : Config.sequenceLimit = 4294967295 := rfl
  unfold Journal.spent
  rw [h]
  rcases hq : j.queue with _ | ⟨q, rest⟩
  · simp
  · cases hs : q.stamp <;> simp [hs]

/-- A FAULTED journal that may leave FAULTED leaves it with its event (R161). -/
theorem recoverTest_recovers {s : State} (h : s.journal.Recovers) :
    recoverTest s = raise .journal .recovered (s.setJournal { s.journal with faulted := false }) := by
  have := s.journal.spent_eq_false.mpr h.numbers
  unfold recoverTest
  rw [if_pos]
  simp [h.faulted, h.room, this]

/-- Any other journal stays as it is (R161). -/
theorem recoverTest_stays {s : State} (h : ¬s.journal.Recovers) : recoverTest s = s := by
  unfold recoverTest
  rw [if_neg]
  intro hc
  simp only [Bool.and_eq_true, Bool.not_eq_true', decide_eq_true_eq] at hc
  exact h ⟨hc.1.1, hc.2, s.journal.spent_eq_false.mp hc.1.2⟩

/-- The due list follows a change of status (R141, R142). -/
theorem updateDueList_follows (v : VehicleId) {old new : ServiceStatus} (h : new ≠ old) (s : State) :
    DueListFollows s (updateDueList v old new s) v old new := by
  cases old <;> cases new <;> first
    | exact absurd rfl h
    | (constructor <;> first
        | exact fun _ _ => ⟨rfl, rfl, rfl⟩
        | exact fun _ => ⟨rfl, rfl⟩
        | exact fun _ _ => rfl
        | exact fun a => absurd a (by decide)
        | exact fun _ b => absurd b (by decide))

/-- The recovery test may end FAULTED with its event. -/
theorem recoverTest_frame (s : State) : ∃ f ev att, recoverTest s =
    { s with journal := { s.journal with faulted := f }, link := { s.link with events := ev, attention := att } } := by
  unfold recoverTest
  split
  · exact ⟨_, _, _, rfl⟩
  · exact ⟨s.journal.faulted, s.link.events, s.link.attention, rfl⟩

/-- An early release of the held request changes the link alone, and no waiting frame. -/
theorem releaseHeldEarly_frame (s : State) :
    ∃ l : Link, releaseHeldEarly s = { s with link := l } ∧ l.rxQueue = s.link.rxQueue := by
  unfold releaseHeldEarly
  cases hq : s.link.held with
  | none => exact ⟨s.link, rfl, rfl⟩
  | some q =>
    simp only
    split <;> first | exact ⟨s.link, rfl, rfl⟩ | (unfold finishHeld; rw [hq]; exact ⟨_, rfl, rfl⟩)

/-- The fault test leaves the journal FAULTED whenever free slots are below the reservations. -/
theorem faultTest_frame (s : State) : ∃ (f : Bool) (l : Link), faultTest s =
    { s with journal := { s.journal with faulted := f }, link := l }
      ∧ l.rxQueue = s.link.rxQueue ∧ (s.journal.free < s.journal.reservations → f = true) := by
  unfold faultTest
  split
  · unfold enterFaulted
    obtain ⟨l, e, h⟩ := releaseHeldEarly_frame (s.setJournal { s.journal with faulted := true })
    rw [e]
    exact ⟨true, _, rfl, h, fun _ => rfl⟩
  · rename_i h
    refine ⟨s.journal.faulted, s.link, rfl, rfl, fun hl => ?_⟩
    cases hf : s.journal.faulted
    · exact absurd (by simp [hf, hl]) h
    · rfl

/-- What the journal's inner changes leave: only its segments, its high-water mark, its flags, the link's events and
replies and the store's queue may change, and no store write is lost. -/
structure JournalChange (s t : State) : Prop where
  frame : t = { s with journal := t.journal, link := t.link, store := t.store }
  frames : t.link.rxQueue = s.link.rxQueue
  queue : t.journal.queue = s.journal.queue
  reservations : t.journal.reservations = s.journal.reservations
  writing : t.journal.writing = s.journal.writing
  newest : t.journal.newest = s.journal.newest
  writes : ∀ w ∈ s.store.queue, w ∈ t.store.queue

theorem activate_change (g : SegmentId) (s : State) : JournalChange s (activate g s)
    ∧ (∀ k, k ≠ g → (activate g s).journal.segment k = s.journal.segment k)
    ∧ (activate g s).journal.segment g = { s.journal.segment g with state := .active } :=
  ⟨⟨rfl, rfl, rfl, rfl, rfl, rfl, fun _ hw => List.mem_append_left _ hw⟩,
    fun _ hk => Journal.setSegment_ne _ _ hk, Journal.setSegment_self _ _ _⟩

theorem activateNext_change (after : SegmentId) (s : State) (g : SegmentId) (hg : (s.journal.segment g).state ≠ .free) :
    JournalChange s (activateNext after s) ∧ (activateNext after s).journal.segment g = s.journal.segment g := by
  unfold activateNext
  split
  · rename_i k hk
    have := List.find?_some hk
    have hne : g ≠ k := by rintro rfl; exact hg (of_decide_eq_true this)
    exact ⟨(activate_change k s).1, (activate_change k s).2.1 g hne⟩
  · exact ⟨⟨rfl, rfl, rfl, rfl, rfl, rfl, fun _ h => h⟩, rfl⟩

/-- The segment change: the ACTIVE segment stays ACTIVE until its 64 slots are used, and is FULL then. -/
theorem segmentChange_change (g : SegmentId) (s : State) (hst : (s.journal.segment g).state = .active) :
    JournalChange s (segmentChange g s) ∧ (segmentChange g s).journal.segment g =
      { s.journal.segment g with
        state := if (s.journal.segment g).slots.length < 64 then .active else .full } := by
  unfold segmentChange
  simp only
  split
  · refine ⟨⟨rfl, rfl, rfl, rfl, rfl, rfl, fun _ h => h⟩, ?_⟩
    rw [← hst]
  · have hf : (s.setJournal (s.journal.setSegment g
        { s.journal.segment g with state := .full })).journal.segment g =
        { s.journal.segment g with state := .full } := Journal.setSegment_self _ _ _
    obtain ⟨a, b⟩ := activateNext_change g
      (s.setJournal (s.journal.setSegment g { s.journal.segment g with state := .full })) g
      (by rw [hf]; exact (by decide : SegmentState.full ≠ .free))
    rw [hf] at b
    generalize activateNext g
      (s.setJournal (s.journal.setSegment g { s.journal.segment g with state := .full })) = u at a b
    obtain ⟨f, l, e, hl, _⟩ := faultTest_frame u
    rw [e]
    refine ⟨⟨?_, hl.trans a.frames, a.queue, a.reservations, a.writing, a.newest, a.writes⟩, b⟩
    have h1 := a.frame
    show ({ u with journal := _, link := _, store := _ } : State) = _
    conv_lhs => rw [h1]
    rfl

/-! ### Service accounting (R137, R141) -/

/-- The due list's update changes the list, its revision and the events. -/
theorem updateDueList_frame (v : VehicleId) (old new : ServiceStatus) (s : State) :
    ∃ dl dr ev att, updateDueList v old new s =
      { s with dueList := dl, dueRevision := dr, link := { s.link with events := ev, attention := att } } := by
  unfold updateDueList
  split
  · exact ⟨_, _, _, _, rfl⟩
  · split
    · exact ⟨_, _, s.link.events, s.link.attention, rfl⟩
    · split
      · exact ⟨s.dueList, s.dueRevision, _, _, rfl⟩
      · exact ⟨s.dueList, s.dueRevision, s.link.events, s.link.attention, rfl⟩

/-- What a recomputation changes when no READY grant stands on the vehicle. -/
structure Recomputed (s t : State) (v : VehicleId) : Prop where
  sound : t.vehiclesSound = true
  others : ∀ u, u ≠ v → t.vehicle u = s.vehicle u
  self : t.vehicle v = { s.vehicle v with status := statusOf (s.classOf (s.vehicle v).host.cls) (s.vehicle v) }
  frame : ∃ vs dl dr ev att, t =
    { s with
      vehicles := vs, dueList := dl, dueRevision := dr, link := { s.link with events := ev, attention := att } }

theorem recompute_quiet {s : State} {v : VehicleId} (hw : s.vehiclesSound = true)
    (hb : ∀ h, (s.vehicle v).binding = some h → (s.hose h).state ≠ .ready) : Recomputed s (recompute v s) v := by
  generalize hn : statusOf (s.classOf (s.vehicle v).host.cls) (s.vehicle v) = new
  generalize hu : s.setVehicle v { s.vehicle v with status := new } = u
  have key : recompute v s =
      if new = (s.vehicle v).status then s else updateDueList v (s.vehicle v).status new u := by
    unfold recompute
    simp only [hn, hu]
    split
    · rfl
    · split
      · rfl
      · rename_i h hh
        have := hb h hh
        obtain ⟨dl, dr, ev, at', e⟩ := updateDueList_frame v (s.vehicle v).status new u
        rw [e, ← hu]
        unfold takeStatusReport
        split
        · rename_i h1 _; exact absurd h1 this
        · rfl
  rw [key]
  split
  · rename_i h
    refine ⟨hw, fun _ _ => rfl, ?_, _, _, _, _, _, rfl⟩
    rw [hn, h]
  · obtain ⟨dl, dr, ev, at', e⟩ := updateDueList_frame v (s.vehicle v).status new u
    rw [e, ← hu]
    exact ⟨State.setVehicle_sound hw, fun _ h => State.setVehicle_vehicle_ne h,
      by rw [hn]; exact State.setVehicle_vehicle_self hw, _, _, _, _, _, rfl⟩

/-! ### The start slot (R101, R102) -/

/-- A request for the start slot: the pump gets it and starts, or it waits. -/
theorem requestSlot_frame (k : TankId) (s : State) :
    requestSlot k s = { s with pumps := (requestSlot k s).pumps, slotHolder := (requestSlot k s).slotHolder }
    ∧ (∀ j, j ≠ k → (requestSlot k s).pump j = s.pump j)
    ∧ (((requestSlot k s).pump k).state = .waiting ∧ (requestSlot k s).slotHolder = s.slotHolder
      ∨ ((requestSlot k s).pump k).state = .starting ∧ (requestSlot k s).slotHolder = some k) := by
  unfold requestSlot
  simp only
  split
  · refine ⟨rfl, fun j hj => ?_, .inr ⟨?_, rfl⟩⟩
    · unfold grantSlot
      rw [State.setPump_pump_ne _ _ hj]
      exact State.setPump_pump_ne _ _ hj
    · unfold grantSlot
      rw [State.setPump_pump_self]
  · refine ⟨rfl, fun j hj => ?_, .inl ⟨?_, rfl⟩⟩
    · exact State.setPump_pump_ne _ _ hj
    · rw [State.setPump_pump_self]

/-! ### The end of flow (R27) -/

/-- The pump of a hose whose demand is dropped. -/
theorem Pump.dropped_eq (p : Pump) :
    (if p.demand = 1 then demandFallen { p with demand := p.demand - 1 } else { p with demand := p.demand - 1 }) =
      p.dropped := by
  unfold Pump.dropped
  by_cases h : p.demand = 1
  · rw [if_pos h, if_neg (by simpa using h)]
    unfold demandFallen runOnOrStop
    cases hs : p.state <;> simp [h]
  · rw [if_neg h, if_pos h]

/-- The entry to CLOSING from any state and for any cause. -/
theorem enterClosing_closed (s : State) (h : HoseId) (r : EndReason) : Closed s (enterClosing h r s) h r := by
  have hl : (enterClosing h r s).link = (closingEvents h r s).link := by
    cases r <;> rfl
  have hh : (enterClosing h r s).hose h =
      { s.hose h with
        state := .closing, valve := .closed, lamp := .off
        grant := (s.hose h).grant.map fun g => { g with endReason := some r }
        timers :=
          { ready := none, noFlow := none, pause := none, settle := some (s.hose h).config.settleTime,
            closing := some 30, refusal := none } } := by
    cases r <;> exact State.setHose_hose_self ..
  have hp : (enterClosing h r s).pump (s.hose h).config.tank = (s.pump (s.hose h).config.tank).dropped := by
    rw [← Pump.dropped_eq]
    cases r <;> exact State.setPump_pump_self ..
  refine ⟨hh, hp, hl, ?_⟩
  rw [hh, hp, hl, ← Pump.dropped_eq]
  cases r <;> rfl

/-- Each hose in the given states closes; another stays. -/
theorem closeIf_hose (p : HoseState → Bool) (r : EndReason) (h : HoseId) (s : State) :
    (closeIf p r h s).hose h =
      if p (s.hose h).state then
        { s.hose h with
          state := .closing, valve := .closed, lamp := .off
          grant := (s.hose h).grant.map fun g => { g with endReason := some r }
          timers :=
            { ready := none, noFlow := none, pause := none, settle := some (s.hose h).config.settleTime,
              closing := some 30, refusal := none } }
      else s.hose h := by
  unfold closeIf
  split
  · exact (enterClosing_closed s h r).hose
  · rfl

end Sys2Proof.Machine
end

