-- ==== Sys2Proof/Laws/Edit.lean ====
section
/-! SUPPORT. What a command can do to the state, said once: every operation of the model is a chain of the edits below.
A property that each edit keeps is kept by every operation, and so by every command. -/

namespace Sys2Proof.Machine

open Sys2Proof

/-- The parts of the state that the edits watch are the same in two states. -/
structure SameWatched (s t : State) : Prop where
  hoses : t.hoses = s.hoses
  events : t.link.events = s.link.events
  vehicles : t.vehicles = s.vehicles
  due : t.dueList = s.dueList
  stored : t.store.stored.vehicles = s.store.stored.vehicles
  pending : t.pending = s.pending

/-- What a restart leaves of the watched parts: the valves closed, no event, and a due list that agrees with the
statuses when the stored table is sound. -/
structure Restarted (s t : State) : Prop where
  closed : ∀ h : HoseId, (t.hose h).valve = .closed
  events : t.link.events = []
  stored : t.store.stored.vehicles = s.store.stored.vehicles
  pending : t.pending = s.pending
  sound : s.store.stored.vehiclesSound = true → t.vehiclesSound = true ∧ t.dueSound

/-- The states that a chain of edits makes of a state. -/
inductive Edit (s₀ : State) : State → Prop
  | start : Edit s₀ s₀
  | hose {s : State} (h : Edit s₀ s) (i : HoseId) (x : Hose) (hv : (s.hose i).valveFollows → x.valveFollows) :
      Edit s₀ (s.setHose i x)
  | hoses {s : State} (h : Edit s₀ s) (xs : Vector Hose 8)
      (hv : ∀ i : HoseId, (s.hose i).valveFollows → (xs.get i).valveFollows) : Edit s₀ (s.setHoses xs)
  | raised {s : State} (h : Edit s₀ s) (k : EventKey) (d : Detail) : Edit s₀ (raise k d s)
  | read {s : State} (h : Edit s₀ s) (n : Nat) (l : Link) (hl : l.events = s.link.events.drop n) :
      Edit s₀ (s.setLink l)
  | vehicle {s : State} (h : Edit s₀ s) (v : VehicleId) (x : Vehicle) (hx : x.status = (s.vehicle v).status) :
      Edit s₀ (s.setVehicle v x)
  | status {s : State} (h : Edit s₀ s) (v : VehicleId) (new : ServiceStatus) :
      Edit s₀ (updateDueList v (s.vehicle v).status new (s.setVehicle v { s.vehicle v with status := new }))
  | stored {s : State} (h : Edit s₀ s) (x : Store)
      (hx : s.store.stored.vehiclesSound = true → x.stored.vehiclesSound = true) : Edit s₀ (s.setStore x)
  | other {s : State} (h : Edit s₀ s) (t : State) (ht : SameWatched s t) : Edit s₀ t
  | restart {s : State} (h : Edit s₀ s) (t : State) (ht : Restarted s t) : Edit s₀ t

variable {s₀ s : State}

namespace Edit

@[simp] theorem setHose_kept (h : Edit s₀ s) (i : HoseId) (x : Hose) (hv : x.valve = (s.hose i).valve)
    (hs : x.state = (s.hose i).state) : Edit s₀ (s.setHose i x) :=
  .hose h i x fun hf => by simpa only [Hose.valveFollows, hv, hs] using hf
@[simp] theorem setHose_closed (h : Edit s₀ s) (i : HoseId) (x : Hose) (hv : x.valve = .closed) :
    Edit s₀ (s.setHose i x) := .hose h i x fun _ => .inl hv
@[simp] theorem setHose_moved (h : Edit s₀ s) (i : HoseId) (x : Hose) (hv : x.valve = valveOf x.state) :
    Edit s₀ (s.setHose i x) := .hose h i x fun _ => .inr hv
@[simp] theorem setEngine (h : Edit s₀ s) (i : HoseId) (x : Engine) : Edit s₀ (s.setEngine i x) :=
  .other h _ ⟨rfl, rfl, rfl, rfl, rfl, rfl⟩
@[simp] theorem setCal (h : Edit s₀ s) (i : HoseId) (x : Calibration) : Edit s₀ (s.setCal i x) :=
  .other h _ ⟨rfl, rfl, rfl, rfl, rfl, rfl⟩
@[simp] theorem setProduct (h : Edit s₀ s) (i : ProductId) (x : Product) : Edit s₀ (s.setProduct i x) :=
  .other h _ ⟨rfl, rfl, rfl, rfl, rfl, rfl⟩
@[simp] theorem setTank (h : Edit s₀ s) (i : TankId) (x : Tank) : Edit s₀ (s.setTank i x) :=
  .other h _ ⟨rfl, rfl, rfl, rfl, rfl, rfl⟩
@[simp] theorem setPump (h : Edit s₀ s) (i : TankId) (x : Pump) : Edit s₀ (s.setPump i x) :=
  .other h _ ⟨rfl, rfl, rfl, rfl, rfl, rfl⟩
@[simp] theorem setClass (h : Edit s₀ s) (i : ClassId) (x : ClassRecord) : Edit s₀ (s.setClass i x) :=
  .other h _ ⟨rfl, rfl, rfl, rfl, rfl, rfl⟩
@[simp] theorem setCals (h : Edit s₀ s) (x : Vector Calibration 8) : Edit s₀ (s.setCals x) :=
  .other h _ ⟨rfl, rfl, rfl, rfl, rfl, rfl⟩
@[simp] theorem setPumps (h : Edit s₀ s) (x : Vector Pump 4) : Edit s₀ (s.setPumps x) :=
  .other h _ ⟨rfl, rfl, rfl, rfl, rfl, rfl⟩
@[simp] theorem setJournal (h : Edit s₀ s) (x : Journal) : Edit s₀ (s.setJournal x) :=
  .other h _ ⟨rfl, rfl, rfl, rfl, rfl, rfl⟩
@[simp] theorem setSlot (h : Edit s₀ s) (x : Option TankId) : Edit s₀ (s.setSlot x) :=
  .other h _ ⟨rfl, rfl, rfl, rfl, rfl, rfl⟩
@[simp] theorem setLoad (h : Edit s₀ s) (x : Option Nat) : Edit s₀ (s.setLoad x) :=
  .other h _ ⟨rfl, rfl, rfl, rfl, rfl, rfl⟩
@[simp] theorem setPhase (h : Edit s₀ s) (x : Phase) : Edit s₀ (s.setPhase x) :=
  .other h _ ⟨rfl, rfl, rfl, rfl, rfl, rfl⟩
@[simp] theorem setClock (h : Edit s₀ s) (x : SiteClock) : Edit s₀ (s.setClock x) :=
  .other h _ ⟨rfl, rfl, rfl, rfl, rfl, rfl⟩
@[simp] theorem setInputs (h : Edit s₀ s) (x : Inputs) : Edit s₀ (s.setInputs x) :=
  .other h _ ⟨rfl, rfl, rfl, rfl, rfl, rfl⟩
@[simp] theorem setLink (h : Edit s₀ s) (l : Link) (hl : l.events = s.link.events) : Edit s₀ (s.setLink l) :=
  .other h _ ⟨rfl, hl, rfl, rfl, rfl, rfl⟩
@[simp] theorem setStore (h : Edit s₀ s) (x : Store) (hx : x.stored = s.store.stored) : Edit s₀ (s.setStore x) :=
  .other h _ ⟨rfl, rfl, rfl, rfl, by simp [hx], rfl⟩
@[simp] theorem raise (h : Edit s₀ s) (k : EventKey) (d : Detail) : Edit s₀ (Machine.raise k d s) := .raised h k d
@[simp] theorem setVehicle (h : Edit s₀ s) (v : VehicleId) (x : Vehicle) (hx : x.status = (s.vehicle v).status) :
    Edit s₀ (s.setVehicle v x) := .vehicle h v x hx

/-- A chain over a list keeps what each of its steps keeps. -/
theorem forAll {α : Type} {f : α → State → State} (hf : ∀ x s, Edit s₀ s → Edit s₀ (f x s)) (xs : List α) :
    ∀ s, Edit s₀ s → Edit s₀ (Machine.forAll xs f s) := by
  induction xs with
  | nil => intro s h; exact h
  | cons x rest ih => intro s h; exact ih _ (hf x s h)

end Edit

end Sys2Proof.Machine
end

