-- ==== Sys2Proof/Laws/EditOps.lean ====
section
/-! SUPPORT. Every operation shared by the blocks is a chain of edits: one lemma per operation, which the lemmas of the
operations above it cite. -/

namespace Sys2Proof.Machine.Edit

open Sys2Proof

variable {s₀ s : State}

/-! ### Ops -/

@[simp] theorem beginWrite (h : Edit s₀ s) (w : StoreWrite) : Edit s₀ (Machine.beginWrite w s) := by
  simp (maxDischargeDepth := 50) [Machine.beginWrite, h]

@[simp] theorem beginUsageWrite (h : Edit s₀ s) (v : VehicleId) : Edit s₀ (Machine.beginUsageWrite v s) := by
  unfold Machine.beginUsageWrite; dsimp only; split <;> simp (maxDischargeDepth := 50) [h]

@[simp] theorem beginAckWrite (h : Edit s₀ s) : Edit s₀ (Machine.beginAckWrite s) := by
  unfold Machine.beginAckWrite; split <;> simp (maxDischargeDepth := 50) [h]

@[simp] theorem pushReply (h : Edit s₀ s) (k t : Byte) (st : StatusCode) (b : ReplyBody) :
    Edit s₀ (Machine.pushReply k t st b s) := by simp (maxDischargeDepth := 50) [Machine.pushReply, h]

@[simp] theorem finishHeld (h : Edit s₀ s) (st : StatusCode) (b : ReplyBody) : Edit s₀ (Machine.finishHeld st b s) := by
  unfold Machine.finishHeld; split <;> simp (maxDischargeDepth := 50) [h]

@[simp] theorem takeReservation (h : Edit s₀ s) : Edit s₀ (Machine.takeReservation s) := by
  simp (maxDischargeDepth := 50) [Machine.takeReservation, h]

@[simp] theorem joinQueue (h : Edit s₀ s) (r : Record) : Edit s₀ (Machine.joinQueue r s) := by
  simp (maxDischargeDepth := 50) [Machine.joinQueue, h]

@[simp] theorem releaseHeldEarly (h : Edit s₀ s) : Edit s₀ (Machine.releaseHeldEarly s) := by
  unfold Machine.releaseHeldEarly; repeat' split
  all_goals simp (maxDischargeDepth := 50) [h]

@[simp] theorem enterFaulted (h : Edit s₀ s) : Edit s₀ (Machine.enterFaulted s) := by
  simp (maxDischargeDepth := 50) [Machine.enterFaulted, h]

@[simp] theorem faultTest (h : Edit s₀ s) : Edit s₀ (Machine.faultTest s) := by
  unfold Machine.faultTest; split <;> simp (maxDischargeDepth := 50) [h]

@[simp] theorem recoverTest (h : Edit s₀ s) : Edit s₀ (Machine.recoverTest s) := by
  unfold Machine.recoverTest; split <;> simp (maxDischargeDepth := 50) [h]

@[simp] theorem endReservation (h : Edit s₀ s) : Edit s₀ (Machine.endReservation s) := by
  simp (maxDischargeDepth := 50) [Machine.endReservation, h]

@[simp] theorem thresholdTest (h : Edit s₀ s) : Edit s₀ (Machine.thresholdTest s) := by
  unfold Machine.thresholdTest; dsimp only; repeat' split
  all_goals simp (maxDischargeDepth := 50) [h]

@[simp] theorem activate (h : Edit s₀ s) (g : SegmentId) : Edit s₀ (Machine.activate g s) := by
  simp (maxDischargeDepth := 50) [Machine.activate, h]

@[simp] theorem activateNext (h : Edit s₀ s) (after : SegmentId) : Edit s₀ (Machine.activateNext after s) := by
  unfold Machine.activateNext; split <;> simp (maxDischargeDepth := 50) [h]

@[simp] theorem segmentChange (h : Edit s₀ s) (g : SegmentId) : Edit s₀ (Machine.segmentChange g s) := by
  unfold Machine.segmentChange; dsimp only; split <;> simp (maxDischargeDepth := 50) [h]

/-! ### Pumps -/

@[simp] theorem grantSlot (h : Edit s₀ s) (t : TankId) : Edit s₀ (Machine.grantSlot t s) := by
  simp (maxDischargeDepth := 50) [Machine.grantSlot, h]

@[simp] theorem requestSlot (h : Edit s₀ s) (t : TankId) : Edit s₀ (Machine.requestSlot t s) := by
  unfold Machine.requestSlot; dsimp only; split <;> simp (maxDischargeDepth := 50) [h]

@[simp] theorem freeSlot (h : Edit s₀ s) : Edit s₀ (Machine.freeSlot s) := by
  unfold Machine.freeSlot; dsimp only; split <;> simp (maxDischargeDepth := 50) [h]

@[simp] theorem lowerDemand (h : Edit s₀ s) (t : TankId) : Edit s₀ (Machine.lowerDemand t s) := by
  simp (maxDischargeDepth := 50) [Machine.lowerDemand, h]

@[simp] theorem stopPumps (h : Edit s₀ s) : Edit s₀ (Machine.stopPumps s) := by simp (maxDischargeDepth := 50) [Machine.stopPumps, h]

/-! ### Flow -/

@[simp] theorem clearBinding (h : Edit s₀ s) (v : VehicleId) : Edit s₀ (Machine.clearBinding v s) := by
  simp (maxDischargeDepth := 50) [Machine.clearBinding, h]

@[simp] theorem takeOffReserved (h : Edit s₀ s) (t : TankId) (n : Nat) : Edit s₀ (Machine.takeOffReserved t n s) := by
  simp (maxDischargeDepth := 50) [Machine.takeOffReserved, h]

@[simp] theorem releaseGrant (h : Edit s₀ s) (i : HoseId) (d : Detail) : Edit s₀ (Machine.releaseGrant i d s) := by
  unfold Machine.releaseGrant; dsimp only; repeat' split
  all_goals simp (maxDischargeDepth := 50) [h, Hose.toIdle]

@[simp] theorem withdrawIfReady (h : Edit s₀ s) (i : HoseId) : Edit s₀ (Machine.withdrawIfReady i s) := by
  unfold Machine.withdrawIfReady; split <;> simp (maxDischargeDepth := 50) [h]

@[simp] theorem enterFlowing (h : Edit s₀ s) (i : HoseId) : Edit s₀ (Machine.enterFlowing i s) :=
  .raised (.hose h i _ fun _ => .inr rfl) _ _

@[simp] theorem enterClosing (h : Edit s₀ s) (i : HoseId) (r : EndReason) : Edit s₀ (Machine.enterClosing i r s) := by
  unfold Machine.enterClosing; dsimp only; split <;> simp (maxDischargeDepth := 50) [h]

@[simp] theorem closeIf (h : Edit s₀ s) (p : HoseState → Bool) (r : EndReason) (i : HoseId) :
    Edit s₀ (Machine.closeIf p r i s) := by unfold Machine.closeIf; split <;> simp (maxDischargeDepth := 50) [h]

@[simp] theorem reportRunning (h : Edit s₀ s) (t : TankId) : Edit s₀ (Machine.reportRunning t s) :=
  forAll (fun i s h => by split <;> simp (maxDischargeDepth := 50) [h]) _ s h

@[simp] theorem reportStartFailure (h : Edit s₀ s) (t : TankId) : Edit s₀ (Machine.reportStartFailure t s) :=
  forAll (fun i s h => by simp (maxDischargeDepth := 50) [h]) _ s h

@[simp] theorem reportPressureLost (h : Edit s₀ s) (t : TankId) : Edit s₀ (Machine.reportPressureLost t s) :=
  forAll (fun i s h => by simp (maxDischargeDepth := 50) [h]) _ s h

@[simp] theorem raiseDemand (h : Edit s₀ s) (i : HoseId) : Edit s₀ (Machine.raiseDemand i s) := by
  unfold Machine.raiseDemand; dsimp only; repeat' split
  all_goals simp (maxDischargeDepth := 50) [h]

@[simp] theorem becomeActive (h : Edit s₀ s) (t : TankId) : Edit s₀ (Machine.becomeActive t s) := by
  unfold Machine.becomeActive; split <;> simp (maxDischargeDepth := 50) [h]

@[simp] theorem enterStarting (h : Edit s₀ s) (i : HoseId) : Edit s₀ (Machine.enterStarting i s) := by
  simp (maxDischargeDepth := 50) [Machine.enterStarting, h]

/-! ### Service -/

@[simp] theorem recolour (h : Edit s₀ s) (i : HoseId) (st : ServiceStatus) : Edit s₀ (Machine.recolour i st s) := by
  simp (maxDischargeDepth := 50) [Machine.recolour, h]

@[simp] theorem reviseLimit (h : Edit s₀ s) (i : HoseId) (n : Nat) : Edit s₀ (Machine.reviseLimit i n s) := by
  unfold Machine.reviseLimit; dsimp only; repeat' split
  · exact h
  · exact h
  · exact releaseGrant h _ _
  · exact setHose_kept (takeOffReserved h _ _) _ _ rfl rfl

@[simp] theorem takeStatusReport (h : Edit s₀ s) (i : HoseId) (c : ClassRecord) (st : ServiceStatus) :
    Edit s₀ (Machine.takeStatusReport i c st s) := by
  unfold Machine.takeStatusReport; repeat' split
  all_goals simp (maxDischargeDepth := 50) [h]

@[simp] theorem recompute (h : Edit s₀ s) (v : VehicleId) : Edit s₀ (Machine.recompute v s) := by
  unfold Machine.recompute; dsimp only; repeat' split
  · exact h
  · exact .status h v _
  · exact takeStatusReport (.status h v _) _ _ _

@[simp] theorem applyReading (h : Edit s₀ s) (v : VehicleId) (n : Nat) : Edit s₀ (Machine.applyReading v n s).1 := by
  simp (maxDischargeDepth := 50) [Machine.applyReading, h]

@[simp] theorem creditFuel (h : Edit s₀ s) (v : VehicleId) (n : Nat) : Edit s₀ (Machine.creditFuel v n s) := by
  unfold Machine.creditFuel; dsimp only; split <;> simp (maxDischargeDepth := 50) [h]

/-! ### Tanks -/

@[simp] theorem lowTest (h : Edit s₀ s) (t : TankId) : Edit s₀ (Machine.lowTest t s) := by
  unfold Machine.lowTest; dsimp only; repeat' split
  all_goals simp (maxDischargeDepth := 50) [h]

@[simp] theorem capacityTest (h : Edit s₀ s) (t : TankId) : Edit s₀ (Machine.capacityTest t s) := by
  unfold Machine.capacityTest; split <;> simp (maxDischargeDepth := 50) [h]

@[simp] theorem debitBook (h : Edit s₀ s) (t : TankId) (i : HoseId) (n : Nat) : Edit s₀ (Machine.debitBook t i n s) := by
  simp (maxDischargeDepth := 50) [Machine.debitBook, h]

@[simp] theorem startQuietTimer (h : Edit s₀ s) (t : TankId) : Edit s₀ (Machine.startQuietTimer t s) := by
  unfold Machine.startQuietTimer; split <;> simp (maxDischargeDepth := 50) [h]

@[simp] theorem setRelation (h : Edit s₀ s) (t : TankId) (r : Relation) (d : Option Int) :
    Edit s₀ (Machine.setRelation t r d s) := by
  unfold Machine.setRelation; dsimp only; repeat' split
  all_goals simp (maxDischargeDepth := 50) [h]

@[simp] theorem evaluateVariance (h : Edit s₀ s) (t : TankId) (n : Nat) : Edit s₀ (Machine.evaluateVariance t n s) := by
  unfold Machine.evaluateVariance; dsimp only; split <;> simp (maxDischargeDepth := 50) [h]

@[simp] theorem takeProbe (h : Edit s₀ s) (t : TankId) (r : Option (Nat × Int)) : Edit s₀ (Machine.takeProbe t r s) := by
  unfold Machine.takeProbe; dsimp only; repeat' split
  all_goals simp (maxDischargeDepth := 50) [h]

@[simp] theorem probeStale (h : Edit s₀ s) (t : TankId) : Edit s₀ (Machine.probeStale t s) := by
  unfold Machine.probeStale; dsimp only; split <;> simp (maxDischargeDepth := 50) [h]

@[simp] theorem tankQuiet (h : Edit s₀ s) (t : TankId) : Edit s₀ (Machine.tankQuiet t s) := by
  unfold Machine.tankQuiet; dsimp only; split <;> simp (maxDischargeDepth := 50) [h]

@[simp] theorem finishReceipt (h : Edit s₀ s) (t : TankId) (c : Bool) (v : Int) (mk : Int → ReceiptRecord) :
    Edit s₀ (Machine.finishReceipt t c v mk s) := by
  unfold Machine.finishReceipt; dsimp only; split <;> simp (maxDischargeDepth := 50) [h]

@[simp] theorem closeReceipt (h : Edit s₀ s) (t : TankId) : Edit s₀ (Machine.closeReceipt t s) := by
  unfold Machine.closeReceipt; dsimp only; repeat' split
  all_goals simp (maxDischargeDepth := 50) [h]

@[simp] theorem takeReceiptBegin (h : Edit s₀ s) (t : Byte) : Edit s₀ (Machine.takeReceiptBegin t s).1 := by
  unfold Machine.takeReceiptBegin; dsimp only; repeat' split
  all_goals simp only [refuse, h]
  exact forAll (fun i s h => by simp (maxDischargeDepth := 50) [h]) _ _ (by simp (maxDischargeDepth := 50) [h])

@[simp] theorem takeReceiptEnd (h : Edit s₀ s) (t : Byte) (d : BitVec 32) : Edit s₀ (Machine.takeReceiptEnd t d s).1 := by
  unfold Machine.takeReceiptEnd; dsimp only; repeat' split
  all_goals simp (maxDischargeDepth := 50) [refuse, h]

@[simp] theorem takeStockAdjust (h : Edit s₀ s) (t : Byte) (a b : BitVec 48) :
    Edit s₀ (Machine.takeStockAdjust t a b s).1 := by
  unfold Machine.takeStockAdjust; dsimp only; repeat' split
  all_goals simp (maxDischargeDepth := 50) [refuse, h]

@[simp] theorem takeTankSet (h : Edit s₀ s) (t : Byte) (w : WireTankConfig) : Edit s₀ (Machine.takeTankSet t w s).1 := by
  unfold Machine.takeTankSet; dsimp only; repeat' split
  all_goals simp (maxDischargeDepth := 50) [refuse, h]

@[simp] theorem takeStrapSet (h : Edit s₀ s) (t n : Byte) (w : List WireStrapPoint) :
    Edit s₀ (Machine.takeStrapSet t n w s).1 := by
  unfold Machine.takeStrapSet; dsimp only; repeat' split
  all_goals simp (maxDischargeDepth := 50) [refuse, h]

@[simp] theorem takeTankQuery (h : Edit s₀ s) (t : Byte) : Edit s₀ (Machine.takeTankQuery t s).1 := by
  unfold Machine.takeTankQuery; split <;> simp (maxDischargeDepth := 50) [refuse, h]

@[simp] theorem takeStrapRead (h : Edit s₀ s) (t : Byte) : Edit s₀ (Machine.takeStrapRead t s).1 := by
  unfold Machine.takeStrapRead; split <;> simp (maxDischargeDepth := 50) [refuse, h]

/-! ### Authorization -/

@[simp] theorem applyHours (h : Edit s₀ s) (v : VehicleId) (n : Option Nat) : Edit s₀ (Machine.applyHours v n s).1 := by
  unfold Machine.applyHours; split <;> simp (maxDischargeDepth := 50) [h]

/-- A report of a status change leaves a hose alone that is IDLE. -/
theorem takeStatusReport_idle {i : HoseId} (hi : (s.hose i).state = .idle) (j : HoseId) (c : ClassRecord)
    (st : ServiceStatus) : ((Machine.takeStatusReport j c st s).hose i).state = .idle := by
  by_cases hj : j = i
  · subst hj
    have : Machine.takeStatusReport j c st s = s := by unfold Machine.takeStatusReport; rw [hi]
    rw [this]; exact hi
  · have ne : ∀ (s : State) (x : Hose), ((s.setHose j x).hose i) = s.hose i := fun s x =>
      State.setHose_hose_ne s _ (Ne.symm hj)
    have rel : ∀ s : State, ((Machine.releaseGrant j .withdrawn s).hose i).state = (s.hose i).state := by
      intro s; unfold Machine.releaseGrant; split
      · rfl
      · show ((State.setHose _ j _).hose i).state = _
        rw [ne]; split
        · unfold Machine.endReservation Machine.recoverTest; split <;> rfl
        · rfl
    unfold Machine.takeStatusReport; repeat' split
    · rw [Machine.recolour, ne]; exact hi
    · rw [rel]; exact hi
    · unfold Machine.reviseLimit; dsimp only; repeat' split
      · rw [Machine.recolour, ne]; exact hi
      · rw [Machine.recolour, ne]; exact hi
      · rw [rel, Machine.recolour, ne]; exact hi
      · rw [ne]; show ((State.setHose _ j _).hose i).state = _; rw [ne]; exact hi
    · rw [Machine.recolour, ne]; exact hi
    · exact hi

/-- An hour reading leaves a hose alone that is IDLE. -/
theorem applyHours_idle {i : HoseId} (hi : (s.hose i).state = .idle) (v : VehicleId) (n : Option Nat) :
    ((Machine.applyHours v n s).1.hose i).state = .idle := by
  have usage : ∀ (s : State), (Machine.beginUsageWrite v s).hoses = s.hoses := by
    intro s; unfold Machine.beginUsageWrite; dsimp only; split <;> rfl
  have due : ∀ (a b : ServiceStatus) (s : State), (Machine.updateDueList v a b s).hoses = s.hoses := by
    intro a b s; unfold Machine.updateDueList; repeat' split
    all_goals rfl
  have again : ∀ (s : State), (s.hose i).state = .idle → ((Machine.recompute v s).hose i).state = .idle := by
    intro s hi
    unfold Machine.recompute; dsimp only; repeat' split
    · exact hi
    · simp only [State.hose, due]; exact hi
    · refine takeStatusReport_idle ?_ _ _ _
      simp only [State.hose, due]; exact hi
  unfold Machine.applyHours; split
  · dsimp only [Machine.applyReading]
    simp only [State.hose, usage]
    exact again _ hi
  · exact hi

/-- A grant made at an IDLE hose leaves its valve CLOSED. -/
theorem makeGrant (h : Edit s₀ s) (i : HoseId) (g : Grant) (hi : (s.hose i).state = .idle) :
    Edit s₀ (Machine.makeGrant i g s) := by
  have hs : Edit s₀ ((Machine.takeReservation (s.setTank g.tank
      { s.tank g.tank with reserved := (s.tank g.tank).reserved + g.tankRes })).setVehicle g.vehicle
        { (Machine.takeReservation (s.setTank g.tank
      { s.tank g.tank with reserved := (s.tank g.tank).reserved + g.tankRes })).vehicle g.vehicle with binding := some i }) := by
    simp (maxDischargeDepth := 50) [h]
  refine .raised (.hose hs i _ fun hf => .inl ?_) _ _
  rcases hf with hf | hf
  · exact hf
  · exact hf.trans (by show valveOf (s.hose i).state = _; rw [hi]; rfl)

@[simp] theorem displayRefusal (h : Edit s₀ s) (i : HoseId) (c : StatusCode) :
    Edit s₀ (Machine.displayRefusal i c s) := by simp (maxDischargeDepth := 50) [Machine.displayRefusal, h]

end Sys2Proof.Machine.Edit
end

