-- ==== Sys2Proof/Laws/EditBlocks.lean ====
section
/-! SUPPORT. The operations of the blocks are chains of edits: the authorization, the arrivals and expiries, the
requests, the journal, the settings store, the save and the link controller. -/

namespace Sys2Proof.Machine.Edit

open Sys2Proof

variable {s₀ s : State}

/-! ### Authorization -/

/-- When no check of a list fails, each of them holds. -/
theorem firstFail_none {cs : List (Bool × StatusCode)} (h : firstFail cs = none) : ∀ c ∈ cs, c.1 = true := by
  induction cs with
  | nil => simp
  | cons c rest ih =>
    obtain ⟨b, x⟩ := c
    cases b with
    | false => simp [firstFail] at h
    | true => simpa using ih h

theorem authorizeHose (h : Edit s₀ s) (i : HoseId) (a : AuthRequest) : Edit s₀ (Machine.authorizeHose i a s).1 := by
  unfold Machine.authorizeHose; split
  · exact h
  · rename_i v hv
    have hi : (s.hose i).state = .idle := by
      unfold checksToTen at hv
      split at hv
      · cases hv
      · rename_i hc
        have := firstFail_none hc (decide ((s.hose i).state = .idle), .state) (by simp [earlyChecks])
        simpa using this
    dsimp only; repeat' split
    · exact applyHours h _ _
    · exact applyHours h _ _
    · exact makeGrant (applyHours h _ _) _ _ (applyHours_idle hi _ _)

theorem authorizeHose_of (h : Edit s₀ s) {i : HoseId} {a : AuthRequest} {t : State} {r : Except StatusCode Grant}
    (ht : Machine.authorizeHose i a s = (t, r)) : Edit s₀ t := by
  have := authorizeHose h i a
  rwa [ht] at this

theorem takeTag (h : Edit s₀ s) (i : HoseId) (tag : Tag) (n : Option Nat) : Edit s₀ (Machine.takeTag i tag n s) := by
  unfold Machine.takeTag; dsimp only; split
  · split
    · rename_i t _ ht
      exact authorizeHose_of h ht
    · rename_i t _ ht
      exact displayRefusal (authorizeHose_of h ht) _ _
  · repeat' split
    all_goals first | exact h | exact setHose_kept h _ _ rfl rfl
  all_goals exact h

theorem takeAuthorize (h : Edit s₀ s) (i : Byte) (v p : BitVec 16) (f : Byte) (n : BitVec 32) :
    Edit s₀ (Machine.takeAuthorize i v p f n s).1 := by
  unfold Machine.takeAuthorize; repeat' split
  · exact h
  · rename_i ht; exact authorizeHose_of h ht
  · rename_i ht; exact authorizeHose_of h ht
  · exact h

/-! ### Arrivals and expiries -/

@[simp] theorem takeLift (h : Edit s₀ s) (i : HoseId) : Edit s₀ (Machine.takeLift i s) := by
  unfold Machine.takeLift; repeat' split
  all_goals simp (maxDischargeDepth := 50) [h]

@[simp] theorem takeHang (h : Edit s₀ s) (i : HoseId) : Edit s₀ (Machine.takeHang i s) := by
  unfold Machine.takeHang
  all_goals simp (maxDischargeDepth := 50) [h]

@[simp] theorem strayPulse (h : Edit s₀ s) (i : HoseId) : Edit s₀ (Machine.strayPulse i s) := by
  unfold Machine.strayPulse; dsimp only
  all_goals simp (maxDischargeDepth := 50) [h]

@[simp] theorem setHose_pulse (h : Edit s₀ s) (i : HoseId) (x : Hose) (hx : x = s.hose i) :
    Edit s₀ (s.setHose i (pulseTimers x)) := by
  subst hx; unfold pulseTimers; split <;> exact setHose_kept h _ _ rfl rfl

@[simp] theorem takeAgreeing (h : Edit s₀ s) (i : HoseId) : Edit s₀ (Machine.takeAgreeing i s) := by
  unfold Machine.takeAgreeing; split
  · exact setHose_pulse (setEngine h _ _) _ _ rfl
  · exact strayPulse h _

@[simp] theorem takeDisagreeing (h : Edit s₀ s) (i : HoseId) : Edit s₀ (Machine.takeDisagreeing i s) := by
  have hp := setHose_pulse h i _ rfl
  unfold Machine.takeDisagreeing; dsimp only; repeat' split
  · exact closeIf (setEngine hp _ _) _ _ _
  · exact setEngine hp _ _
  · exact strayPulse h _

@[simp] theorem enterTrimming (h : Edit s₀ s) (i : HoseId) : Edit s₀ (Machine.enterTrimming i s) :=
  .raised (.hose h i _ fun _ => .inr rfl) _ _

@[simp] theorem compareWithPreset (h : Edit s₀ s) (i : HoseId) : Edit s₀ (Machine.compareWithPreset i s) := by
  unfold Machine.compareWithPreset; dsimp only; repeat' split
  all_goals simp (maxDischargeDepth := 50) [h]

@[simp] theorem takeSample (h : Edit s₀ s) (i : HoseId) : Edit s₀ (Machine.takeSample i s) := by
  unfold Machine.takeSample; repeat' split
  all_goals simp (maxDischargeDepth := 50) [h]

@[simp] theorem readyExpires (h : Edit s₀ s) (i : HoseId) : Edit s₀ (Machine.readyExpires i s) := by
  unfold Machine.readyExpires; dsimp only; repeat' split
  all_goals simp (maxDischargeDepth := 50) [h]

@[simp] theorem noFlowExpires (h : Edit s₀ s) (i : HoseId) : Edit s₀ (Machine.noFlowExpires i s) := by
  unfold Machine.noFlowExpires; dsimp only; repeat' split
  all_goals simp (maxDischargeDepth := 50) [h]

@[simp] theorem pauseExpires (h : Edit s₀ s) (i : HoseId) : Edit s₀ (Machine.pauseExpires i s) := by
  unfold Machine.pauseExpires; dsimp only; repeat' split
  all_goals simp (maxDischargeDepth := 50) [h]

@[simp] theorem displayEnds (h : Edit s₀ s) (i : HoseId) : Edit s₀ (Machine.displayEnds i s) := by
  unfold Machine.displayEnds; dsimp only; repeat' split
  all_goals simp (maxDischargeDepth := 50) [h]

@[simp] theorem settleAccounting (h : Edit s₀ s) (i : HoseId) (g : Grant) (b : Bool) :
    Edit s₀ (Machine.settleAccounting i g b s) := by
  simp (maxDischargeDepth := 50) [Machine.settleAccounting, h]

@[simp] theorem enterSettled (h : Edit s₀ s) (i : HoseId) (b : Bool) : Edit s₀ (Machine.enterSettled i b s) := by
  unfold Machine.enterSettled; dsimp only; repeat' split
  all_goals simp (maxDischargeDepth := 50) [h]

@[simp] theorem settleExpires (h : Edit s₀ s) (i : HoseId) : Edit s₀ (Machine.settleExpires i s) := by
  unfold Machine.settleExpires; dsimp only; repeat' split
  all_goals simp (maxDischargeDepth := 50) [h]

@[simp] theorem closingExpires (h : Edit s₀ s) (i : HoseId) : Edit s₀ (Machine.closingExpires i s) := by
  unfold Machine.closingExpires; dsimp only; repeat' split
  all_goals simp (maxDischargeDepth := 50) [h]

@[simp] theorem returnToIdle (h : Edit s₀ s) (i : HoseId) : Edit s₀ (Machine.returnToIdle i s) := by
  unfold Machine.returnToIdle; dsimp only; repeat' split
  all_goals simp (maxDischargeDepth := 50) [h, Hose.toIdle]

@[simp] theorem hoseTakesStop (h : Edit s₀ s) (i : HoseId) : Edit s₀ (Machine.hoseTakesStop i s) := by
  unfold Machine.hoseTakesStop
  all_goals simp (maxDischargeDepth := 50) [h]

@[simp] theorem takeStop (h : Edit s₀ s) : Edit s₀ (Machine.takeStop s) := by
  unfold Machine.takeStop
  exact raise (stopPumps (forAll (f := Machine.hoseTakesStop) (fun i s h => hoseTakesStop h i) _ _ (setLink h _ (by rfl)))) _ _

@[simp] theorem takeRelease (h : Edit s₀ s) : Edit s₀ (Machine.takeRelease s) := by
  unfold Machine.takeRelease
  refine raise ?_ _ _
  refine forAll ?_ _ _ (setLink h _ (by rfl))
  intro t s h; split
  · exact requestSlot h _
  · exact h

@[simp] theorem takePressureUp (h : Edit s₀ s) (t : TankId) : Edit s₀ (Machine.takePressureUp t s) := by
  unfold Machine.takePressureUp; dsimp only; repeat' split
  all_goals simp (maxDischargeDepth := 50) [h]

@[simp] theorem takePressureDown (h : Edit s₀ s) (t : TankId) : Edit s₀ (Machine.takePressureDown t s) := by
  unfold Machine.takePressureDown; dsimp only; repeat' split
  all_goals simp (maxDischargeDepth := 50) [h]

@[simp] theorem startExpires (h : Edit s₀ s) (t : TankId) : Edit s₀ (Machine.startExpires t s) := by
  unfold Machine.startExpires; dsimp only; repeat' split
  all_goals simp (maxDischargeDepth := 50) [h]

@[simp] theorem runOnExpires (h : Edit s₀ s) (t : TankId) : Edit s₀ (Machine.runOnExpires t s) := by
  unfold Machine.runOnExpires; dsimp only; repeat' split
  all_goals simp (maxDischargeDepth := 50) [h]

/-! ### Requests on hoses and pumps -/

@[simp] theorem takeCancel (h : Edit s₀ s) (b : Byte) : Edit s₀ (Machine.takeCancel b s |>.1) := by
  unfold Machine.takeCancel; repeat' split
  all_goals simp (maxDischargeDepth := 50) [refuse, h]

@[simp] theorem takeStopRequest (h : Edit s₀ s) (b : Byte) : Edit s₀ (Machine.takeStopRequest b s |>.1) := by
  unfold Machine.takeStopRequest; repeat' split
  all_goals simp (maxDischargeDepth := 50) [refuse, h]

@[simp] theorem takePause (h : Edit s₀ s) (b : Byte) : Edit s₀ (Machine.takePause b s |>.1) := by
  unfold Machine.takePause; dsimp only; repeat' split
  all_goals simp (maxDischargeDepth := 50) [refuse, h]

@[simp] theorem takeResume (h : Edit s₀ s) (b : Byte) : Edit s₀ (Machine.takeResume b s |>.1) := by
  unfold Machine.takeResume; dsimp only; repeat' split
  · exact h
  · refine raise (setHose_moved h _ _ ?_) _ _
    dsimp only [resumedState]; repeat' split
    all_goals rfl
  · exact h

@[simp] theorem takeHoseQuery (h : Edit s₀ s) (b : Byte) : Edit s₀ (Machine.takeHoseQuery b s |>.1) := by
  unfold Machine.takeHoseQuery; repeat' split
  all_goals simp (maxDischargeDepth := 50) [refuse, h]

@[simp] theorem takeHoseSet (h : Edit s₀ s) (b : Byte) (w : WireHoseConfig) : Edit s₀ (Machine.takeHoseSet b w s |>.1) := by
  unfold Machine.takeHoseSet; dsimp only; repeat' split
  all_goals simp (maxDischargeDepth := 50) [refuse, h]

@[simp] theorem takeTotalizerRead (h : Edit s₀ s) (b : Byte) : Edit s₀ (Machine.takeTotalizerRead b s |>.1) := by
  unfold Machine.takeTotalizerRead; repeat' split
  all_goals simp (maxDischargeDepth := 50) [refuse, h]

@[simp] theorem takePumpSet (h : Edit s₀ s) (b : Byte) (w : WirePumpConfig) : Edit s₀ (Machine.takePumpSet b w s |>.1) := by
  unfold Machine.takePumpSet; dsimp only; repeat' split
  all_goals simp (maxDischargeDepth := 50) [refuse, h]

@[simp] theorem takePumpQuery (h : Edit s₀ s) (b : Byte) : Edit s₀ (Machine.takePumpQuery b s |>.1) := by
  unfold Machine.takePumpQuery; repeat' split
  all_goals simp (maxDischargeDepth := 50) [refuse, h]

@[simp] theorem takePumpClear (h : Edit s₀ s) (b : Byte) : Edit s₀ (Machine.takePumpClear b s |>.1) := by
  unfold Machine.takePumpClear; dsimp only; repeat' split
  all_goals simp (maxDischargeDepth := 50) [refuse, h]

/-! ### Calibration -/

@[simp] theorem takeSwitchClose (h : Edit s₀ s) : Edit s₀ (Machine.takeSwitchClose s) := raise (setLink h _ (by rfl)) _ _

@[simp] theorem takeSwitchOpen (h : Edit s₀ s) : Edit s₀ (Machine.takeSwitchOpen s) :=
  raise (setLink (setCals h _) _ (by rfl)) _ _

@[simp] theorem takeCalOpen (h : Edit s₀ s) (b : Byte) : Edit s₀ (Machine.takeCalOpen b s |>.1) := by
  unfold Machine.takeCalOpen; dsimp only; repeat' split
  all_goals simp (maxDischargeDepth := 50) [refuse, h]

@[simp] theorem takeCalClose (h : Edit s₀ s) (b : Byte) : Edit s₀ (Machine.takeCalClose b s |>.1) := by
  unfold Machine.takeCalClose; repeat' split
  all_goals simp (maxDischargeDepth := 50) [refuse, h]

@[simp] theorem takeCalRead (h : Edit s₀ s) (b : Byte) : Edit s₀ (Machine.takeCalRead b s |>.1) := by
  unfold Machine.takeCalRead; dsimp only; repeat' split
  all_goals simp (maxDischargeDepth := 50) [refuse, h]

@[simp] theorem takeProductRead (h : Edit s₀ s) (b : Byte) : Edit s₀ (Machine.takeProductRead b s |>.1) := by
  unfold Machine.takeProductRead; repeat' split
  all_goals simp (maxDischargeDepth := 50) [refuse, h]

@[simp] theorem acceptCal (h : Edit s₀ s) (i : HoseId) (d : CalData) : Edit s₀ (Machine.acceptCal i d s) := by
  unfold Machine.acceptCal; dsimp only
  all_goals simp (maxDischargeDepth := 50) [h]

@[simp] theorem takeCalWrite (h : Edit s₀ s) (b : Byte) (w : WireCalibration) : Edit s₀ (Machine.takeCalWrite b w s |>.1) := by
  unfold Machine.takeCalWrite; dsimp only; repeat' split
  all_goals simp (maxDischargeDepth := 50) [refuse, h]

@[simp] theorem acceptProduct (h : Edit s₀ s) (p : ProductId) (d : ProductData) : Edit s₀ (Machine.acceptProduct p d s) := by
  unfold Machine.acceptProduct; dsimp only
  all_goals simp (maxDischargeDepth := 50) [h]

@[simp] theorem takeProductSet (h : Edit s₀ s) (c : Byte) (n : Name) (b : BitVec 16) : Edit s₀ (Machine.takeProductSet c n b s |>.1) := by
  unfold Machine.takeProductSet; repeat' split
  all_goals simp (maxDischargeDepth := 50) [refuse, h]

/-! ### The journal -/

@[simp] theorem stampHead (h : Edit s₀ s) (q : Queued) (r : List Queued) : Edit s₀ (Machine.stampHead q r s) := by
  unfold Machine.stampHead; dsimp only; repeat' split
  all_goals simp (maxDischargeDepth := 50) [h]

@[simp] theorem beginJournalWrite (h : Edit s₀ s) : Edit s₀ (Machine.beginJournalWrite s) := by
  unfold Machine.beginJournalWrite; repeat' split
  all_goals simp (maxDischargeDepth := 50) [h]

@[simp] theorem setHeldWait (h : Edit s₀ s) (w : HeldWait) : Edit s₀ (Machine.setHeldWait w s) := by
  unfold Machine.setHeldWait; dsimp only; repeat' split
  all_goals simp (maxDischargeDepth := 50) [h]

@[simp] theorem calibrationWritten (h : Edit s₀ s) (c : CalibrationRecord) (n : Nat) : Edit s₀ (Machine.calibrationWritten c n s) := by
  unfold Machine.calibrationWritten; dsimp only; repeat' split
  all_goals simp (maxDischargeDepth := 50) [h]

@[simp] theorem serviceWritten (h : Edit s₀ s) (v : VehicleId) (n : Nat) : Edit s₀ (Machine.serviceWritten v n s) := by
  unfold Machine.serviceWritten; dsimp only; repeat' split
  all_goals simp (maxDischargeDepth := 50) [h]

@[simp] theorem adjustWritten (h : Edit s₀ s) (a : AdjustRecord) (n : Nat) : Edit s₀ (Machine.adjustWritten a n s) := by
  unfold Machine.adjustWritten; dsimp only; repeat' split
  all_goals simp (maxDischargeDepth := 50) [h]

@[simp] theorem reportWritten (h : Edit s₀ s) (r : Record) (n : Nat) : Edit s₀ (Machine.reportWritten r n s) := by
  unfold Machine.reportWritten; repeat' split
  all_goals simp (maxDischargeDepth := 50) [h]

@[simp] theorem writeSucceeds (h : Edit s₀ s) (g : SegmentId) (r : Record) (st : Stamp) (q : List Queued) : Edit s₀ (Machine.writeSucceeds g r st q s) := by
  unfold Machine.writeSucceeds; dsimp only
  all_goals simp (maxDischargeDepth := 50) [h]

@[simp] theorem wear (h : Edit s₀ s) (g : SegmentId) : Edit s₀ (Machine.wear g s) := by
  unfold Machine.wear; dsimp only; repeat' split
  all_goals simp (maxDischargeDepth := 50) [h]

@[simp] theorem writeFails (h : Edit s₀ s) (g : SegmentId) : Edit s₀ (Machine.writeFails g s) := by
  unfold Machine.writeFails; dsimp only
  all_goals simp (maxDischargeDepth := 50) [h]

@[simp] theorem endJournalWrite (h : Edit s₀ s) (b : Bool) : Edit s₀ (Machine.endJournalWrite b s) := by
  unfold Machine.endJournalWrite; repeat' split
  all_goals simp (maxDischargeDepth := 50) [h]

@[simp] theorem beginErase (h : Edit s₀ s) (g : SegmentId) : Edit s₀ (Machine.beginErase g s) := by
  unfold Machine.beginErase; dsimp only
  all_goals simp (maxDischargeDepth := 50) [h]

@[simp] theorem startErase (h : Edit s₀ s) : Edit s₀ (Machine.startErase s) := by
  unfold Machine.startErase; repeat' split
  all_goals simp (maxDischargeDepth := 50) [h]

@[simp] theorem retire (h : Edit s₀ s) (g : SegmentId) (x : Segment) : Edit s₀ (Machine.retire g x s) := by
  unfold Machine.retire; dsimp only
  all_goals simp (maxDischargeDepth := 50) [h]

@[simp] theorem freeSegment (h : Edit s₀ s) (g : SegmentId) (x : Segment) : Edit s₀ (Machine.freeSegment g x s) := by
  unfold Machine.freeSegment; dsimp only; repeat' split
  all_goals simp (maxDischargeDepth := 50) [h]

@[simp] theorem endErase (h : Edit s₀ s) (b : Bool) : Edit s₀ (Machine.endErase b s) := by
  unfold Machine.endErase; dsimp only; repeat' split
  all_goals simp (maxDischargeDepth := 50) [h]

@[simp] theorem takeJournalRead (h : Edit s₀ s) (n : BitVec 32) (c : Byte) : Edit s₀ (Machine.takeJournalRead n c s |>.1) := by
  unfold Machine.takeJournalRead; dsimp only; repeat' split
  all_goals simp (maxDischargeDepth := 50) [refuse, h]

@[simp] theorem takeJournalAck (h : Edit s₀ s) (n : BitVec 32) : Edit s₀ (Machine.takeJournalAck n s |>.1) := by
  unfold Machine.takeJournalAck; dsimp only; repeat' split
  all_goals simp (maxDischargeDepth := 50) [refuse, h]

@[simp] theorem takeJournalStatus (h : Edit s₀ s) : Edit s₀ (Machine.takeJournalStatus s |>.1) := by
  unfold Machine.takeJournalStatus; dsimp only
  all_goals simp (maxDischargeDepth := 50) [h]

/-! ### The vehicle register and service accounting -/

@[simp] theorem takeVehicleGet (h : Edit s₀ s) (n : BitVec 16) : Edit s₀ (Machine.takeVehicleGet n s |>.1) := by
  unfold Machine.takeVehicleGet; repeat' split
  all_goals simp (maxDischargeDepth := 50) [refuse, h]

@[simp] theorem takeVehicleFind (h : Edit s₀ s) (n : Tag) : Edit s₀ (Machine.takeVehicleFind n s |>.1) := by
  unfold Machine.takeVehicleFind; repeat' split
  all_goals simp (maxDischargeDepth := 50) [refuse, h]

@[simp] theorem takeClassRead (h : Edit s₀ s) (n : Byte) : Edit s₀ (Machine.takeClassRead n s |>.1) := by
  unfold Machine.takeClassRead; repeat' split
  all_goals simp (maxDischargeDepth := 50) [refuse, h]

theorem placed_status (r : Vehicle) (p : HostPart) : (r.placed p).status = r.status := by
  unfold Vehicle.placed; split <;> rfl

@[simp] theorem placeRecord (h : Edit s₀ s) (v : VehicleId) (p : HostPart) : Edit s₀ (Machine.placeRecord v p s) := by
  unfold Machine.placeRecord
  all_goals simp (maxDischargeDepth := 50) [h, placed_status]

@[simp] theorem lockWithdraws (h : Edit s₀ s) (v : VehicleId) (p : HostPart) : Edit s₀ (Machine.lockWithdraws v p s) := by
  unfold Machine.lockWithdraws; repeat' split
  all_goals simp (maxDischargeDepth := 50) [h]

@[simp] theorem acceptPut (h : Edit s₀ s) (v : VehicleId) (p : HostPart) : Edit s₀ (Machine.acceptPut v p s) := by
  unfold Machine.acceptPut; dsimp only
  all_goals simp (maxDischargeDepth := 50) [h]

@[simp] theorem takeVehiclePut (h : Edit s₀ s) (n : BitVec 16) (w : WireHostPart) (r : BitVec 16) : Edit s₀ (Machine.takeVehiclePut n w r s |>.1) := by
  unfold Machine.takeVehiclePut; dsimp only; repeat' split
  all_goals simp (maxDischargeDepth := 50) [refuse, h, revisionRefusal]

@[simp] theorem takeLoadBegin (h : Edit s₀ s) (n : BitVec 16) : Edit s₀ (Machine.takeLoadBegin n s |>.1) := by
  unfold Machine.takeLoadBegin; repeat' split
  all_goals simp (maxDischargeDepth := 50) [refuse, h]

@[simp] theorem takeLoadEnd (h : Edit s₀ s) : Edit s₀ (Machine.takeLoadEnd s |>.1) := by
  unfold Machine.takeLoadEnd; repeat' split
  all_goals simp (maxDischargeDepth := 50) [refuse, h]

@[simp] theorem placeRecords (ps : List HostPart) : ∀ (n : Nat) (d : List PlacedRecord) (s : State), Edit s₀ s →
    Edit s₀ (Machine.placeRecords ps n d s).1 := by
  induction ps with
  | nil => intro n d s h; exact h
  | cons p rest ih =>
    intro n d s h
    unfold Machine.placeRecords; repeat' (split)
    all_goals dsimp only; repeat' split
    all_goals first | exact h | exact placeRecord h _ _ | exact ih _ _ _ (placeRecord h _ _)

@[simp] theorem takeLoadNext (h : Edit s₀ s) (n : Byte) (ws : List WireHostPart) :
    Edit s₀ (Machine.takeLoadNext n ws s).1 := by
  unfold Machine.takeLoadNext; split
  · exact h
  · split
    · exact h
    · split
      · exact h
      · dsimp only; split
        · exact setLoad (placeRecords _ _ _ _ h) _
        · exact beginWrite (setLoad (placeRecords _ _ _ _ h) _) _

@[simp] theorem takeHoursSet (h : Edit s₀ s) (n : BitVec 16) (w : BitVec 32) (r : BitVec 16) : Edit s₀ (Machine.takeHoursSet n w r s |>.1) := by
  unfold Machine.takeHoursSet; dsimp only; repeat' split
  all_goals simp (maxDischargeDepth := 50) [refuse, h, revisionRefusal]

@[simp] theorem applyDoneReading (h : Edit s₀ s) (v : VehicleId) (n : Option Nat) : Edit s₀ (Machine.applyDoneReading v n s |>.1) := by
  unfold Machine.applyDoneReading; repeat' split
  all_goals simp (maxDischargeDepth := 50) [h]

@[simp] theorem acceptDone (h : Edit s₀ s) (v : VehicleId) (l : LineId) (n : Option Nat) : Edit s₀ (Machine.acceptDone v l n s) := by
  unfold Machine.acceptDone; dsimp only
  all_goals simp (maxDischargeDepth := 50) [h]

@[simp] theorem takeServiceDone (h : Edit s₀ s) (n : BitVec 16) (l f : Byte) (w : BitVec 32) (r : BitVec 16) : Edit s₀ (Machine.takeServiceDone n l f w r s |>.1) := by
  unfold Machine.takeServiceDone; dsimp only; repeat' split
  all_goals simp (maxDischargeDepth := 50) [refuse, h, revisionRefusal]

@[simp] theorem takeClassSet (h : Edit s₀ s) (c : Byte) (w : WireClass) : Edit s₀ (Machine.takeClassSet c w s |>.1) := by
  unfold Machine.takeClassSet; repeat' split
  all_goals simp (maxDischargeDepth := 50) [refuse, h]

@[simp] theorem takeDueListRead (h : Edit s₀ s) (n : BitVec 16) (c : Byte) : Edit s₀ (Machine.takeDueListRead n c s |>.1) := by
  unfold Machine.takeDueListRead; repeat' split
  all_goals simp (maxDischargeDepth := 50) [refuse, h]

@[simp] theorem takeServiceQuery (h : Edit s₀ s) (n : BitVec 16) : Edit s₀ (Machine.takeServiceQuery n s |>.1) := by
  unfold Machine.takeServiceQuery; repeat' split
  all_goals simp (maxDischargeDepth := 50) [refuse, h]

end Sys2Proof.Machine.Edit
end

