-- ==== Sys2Proof/Laws/EditStep.lean ====
section
/-! SUPPORT. The settings store, the save, restart and the link controller are chains of edits, and with them every
command and the passing of a second. -/

namespace Sys2Proof.Machine.Edit

open Sys2Proof

variable {s₀ s : State}

/-! ### The settings store -/

theorem stored_setVehicle {st : Stored} (h : st.vehiclesSound = true) (v : VehicleId) (x : StoredVehicle) :
    (st.setVehicle v x).vehiclesSound = true := Sparse.wf_set v.isLt h

theorem storePlaced_all (ps : List PlacedRecord) : ∀ st : Stored, st.vehiclesSound = true →
    (ps.foldl (fun st p => storePlaced p st) st).vehiclesSound = true := by
  induction ps with
  | nil => intro st h; exact h
  | cons p rest ih => intro st h; exact ih _ (stored_setVehicle h _ _)

/-- What a completed write leaves of a sound stored table is sound. -/
theorem applyWrite_sound (w : StoreWrite) {st : Stored} (h : st.vehiclesSound = true) :
    (applyWrite w st).vehiclesSound = true := by
  cases w with
  | vehicles ps => exact storePlaced_all ps st h
  | usage v u => exact stored_setVehicle h _ _
  | hours v u r => exact stored_setVehicle h _ _
  | service v m r u => exact stored_setVehicle h _ _
  | _ => exact h

@[simp] theorem answerHeld (h : Edit s₀ s) (w : HeldWait) (b : ReplyBody) : Edit s₀ (Machine.answerHeld w b s) := by
  unfold Machine.answerHeld; repeat' split
  all_goals simp (maxDischargeDepth := 50) [h]

@[simp] theorem usageStored (h : Edit s₀ s) (v : VehicleId) : Edit s₀ (Machine.usageStored v s) := by
  unfold Machine.usageStored; dsimp only; repeat' split
  all_goals simp (maxDischargeDepth := 50) [h]

@[simp] theorem ackStored (h : Edit s₀ s) : Edit s₀ (Machine.ackStored s) := by
  unfold Machine.ackStored; dsimp only; repeat' split
  all_goals simp (maxDischargeDepth := 50) [h]

@[simp] theorem calStored (h : Edit s₀ s) (i : HoseId) : Edit s₀ (Machine.calStored i s) := by
  unfold Machine.calStored; dsimp only; repeat' split
  all_goals simp (maxDischargeDepth := 50) [h]

@[simp] theorem productStored (h : Edit s₀ s) (p : ProductId) : Edit s₀ (Machine.productStored p s) := by
  unfold Machine.productStored; dsimp only; repeat' split
  all_goals simp (maxDischargeDepth := 50) [h]

@[simp] theorem serviceStored (h : Edit s₀ s) (v : VehicleId) : Edit s₀ (Machine.serviceStored v s) := by
  unfold Machine.serviceStored; dsimp only; repeat' split
  all_goals simp (maxDischargeDepth := 50) [h]

@[simp] theorem vehiclesStored (h : Edit s₀ s) : Edit s₀ (Machine.vehiclesStored s) := by
  unfold Machine.vehiclesStored; repeat' split
  all_goals simp (maxDischargeDepth := 50) [h]

@[simp] theorem finishClassSet (h : Edit s₀ s) : Edit s₀ (Machine.finishClassSet s) := by
  unfold Machine.finishClassSet; repeat' split
  all_goals simp (maxDischargeDepth := 50) [h]

@[simp] theorem classStored (h : Edit s₀ s) (c : ClassId) : Edit s₀ (Machine.classStored c s) := by
  unfold Machine.classStored; repeat' split
  all_goals simp (maxDischargeDepth := 50) [h]

@[simp] theorem writeStored (h : Edit s₀ s) (w : StoreWrite) : Edit s₀ (Machine.writeStored w s) := by
  unfold Machine.writeStored; repeat' split
  all_goals simp (maxDischargeDepth := 50) [h]

@[simp] theorem beginStoreWrite (h : Edit s₀ s) : Edit s₀ (Machine.beginStoreWrite s) := by
  unfold Machine.beginStoreWrite; dsimp only; repeat' split
  all_goals simp (maxDischargeDepth := 50) [h]

@[simp] theorem endStoreWrite (h : Edit s₀ s) : Edit s₀ (Machine.endStoreWrite s) := by
  unfold Machine.endStoreWrite; split
  · exact h
  · exact writeStored (.stored h _ fun hs => applyWrite_sound _ hs) _

@[simp] theorem sweepVehicle (h : Edit s₀ s) : Edit s₀ (Machine.sweepVehicle s) := by
  unfold Machine.sweepVehicle; dsimp only; repeat' split
  all_goals simp (maxDischargeDepth := 50) [h]

/-! ### The save -/

@[simp] theorem lastSample (h : Edit s₀ s) (i : HoseId) : Edit s₀ (Machine.lastSample i s) := by
  unfold Machine.lastSample; split
  · exact setEngine h _ _
  · exact h

@[simp] theorem outputsOff (h : Edit s₀ s) : Edit s₀ (Machine.outputsOff s) :=
  setPumps (.hoses h _ fun i _ => .inl (by rw [vmap_get]; rfl)) _

theorem abandonWrite_stored (x : Store) : (abandonWrite x).stored = x.stored := by
  unfold abandonWrite; repeat' split
  all_goals rfl

@[simp] theorem beginSave (h : Edit s₀ s) (c : SaveCause) : Edit s₀ (Machine.beginSave c s) := by
  have hf := forAll (f := Machine.lastSample) (fun i s h => lastSample h i) allHoses _ (outputsOff h)
  unfold Machine.beginSave
  generalize Machine.forAll allHoses Machine.lastSample (Machine.outputsOff s) = t at hf
  exact setJournal (setLink (setStore (setPhase hf _) _ (abandonWrite_stored _)) _ (by rfl)) _

theorem saveUsage_sound {s : State} {st : Stored} (h : st.vehiclesSound = true) :
    (saveUsage s st).vehiclesSound = true := by
  unfold saveUsage
  generalize s.listedVehicles = es
  induction es generalizing st with
  | nil => exact h
  | cons e rest ih =>
    rw [List.foldl_cons]
    refine ih ?_
    split
    · exact stored_setVehicle h _ _
    · exact h

@[simp] theorem endSave (h : Edit s₀ s) : Edit s₀ (Machine.endSave s) := by
  unfold Machine.endSave; repeat' split
  · exact h
  · exact .stored (setPhase h _) _ fun hs => saveUsage_sound hs
  all_goals exact h

@[simp] theorem takeResetCause (h : Edit s₀ s) (c : SaveCause) : Edit s₀ (Machine.takeResetCause c s) := by
  unfold Machine.takeResetCause; split <;> simp (maxDischargeDepth := 50) [h]

@[simp] theorem loseSupply (h : Edit s₀ s) : Edit s₀ (Machine.loseSupply s) :=
  setStore (setJournal (setLink (setPhase (outputsOff h) _) _ (by rfl)) _) _ (by rfl)

@[simp] theorem takeSupplyLoss (h : Edit s₀ s) : Edit s₀ (Machine.takeSupplyLoss s) := by
  unfold Machine.takeSupplyLoss; split <;> simp (maxDischargeDepth := 50) [h]

/-! ### Restart -/

theorem restoredVehicle_listed (cs : Vector ClassRecord 32) (x : StoredVehicle)
    (h : (restoredVehicle cs x).status.listed = true) : (restoredVehicle cs x).host.inUse = true := by
  by_cases hu : x.host.inUse = true
  · exact hu
  · simp [restoredVehicle, statusOf, hu, ServiceStatus.listed] at h

/-- The state whose blocks stand at their reset values is a restarted one. -/
theorem restarted_of (t : State) (hv : ∀ h : HoseId, (t.hose h).valve = .closed) (he : t.link.events = [])
    (hs : t.store.stored.vehicles = s.store.stored.vehicles) (hp : t.pending = s.pending)
    (ht : t.vehicles = restoredVehicles s.store.stored) (hd : t.dueList = restoredDueList t) : Restarted s t := by
  refine ⟨hv, he, hs, hp, fun hw => ?_⟩
  have hwf : t.vehiclesSound = true := by
    unfold State.vehiclesSound; rw [ht]; exact Sparse.wf_map_filter _ hw
  refine ⟨hwf, ?_, fun v => ?_⟩
  · rw [hd]
    exact (State.nodup_listedVehicles hwf).sublist (List.filter_sublist.map _)
  · rw [hd, restoredDueList, List.mem_map]
    constructor
    · rintro ⟨⟨u, r⟩, hm, rfl⟩
      obtain ⟨hm, hl⟩ := List.mem_filter.mp hm
      rw [((State.mem_listedVehicles hwf u r).mp hm).1]
      exact (Bool.and_eq_true _ _ ▸ hl).2
    · intro hl
      have hne : t.vehicle v ≠ .unused := fun h => by rw [h] at hl; cases hl
      refine ⟨(v, t.vehicle v), List.mem_filter.mpr ⟨(State.mem_listedVehicles hwf v _).mpr ⟨rfl, hne⟩, ?_⟩, rfl⟩
      have hmem : (v.val, t.vehicle v) ∈ restoredVehicles s.store.stored := ht ▸ (Sparse.mem_iff hwf).mpr ⟨rfl, hne⟩
      obtain ⟨hmem, -⟩ := List.mem_filter.mp hmem
      obtain ⟨e, -, he⟩ := List.mem_map.mp hmem
      have hx : t.vehicle v = restoredVehicle s.store.stored.classes e.2 := (congrArg Prod.snd he).symm
      rw [Bool.and_eq_true]
      exact ⟨by rw [hx] at hl ⊢; exact restoredVehicle_listed _ _ hl, hl⟩

@[simp] theorem scanChange (h : Edit s₀ s) : Edit s₀ (Machine.scanChange s) := by
  unfold Machine.scanChange; split <;> simp (maxDischargeDepth := 50) [h]

@[simp] theorem resetBlocks (h : Edit s₀ s) (c : ResetCause) (k : SiteClock) : Edit s₀ (Machine.resetBlocks c k s) := by
  unfold Machine.resetBlocks
  refine scanChange (.restart h _ (restarted_of _ (fun i => ?_) rfl rfl rfl rfl rfl))
  show ((vmap Hose.reset s.store.stored.hoseConfigs).get i).valve = .closed
  rw [vmap_get]; rfl

@[simp] theorem queueAtRestart (h : Edit s₀ s) (r : Record) : Edit s₀ (Machine.queueAtRestart r s) := by
  simp [Machine.queueAtRestart, h]

@[simp] theorem restoreHose (h : Edit s₀ s) (g : Grant) (p : Snapshot) : Edit s₀ (Machine.restoreHose g p s) :=
  setEngine (setHose_closed (setVehicle h _ _ (by rfl)) _ _ (by rfl)) _ _

@[simp] theorem reestablish (h : Edit s₀ s) (c : SaveCause) (p : Snapshot) : Edit s₀ (Machine.reestablish c p s) := by
  unfold Machine.reestablish; split <;> simp (maxDischargeDepth := 50) [h]

@[simp] theorem storeCarried (h : Edit s₀ s) (r : CarriedReceipt) : Edit s₀ (Machine.storeCarried r s) := by
  simp [Machine.storeCarried, h]

@[simp] theorem restoreArea (h : Edit s₀ s) (a : Area) : Edit s₀ (Machine.restoreArea a s) := by
  unfold Machine.restoreArea
  refine forAll (f := Machine.queueAtRestart) (fun r s h => queueAtRestart h r) _ _ ?_
  refine forAll (f := Machine.reestablish a.cause) (fun p s h => reestablish h _ p) _ _ ?_
  refine forAll (f := Machine.queueAtRestart) (fun r s h => queueAtRestart h r) _ _ (queueAtRestart ?_ _)
  exact forAll (f := Machine.storeCarried) (fun r s h => storeCarried h r) _ _ h

@[simp] theorem dropEvents (h : Edit s₀ s) : Edit s₀ (Machine.dropEvents s) :=
  .read h s.link.events.length _ (by simp)

@[simp] theorem restarts (h : Edit s₀ s) (c : ResetCause) (k : SiteClock) : Edit s₀ (Machine.restart c k s) := by
  unfold Machine.restart; dsimp only
  refine dropEvents (setJournal ?_ _)
  repeat' split
  all_goals simp (maxDischargeDepth := 50) [h]

@[simp] theorem takeResetRelease (h : Edit s₀ s) (b : Bool) : Edit s₀ (Machine.takeResetRelease b s) := by
  unfold Machine.takeResetRelease; split <;> simp (maxDischargeDepth := 50) [h]

@[simp] theorem takeAreaCleared (h : Edit s₀ s) : Edit s₀ (Machine.takeAreaCleared s) := by
  unfold Machine.takeAreaCleared; split
  · refine raise (setLink (setPumps (.stored (setPhase h _) _ ?_) _) _ ?_) _ _
    · exact fun hs => hs
    · rfl
  all_goals exact h

/-! ### The link controller -/

@[simp] theorem takeStatus (h : Edit s₀ s) : Edit s₀ (Machine.takeStatus s |>.1) := by
  unfold Machine.takeStatus; dsimp only
  all_goals simp (maxDischargeDepth := 50) [h]

@[simp] theorem takeRestart (h : Edit s₀ s) : Edit s₀ (Machine.takeRestart s |>.1) := by
  unfold Machine.takeRestart; repeat' split
  all_goals simp (maxDischargeDepth := 50) [refuse, h]

@[simp] theorem takeEventsRead (h : Edit s₀ s) (n : Byte) : Edit s₀ (Machine.takeEventsRead n s |>.1) := by
  unfold Machine.takeEventsRead; split
  · exact h
  · exact .read h n.toNat _ rfl

@[simp] theorem takeSiteSet (h : Edit s₀ s) (a b : BitVec 16) (c : Byte) : Edit s₀ (Machine.takeSiteSet a b c s |>.1) := by
  unfold Machine.takeSiteSet; dsimp only; repeat' split
  all_goals simp (maxDischargeDepth := 50) [refuse, h]

@[simp] theorem takeTimeSet (h : Edit s₀ s) (a : BitVec 32) : Edit s₀ (Machine.takeTimeSet a s |>.1) := by
  unfold Machine.takeTimeSet; repeat' split
  all_goals simp (maxDischargeDepth := 50) [refuse, h]

@[simp] theorem handle (h : Edit s₀ s) (r : Request) : Edit s₀ (Machine.handle r s).1 := by
  cases r
  case authorize => exact takeAuthorize h _ _ _ _ _
  all_goals simp [Machine.handle, h]

@[simp] theorem settle (k t : Byte) (p : State × Answer) (h : Edit s₀ p.1) : Edit s₀ (Machine.settle k t p) := by
  unfold Machine.settle; split
  · exact pushReply h _ _ _ _
  · exact setLink h _ (by rfl)

@[simp] theorem takeFrame (h : Edit s₀ s) (f : Frame) : Edit s₀ (Machine.takeFrame f s) := by
  unfold Machine.takeFrame; split <;> simp (maxDischargeDepth := 50) [h]

@[simp] theorem linkAlive (h : Edit s₀ s) : Edit s₀ (Machine.linkAlive s) := by
  unfold Machine.linkAlive; dsimp only; split <;> simp (maxDischargeDepth := 50) [h]

@[simp] theorem linkExpires (h : Edit s₀ s) : Edit s₀ (Machine.linkExpires s) := by
  unfold Machine.linkExpires; split
  · exact h
  · exact raise (setLink (setLoad h _) _ (by rfl)) _ _

@[simp] theorem offer (h : Edit s₀ s) (f : Frame) : Edit s₀ (Machine.offer f s) := by
  unfold Machine.offer; split
  · exact setLink h _ (by rfl)
  · exact h

@[simp] theorem takeNext (h : Edit s₀ s) : Edit s₀ (Machine.takeNext s) := by
  unfold Machine.takeNext; dsimp only; repeat' split
  all_goals simp (maxDischargeDepth := 50) [h]

@[simp] theorem takeMany (n : Nat) : ∀ s, Edit s₀ s → Edit s₀ (Machine.takeMany n s) := by
  induction n with
  | zero => intro s h; exact h
  | succ n ih => intro s h; exact ih _ (takeNext h)

@[simp] theorem drain (h : Edit s₀ s) : Edit s₀ (Machine.drain s) := takeMany _ _ h

@[simp] theorem frameArrives (h : Edit s₀ s) (f : Frame) : Edit s₀ (Machine.frameArrives f s) :=
  drain (offer (linkAlive h) f)

@[simp] theorem hostRequest (h : Edit s₀ s) (t : Byte) (r : Request) : Edit s₀ (Machine.hostRequest t r s) := by
  unfold Machine.hostRequest; split <;> simp (maxDischargeDepth := 50) [h]

@[simp] theorem hunt (h : Edit s₀ s) : Edit s₀ (Machine.hunt s) := setLink h _ (by rfl)

@[simp] theorem receive (h : Edit s₀ s) (b : List Byte) : Edit s₀ (Machine.receive b s) := by
  unfold Machine.receive; repeat' split
  all_goals simp (maxDischargeDepth := 50) [h]

@[simp] theorem takeByte (h : Edit s₀ s) (b : Byte) : Edit s₀ (Machine.takeByte b s) := by
  unfold Machine.takeByte; repeat' split
  all_goals simp (maxDischargeDepth := 50) [h]

@[simp] theorem takeFramingError (h : Edit s₀ s) : Edit s₀ (Machine.takeFramingError s) := by
  unfold Machine.takeFramingError; split <;> simp (maxDischargeDepth := 50) [h]

@[simp] theorem gapExpires (h : Edit s₀ s) : Edit s₀ (Machine.gapExpires s) := by
  unfold Machine.gapExpires; split <;> simp (maxDischargeDepth := 50) [h]

@[simp] theorem takeReplySent (h : Edit s₀ s) : Edit s₀ (Machine.takeReplySent s) := by
  unfold Machine.takeReplySent; dsimp only; repeat' split
  · exact h
  · exact beginSave (setLink h _ (by rfl)) _
  · exact setLink h _ (by rfl)

/-! ### The commands and the step -/

theorem whenRunning {f : State → State} (hf : ∀ s, Edit s₀ s → Edit s₀ (f s)) (h : Edit s₀ s) :
    Edit s₀ (Machine.whenRunning s f) := by
  unfold Machine.whenRunning; split
  · exact hf _ h
  all_goals exact h

theorem whenLive {f : State → State} (hf : ∀ s, Edit s₀ s → Edit s₀ (f s)) (h : Edit s₀ s) :
    Edit s₀ (Machine.whenLive s f) := by
  unfold Machine.whenLive; split
  · exact hf _ h
  · exact h

theorem whenWriting {f : State → State} (hf : ∀ s, Edit s₀ s → Edit s₀ (f s)) (h : Edit s₀ s) :
    Edit s₀ (Machine.whenWriting s f) := by
  unfold Machine.whenWriting; split
  all_goals first | exact hf _ h | exact h

theorem levelChange {f : State → State} (hf : ∀ s, Edit s₀ s → Edit s₀ (f s)) (b : Bool) (i : Inputs)
    (h : Edit s₀ s) : Edit s₀ (Machine.levelChange b i f s) := by
  unfold Machine.levelChange; split
  · exact whenRunning hf (setInputs h _)
  · exact h

theorem ran {t : State} {f : State → State} (e : (.next (Machine.whenRunning s f) : Result) = .next t)
    (hf : ∀ s, Edit s₀ s → Edit s₀ (f s)) (h : Edit s₀ s) : Edit s₀ t := by cases e; exact whenRunning hf h

theorem lived {t : State} {f : State → State} (e : (.next (Machine.whenLive s f) : Result) = .next t)
    (hf : ∀ s, Edit s₀ s → Edit s₀ (f s)) (h : Edit s₀ s) : Edit s₀ t := by cases e; exact whenLive hf h

theorem wrote {t : State} {f : State → State} (e : (.next (Machine.whenWriting s f) : Result) = .next t)
    (hf : ∀ s, Edit s₀ s → Edit s₀ (f s)) (h : Edit s₀ s) : Edit s₀ t := by cases e; exact whenWriting hf h

theorem levelled {t : State} {f : State → State} {b : Bool} {i : Inputs}
    (e : (.next (Machine.levelChange b i f s) : Result) = .next t)
    (hf : ∀ s, Edit s₀ s → Edit s₀ (f s)) (h : Edit s₀ s) : Edit s₀ t := by cases e; exact levelChange hf _ _ h

/-- What a command makes of a state is a chain of edits. -/
theorem exec (c : Instr) {t : State} (h : Edit s₀ s) (e : Machine.exec c s = .next t) : Edit s₀ t := by
  cases c
  case tagRead => exact ran e (fun s h => takeTag h _ _ _) h
  case nozzleLift => exact ran e (fun s h => by simp (maxDischargeDepth := 50) [h]) h
  case nozzleHang => exact ran e (fun s h => by simp (maxDischargeDepth := 50) [h]) h
  case agreeingPulse => exact ran e (fun s h => by simp (maxDischargeDepth := 50) [h]) h
  case disagreeingPulse => exact ran e (fun s h => by simp (maxDischargeDepth := 50) [h]) h
  case temperatureSample => exact ran e (fun s h => by simp (maxDischargeDepth := 50) [h]) h
  case holdTimerExpiry => exact ran e (fun s h => by simp (maxDischargeDepth := 50) [h]) h
  case sampleTimerExpiry => exact ran e (fun s h => by simp (maxDischargeDepth := 50) [h]) h
  case readyTimerExpiry => exact ran e (fun s h => by simp (maxDischargeDepth := 50) [h]) h
  case noFlowTimerExpiry => exact ran e (fun s h => by simp (maxDischargeDepth := 50) [h]) h
  case pauseTimerExpiry => exact ran e (fun s h => by simp (maxDischargeDepth := 50) [h]) h
  case settleTimerExpiry => exact ran e (fun s h => by simp (maxDischargeDepth := 50) [h]) h
  case closingLimitExpiry => exact ran e (fun s h => by simp (maxDischargeDepth := 50) [h]) h
  case refusalDisplayExpiry => exact ran e (fun s h => by simp (maxDischargeDepth := 50) [h]) h
  case emergencyStopActive => exact levelled e (fun s h => by simp (maxDischargeDepth := 50) [h]) h
  case emergencyStopRelease => exact levelled e (fun s h => by simp (maxDischargeDepth := 50) [h]) h
  case metrologySwitchClose => exact levelled e (fun s h => by simp (maxDischargeDepth := 50) [h]) h
  case metrologySwitchOpen => exact levelled e (fun s h => by simp (maxDischargeDepth := 50) [h]) h
  case probeSample => exact ran e (fun s h => by simp (maxDischargeDepth := 50) [h]) h
  case staleTimerExpiry => exact ran e (fun s h => by simp (maxDischargeDepth := 50) [h]) h
  case quietTimerExpiry => exact ran e (fun s h => by simp (maxDischargeDepth := 50) [h]) h
  case receiptSettleTimerExpiry => exact ran e (fun s h => by simp (maxDischargeDepth := 50) [h]) h
  case pressureUp => exact levelled e (fun s h => by simp (maxDischargeDepth := 50) [h]) h
  case pressureDown => exact levelled e (fun s h => by simp (maxDischargeDepth := 50) [h]) h
  case startTimerExpiry => exact ran e (fun s h => by simp (maxDischargeDepth := 50) [h]) h
  case runOnTimerExpiry => exact ran e (fun s h => by simp (maxDischargeDepth := 50) [h]) h
  case supplyWarning => cases e; simp (maxDischargeDepth := 50) [h]
  case resetLineAssert => cases e; simp (maxDischargeDepth := 50) [h]
  case supplyLoss => cases e; simp (maxDischargeDepth := 50) [h]
  case powerFailSaveComplete => cases e; simp (maxDischargeDepth := 50) [h]
  case resetRelease => cases e; simp (maxDischargeDepth := 50) [h]
  case powerFailAreaCleared => cases e; simp (maxDischargeDepth := 50) [h]
  case rxByte => exact ran e (fun s h => by simp (maxDischargeDepth := 50) [h]) h
  case framingError => exact ran e (fun s h => by simp (maxDischargeDepth := 50) [h]) h
  case gapTimerExpiry => exact ran e (fun s h => by simp (maxDischargeDepth := 50) [h]) h
  case linkTimerExpiry => exact ran e (fun s h => by simp (maxDischargeDepth := 50) [h]) h
  case replySent => exact lived e (fun s h => by simp (maxDischargeDepth := 50) [h]) h
  case journalWriteStart => exact lived e (fun s h => by simp (maxDischargeDepth := 50) [h]) h
  case journalWriteComplete => exact wrote e (fun s h => by simp (maxDischargeDepth := 50) [h]) h
  case eraseStart => exact lived e (fun s h => by simp (maxDischargeDepth := 50) [h]) h
  case eraseComplete => exact lived e (fun s h => by simp (maxDischargeDepth := 50) [h]) h
  case settingsWriteStart => exact lived e (fun s h => by simp (maxDischargeDepth := 50) [h]) h
  case settingsWriteComplete => exact wrote e (fun s h => by simp (maxDischargeDepth := 50) [h]) h
  case classSweepVehicle => exact lived e (fun s h => by simp (maxDischargeDepth := 50) [h]) h
  case authorize => exact ran e (fun s h => hostRequest h _ _) h
  case cancel => exact ran e (fun s h => hostRequest h _ _) h
  case stop => exact ran e (fun s h => hostRequest h _ _) h
  case pause => exact ran e (fun s h => hostRequest h _ _) h
  case resume => exact ran e (fun s h => hostRequest h _ _) h
  case hoseQuery => exact ran e (fun s h => hostRequest h _ _) h
  case hoseSet => exact ran e (fun s h => hostRequest h _ _) h
  case totalizerRead => exact ran e (fun s h => hostRequest h _ _) h
  case calOpen => exact ran e (fun s h => hostRequest h _ _) h
  case calClose => exact ran e (fun s h => hostRequest h _ _) h
  case calWrite => exact ran e (fun s h => hostRequest h _ _) h
  case calRead => exact ran e (fun s h => hostRequest h _ _) h
  case productSet => exact ran e (fun s h => hostRequest h _ _) h
  case productRead => exact ran e (fun s h => hostRequest h _ _) h
  case receiptBegin => exact ran e (fun s h => hostRequest h _ _) h
  case receiptEnd => exact ran e (fun s h => hostRequest h _ _) h
  case stockAdjust => exact ran e (fun s h => hostRequest h _ _) h
  case tankSet => exact ran e (fun s h => hostRequest h _ _) h
  case strapSet => exact ran e (fun s h => hostRequest h _ _) h
  case tankQuery => exact ran e (fun s h => hostRequest h _ _) h
  case strapRead => exact ran e (fun s h => hostRequest h _ _) h
  case pumpSet => exact ran e (fun s h => hostRequest h _ _) h
  case pumpQuery => exact ran e (fun s h => hostRequest h _ _) h
  case pumpClear => exact ran e (fun s h => hostRequest h _ _) h
  case vehicleGet => exact ran e (fun s h => hostRequest h _ _) h
  case vehicleFind => exact ran e (fun s h => hostRequest h _ _) h
  case vehiclePut => exact ran e (fun s h => hostRequest h _ _) h
  case vehicleLoadBegin => exact ran e (fun s h => hostRequest h _ _) h
  case vehicleLoadNext => exact ran e (fun s h => hostRequest h _ _) h
  case vehicleLoadEnd => exact ran e (fun s h => hostRequest h _ _) h
  case classRead => exact ran e (fun s h => hostRequest h _ _) h
  case hoursSet => exact ran e (fun s h => hostRequest h _ _) h
  case serviceDone => exact ran e (fun s h => hostRequest h _ _) h
  case classSet => exact ran e (fun s h => hostRequest h _ _) h
  case dueListRead => exact ran e (fun s h => hostRequest h _ _) h
  case serviceQuery => exact ran e (fun s h => hostRequest h _ _) h
  case journalRead => exact ran e (fun s h => hostRequest h _ _) h
  case journalAck => exact ran e (fun s h => hostRequest h _ _) h
  case journalStatus => exact ran e (fun s h => hostRequest h _ _) h
  case status => exact ran e (fun s h => hostRequest h _ _) h
  case eventsRead => exact ran e (fun s h => hostRequest h _ _) h
  case siteSet => exact ran e (fun s h => hostRequest h _ _) h
  case timeSet => exact ran e (fun s h => hostRequest h _ _) h
  case restart => exact ran e (fun s h => hostRequest h _ _) h
  case unknownKind => exact ran e (fun s h => by split <;> simp (maxDischargeDepth := 50) [h]) h

/-- The passing of a second leaves the watched parts alone but for the timers of the hoses. -/
theorem secondPasses (h : Edit s₀ s) : Edit s₀ (Machine.secondPasses s) := by
  refine whenRunning (fun s h => ?_) (setClock h _)
  refine .other (.hoses h (runTimers s).hoses fun i hf => ?_) _ ⟨rfl, rfl, rfl, rfl, rfl, rfl⟩
  show Hose.valveFollows ((vmap _ s.hoses).get i)
  rw [vmap_get]; exact hf

/-- What a step makes of a state is a chain of edits of that state, its front command taken away if it has one. -/
theorem step {t : State} (e : Machine.step s = .next t) : ∃ q, Edit { s with pending := q } t := by
  unfold Machine.step at e; split at e
  · cases e; exact ⟨s.pending, secondPasses .start⟩
  · rename_i rest _; exact ⟨rest, exec _ .start e⟩

end Sys2Proof.Machine.Edit
end

