-- ==== Sys2Proof/Laws/Kept.lean ====
section
/-! SUPPORT. The aspects of soundness that a step keeps by the work of whole operations: grants, pumps and start slot,
levels, link, journal and tags. A watch says which of them hold between the parts of an operation; each update of the
state keeps a watch under the conditions its lemma gives. -/

namespace Sys2Proof.Machine

open Sys2Proof

/-- Which aspects hold: the room taken at the transmitter, the aspects that an operation has not left open, and the
records placed whose store write has not begun. -/
structure Watch where
  room : Nat := 5
  grants : Bool := true
  demand : Bool := true
  slot : Bool := true
  segments : Bool := true
  spare : Bool := true
  levels : Bool := true
  placed : List PlacedRecord := []

/-- The aspects of soundness that a watch asks for. -/
structure Kept (w : Watch) (s : State) : Prop where
  vehicles : s.vehiclesSound = true
  stored : s.store.stored.vehiclesSound = true
  grants : w.grants = true → s.GrantsAgree
  demand : w.demand = true → s.demandAgrees
  slot : w.slot = true → s.slotAgrees
  area : s.store.stored.areaSound
  levels : w.levels = true → s.phase = .running → s.LevelsAgree
  sealed : w.levels = true → s.phase = .running → s.inputs.switchClosed = false → s.protected
  resealed : s.phase = .restarting → s.protected
  attention : s.link.attention = (s.phase.live && !s.link.events.isEmpty)
  waiting : s.link.rxQueue.length ≤ 4
  replies : s.link.tx.length + (if s.link.held.isSome then 1 else 0) ≤ w.room
  segments : w.segments = true → s.phase.isReset = false → s.journal.SegmentsSound
  spare : w.spare = true → s.phase.isReset = false → s.journal.spare
  working : tagsDistinct fun v => (s.vehicle v).host
  tags : ∀ n, tagsDistinct fun v => ((s.store.stored.after (s.store.waiting.take n)).vehicle v).host
  order : s.phase.isReset = false → ∀ v,
    ((s.store.stored.after (s.store.waiting ++ [.vehicles w.placed])).vehicle v).host = (s.vehicle v).host
  live : w.placed ≠ [] → s.phase.isReset = false

/-! ### Sums over the hoses -/

/-- Two sums over the hoses that differ at one hose. -/
theorem sum_hoses {f g : HoseId → Nat} (i : HoseId) (h : ∀ k, k ≠ i → f k = g k) :
    (allHoses.map f).sum + g i = (allHoses.map g).sum + f i := by
  have e : ∀ k : HoseId, f k = g k ∨ k = i := fun k => by
    by_cases hk : k = i
    · exact .inr hk
    · exact .inl (h k hk)
  have h0 := e 0; have h1 := e 1; have h2 := e 2; have h3 := e 3
  have h4 := e 4; have h5 := e 5; have h6 := e 6; have h7 := e 7
  simp only [allHoses, List.map_cons, List.map_nil, List.sum_cons, List.sum_nil]
  match i with
  | 0 | 1 | 2 | 3 | 4 | 5 | 6 | 7 => simp at h0 h1 h2 h3 h4 h5 h6 h7; omega

theorem sum_hoses_eq {f g : HoseId → Nat} (h : ∀ k, f k = g k) : (allHoses.map f).sum = (allHoses.map g).sum := by
  rw [List.map_congr_left fun k _ => h k]

/-- The sum over the hoses after one is replaced. -/
theorem State.sum_setHose (s : State) (i : HoseId) (x : Hose) (f : Hose → Nat) :
    (allHoses.map fun h => f ((s.setHose i x).hose h)).sum + f (s.hose i) = (allHoses.map fun h => f (s.hose h)).sum + f x := by
  have := sum_hoses (f := fun h => f ((s.setHose i x).hose h)) (g := fun h => f (s.hose h)) i
    fun k hk => by rw [State.setHose_hose_ne _ _ hk]
  simpa using this

theorem State.reservedOn_setHose (s : State) (i : HoseId) (x : Hose) (t : TankId) :
    (s.setHose i x).reservedOn t + (s.hose i).reservedOn t = s.reservedOn t + x.reservedOn t :=
  s.sum_setHose i x fun y => y.reservedOn t

theorem State.demandOn_setHose (s : State) (i : HoseId) (x : Hose) (t : TankId) :
    (s.setHose i x).demandOn t + (s.hose i).demandOn t = s.demandOn t + x.demandOn t :=
  s.sum_setHose i x fun y => y.demandOn t

/-- What a grant contributes to the agreement of grants. -/
def Grant.core (g : Grant) : VehicleId × TankId × Nat := (g.vehicle, g.tank, g.tankRes)

theorem Hose.reservedOn_core {x y : Hose} (h : x.grant.map Grant.core = y.grant.map Grant.core)
    (hs : x.state.reserves = y.state.reserves) (t : TankId) : x.reservedOn t = y.reservedOn t := by
  unfold Hose.reservedOn; rw [hs]
  cases hx : x.grant <;> cases hy : y.grant <;> simp [hx, hy, Grant.core] at h ⊢
  obtain ⟨-, h1, h2⟩ := h
  rw [h1, h2]

/-! ### The host parts that the store's writes leave -/

/-- A host part is placed at its index. -/
def placeHost (f : VehicleId → HostPart) (p : PlacedRecord) : VehicleId → HostPart :=
  fun v => if v = p.vehicle then p.host else f v

/-- The host parts after a write. -/
def StoreWrite.hosts (f : VehicleId → HostPart) : StoreWrite → VehicleId → HostPart
  | .vehicles ps => ps.foldl placeHost f
  | _ => f

/-- A write places no host part. -/
def StoreWrite.plain : StoreWrite → Bool
  | .vehicles _ => false
  | _ => true

theorem StoreWrite.hosts_plain {x : StoreWrite} (h : x.plain = true) (f : VehicleId → HostPart) : x.hosts f = f := by
  cases x <;> first | rfl | simp [StoreWrite.plain] at h

theorem storePlaced_sound (p : PlacedRecord) {st : Stored} (h : st.vehiclesSound = true) :
    (storePlaced p st).vehiclesSound = true := Sparse.wf_set p.vehicle.isLt h

theorem setVehicle_host {st : Stored} (h : st.vehiclesSound = true) (v : VehicleId) (x : StoredVehicle) (u : VehicleId) :
    ((st.setVehicle v x).vehicle u).host = if u = v then x.host else (st.vehicle u).host := by
  by_cases e : u = v
  · subst e; simp only [if_true, Stored.vehicle, Stored.setVehicle]; rw [Sparse.get_set_self h]
  · simp only [e, if_false, Stored.vehicle, Stored.setVehicle]
    rw [Sparse.get_set_ne fun c => e (Fin.ext c)]

theorem storePlaced_host {st : Stored} (h : st.vehiclesSound = true) (p : PlacedRecord) :
    (fun u => ((storePlaced p st).vehicle u).host) = placeHost (fun u => (st.vehicle u).host) p := by
  funext u; unfold storePlaced; rw [setVehicle_host h]; rfl

theorem applyWrite_hosts {st : Stored} (h : st.vehiclesSound = true) (x : StoreWrite) :
    (applyWrite x st).vehiclesSound = true ∧
      (fun u => ((applyWrite x st).vehicle u).host) = x.hosts fun u => (st.vehicle u).host := by
  have one : ∀ (v : VehicleId) (y : StoredVehicle), y.host = (st.vehicle v).host →
      (st.setVehicle v y).vehiclesSound = true ∧
        (fun u => ((st.setVehicle v y).vehicle u).host) = fun u => (st.vehicle u).host := fun v y hy =>
    ⟨Sparse.wf_set v.isLt h, by
      funext u; rw [setVehicle_host h]; by_cases e : u = v
      · subst e; simp [hy]
      · simp [e]⟩
  cases x with
  | vehicles ps =>
    induction ps generalizing st with
    | nil => exact ⟨h, rfl⟩
    | cons p rest ih =>
      have hp := storePlaced_sound p h
      have := ih hp (fun v y hy => ⟨Sparse.wf_set v.isLt hp, by
        funext u; rw [setVehicle_host hp]; by_cases e : u = v
        · subst e; simp [hy]
        · simp [e]⟩)
      refine ⟨this.1, this.2.trans ?_⟩
      rw [storePlaced_host h]; rfl
  | usage v u => exact one v _ rfl
  | hours v u n => exact one v _ rfl
  | service v m n u => exact one v _ rfl
  | _ => exact ⟨h, rfl⟩

theorem after_hosts {st : Stored} (h : st.vehiclesSound = true) (ws : List StoreWrite) :
    (st.after ws).vehiclesSound = true ∧
      (fun u => ((st.after ws).vehicle u).host) = ws.foldl StoreWrite.hosts fun u => (st.vehicle u).host := by
  induction ws generalizing st with
  | nil => exact ⟨h, rfl⟩
  | cons x rest ih =>
    obtain ⟨h1, h2⟩ := applyWrite_hosts h x
    obtain ⟨h3, h4⟩ := ih h1
    exact ⟨h3, h4.trans (by rw [h2]; rfl)⟩

theorem after_host {st : Stored} (h : st.vehiclesSound = true) (ws : List StoreWrite) (v : VehicleId) :
    ((st.after ws).vehicle v).host = (ws.foldl StoreWrite.hosts fun u => (st.vehicle u).host) v :=
  congrFun (after_hosts h ws).2 v

theorem applyWrite_area (x : StoreWrite) (st : Stored) : (applyWrite x st).area = st.area := by
  cases x with
  | vehicles ps =>
    unfold applyWrite; dsimp only
    induction ps generalizing st with
    | nil => rfl
    | cons p rest ih => exact (ih (storePlaced p st)).trans rfl
  | _ => rfl

/-! ### Updates that no aspect watches -/

/-- The watched parts of the state are the same in two states. -/
structure SameKept (s t : State) : Prop where
  phase : t.phase = s.phase
  inputs : t.inputs = s.inputs
  hoses : t.hoses = s.hoses
  cals : t.cals = s.cals
  tanks : t.tanks = s.tanks
  pumps : t.pumps = s.pumps
  slot : t.slotHolder = s.slotHolder
  vehicles : t.vehicles = s.vehicles
  journal : t.journal = s.journal
  link : t.link = s.link
  store : t.store = s.store

variable {w : Watch} {s : State}

namespace Kept

theorem other (h : Kept w s) (t : State) (e : SameKept s t) : Kept w t := by
  obtain ⟨h1, h2, h3, h4, h5, h6, h7, h8, h9, h10, h11⟩ := e
  cases s; cases t
  dsimp only at h1 h2 h3 h4 h5 h6 h7 h8 h9 h10 h11
  subst h1 h2 h3 h4 h5 h6 h7 h8 h9 h10 h11
  obtain ⟨a1, a2, a3, a4, a5, a6, a7, a8, a9, a10, a11, a12, a13, a14, a15, a16, a17, a18⟩ := h
  exact ⟨a1, a2, fun c => let ⟨b1, b2, b3, b4⟩ := a3 c; ⟨b1, b2, b3, b4⟩, a4, a5, a6,
    fun c d => let ⟨b1, b2, b3⟩ := a7 c d; ⟨b1, b2, b3⟩, a8, a9, a10, a11, a12, a13, a14, a15, a16, a17, a18⟩

@[simp] theorem setEngine (h : Kept w s) (i : HoseId) (x : Engine) : Kept w (s.setEngine i x) :=
  .other h _ ⟨rfl, rfl, rfl, rfl, rfl, rfl, rfl, rfl, rfl, rfl, rfl⟩
@[simp] theorem setProduct (h : Kept w s) (i : ProductId) (x : Product) : Kept w (s.setProduct i x) :=
  .other h _ ⟨rfl, rfl, rfl, rfl, rfl, rfl, rfl, rfl, rfl, rfl, rfl⟩
@[simp] theorem setClass (h : Kept w s) (i : ClassId) (x : ClassRecord) : Kept w (s.setClass i x) :=
  .other h _ ⟨rfl, rfl, rfl, rfl, rfl, rfl, rfl, rfl, rfl, rfl, rfl⟩
@[simp] theorem setLoad (h : Kept w s) (x : Option Nat) : Kept w (s.setLoad x) :=
  .other h _ ⟨rfl, rfl, rfl, rfl, rfl, rfl, rfl, rfl, rfl, rfl, rfl⟩
@[simp] theorem setClock (h : Kept w s) (x : SiteClock) : Kept w (s.setClock x) :=
  .other h _ ⟨rfl, rfl, rfl, rfl, rfl, rfl, rfl, rfl, rfl, rfl, rfl⟩
@[simp] theorem setDueList (h : Kept w s) (x : List VehicleId) : Kept w (s.setDueList x) :=
  .other h _ ⟨rfl, rfl, rfl, rfl, rfl, rfl, rfl, rfl, rfl, rfl, rfl⟩
@[simp] theorem setDueRevision (h : Kept w s) (n : Nat) : Kept w (s.setDueRevision n) :=
  .other h _ ⟨rfl, rfl, rfl, rfl, rfl, rfl, rfl, rfl, rfl, rfl, rfl⟩

/-! ### Weaker watches -/


/-- An aspect may be left open. -/
theorem weaken (h : Kept w s) {v : Watch} (hr : w.room ≤ v.room) (hg : v.grants = true → w.grants = true)
    (hd : v.demand = true → w.demand = true) (hl : v.slot = true → w.slot = true)
    (hm : v.segments = true → w.segments = true) (hs : v.spare = true → w.spare = true) (hi : v.levels = true → w.levels = true) (hp : v.placed = w.placed) :
    Kept v s :=
  { h with
    grants := fun c => h.grants (hg c), demand := fun c => h.demand (hd c), slot := fun c => h.slot (hl c)
    levels := fun c => h.levels (hi c), sealed := fun c => h.sealed (hi c), replies := h.replies.trans hr
    segments := fun c => h.segments (hm c), spare := fun c => h.spare (hs c), order := by rw [hp]; exact h.order
    live := fun c => h.live (hp ▸ c) }

/-! ### Updates of the watched parts -/

/-- A hose keeps what its grant contributes. -/
structure HoseKeeps (x y : Hose) : Prop where
  core : y.grant.map Grant.core = x.grant.map Grant.core
  idle : y.grant = none ↔ y.state = .idle
  ready : y.state = .ready → x.state = .ready ∧ y.grant = x.grant
  reserves : y.state.reserves = x.state.reserves

theorem setHose (h : Kept w s) (i : HoseId) (x : Hose) (hg : w.grants = true → HoseKeeps (s.hose i) x)
    (hd : w.demand = true → ∀ t, x.demandOn t = (s.hose i).demandOn t) : Kept w (s.setHose i x) :=
  { h with
    levels := fun c d => let ⟨b1, b2, b3⟩ := h.levels c d; ⟨b1, b2, b3⟩
    grants := fun c => by
      obtain ⟨a, b, r, e⟩ := h.grants c
      obtain ⟨k1, k2, k3, k4⟩ := hg c
      refine ⟨fun k => ?_, fun v k => ?_, fun k g => ?_, fun t => ?_⟩
      · by_cases hk : k = i
        · subst hk; simpa using k2
        · rw [State.setHose_hose_ne _ _ hk]; exact a k
      · by_cases hk : k = i
        · subst hk
          show (s.vehicle v).binding = _ ↔ _
          rw [b v k, State.setHose_hose_self]
          cases hx : x.grant <;> cases hy : (s.hose k).grant <;> simp [hx, hy, Grant.core] at k1 ⊢
          rw [k1.1]
        · rw [State.setHose_hose_ne _ _ hk]; exact b v k
      · by_cases hk : k = i
        · subst hk
          rw [State.setHose_hose_self]
          intro h1 h2
          obtain ⟨h3, h4⟩ := k3 h1
          exact r k g h3 (h4 ▸ h2)
        · rw [State.setHose_hose_ne _ _ hk]; exact r k g
      · have := s.reservedOn_setHose i x t
        rw [Hose.reservedOn_core k1 k4] at this
        show (s.tank t).reserved = _
        rw [e t]; omega
    demand := fun c t => by
      have := s.demandOn_setHose i x t
      rw [hd c t] at this
      show (s.pump t).demand = _
      rw [h.demand c t]; omega }

@[simp] theorem setHose_same (h : Kept w s) (i : HoseId) (x : Hose) (hs : x.state = (s.hose i).state)
    (hg : x.grant = (s.hose i).grant) (hc : x.config.tank = (s.hose i).config.tank) : Kept w (s.setHose i x) :=
  setHose h i x (fun c => ⟨by rw [hg], by rw [hg, hs]; exact (h.grants c).idle i, fun c => ⟨hs ▸ c, hg⟩, by rw [hs]⟩)
    fun _ t => by simp only [Hose.demandOn, hs, hc]

/-- A hose passes among the states that count toward the demand. -/
theorem setHose_moved (h : Kept w s) (i : HoseId) (x : Hose) (ho : (s.hose i).state.demands = true)
    (hs : x.state.demands = true) (hg : x.grant = (s.hose i).grant) (hc : x.config.tank = (s.hose i).config.tank) :
    Kept w (s.setHose i x) :=
  setHose h i x
    (fun c => ⟨by rw [hg], by
      rw [hg, (h.grants c).idle i]
      exact ⟨fun e => absurd (e ▸ ho) (by decide), fun e => absurd (e ▸ hs) (by decide)⟩,
      fun c => absurd (c ▸ hs) (by decide), by
        have r : ∀ a : HoseState, a.demands = true → a.reserves = true := by intro a ha; cases a <;> first | rfl | cases ha
        rw [r _ ho, r _ hs]⟩)
    fun _ t => by simp only [Hose.demandOn, ho, hs, hc]

@[simp] theorem setCal_kept (h : Kept w s) (i : HoseId) (x : Calibration) (hx : x.opened = (s.cal i).opened) :
    Kept w (s.setCal i x) :=
  have e : ∀ k, ((s.setCal i x).cal k).opened = (s.cal k).opened := fun k => by
    by_cases hk : k = i
    · subst hk; simpa using hx
    · rw [State.setCal_cal_ne _ _ hk]
  { h with
    levels := fun c d => let ⟨b1, b2, b3⟩ := h.levels c d; ⟨b1, b2, b3⟩
    sealed := fun c d f k => (e k).trans (h.sealed c d f k)
    resealed := fun c k => (e k).trans (h.resealed c k)
    grants := fun c => let ⟨b1, b2, b3, b4⟩ := h.grants c; ⟨b1, b2, b3, b4⟩ }

@[simp] theorem setTank (h : Kept w s) (t : TankId) (x : Tank)
    (hx : x.reserved = (s.tank t).reserved) : Kept w (s.setTank t x) :=
  { h with
    levels := fun c d => let ⟨b1, b2, b3⟩ := h.levels c d; ⟨b1, b2, b3⟩
    grants := fun c => by
      obtain ⟨a, b, r, e⟩ := h.grants c
      refine ⟨a, b, r, fun k => ?_⟩
      show _ = s.reservedOn k
      by_cases hk : k = t
      · subst hk; rw [State.setTank_tank_self, hx]; exact e k
      · rw [State.setTank_tank_ne _ _ hk]; exact e k }

/-- A tank's reserved volume changes while the grants are left open. -/
theorem setTank_open (h : Kept w s) (hw : w.grants = false) (t : TankId) (x : Tank) : Kept w (s.setTank t x) :=
  { h with
    levels := fun c d => let ⟨b1, b2, b3⟩ := h.levels c d; ⟨b1, b2, b3⟩
    grants := fun c => by rw [hw] at c; cases c }

theorem setPump (h : Kept w s) (t : TankId) (x : Pump) (hd : w.demand = true → x.demand = (s.pump t).demand)
    (hs : w.slot = true → (x.state = .starting ↔ (s.pump t).state = .starting))
    (hp : w.levels = true → x.pressureUp = (s.pump t).pressureUp) : Kept w (s.setPump t x) :=
  { h with
    grants := fun c => let ⟨b1, b2, b3, b4⟩ := h.grants c; ⟨b1, b2, b3, b4⟩
    levels := fun c d => by
      obtain ⟨b1, b2, b3⟩ := h.levels c d
      refine ⟨b1, b2, fun k => ?_⟩
      by_cases hk : k = t
      · subst hk; rw [State.setPump_pump_self, hp c]; exact b3 k
      · rw [State.setPump_pump_ne _ _ hk]; exact b3 k
    demand := fun c k => by
      show _ = s.demandOn k
      by_cases hk : k = t
      · subst hk; rw [State.setPump_pump_self, hd c]; exact h.demand c k
      · rw [State.setPump_pump_ne _ _ hk]; exact h.demand c k
    slot := fun c k => by
      show s.slotHolder = _ ↔ _
      by_cases hk : k = t
      · subst hk; rw [State.setPump_pump_self, hs c]; exact h.slot c k
      · rw [State.setPump_pump_ne _ _ hk]; exact h.slot c k }

@[simp] theorem setPump_kept (h : Kept w s) (t : TankId) (x : Pump) (hd : x.demand = (s.pump t).demand)
    (hs : x.state = .starting ↔ (s.pump t).state = .starting)
    (hp : x.pressureUp = (s.pump t).pressureUp) : Kept w (s.setPump t x) :=
  setPump h t x (fun _ => hd) (fun _ => hs) fun _ => hp

theorem setVehicle (h : Kept w s) (v : VehicleId) (x : Vehicle)
    (hb : w.grants = true → x.binding = (s.vehicle v).binding)
    (hh : x.host = (s.vehicle v).host) : Kept w (s.setVehicle v x) := by
  have e : ∀ u, ((s.setVehicle v x).vehicle u).host = (s.vehicle u).host := fun u => by
    by_cases hu : u = v
    · subst hu; rw [State.setVehicle_vehicle_self h.vehicles, hh]
    · rw [State.setVehicle_vehicle_ne hu]
  exact { h with
    vehicles := State.setVehicle_sound h.vehicles
    levels := fun c d => let ⟨b1, b2, b3⟩ := h.levels c d; ⟨b1, b2, b3⟩
    grants := fun c => by
      obtain ⟨b1, b2, b3, b4⟩ := h.grants c
      refine ⟨b1, fun u k => ?_, b3, b4⟩
      show _ ↔ ∃ g, (s.hose k).grant = some g ∧ g.vehicle = u
      by_cases hu : u = v
      · subst hu; rw [State.setVehicle_vehicle_self h.vehicles, hb c]; exact b2 u k
      · rw [State.setVehicle_vehicle_ne hu]; exact b2 u k
    working := by simp only [e]; exact h.working
    order := fun c u => (h.order c u).trans (e u).symm }

@[simp] theorem setVehicle_kept (h : Kept w s) (v : VehicleId) (x : Vehicle) (hb : x.binding = (s.vehicle v).binding)
    (hh : x.host = (s.vehicle v).host) : Kept w (s.setVehicle v x) := setVehicle h v x (fun _ => hb) hh

theorem setJournal (h : Kept w s) (j : Journal)
    (hs : w.segments = true → s.phase.isReset = false → s.journal.SegmentsSound → j.SegmentsSound)
    (hr : w.spare = true → s.phase.isReset = false → s.journal.spare → j.spare) : Kept w (s.setJournal j) :=
  { h with
    grants := fun c => let ⟨b1, b2, b3, b4⟩ := h.grants c; ⟨b1, b2, b3, b4⟩
    levels := fun c d => let ⟨b1, b2, b3⟩ := h.levels c d; ⟨b1, b2, b3⟩
    segments := fun c d => hs c d (h.segments c d)
    spare := fun c d => hr c d (h.spare c d) }

theorem free_congr {j k : Journal} (h : j.segments = k.segments) : j.free = k.free := by
  simp only [Journal.free, Journal.active, Journal.countState, Journal.segment, h]; rfl

theorem segmentsSound_congr {j k : Journal} (h : j.segments = k.segments) (he : j.erase = k.erase)
    (hk : k.SegmentsSound) : j.SegmentsSound := by
  have e : ∀ g, j.segment g = k.segment g := fun g => by simp only [Journal.segment, h]
  obtain ⟨a, b, c, d⟩ := hk
  exact ⟨fun g n => by rw [e g, e n]; exact a g n, fun g => by rw [e g]; exact b g, fun g => by rw [e g]; exact c g,
    fun g => by rw [e g, he]; exact d g⟩

@[simp] theorem setJournal_kept (h : Kept w s) (j : Journal) (hs : j.segments = s.journal.segments)
    (he : j.erase = s.journal.erase) (hf : j.faulted = s.journal.faulted)
    (hr : j.reservations = s.journal.reservations) : Kept w (s.setJournal j) :=
  setJournal h j (fun _ _ a => segmentsSound_congr hs he a) fun _ _ a => by
    unfold Journal.spare; rw [hf, hr, free_congr hs]; exact a

/-- The link is replaced. -/
theorem setLink (h : Kept w s) (l : Link) (ha : l.attention = (s.phase.live && !l.events.isEmpty))
    (hw : l.rxQueue.length ≤ 4) (hr : l.tx.length + (if l.held.isSome then 1 else 0) ≤ w.room)
    (hi : w.levels = true → s.phase = .running → l.inspection = s.link.inspection ∧ l.estop = s.link.estop) :
    Kept w (s.setLink l) :=
  { h with
    grants := fun c => let ⟨b1, b2, b3, b4⟩ := h.grants c; ⟨b1, b2, b3, b4⟩
    levels := fun c d => by
      obtain ⟨b1, b2, b3⟩ := h.levels c d
      obtain ⟨i1, i2⟩ := hi c d
      exact ⟨i1.trans b1, i2.trans b2, b3⟩
    attention := ha, waiting := hw, replies := hr }

@[simp] theorem setLink_kept (h : Kept w s) (l : Link) (he : l.events = s.link.events)
    (ha : l.attention = s.link.attention) (hq : l.rxQueue = s.link.rxQueue) (ht : l.tx = s.link.tx)
    (hh : l.held.isSome = s.link.held.isSome) (hi : l.inspection = s.link.inspection)
    (hs : l.estop = s.link.estop) : Kept w (s.setLink l) :=
  setLink h l (by rw [he, ha]; exact h.attention) (by rw [hq]; exact h.waiting) (by rw [ht, hh]; exact h.replies)
    fun _ _ => ⟨hi, hs⟩

@[simp] theorem raise (h : Kept w s) (k : EventKey) (d : Detail) : Kept w (Machine.raise k d s) := by
  unfold Machine.raise; dsimp only
  refine setLink h _ ?_ h.waiting h.replies fun _ _ => ⟨rfl, rfl⟩
  dsimp only
  rw [h.attention]
  have ne : (if s.link.events.any (fun e => decide (e.key = k)) then
      s.link.events.map fun e => if e.key = k then
        { e with count := min Config.raiseLimit (e.count + 1), detail := d } else e
    else s.link.events ++ [{ key := k, first := recordedTime s, count := 1, detail := d }]).isEmpty = false := by
    split
    · rename_i hc
      cases hE : s.link.events with
      | nil => rw [hE] at hc; simp at hc
      | cons a b => rfl
    · simp
  rw [ne]; cases s.phase.live <;> simp

/-- The store is replaced by one that holds the same and lets the same host parts follow. -/
theorem setStore (h : Kept w s) (x : Store) (hv : x.stored.vehiclesSound = true) (ha : x.stored.areaSound)
    (ht : ∀ n, tagsDistinct fun v => ((x.stored.after (x.waiting.take n)).vehicle v).host)
    (ho : s.phase.isReset = false → ∀ v,
      ((x.stored.after (x.waiting ++ [.vehicles w.placed])).vehicle v).host = (s.vehicle v).host) :
    Kept w (s.setStore x) :=
  { h with
    grants := fun c => let ⟨b1, b2, b3, b4⟩ := h.grants c; ⟨b1, b2, b3, b4⟩
    levels := fun c d => let ⟨b1, b2, b3⟩ := h.levels c d; ⟨b1, b2, b3⟩
    stored := hv, area := ha, tags := ht, order := ho }

@[simp] theorem beginWrite (h : Kept w s) (x : StoreWrite) (hx : x.plain = true) : Kept w (Machine.beginWrite x s) := by
  have hh := StoreWrite.hosts_plain hx
  refine setStore h _ h.stored h.area (fun n => ?_) fun c v => ?_
  · have e : Store.waiting { s.store with queue := s.store.queue ++ [x] } = s.store.waiting ++ [x] := by
      simp [Store.waiting]
    rw [e]
    have hn := h.tags n
    simp only [after_host h.stored] at hn ⊢
    rw [List.take_append]
    rcases Nat.lt_or_ge s.store.waiting.length n with hl | hl
    · have : [x].take (n - s.store.waiting.length) = [x] := List.take_of_length_le (by simp; omega)
      rw [this, List.foldl_append]; simpa [hh] using hn
    · have : [x].take (n - s.store.waiting.length) = [] := by rw [Nat.sub_eq_zero_of_le hl]; rfl
      rw [this, List.append_nil]; exact hn
  · have := h.order c v
    rw [after_host h.stored] at this
    show ((s.store.stored.after _).vehicle v).host = _
    rw [after_host h.stored, ← this]
    simp [Store.waiting, List.foldl_append, hh]

/-- The records placed begin their store write. -/
theorem beginPlaced (h : Kept w s) (hp : w.placed ≠ []) :
    Kept { w with placed := [] } (Machine.beginWrite (.vehicles w.placed) s) := by
  have hr := h.live hp
  have e : (Machine.beginWrite (.vehicles w.placed) s).store.waiting
      = s.store.waiting ++ [.vehicles w.placed] := by simp [Store.waiting, Machine.beginWrite]
  have ho : ∀ v, ((s.store.stored.after (s.store.waiting ++ [.vehicles w.placed])).vehicle v).host
      = (s.vehicle v).host := h.order hr
  exact { h with
    grants := fun c => let ⟨b1, b2, b3, b4⟩ := h.grants c; ⟨b1, b2, b3, b4⟩
    levels := fun c d => let ⟨b1, b2, b3⟩ := h.levels c d; ⟨b1, b2, b3⟩
    tags := fun n => by
      show tagsDistinct fun v => ((s.store.stored.after ((Machine.beginWrite (.vehicles w.placed) s).store.waiting.take n)).vehicle v).host
      rw [e, List.take_append]
      rcases Nat.lt_or_ge s.store.waiting.length n with hl | hl
      · have : [StoreWrite.vehicles w.placed].take (n - s.store.waiting.length) = [.vehicles w.placed] :=
          List.take_of_length_le (by simp; omega)
        rw [this, List.take_of_length_le (Nat.le_of_lt hl)]
        simp only [ho]; exact h.working
      · have : [StoreWrite.vehicles w.placed].take (n - s.store.waiting.length) = [] := by
          rw [Nat.sub_eq_zero_of_le hl]; rfl
        rw [this, List.append_nil]; exact h.tags n
    order := fun _ v => by
      show ((s.store.stored.after ((Machine.beginWrite (.vehicles w.placed) s).store.waiting ++ [.vehicles []])).vehicle v).host = _
      rw [e, after_host h.stored, List.foldl_append]
      exact (after_host h.stored _ v).symm.trans (ho v)
    live := fun c => absurd rfl c }

/-- A chain over a list keeps what each of its steps keeps. -/
theorem forAll {α : Type} {f : α → State → State} (hf : ∀ x s, Kept w s → Kept w (f x s)) (xs : List α) :
    ∀ s, Kept w s → Kept w (Machine.forAll xs f s) := by
  induction xs with
  | nil => intro s h; exact h
  | cons x rest ih => intro s h; exact ih _ (hf x s h)

end Kept

end Sys2Proof.Machine
end

