-- ==== Sys2Proof/Laws/KeptJournal.lean ====
section
/-! SUPPORT. The journal's counts under a change of one segment, and what the operations on reservations and segments
keep: a journal that is not FAULTED has a free slot for every reservation. -/

namespace Sys2Proof.Machine

open Sys2Proof

/-! ### Counts of segments -/

theorem filter_length_update {α : Type} [DecidableEq α] {p q : α → Bool} {g : α} (h : ∀ k, k ≠ g → p k = q k) :
    ∀ l : List α, l.Nodup → g ∈ l → (l.filter p).length + (q g).toNat = (l.filter q).length + (p g).toNat := by
  have away : ∀ l : List α, g ∉ l → l.filter p = l.filter q := fun l hl =>
    List.filter_congr fun x hx => h x fun e => hl (e ▸ hx)
  intro l
  induction l with
  | nil => intro _ hm; cases hm
  | cons a rest ih =>
    intro hn hm
    obtain ⟨ha, hr⟩ := List.nodup_cons.mp hn
    by_cases e : a = g
    · subst e
      have := away rest ha
      cases hp : p a <;> cases hq : q a <;> simp [hp, hq, this]
    · have hm' : g ∈ rest := (List.mem_cons.mp hm).resolve_left fun c => e c.symm
      have := ih hr hm'
      have hpq := h a e
      cases hq : q a <;> simp [hpq, hq] <;> omega

@[simp] theorem Journal.segment_setSegment (j : Journal) (g k : SegmentId) (x : Segment) :
    (j.setSegment g x).segment k = if k = g then x else j.segment k := by
  by_cases h : k = g
  · subst h; simp [Journal.segment, Journal.setSegment, upd_get_self]
  · simp only [h, if_false, Journal.segment, Journal.setSegment]; exact upd_get_ne _ _ h

theorem Journal.countState_setSegment (j : Journal) (g : SegmentId) (x : Segment) (st : SegmentState) :
    (j.setSegment g x).countState st + (if (j.segment g).state = st then 1 else 0)
      = j.countState st + (if x.state = st then 1 else 0) := by
  have := filter_length_update (p := fun k => decide (((j.setSegment g x).segment k).state = st))
    (q := fun k => decide ((j.segment k).state = st)) (g := g) (fun k hk => by simp [hk]) allSegments
    (List.nodup_finRange 32) (List.mem_finRange g)
  simp only [Journal.segment_setSegment, if_true] at this
  unfold Journal.countState
  by_cases h1 : (j.segment g).state = st <;> by_cases h2 : x.state = st <;> simp [h1, h2] at this ⊢ <;> omega

theorem Journal.free_none {j : Journal} (h : ∀ g, (j.segment g).state ≠ .active) : j.free = 64 * j.countState .free := by
  have : j.active = none := by
    unfold Journal.active; rw [List.find?_eq_none]; intro g _; simp [h g]
  unfold Journal.free; rw [this]; simp [Config.slotsPerSegment]

theorem Journal.active_of {j : Journal} {g : SegmentId}
    (one : ∀ g k : SegmentId, (j.segment g).state = .active → (j.segment k).state = .active → g = k)
    (hg : (j.segment g).state = .active) : j.active = some g := by
  unfold Journal.active
  cases hf : allSegments.find? fun k => decide ((j.segment k).state = .active) with
  | none => rw [List.find?_eq_none] at hf; simpa [hg] using hf g (List.mem_finRange g)
  | some k => have := List.find?_some hf; simp at this; rw [one k g this hg]

theorem Journal.active_none {j : Journal} (h : j.active = none) (g : SegmentId) : (j.segment g).state ≠ .active := by
  unfold Journal.active at h; rw [List.find?_eq_none] at h; simpa using h g (List.mem_finRange g)

theorem Journal.free_active {j : Journal} {g : SegmentId}
    (one : ∀ g k : SegmentId, (j.segment g).state = .active → (j.segment k).state = .active → g = k)
    (hg : (j.segment g).state = .active) :
    j.free = (64 - (j.segment g).slots.length) + 64 * j.countState .free := by
  unfold Journal.free; rw [Journal.active_of one hg]

/-- A segment that is neither ACTIVE nor FREE and stays so changes no free slot. -/
theorem Journal.free_setSegment_other {j : Journal} (one : ∀ g k : SegmentId,
      (j.segment g).state = .active → (j.segment k).state = .active → g = k) (g : SegmentId) (x : Segment)
    (h1 : (j.segment g).state ≠ .active) (h2 : (j.segment g).state ≠ .free) (h3 : x.state ≠ .active)
    (h4 : x.state ≠ .free) : (j.setSegment g x).free = j.free := by
  have hc := j.countState_setSegment g x .free
  simp only [h2, h4, if_false] at hc
  by_cases ha : ∃ k, (j.segment k).state = .active
  · obtain ⟨k, hk⟩ := ha
    have hkg : k ≠ g := fun e => h1 (e ▸ hk)
    have hs : ((j.setSegment g x).segment k) = j.segment k := by simp [hkg]
    rw [Journal.free_active one hk, Journal.free_active (g := k) ?_ (by rw [hs]; exact hk), hs]
    · omega
    · intro a b; simp only [Journal.segment_setSegment]; split <;> split
      · exact fun _ c => absurd c h3
      · exact fun c => absurd c h3
      · exact fun _ c => absurd c h3
      · exact one a b
  · have hn : ∀ k, (j.segment k).state ≠ .active := fun k hk => ha ⟨k, hk⟩
    rw [Journal.free_none hn, Journal.free_none]
    · omega
    · intro k; simp only [Journal.segment_setSegment]; split
      · exact h3
      · exact hn k

/-- What the segments are like, but for the room of the ACTIVE one, which may be used to its last slot. -/
structure Journal.SegmentsLoose (j : Journal) : Prop where
  one : ∀ g k : SegmentId, (j.segment g).state = .active → (j.segment k).state = .active → g = k
  blank : ∀ g : SegmentId, (j.segment g).state = .free → (j.segment g).slots = []
  erasing : ∀ g : SegmentId, j.erase = some g → (j.segment g).state = .erasing

theorem Journal.SegmentsSound.loose {j : Journal} (h : j.SegmentsSound) : j.SegmentsLoose :=
  ⟨h.one, h.blank, h.erasing⟩

/-- A FREE segment of a journal without an ACTIVE one becomes ACTIVE: the free slots are the same. -/
theorem Journal.activate_law {j : Journal} (h : j.SegmentsLoose) (hn : ∀ k, (j.segment k).state ≠ .active)
    {g : SegmentId} (hg : (j.segment g).state = .free) :
    (j.setSegment g { j.segment g with state := .active }).SegmentsSound ∧
      (j.setSegment g { j.segment g with state := .active }).free = j.free := by
  have hs := h.blank g hg
  have one : ∀ a b : SegmentId, ((j.setSegment g { j.segment g with state := .active }).segment a).state = .active →
      ((j.setSegment g { j.segment g with state := .active }).segment b).state = .active → a = b := by
    intro a b; simp only [Journal.segment_setSegment]; split <;> split
    · rename_i e f; intro _ _; rw [e, f]
    · exact fun _ c => absurd c (hn b)
    · exact fun c => absurd c (hn a)
    · exact fun c => absurd c (hn a)
  refine ⟨⟨one, fun a => ?_, fun a => ?_, fun a ha => ?_⟩, ?_⟩
  · simp only [Journal.segment_setSegment]; split
    · rw [show ({ j.segment g with state := SegmentState.active } : Segment).slots = [] from hs]; simp
    · exact fun c => absurd c (hn a)
  · simp only [Journal.segment_setSegment]; split
    · exact fun c => by cases c
    · exact h.blank a
  · have : (j.segment a).state = .erasing := h.erasing a ha
    have : a ≠ g := fun e => by rw [e, hg] at this; cases this
    simpa [this] using h.erasing a ha
  · have hc := j.countState_setSegment g { j.segment g with state := .active } .free
    rw [if_pos hg, if_neg (by simp)] at hc
    rw [Journal.free_active one (g := g) (by simp), Journal.free_none hn, Journal.segment_setSegment, if_pos rfl]
    simp only [hs, List.length_nil] at hc ⊢
    omega

variable {w : Watch} {s : State}

namespace Kept

/-! ### Reservations and the FAULTED state -/

/-- A journal is replaced by one that establishes the aspects of the journal. -/
theorem settleJournal (h : Kept { w with segments := false, spare := false } s) (j : Journal)
    (hs : w.segments = true → s.phase.isReset = false → j.SegmentsSound)
    (hr : w.spare = true → s.phase.isReset = false → j.spare) : Kept w (s.setJournal j) :=
  { h with
    grants := fun c => let ⟨b1, b2, b3, b4⟩ := h.grants c; ⟨b1, b2, b3, b4⟩
    levels := fun c d => let ⟨b1, b2, b3⟩ := h.levels c d; ⟨b1, b2, b3⟩
    segments := hs, spare := hr }

/-- The journal's aspects left open. -/
theorem loosen (h : Kept w s) : Kept { w with segments := false, spare := false } s :=
  h.weaken (le_refl _) id id id (fun c => by cases c) (fun c => by cases c) id rfl

/-- The reservations left open. -/
theorem unspared (h : Kept w s) : Kept { w with spare := false } s :=
  h.weaken (le_refl _) id id id id (fun c => by cases c) id rfl

/-- The reservations are covered. -/
theorem spared (h : Kept { w with spare := false } s) (hr : w.spare = true → s.phase.isReset = false → s.journal.spare) :
    Kept w s := { h with spare := hr }

theorem takeReservation (h : Kept w s) (hr : w.spare = true → s.journal.reservations + 1 ≤ s.journal.free) :
    Kept w (Machine.takeReservation s) :=
  setJournal h _ (fun _ _ a => segmentsSound_congr (k := s.journal) rfl rfl a) fun c _ _ _ =>
    le_of_le_of_eq (hr c) (free_congr (k := s.journal) rfl).symm

@[simp] theorem joinQueue (h : Kept w s) (r : Record) : Kept w (Machine.joinQueue r s) :=
  setJournal_kept h _ rfl rfl rfl rfl

@[simp] theorem finishHeld (h : Kept w s) (st : StatusCode) (b : ReplyBody) : Kept w (Machine.finishHeld st b s) := by
  unfold Machine.finishHeld; split
  · exact h
  · rename_i q hq
    have := h.replies
    rw [hq] at this
    exact setLink h _ h.attention h.waiting (by simpa using this) fun _ _ => ⟨rfl, rfl⟩

@[simp] theorem releaseHeldEarly (h : Kept w s) : Kept w (Machine.releaseHeldEarly s) := by
  unfold Machine.releaseHeldEarly; repeat' split
  all_goals first | exact h | exact finishHeld h _ _

theorem enterFaulted (h : Kept { w with spare := false } s) : Kept w (Machine.enterFaulted s) := by
  refine raise (releaseHeldEarly ?_) _ _
  exact spared (setJournal h _ (fun _ _ a => segmentsSound_congr (k := s.journal) rfl rfl a) fun c => by cases c)
    fun _ _ c => by cases c

theorem faultTest (h : Kept { w with spare := false } s) : Kept w (Machine.faultTest s) := by
  unfold Machine.faultTest; split
  · exact enterFaulted h
  · rename_i hc
    refine spared h fun _ _ hf => ?_
    simp only [hf] at hc
    simp at hc; exact hc

@[simp] theorem recoverTest (h : Kept w s) : Kept w (Machine.recoverTest s) := by
  unfold Machine.recoverTest; split
  · rename_i hc
    simp only [Bool.and_eq_true, decide_eq_true_eq] at hc
    refine raise (setJournal h _ (fun _ _ a => ?_) fun _ _ _ _ => ?_) _ _
    · exact segmentsSound_congr (k := s.journal) rfl rfl a
    · exact le_of_le_of_eq hc.2 (free_congr (k := s.journal) rfl).symm
  · exact h

@[simp] theorem endReservation (h : Kept w s) : Kept w (Machine.endReservation s) :=
  recoverTest (setJournal h _ (fun _ _ a => segmentsSound_congr (k := s.journal) rfl rfl a) fun _ _ a hf => by
    exact le_of_le_of_eq ((Nat.sub_le _ _).trans (a hf)) (free_congr (k := s.journal) rfl).symm)

@[simp] theorem thresholdTest (h : Kept w s) : Kept w (Machine.thresholdTest s) := by
  unfold Machine.thresholdTest; dsimp only; repeat' split
  · exact raise (setJournal_kept h _ (by rfl) (by rfl) (by rfl) (by rfl)) _ _
  · exact setJournal_kept h _ rfl rfl rfl rfl
  · exact h

/-! ### Segments -/

/-- A FREE segment becomes ACTIVE when none is. -/
theorem activate (h : Kept { w with segments := false } s) (g : SegmentId)
    (hl : s.phase.isReset = false → s.journal.SegmentsLoose)
    (hn : s.phase.isReset = false → ∀ k, (s.journal.segment k).state ≠ .active)
    (hg : (s.journal.segment g).state = .free) : Kept w (Machine.activate g s) := by
  refine beginWrite (w := w) (settleJournal (w := w) h.loosen _ (fun _ c => ?_) fun c d e => ?_) (.highWater _) rfl
  · exact segmentsSound_congr (k := s.journal.setSegment g { s.journal.segment g with state := .active }) rfl rfl
      (Journal.activate_law (hl c) (hn c) hg).1
  · have := h.spare c d e
    exact le_of_le_of_eq this ((free_congr
      (k := s.journal.setSegment g { s.journal.segment g with state := .active }) rfl).trans
        (Journal.activate_law (hl d) (hn d) hg).2).symm

theorem activateNext (after : SegmentId) (h : Kept { w with segments := false } s)
    (hl : s.phase.isReset = false → s.journal.SegmentsLoose)
    (hn : s.phase.isReset = false → ∀ k, (s.journal.segment k).state ≠ .active) : Kept w (Machine.activateNext after s) := by
  unfold Machine.activateNext; split
  · rename_i g hg
    have := List.find?_some hg
    exact activate h g hl hn (by simpa using this)
  · exact { h with segments := fun _ c =>
      ⟨(hl c).one, fun g hg => absurd hg (hn c g), (hl c).blank, (hl c).erasing⟩ }

/-- The segment change, of a journal whose ACTIVE segment may be used to its last slot. -/
theorem segmentChange (h : Kept { w with segments := false, spare := false } s) (g : SegmentId)
    (hl : s.phase.isReset = false → s.journal.SegmentsLoose) (hg : (s.journal.segment g).state = .active)
    (hr : w.spare = true → s.phase.isReset = false → s.journal.spare) : Kept w (Machine.segmentChange g s) := by
  unfold Machine.segmentChange; dsimp only; split
  · rename_i hc
    have h' : Kept { w with segments := false } s := spared (w := { w with segments := false }) h hr
    exact { h' with segments := fun _ c =>
      ⟨(hl c).one, fun k hk => by rw [(hl c).one k g hk hg]; exact hc, (hl c).blank, (hl c).erasing⟩ }
  · have hn : s.phase.isReset = false → ∀ k : SegmentId,
        ((s.journal.setSegment g { s.journal.segment g with state := .full }).segment k).state ≠ .active := by
      intro c k; simp only [Journal.segment_setSegment]; split
      · exact fun e => by cases e
      · rename_i e; exact fun f => e ((hl c).one k g f hg)
    refine faultTest (activateNext g (w := { w with spare := false })
      (settleJournal (w := { w with segments := false, spare := false }) h _ (fun c => by cases c) fun c => by cases c)
      (fun c => ⟨fun a b ha => absurd ha (hn c a), fun a => ?_, fun a ha => ?_⟩) hn)
    · show ((s.journal.setSegment g _).segment a).state = _ → _
      simp only [State.setJournal_journal, Journal.segment_setSegment]; split
      · exact fun e => by cases e
      · exact (hl c).blank a
    · have e : (s.journal.segment a).state = .erasing := (hl c).erasing a ha
      have : a ≠ g := fun f => by rw [f, hg] at e; cases e
      simpa [this] using e

end Kept

end Sys2Proof.Machine
end

