-- ==== Sys2Proof/Laws/KeptOps.lean ====
section
/-! SUPPORT. What the operations shared by the blocks keep: replies, pumps and the start slot, the transitions of a
hose, the release of a grant, and the recomputation of a vehicle's status. -/

namespace Sys2Proof.Machine

open Sys2Proof

variable {w : Watch} {s : State}

namespace Kept

/-! ### Writes and replies -/

@[simp] theorem beginUsageWrite (h : Kept w s) (v : VehicleId) : Kept w (Machine.beginUsageWrite v s) := by
  unfold Machine.beginUsageWrite; dsimp only; split
  · exact beginWrite (setVehicle_kept h _ _ (by rfl) (by rfl)) _ rfl
  all_goals exact setVehicle_kept h _ _ (by rfl) (by rfl)

@[simp] theorem beginAckWrite (h : Kept w s) : Kept w (Machine.beginAckWrite s) := by
  unfold Machine.beginAckWrite; split
  · exact beginWrite (setJournal_kept h _ (by rfl) (by rfl) (by rfl) (by rfl)) _ rfl
  all_goals exact setJournal_kept h _ (by rfl) (by rfl) (by rfl) (by rfl)

/-- A reply takes room at the transmitter. -/
theorem pushReply (h : Kept w s) (k t : Byte) (st : StatusCode) (b : ReplyBody) :
    Kept { w with room := w.room + 1 } (Machine.pushReply k t st b s) :=
  setLink (w := { w with room := w.room + 1 })
    (h.weaken (v := { w with room := w.room + 1 }) (Nat.le_succ _) id id id id id id rfl) _ h.attention h.waiting
    (by
      have := h.replies
      simp only [List.length_append, List.length_cons, List.length_nil]
      omega) fun _ _ => ⟨rfl, rfl⟩

/-! ### Pumps -/

/-- The start slot left open. -/
theorem unslotted (h : Kept w s) : Kept { w with slot := false } s :=
  h.weaken (le_refl _) id id (fun c => by cases c) id id id rfl

/-- The demand left open. -/
theorem undemanded (h : Kept w s) : Kept { w with demand := false } s :=
  h.weaken (le_refl _) id (fun c => by cases c) id id id id rfl

/-- The grants left open. -/
theorem ungranted (h : Kept w s) : Kept { w with grants := false } s :=
  h.weaken (le_refl _) (fun c => by cases c) id id id id id rfl

theorem setSlot (h : Kept { w with slot := false } s) (t : Option TankId)
    (hs : w.slot = true → ∀ k, t = some k ↔ (s.pump k).state = .starting) : Kept w (s.setSlot t) :=
  { h with
    grants := fun c => let ⟨b1, b2, b3, b4⟩ := h.grants c; ⟨b1, b2, b3, b4⟩
    levels := fun c d => let ⟨b1, b2, b3⟩ := h.levels c d; ⟨b1, b2, b3⟩
    slot := hs }

theorem grantSlot (h : Kept { w with slot := false } s) (t : TankId)
    (hn : w.slot = true → ∀ k, (s.pump k).state ≠ .starting) : Kept w (Machine.grantSlot t s) := by
  have h' : Kept { w with slot := false } (Machine.grantSlot t s) :=
    setPump (setSlot (w := { w with slot := false }) h _ fun c => by cases c) _ _ (fun _ => rfl) (fun c => by cases c)
      fun _ => rfl
  refine { h' with slot := fun c k => ?_ }
  show some t = some k ↔ ((State.setPump _ t _).pump k).state = _
  by_cases hk : k = t
  · subst hk; simp
  · rw [State.setPump_pump_ne _ _ hk]
    simp only [Option.some.injEq]
    exact ⟨fun e => absurd e.symm hk, fun e => absurd e (hn c k)⟩

theorem requestSlot (h : Kept w s) (t : TankId) (hn : (s.pump t).state ≠ .starting) :
    Kept w (Machine.requestSlot t s) := by
  have h1 : Kept w (s.setPump t { s.pump t with state := .waiting, starter := false }) :=
    setPump h t _ (fun _ => rfl) (fun _ => ⟨fun c => (by cases c), fun c => absurd c hn⟩) fun _ => rfl
  unfold Machine.requestSlot; dsimp only; split
  · rename_i e
    refine grantSlot h1.unslotted t fun c k f => ?_
    have := (h1.slot c k).mpr f
    rw [e] at this; cases this
  · exact h1

theorem freeSlot (h : Kept { w with slot := false } s) (hn : w.slot = true → ∀ k, (s.pump k).state ≠ .starting) :
    Kept w (Machine.freeSlot s) := by
  unfold Machine.freeSlot; dsimp only; split
  · exact grantSlot (setSlot (w := { w with slot := false }) h _ fun c => by cases c) _ hn
  · exact setSlot h _ fun c k => ⟨fun e => (by cases e), fun e => absurd e (hn c k)⟩

theorem demandFallen_keeps (p : Pump) : (demandFallen p).demand = p.demand ∧ (demandFallen p).pressureUp = p.pressureUp ∧
    ((demandFallen p).state = .starting ↔ p.state = .starting) := by
  unfold demandFallen runOnOrStop; split
  · rename_i e; split <;> simp [e]
  · rename_i e; simp [e]
  all_goals simp

/-- A hose drops its demand. -/
theorem lowerDemand (h : Kept { w with demand := false } s) (t : TankId)
    (hd : w.demand = true → ∀ k, (s.pump k).demand - (if k = t then 1 else 0) = s.demandOn k) :
    Kept w (Machine.lowerDemand t s) := by
  have h' : Kept { w with demand := false } (Machine.lowerDemand t s) := by
    refine setPump h t _ (fun c => by cases c) (fun _ => ?_) fun _ => ?_
    all_goals
      split
      · have := demandFallen_keeps { s.pump t with demand := (s.pump t).demand - 1 }
        first | exact this.2.2 | exact this.2.1
      · first | exact Iff.rfl | rfl
  refine { h' with demand := fun c k => ?_ }
  show ((State.setPump _ t _).pump k).demand = s.demandOn k
  rw [← hd c k]
  by_cases hk : k = t
  · subst hk; rw [State.setPump_pump_self]; split
    · rw [(demandFallen_keeps _).1]; simp
    · simp
  · rw [State.setPump_pump_ne _ _ hk]; simp [hk]

theorem stopPumps (h : Kept w s) : Kept w (Machine.stopPumps s) :=
  { h with
    grants := fun c => let ⟨b1, b2, b3, b4⟩ := h.grants c; ⟨b1, b2, b3, b4⟩
    levels := fun c d => let ⟨b1, b2, b3⟩ := h.levels c d; ⟨b1, b2, fun t => by
      show ((vmap stopPump s.pumps).get t).pressureUp = _
      rw [vmap_get]; exact b3 t⟩
    demand := fun c t => by
      show ((vmap stopPump s.pumps).get t).demand = _
      rw [vmap_get]; exact h.demand c t
    slot := fun _ t => by
      show none = some t ↔ ((vmap stopPump s.pumps).get t).state = _
      rw [vmap_get]; simp [stopPump] }

/-! ### Transitions of a hose -/

theorem demands_counted {x : Hose} (hx : x.state.demands = true) (t : TankId) :
    x.demandOn t = if x.config.tank = t then 1 else 0 := by simp [Hose.demandOn, hx]

theorem demands_none {x : Hose} (hx : x.state.demands = false) (t : TankId) : x.demandOn t = 0 := by
  simp [Hose.demandOn, hx]

@[simp] theorem enterFlowing (h : Kept w s) (i : HoseId) (hi : (s.hose i).state.demands = true) :
    Kept w (Machine.enterFlowing i s) := raise (setHose_moved h i _ hi (by rfl) (by rfl) (by rfl)) _ _

theorem enterClosing (h : Kept w s) (i : HoseId) (r : EndReason) (hi : (s.hose i).state.demands = true) :
    Kept w (Machine.enterClosing i r s) := by
  have hidle : (s.hose i).state ≠ .idle := fun e => by rw [e] at hi; cases hi
  have h1 : ∀ x : Hose, x.state = .closing →
      x.grant = ((s.hose i).grant.map fun g => { g with endReason := some r }) → x.config = (s.hose i).config →
      Kept w (Machine.lowerDemand (s.hose i).config.tank (s.setHose i x)) := by
    intro x hx hg hc
    refine lowerDemand (setHose h.undemanded i x (fun c => ⟨?_, ?_, fun e => (by rw [hx] at e; cases e), ?_⟩)
      fun c => by cases c) _ fun c k => ?_
    · rw [hg]; cases (s.hose i).grant <;> rfl
    · rw [hg, hx, Option.map_eq_none_iff, (h.grants c).idle i]
      exact ⟨fun e => absurd e hidle, fun e => by cases e⟩
    · rw [hx]; cases e : (s.hose i).state <;> rw [e] at hi <;> first | rfl | cases hi
    · have := s.demandOn_setHose i x k
      rw [demands_counted hi, demands_none (by rw [hx]; rfl)] at this
      show (s.pump k).demand - _ = _
      rw [h.demand c k]
      by_cases hk : k = (s.hose i).config.tank
      · subst hk; simp at this ⊢; omega
      · simp [hk, Ne.symm hk] at this ⊢; omega
  unfold Machine.enterClosing; dsimp only
  have h2 := raise (h1 (x := { s.hose i with
      state := .closing, valve := .closed, lamp := .off
      grant := (s.hose i).grant.map fun g => { g with endReason := some r }
      timers := { HoseTimers.stopped with
        settle := some (s.hose i).config.settleTime, closing := some Config.closingLimit } }) rfl rfl rfl)
    (.hoseState i) (.entered .closing)
  split
  · exact raise h2 _ _
  · exact raise h2 _ _
  all_goals exact h2

theorem closeIf (h : Kept w s) (p : HoseState → Bool) (hp : ∀ st, p st = true → st.demands = true) (r : EndReason)
    (i : HoseId) : Kept w (Machine.closeIf p r i s) := by
  unfold Machine.closeIf; split
  · rename_i e; exact enterClosing h i r (hp _ e)
  · exact h

@[simp] theorem reportRunning (h : Kept w s) (t : TankId) : Kept w (Machine.reportRunning t s) :=
  forAll (fun i s h => by
    split
    · rename_i e; exact enterFlowing h i (by rw [e]; rfl)
    · exact h) _ s h

@[simp] theorem reportStartFailure (h : Kept w s) (t : TankId) : Kept w (Machine.reportStartFailure t s) :=
  forAll (fun i s h => closeIf h _ (fun st e => by simp at e; subst e; rfl) _ i) _ s h

@[simp] theorem reportPressureLost (h : Kept w s) (t : TankId) : Kept w (Machine.reportPressureLost t s) :=
  forAll (fun i s h => closeIf h _ (fun st e => by cases st <;> first | rfl | cases e) _ i) _ s h

/-- A STARTING hose raises the demand that its state already counts. -/
theorem raiseDemand (h : Kept { w with demand := false } s) (i : HoseId) (hi : (s.hose i).state = .starting)
    (hd : w.demand = true → ∀ k, (s.pump k).demand + (if k = (s.hose i).config.tank then 1 else 0) = s.demandOn k) :
    Kept w (Machine.raiseDemand i s) := by
  have h1 : Kept w (s.setPump (s.hose i).config.tank
      { s.pump (s.hose i).config.tank with demand := (s.pump (s.hose i).config.tank).demand + 1 }) := by
    have h' := setPump h (s.hose i).config.tank
      { s.pump (s.hose i).config.tank with demand := (s.pump (s.hose i).config.tank).demand + 1 }
      (fun c => by cases c) (fun _ => Iff.rfl) fun _ => rfl
    refine { h' with demand := fun c k => ?_ }
    show ((State.setPump _ _ _).pump k).demand = s.demandOn k
    rw [← hd c k]
    by_cases hk : k = (s.hose i).config.tank
    · subst hk; simp
    · rw [State.setPump_pump_ne _ _ hk]; simp [hk]
  have hst : (s.hose i).state.demands = true := by rw [hi]; rfl
  unfold Machine.raiseDemand; dsimp only; split
  · rename_i e
    split
    · exact requestSlot h1 _ (by simp [e])
    · exact h1
  · exact h1
  · exact h1
  · exact enterFlowing h1 i hst
  · rename_i e
    exact reportRunning (setPump h1 _ _ (fun _ => by simp) (fun _ => by simp [e]) fun _ => by simp) _
  · exact enterClosing h1 i _ hst

@[simp] theorem becomeActive (h : Kept w s) (t : TankId) : Kept w (Machine.becomeActive t s) := by
  unfold Machine.becomeActive; split
  · exact setTank h _ _ rfl
  · exact h

theorem enterStarting (h : Kept w s) (i : HoseId) (hi : (s.hose i).state = .ready) :
    Kept w (Machine.enterStarting i s) := by
  have hb := becomeActive h (s.hose i).config.tank
  have eh : (Machine.becomeActive (s.hose i).config.tank s).hoses = s.hoses := by
    unfold Machine.becomeActive; split <;> rfl
  have hi' : ((Machine.becomeActive (s.hose i).config.tank s).hose i).state = .ready := by
    rw [State.hose, eh]; exact hi
  unfold Machine.enterStarting; dsimp only
  generalize Machine.becomeActive (s.hose i).config.tank s = b at hb hi'
  refine raiseDemand (raise (setEngine (setHose hb.undemanded i _ (fun c => ⟨?_, ?_, fun e => (by cases e), ?_⟩)
    fun c => by cases c) _ _) _ _) i ?_ fun c k => ?_
  · cases (b.hose i).grant <;> rfl
  · show Option.map _ _ = none ↔ _
    rw [Option.map_eq_none_iff, (hb.grants c).idle i, hi']; simp
  · rw [hi']; rfl
  · show ((State.setHose _ i _).hose i).state = _
    rw [State.setHose_hose_self]
  · show (b.pump k).demand + (if k = ((State.setHose _ i _).hose i).config.tank then 1 else 0) = State.demandOn (State.setHose b i _) k
    rw [State.setHose_hose_self, hb.demand c k]
    have := b.demandOn_setHose i { b.hose i with
      state := .starting, valve := .closed, timers := { (b.hose i).timers with ready := none }
      grant := (b.hose i).grant.map fun g => { g with start := some (recordedTime b) } } k
    rw [demands_none (x := b.hose i) (by rw [hi']; rfl), demands_counted rfl] at this
    by_cases hk : k = (b.hose i).config.tank
    · subst hk; simp at this ⊢; omega
    · simp [hk, Ne.symm hk] at this ⊢; omega

/-! ### The release of a grant -/

/-- Grants agree again after a hose has let go of its grant. -/
theorem GrantsAgree_released {s t : State} (a : s.GrantsAgree) {i : HoseId} {g : Grant}
    (hg : (s.hose i).grant = some g) (h1 : ∀ k, k ≠ i → t.hose k = s.hose k) (h2 : (t.hose i).grant = none)
    (h3 : (t.hose i).state = .idle)
    (h4 : ∀ u, (t.vehicle u).binding = if u = g.vehicle then none else (s.vehicle u).binding)
    (h5 : ∀ k, (t.tank k).reserved = (s.tank k).reserved - (s.hose i).reservedOn k) : t.GrantsAgree := by
  refine ⟨fun k => ?_, fun v k => ?_, fun k g' hs => ?_, fun k => ?_⟩
  · by_cases e : k = i
    · subst e; simp [h2, h3]
    · rw [h1 k e]; exact a.idle k
  · rw [h4 v]
    by_cases e : k = i
    · subst e
      rw [h2]
      split
      · simp
      · rename_i ne
        rw [a.bound v k, hg]
        simp only [Option.some.injEq, reduceCtorEq, false_and, exists_false, iff_false, not_exists, not_and]
        rintro _ rfl rfl; exact ne rfl
    · rw [h1 k e]; split
      · rename_i ev
        subst ev
        simp only [reduceCtorEq, false_iff]
        intro hx
        have e1 := (a.bound g.vehicle k).mpr hx
        have e2 := (a.bound g.vehicle i).mpr ⟨g, hg, rfl⟩
        rw [e1] at e2; exact e (Option.some.inj e2)
      · exact a.bound v k
  · by_cases e : k = i
    · subst e; rw [h3] at hs; cases hs
    · rw [h1 k e] at hs ⊢; exact a.ready k g' hs
  · have hsum : t.reservedOn k + (s.hose i).reservedOn k = s.reservedOn k + (t.hose i).reservedOn k :=
      sum_hoses (f := fun j => (t.hose j).reservedOn k) (g := fun j => (s.hose j).reservedOn k) i
        fun j hj => by rw [h1 j hj]
    have e1 : (t.hose i).reservedOn k = 0 := by simp [Hose.reservedOn, h2]
    rw [h5 k, a.reserved k]
    omega

theorem endReservation_same (s : State) : (Machine.endReservation s).hoses = s.hoses ∧
    (Machine.endReservation s).tanks = s.tanks ∧ (Machine.endReservation s).vehicles = s.vehicles := by
  unfold Machine.endReservation Machine.recoverTest; split <;> exact ⟨rfl, rfl, rfl⟩

@[simp] theorem takeOffReserved_open (h : Kept w s) (hw : w.grants = false) (t : TankId) (n : Nat) :
    Kept w (Machine.takeOffReserved t n s) := setTank_open h hw _ _

theorem releaseGrant (h : Kept w s) (i : HoseId) (d : Detail) (hi : (s.hose i).state = .ready) :
    Kept w (Machine.releaseGrant i d s) := by
  unfold Machine.releaseGrant; split
  · exact h
  · rename_i g hg
    dsimp only
    have h1 : Kept { w with grants := false } (Machine.takeOffReserved g.tank g.tankRes s) :=
      takeOffReserved_open h.ungranted rfl _ _
    have h2 : Kept { w with grants := false } (if g.journalRes = true then
        Machine.endReservation (Machine.takeOffReserved g.tank g.tankRes s)
        else Machine.takeOffReserved g.tank g.tankRes s) := by
      split
      · exact endReservation h1
      · exact h1
    have e2 : ∀ b : State, b = (if g.journalRes = true then
        Machine.endReservation (Machine.takeOffReserved g.tank g.tankRes s)
        else Machine.takeOffReserved g.tank g.tankRes s) → b.hoses = s.hoses ∧
          b.tanks = (Machine.takeOffReserved g.tank g.tankRes s).tanks ∧ b.vehicles = s.vehicles := by
      rintro _ rfl; split
      · exact endReservation_same _
      · exact ⟨rfl, rfl, rfl⟩
    revert h2 e2
    generalize (if g.journalRes = true then
        Machine.endReservation (Machine.takeOffReserved g.tank g.tankRes s)
        else Machine.takeOffReserved g.tank g.tankRes s) = b
    intro h2 e2
    obtain ⟨eh, et, ev⟩ := e2 b rfl
    have hb : ∀ k, b.hose k = s.hose k := fun k => by simp only [State.hose, eh]
    refine raise (?_ : Kept w ((Machine.clearBinding g.vehicle b).setHose i _)) _ _
    have h3 : Kept { w with grants := false } ((Machine.clearBinding g.vehicle b).setHose i
        ((Machine.clearBinding g.vehicle b).hose i).toIdle) :=
      setHose (setVehicle h2 g.vehicle { b.vehicle g.vehicle with binding := none } (fun c => by cases c) rfl) i _
        (fun c => by cases c) fun _ t => by
        rw [demands_none (x := Hose.toIdle _) rfl, demands_none]
        show (b.hose i).state.demands = false
        rw [hb, hi]; rfl
    refine { h3 with grants := fun c => GrantsAgree_released (h.grants c) hg (fun k hk => ?_) ?_ ?_ (fun u => ?_) fun k => ?_ }
    · rw [State.setHose_hose_ne _ _ hk]; exact hb k
    · rw [State.setHose_hose_self]; rfl
    · rw [State.setHose_hose_self]; rfl
    · show ((b.setVehicle g.vehicle _).vehicle u).binding = _
      by_cases e : u = g.vehicle
      · subst e; rw [State.setVehicle_vehicle_self h2.vehicles]; simp
      · rw [State.setVehicle_vehicle_ne e]; simp only [e, if_false, State.vehicle, ev]
    · show (b.tanks.get k).reserved = _
      rw [et]
      show ((State.setTank s g.tank _).tank k).reserved = _
      have er : (s.hose i).reservedOn k = if g.tank = k then g.tankRes else 0 := by
        simp [Hose.reservedOn, hg, hi, HoseState.reserves]
      rw [er]
      by_cases e : k = g.tank
      · subst e; simp
      · rw [State.setTank_tank_ne _ _ e]; simp [Ne.symm e]

@[simp] theorem withdrawIfReady (h : Kept w s) (i : HoseId) : Kept w (Machine.withdrawIfReady i s) := by
  unfold Machine.withdrawIfReady; split
  · rename_i e; exact releaseGrant h i _ e
  · exact h

end Kept

end Sys2Proof.Machine
end

