-- ==== Sys2Proof/Laws/KeptBlocks.lean ====
section
/-! SUPPORT. What the blocks' own operations keep: the report of a status change, the grant, the settle accounting, the
tank account, the requests of the host. -/

namespace Sys2Proof.Machine

open Sys2Proof

variable {w : Watch} {s : State}

namespace Kept

/-! ### Grants that change -/

/-- Grants agree again after a hose's grant has given up a part of its reservation. -/
theorem GrantsAgree_regrant {s t : State} (a : s.GrantsAgree) {i : HoseId} {g g' : Grant}
    (hg : (s.hose i).grant = some g) (h1 : ∀ k, k ≠ i → t.hose k = s.hose k) (h2 : (t.hose i).grant = some g')
    (h3 : (t.hose i).state ≠ .idle) (hv : g'.vehicle = g.vehicle)
    (hp : (t.hose i).state = .ready → g'.tankRes = reservationOf g'.preset)
    (h4 : ∀ u, (t.vehicle u).binding = (s.vehicle u).binding)
    (h5 : ∀ k, (t.tank k).reserved + (s.hose i).reservedOn k = (s.tank k).reserved + (t.hose i).reservedOn k) :
    t.GrantsAgree := by
  refine ⟨fun k => ?_, fun v k => ?_, fun k x hs hx => ?_, fun k => ?_⟩
  · by_cases e : k = i
    · subst e; rw [h2]; simp [h3]
    · rw [h1 k e]; exact a.idle k
  · rw [h4 v, a.bound v k]
    by_cases e : k = i
    · subst e; rw [h2, hg]; simp [hv]
    · rw [h1 k e]
  · by_cases e : k = i
    · subst e; rw [h2] at hx; cases hx; exact hp hs
    · rw [h1 k e] at hs hx; exact a.ready k x hs hx
  · have hsum : t.reservedOn k + (s.hose i).reservedOn k = s.reservedOn k + (t.hose i).reservedOn k :=
      sum_hoses (f := fun j => (t.hose j).reservedOn k) (g := fun j => (s.hose j).reservedOn k) i
        fun j hj => by rw [h1 j hj]
    have := h5 k
    have := a.reserved k
    omega

/-- Grants agree again after an IDLE hose has got a grant for an unbound vehicle. -/
theorem GrantsAgree_granted {s t : State} (a : s.GrantsAgree) {i : HoseId} {g : Grant}
    (hi : (s.hose i).grant = none) (hu : (s.vehicle g.vehicle).binding = none)
    (h1 : ∀ k, k ≠ i → t.hose k = s.hose k) (h2 : (t.hose i).grant = some g) (h3 : (t.hose i).state ≠ .idle)
    (hp : (t.hose i).state = .ready → g.tankRes = reservationOf g.preset)
    (h4 : ∀ u, (t.vehicle u).binding = if u = g.vehicle then some i else (s.vehicle u).binding)
    (h5 : ∀ k, (t.tank k).reserved = (s.tank k).reserved + (t.hose i).reservedOn k) : t.GrantsAgree := by
  refine ⟨fun k => ?_, fun v k => ?_, fun k x hs hx => ?_, fun k => ?_⟩
  · by_cases e : k = i
    · subst e; rw [h2]; simp [h3]
    · rw [h1 k e]; exact a.idle k
  · rw [h4 v]
    by_cases e : k = i
    · subst e
      rw [h2]
      split
      · rename_i ev; simp [ev]
      · rename_i ne
        rw [a.bound v k, hi]
        simp only [reduceCtorEq, false_and, exists_false, Option.some.injEq, false_iff, not_exists, not_and]
        rintro _ rfl rfl; exact ne rfl
    · rw [h1 k e]; split
      · rename_i ev
        subst ev
        rw [← a.bound g.vehicle k, hu]
        simp [Ne.symm e]
      · exact a.bound v k
  · by_cases e : k = i
    · subst e; rw [h2] at hx; cases hx; exact hp hs
    · rw [h1 k e] at hs hx; exact a.ready k x hs hx
  · have hsum : t.reservedOn k + (s.hose i).reservedOn k = s.reservedOn k + (t.hose i).reservedOn k :=
      sum_hoses (f := fun j => (t.hose j).reservedOn k) (g := fun j => (s.hose j).reservedOn k) i
        fun j hj => by rw [h1 j hj]
    have e2 : (s.hose i).reservedOn k = 0 := by simp [Hose.reservedOn, hi]
    rw [h5 k, a.reserved k]
    omega

/-! ### The status of a vehicle -/

@[simp] theorem recolour (h : Kept w s) (i : HoseId) (st : ServiceStatus) : Kept w (Machine.recolour i st s) :=
  setHose_same h _ _ rfl rfl rfl

theorem reservedOn_le (s : State) (i : HoseId) (t : TankId) : (s.hose i).reservedOn t ≤ s.reservedOn t := by
  simp only [State.reservedOn, allHoses, List.map_cons, List.map_nil, List.sum_cons, List.sum_nil]
  match i with
  | 0 | 1 | 2 | 3 | 4 | 5 | 6 | 7 => omega

theorem reservedOn_of {x : Hose} {g : Grant} (hg : x.grant = some g) (hs : x.state.reserves = true) (t : TankId) :
    x.reservedOn t = if g.tank = t then g.tankRes else 0 := by simp [Hose.reservedOn, hg, hs]

theorem reservationOf_mono {a b : Nat} (h : a ≤ b) : reservationOf a ≤ reservationOf b := by
  unfold reservationOf ceilDiv; omega

theorem reviseLimit (h : Kept w s) (i : HoseId) (n : Nat) (hi : (s.hose i).state = .ready) :
    Kept w (Machine.reviseLimit i n s) := by
  unfold Machine.reviseLimit; dsimp only; split
  · exact h
  · rename_i g hg
    split
    · exact h
    · rename_i hn
      split
      · exact releaseGrant h i _ hi
      · have h1 : Kept { w with grants := false } (Machine.takeOffReserved g.tank (g.tankRes - reservationOf n) s) :=
          takeOffReserved_open h.ungranted rfl _ _
        have h2 := setHose h1 i { s.hose i with
          grant := some { g with preset := n, tankRes := reservationOf n, flags := { g.flags with capped := true } } }
          (fun c => by cases c) fun _ t => rfl
        refine { h2 with grants := fun c => ?_ }
        have hr : reservationOf n ≤ g.tankRes := by
          rw [(h.grants c).ready i g hi hg]; exact reservationOf_mono (Nat.le_of_not_le hn)
        refine GrantsAgree_regrant (h.grants c) hg (fun k hk => State.setHose_hose_ne _ _ hk)
          (congrArg Hose.grant (State.setHose_hose_self _ _ _))
          (by rw [State.setHose_hose_self]; show (s.hose i).state ≠ _; rw [hi]; simp) rfl (fun _ => rfl)
          (fun u => rfl) fun k => ?_
        rw [reservedOn_of hg (by rw [hi]; rfl) k,
          reservedOn_of (congrArg Hose.grant (State.setHose_hose_self _ i _))
            (by rw [State.setHose_hose_self]; show (s.hose i).state.reserves = _; rw [hi]; rfl) k]
        show ((State.setTank s g.tank _).tank k).reserved + _ = _ + (if g.tank = k then reservationOf n else 0)
        have e0 : (s.tank g.tank).reserved = s.reservedOn g.tank := (h.grants c).reserved g.tank
        have e1 : (s.hose i).reservedOn g.tank ≤ s.reservedOn g.tank := reservedOn_le s i g.tank
        rw [reservedOn_of hg (by rw [hi]; rfl), if_pos rfl] at e1
        by_cases e : k = g.tank
        · subst e; simp only [if_true, State.setTank_tank_self]; omega
        · rw [State.setTank_tank_ne _ _ e]; simp [Ne.symm e]

@[simp] theorem takeStatusReport (h : Kept w s) (i : HoseId) (c : ClassRecord) (st : ServiceStatus) :
    Kept w (Machine.takeStatusReport i c st s) := by
  unfold Machine.takeStatusReport; split
  · rename_i hi _
    split
    · split
      · exact recolour h _ _
      · exact releaseGrant h i _ hi
    · exact reviseLimit (recolour h _ _) i _ (by simp [Machine.recolour, hi])
    · exact recolour h _ _
  · exact h

@[simp] theorem updateDueList (h : Kept w s) (v : VehicleId) (a b : ServiceStatus) :
    Kept w (Machine.updateDueList v a b s) := by
  unfold Machine.updateDueList Machine.bumpDueRevision; repeat' split
  · exact raise (setDueRevision (setDueList h _) _) _ _
  · exact setDueRevision (setDueList h _) _
  · exact raise h _ _
  · exact h

@[simp] theorem recompute (h : Kept w s) (v : VehicleId) : Kept w (Machine.recompute v s) := by
  have h1 : ∀ st, Kept w (s.setVehicle v { s.vehicle v with status := st }) := fun st =>
    setVehicle_kept h _ _ rfl rfl
  unfold Machine.recompute; dsimp only; repeat' split
  · exact h
  · exact updateDueList (h1 _) _ _ _
  · exact takeStatusReport (updateDueList (h1 _) _ _ _) _ _ _

@[simp] theorem applyReading (h : Kept w s) (v : VehicleId) (n : Nat) : Kept w (Machine.applyReading v n s).1 :=
  beginUsageWrite (recompute (setVehicle_kept h v _ (by rfl) (by rfl)) v) v

@[simp] theorem applyHours (h : Kept w s) (v : VehicleId) (n : Option Nat) : Kept w (Machine.applyHours v n s).1 := by
  unfold Machine.applyHours; split
  · exact applyReading h _ _
  · exact h

@[simp] theorem creditFuel (h : Kept w s) (v : VehicleId) (n : Nat) : Kept w (Machine.creditFuel v n s) := by
  unfold Machine.creditFuel; dsimp only; split
  · exact beginUsageWrite (recompute (setVehicle_kept h v _ (by rfl) (by rfl)) v) v
  · exact h

/-- What the recomputation of a status leaves alone when the vehicle is bound to no READY hose. -/
structure Calm (s t : State) : Prop where
  phase : t.phase = s.phase
  hoses : t.hoses = s.hoses
  tanks : t.tanks = s.tanks
  pumps : t.pumps = s.pumps
  journal : t.journal = s.journal
  engines : t.engines = s.engines
  inputs : t.inputs = s.inputs
  sound : s.vehiclesSound = true → t.vehiclesSound = true
  bindings : s.vehiclesSound = true → ∀ u, (t.vehicle u).binding = (s.vehicle u).binding

theorem Calm.refl (s : State) : Calm s s := ⟨rfl, rfl, rfl, rfl, rfl, rfl, rfl, id, fun _ _ => rfl⟩

theorem Calm.trans {a b c : State} (h : Calm a b) (k : Calm b c) : Calm a c :=
  ⟨k.phase.trans h.phase, k.hoses.trans h.hoses, k.tanks.trans h.tanks, k.pumps.trans h.pumps,
    k.journal.trans h.journal, k.engines.trans h.engines, k.inputs.trans h.inputs, fun c => k.sound (h.sound c),
    fun c u => (k.bindings (h.sound c) u).trans (h.bindings c u)⟩

theorem calm_setVehicle (s : State) (v : VehicleId) (x : Vehicle) (hx : x.binding = (s.vehicle v).binding) :
    Calm s (s.setVehicle v x) :=
  ⟨rfl, rfl, rfl, rfl, rfl, rfl, rfl, State.setVehicle_sound, fun c u => by
    by_cases e : u = v
    · subst e; rw [State.setVehicle_vehicle_self c, hx]
    · rw [State.setVehicle_vehicle_ne e]⟩

theorem calm_updateDueList (v : VehicleId) (a b : ServiceStatus) (s : State) :
    Calm s (Machine.updateDueList v a b s) := by
  unfold Machine.updateDueList; repeat' split
  all_goals exact ⟨rfl, rfl, rfl, rfl, rfl, rfl, rfl, id, fun _ _ => rfl⟩

theorem calm_recompute {v : VehicleId}
    (hb : ∀ k, (s.vehicle v).binding = some k → (s.hose k).state ≠ .ready) : Calm s (Machine.recompute v s) := by
  have h1 : ∀ st, Calm s (s.setVehicle v { s.vehicle v with status := st }) := fun st => calm_setVehicle s v _ rfl
  have h2 : ∀ st, Calm s (Machine.updateDueList v (s.vehicle v).status st
      (s.setVehicle v { s.vehicle v with status := st })) := fun st =>
    (h1 st).trans (calm_updateDueList v _ _ _)
  unfold Machine.recompute; dsimp only; repeat' split
  · exact .refl s
  · exact h2 _
  · rename_i k hk
    have hs : ∀ t : State, t.hoses = s.hoses → Machine.takeStatusReport k (s.classOf (s.vehicle v).host.cls)
        (statusOf (s.classOf (s.vehicle v).host.cls) (s.vehicle v)) t = t := by
      intro t ht
      unfold Machine.takeStatusReport; split
      · rename_i e _; rw [State.hose, ht] at e; exact absurd e (hb k hk)
      · rfl
    rw [hs _ (h2 _).hoses]; exact h2 _

theorem calm_usage {s : State} (v : VehicleId) : Calm s (Machine.beginUsageWrite v s) := by
  unfold Machine.beginUsageWrite; dsimp only; split
  · obtain ⟨a1, a2, a3, a4, a5, a6, a7, a8, a9⟩ :=
      calm_setVehicle s v { s.vehicle v with usageWrite := .inFlight } rfl
    exact ⟨a1, a2, a3, a4, a5, a6, a7, a8, a9⟩
  all_goals exact calm_setVehicle s v _ rfl

theorem calm_usageChange (hs : s.vehiclesSound = true) {v : VehicleId} (u : Usage)
    (hb : ∀ k, (s.vehicle v).binding = some k → (s.hose k).state ≠ .ready) :
    Calm s (Machine.beginUsageWrite v (Machine.recompute v (s.setVehicle v { s.vehicle v with usage := u }))) :=
  ((calm_setVehicle s v { s.vehicle v with usage := u } rfl).trans (calm_recompute fun k hk => by
    rw [State.setVehicle_vehicle_self hs] at hk; exact hb k hk)).trans (calm_usage v)

theorem calm_applyHours (hs : s.vehiclesSound = true) {v : VehicleId} (n : Option Nat)
    (hb : ∀ k, (s.vehicle v).binding = some k → (s.hose k).state ≠ .ready) : Calm s (Machine.applyHours v n s).1 := by
  unfold Machine.applyHours; split
  · exact calm_usageChange hs _ hb
  · exact .refl s

theorem calm_creditFuel (hs : s.vehiclesSound = true) {v : VehicleId} (n : Nat)
    (hb : ∀ k, (s.vehicle v).binding = some k → (s.hose k).state ≠ .ready) : Calm s (Machine.creditFuel v n s) := by
  unfold Machine.creditFuel; dsimp only; split
  · exact calm_usageChange hs _ hb
  · exact .refl s

end Kept

end Sys2Proof.Machine
end

