-- ==== Sys2Proof/Laws/KeptTake.lean ====
section
/-! SUPPORT. What the arrivals, the expiries and the requests of the host keep. -/

namespace Sys2Proof.Machine

open Sys2Proof

variable {w : Watch} {s : State}

namespace Kept

/-! ### Tanks -/

@[simp] theorem lowTest (h : Kept w s) (t : TankId) : Kept w (Machine.lowTest t s) := by
  unfold Machine.lowTest; dsimp only; repeat' split
  · exact raise (setTank h _ _ (by rfl)) _ _
  · exact setTank h _ _ (by rfl)
  · exact h

@[simp] theorem capacityTest (h : Kept w s) (t : TankId) : Kept w (Machine.capacityTest t s) := by
  unfold Machine.capacityTest; split
  · exact raise h _ _
  · exact h

@[simp] theorem debitBook (h : Kept w s) (t : TankId) (i : HoseId) (n : Nat) : Kept w (Machine.debitBook t i n s) :=
  lowTest (beginWrite (setTank h _ _ (by rfl)) _ (by rfl)) _

@[simp] theorem startQuietTimer (h : Kept w s) (t : TankId) : Kept w (Machine.startQuietTimer t s) := by
  unfold Machine.startQuietTimer; split
  · exact setTank h _ _ (by rfl)
  · exact h

@[simp] theorem setRelation (h : Kept w s) (t : TankId) (r : Relation) (d : Option Int) :
    Kept w (Machine.setRelation t r d s) := by
  have h1 : Kept w (s.setTank t { s.tank t with relation := r, difference := d }) := setTank h _ _ rfl
  unfold Machine.setRelation; dsimp only; repeat' split
  all_goals first | exact h1 | exact raise h1 _ _

@[simp] theorem evaluateVariance (h : Kept w s) (t : TankId) (n : Nat) : Kept w (Machine.evaluateVariance t n s) := by
  unfold Machine.evaluateVariance; dsimp only; split <;> exact setRelation h _ _ _

@[simp] theorem takeProbe (h : Kept w s) (t : TankId) (r : Option (Nat × Int)) : Kept w (Machine.takeProbe t r s) := by
  unfold Machine.takeProbe; dsimp only; repeat' split
  · exact h
  · exact evaluateVariance (setTank h _ _ (by rfl)) _ _
  · exact setTank h _ _ (by rfl)

@[simp] theorem probeStale (h : Kept w s) (t : TankId) : Kept w (Machine.probeStale t s) := by
  unfold Machine.probeStale; dsimp only; split
  · exact h
  · exact setRelation (setTank h _ _ (by rfl)) _ _ _

@[simp] theorem tankQuiet (h : Kept w s) (t : TankId) : Kept w (Machine.tankQuiet t s) := by
  unfold Machine.tankQuiet; dsimp only; split
  · exact h
  · exact setTank h _ _ (by rfl)

@[simp] theorem finishReceipt (h : Kept w s) (t : TankId) (c : Bool) (v : Int) (mk : Int → ReceiptRecord) :
    Kept w (Machine.finishReceipt t c v mk s) :=
  capacityTest (lowTest (raise (joinQueue (beginWrite (setTank h _ _ (by rfl)) _ (by rfl)) _) _ _) _) _

@[simp] theorem closeReceipt (h : Kept w s) (t : TankId) : Kept w (Machine.closeReceipt t s) := by
  unfold Machine.closeReceipt; dsimp only; repeat' split
  all_goals first | exact h | exact finishReceipt h _ _ _ _

theorem requestTest_room {j : Journal} (h : j.requestTest = true) : j.reservations + 1 ≤ j.free := by
  simp only [Journal.requestTest, Bool.and_eq_true, decide_eq_true_eq] at h; exact h.2

/-- When no check of a list fails, the last of four holds. -/
theorem firstFail_all {cs : List (Bool × StatusCode)} (h : firstFail cs = none) : ∀ c ∈ cs, c.1 = true :=
  Edit.firstFail_none h

@[simp] theorem takeReceiptBegin (h : Kept w s) (t : Byte) : Kept w (Machine.takeReceiptBegin t s).1 := by
  unfold Machine.takeReceiptBegin; dsimp only; split
  · exact h
  · split
    · exact h
    · rename_i hc
      have hr := firstFail_all hc (s.journal.requestTest, .journalFull) (by simp)
      exact forAll (fun i s h => withdrawIfReady h i) _ _
        (setTank (takeReservation h fun _ => requestTest_room hr) _ _ (by rfl))

@[simp] theorem takeReceiptEnd (h : Kept w s) (t : Byte) (d : BitVec 32) : Kept w (Machine.takeReceiptEnd t d s).1 := by
  unfold Machine.takeReceiptEnd; dsimp only; repeat' split
  all_goals first | exact h | exact setTank h _ _ (by rfl)

@[simp] theorem takeStockAdjust (h : Kept w s) (t : Byte) (a b : BitVec 48) :
    Kept w (Machine.takeStockAdjust t a b s).1 := by
  unfold Machine.takeStockAdjust; dsimp only; split
  · exact h
  · repeat' split
    · exact h
    · exact h
    · exact h
    · rename_i hr
      exact capacityTest (lowTest (joinQueue (takeReservation (setTank h _ _ (by rfl)) fun _ =>
        requestTest_room (by simpa using hr)) _) _) _

@[simp] theorem takeTankSet (h : Kept w s) (t : Byte) (x : WireTankConfig) : Kept w (Machine.takeTankSet t x s).1 := by
  unfold Machine.takeTankSet; dsimp only; repeat' split
  all_goals first
    | exact h
    | exact lowTest (beginWrite (setTank h _ _ (by rfl)) _ (by rfl)) _
    | exact beginWrite (lowTest (setTank h _ _ (by rfl)) _) _ (by rfl)

@[simp] theorem takeStrapSet (h : Kept w s) (t n : Byte) (p : List WireStrapPoint) :
    Kept w (Machine.takeStrapSet t n p s).1 := by
  unfold Machine.takeStrapSet; dsimp only; repeat' split
  all_goals first | exact h | exact beginWrite (setTank h _ _ (by rfl)) _ (by rfl)

@[simp] theorem takeTankQuery (h : Kept w s) (t : Byte) : Kept w (Machine.takeTankQuery t s).1 := by
  unfold Machine.takeTankQuery; split <;> exact h

@[simp] theorem takeStrapRead (h : Kept w s) (t : Byte) : Kept w (Machine.takeStrapRead t s).1 := by
  unfold Machine.takeStrapRead; split <;> exact h

/-! ### Authorization -/

/-- A grant made at an IDLE hose for an unbound vehicle. -/
theorem makeGrant (h : Kept w s) (i : HoseId) (g : Grant) (hi : (s.hose i).state = .idle)
    (hu : (s.vehicle g.vehicle).binding = none) (hg : g.tankRes = reservationOf g.preset)
    (hr : w.spare = true → s.journal.reservations + 1 ≤ s.journal.free) : Kept w (Machine.makeGrant i g s) := by
  have h1 := takeReservation (setTank_open h.ungranted rfl g.tank
    { s.tank g.tank with reserved := (s.tank g.tank).reserved + g.tankRes }) hr
  have h2 := setHose (setVehicle h1 g.vehicle { s.vehicle g.vehicle with binding := some i } (fun c => by cases c) rfl) i
    { s.hose i with
      state := .ready, grant := some g, lastRefusal := none, stray := 0, lamp := grantColour g.statusAtGrant
      timers := { (s.hose i).timers with refusal := none, ready := some (s.hose i).config.readyTimeout } }
    (fun c => by cases c) fun _ t =>
      (demands_none rfl t).trans (demands_none (x := s.hose i) (by rw [hi]; rfl) t).symm
  refine raise (?_ : Kept w (State.setHose _ i _)) _ _
  refine { h2 with grants := fun c => ?_ }
  refine GrantsAgree_granted (h.grants c) (((h.grants c).idle i).mpr hi) hu (fun k hk => State.setHose_hose_ne _ _ hk)
    (congrArg Hose.grant (State.setHose_hose_self _ i _)) (by rw [State.setHose_hose_self]; simp) (fun _ => hg)
    (fun u => ?_) fun k => ?_
  · show ((State.setVehicle s g.vehicle _).vehicle u).binding = _
    by_cases e : u = g.vehicle
    · subst e; rw [State.setVehicle_vehicle_self h.vehicles]; simp
    · rw [State.setVehicle_vehicle_ne e]; simp [e]
  · rw [reservedOn_of (congrArg Hose.grant (State.setHose_hose_self _ i _)) (by rw [State.setHose_hose_self]; rfl) k]
    show ((State.setTank s g.tank _).tank k).reserved = _
    by_cases e : k = g.tank
    · subst e; simp
    · rw [State.setTank_tank_ne _ _ e]; simp [Ne.symm e]

theorem checksToTen_ok {i : HoseId} {a : AuthRequest} {v : VehicleId} (h : checksToTen i a s = .ok v) :
    (s.hose i).state = .idle ∧ (s.vehicle v).binding = none ∧ s.journal.reservations + 1 ≤ s.journal.free := by
  unfold checksToTen at h
  split at h
  · cases h
  · rename_i hc
    split at h
    · cases h
    · split at h
      · cases h
      · rename_i hv
        cases h
        have h1 := firstFail_all hc (decide ((s.hose i).state = .idle), .state) (by simp [earlyChecks])
        have h2 := firstFail_all hc (s.journal.grantTest, .journalFull) (by simp [earlyChecks])
        have h3 := firstFail_all hv ((s.vehicle v).binding.isNone, .busyVehicle) (by simp [vehicleChecks])
        simp only [Journal.grantTest, Bool.and_eq_true, decide_eq_true_eq, Config.grantMargin] at h2
        exact ⟨by simpa using h1, by simpa using h3, by omega⟩

theorem authorizeHose (h : Kept w s) (i : HoseId) (a : AuthRequest) : Kept w (Machine.authorizeHose i a s).1 := by
  unfold Machine.authorizeHose; split
  · exact h
  · rename_i v hv
    obtain ⟨h1, h2, h3⟩ := checksToTen_ok hv
    have hc : Calm s (Machine.applyHours v a.hours s).1 :=
      calm_applyHours h.vehicles a.hours fun k hk => by rw [h2] at hk; cases hk
    have ha := applyHours h v a.hours
    dsimp only; repeat' split
    · exact ha
    · exact ha
    · exact makeGrant ha _ _ (by rw [State.hose, hc.hoses]; exact h1) ((hc.bindings h.vehicles v).trans h2) rfl
        fun _ => by rw [hc.journal]; exact h3

@[simp] theorem displayRefusal (h : Kept w s) (i : HoseId) (c : StatusCode) : Kept w (Machine.displayRefusal i c s) :=
  raise (setHose_same h _ _ (by rfl) (by rfl) (by rfl)) _ _

theorem authorizeHose_of (h : Kept w s) {i : HoseId} {a : AuthRequest} {t : State} {r : Except StatusCode Grant}
    (ht : Machine.authorizeHose i a s = (t, r)) : Kept w t := by
  have := authorizeHose h i a
  rwa [ht] at this

theorem takeTag (h : Kept w s) (i : HoseId) (tag : Tag) (n : Option Nat) : Kept w (Machine.takeTag i tag n s) := by
  unfold Machine.takeTag; dsimp only; split
  · split
    · rename_i t _ ht
      exact authorizeHose_of h ht
    · rename_i t _ ht
      exact displayRefusal (authorizeHose_of h ht) _ _
  · repeat' split
    all_goals first | exact h | exact setHose_same h _ _ (by rfl) (by rfl) (by rfl)
  all_goals exact h

theorem takeAuthorize (h : Kept w s) (i : Byte) (v p : BitVec 16) (f : Byte) (n : BitVec 32) :
    Kept w (Machine.takeAuthorize i v p f n s).1 := by
  unfold Machine.takeAuthorize; repeat' split
  · exact h
  · rename_i ht; exact authorizeHose_of h ht
  · rename_i ht; exact authorizeHose_of h ht
  · exact h

/-! ### Arrivals and expiries of a hose -/

@[simp] theorem takeLift (h : Kept w s) (i : HoseId) : Kept w (Machine.takeLift i s) := by
  unfold Machine.takeLift; split
  · exact raise h _ _
  · rename_i e; exact enterStarting h i e
  all_goals exact h

@[simp] theorem takeHang (h : Kept w s) (i : HoseId) : Kept w (Machine.takeHang i s) :=
  closeIf h _ (fun _ e => e) _ i

@[simp] theorem strayPulse (h : Kept w s) (i : HoseId) : Kept w (Machine.strayPulse i s) :=
  raise (setHose_same h _ _ (by rfl) (by rfl) (by rfl)) _ _

@[simp] theorem setHose_pulse (h : Kept w s) (i : HoseId) (x : Hose) (hx : x = s.hose i) :
    Kept w (s.setHose i (pulseTimers x)) := by
  subst hx; unfold pulseTimers; split <;> exact setHose_same h _ _ (by rfl) (by rfl) (by rfl)

@[simp] theorem takeAgreeing (h : Kept w s) (i : HoseId) : Kept w (Machine.takeAgreeing i s) := by
  unfold Machine.takeAgreeing; split
  · exact setHose_pulse (setEngine h _ _) _ _ rfl
  · exact strayPulse h _

@[simp] theorem takeDisagreeing (h : Kept w s) (i : HoseId) : Kept w (Machine.takeDisagreeing i s) := by
  have hp := setHose_pulse h i _ rfl
  unfold Machine.takeDisagreeing; dsimp only; repeat' split
  · exact closeIf (setEngine hp _ _) _ (fun _ e => e) _ _
  · exact setEngine hp _ _
  · exact strayPulse h _

@[simp] theorem compareWithPreset (h : Kept w s) (i : HoseId) : Kept w (Machine.compareWithPreset i s) := by
  unfold Machine.compareWithPreset; dsimp only; split
  · exact h
  · split
    · exact h
    · rename_i hc
      have hd : (s.hose i).state.demands = true := by
        cases e : (s.hose i).state <;> rw [e] at hc <;> first | rfl | exact absurd rfl hc
      repeat' split
      · exact enterClosing h i _ hd
      · exact raise (setHose_moved h i _ hd (by rfl) (by rfl) (by rfl)) _ _
      · exact h

@[simp] theorem takeSample (h : Kept w s) (i : HoseId) : Kept w (Machine.takeSample i s) := by
  unfold Machine.takeSample; split
  · exact compareWithPreset (setEngine h _ _) _
  · exact h

@[simp] theorem readyExpires (h : Kept w s) (i : HoseId) : Kept w (Machine.readyExpires i s) := by
  unfold Machine.readyExpires; dsimp only; split
  · rename_i e _; exact releaseGrant h i _ e
  · exact h

@[simp] theorem noFlowExpires (h : Kept w s) (i : HoseId) : Kept w (Machine.noFlowExpires i s) := by
  unfold Machine.noFlowExpires; dsimp only; split
  · exact closeIf h _ (fun st e => by cases st <;> first | rfl | cases e) _ i
  · exact h

@[simp] theorem pauseExpires (h : Kept w s) (i : HoseId) : Kept w (Machine.pauseExpires i s) := by
  unfold Machine.pauseExpires; dsimp only; split
  · exact closeIf h _ (fun st e => by simp at e; subst e; rfl) _ i
  · exact h

@[simp] theorem displayEnds (h : Kept w s) (i : HoseId) : Kept w (Machine.displayEnds i s) := by
  unfold Machine.displayEnds; dsimp only; split
  · exact setHose_same h _ _ (by rfl) (by rfl) (by rfl)
  · exact h

/-! ### The settle accounting -/

/-- The settle accounting of a hose in CLOSING, or of one re-established as SETTLED. -/
theorem settleAccounting (h : Kept w s) (hw : w.grants = true) (i : HoseId) (g : Grant) (b : Bool)
    (hg : (s.hose i).grant = some g) (hi : (s.hose i).state = .closing ∨ (s.hose i).state = .settled)
    (hr : (s.hose i).state = .settled → g.tankRes = 0) : Kept w (Machine.settleAccounting i g b s) := by
  have hnr : (s.hose i).state ≠ .ready := by rcases hi with e | e <;> simp [e]
  have hnd : (s.hose i).state.demands = false := by rcases hi with e | e <;> rw [e] <;> rfl
  have a := h.grants hw
  have h1 := debitBook h g.tank i (s.engine i).net
  have same : ∀ x : State, Machine.lowTest g.tank x = x ∨ ∃ y, (y.reserved = (x.tank g.tank).reserved) ∧
      ∃ l, Machine.lowTest g.tank x = (x.setTank g.tank y).setLink l := by
    intro x; unfold Machine.lowTest; dsimp only; repeat' split
    · exact .inr ⟨{ x.tank g.tank with low := true }, rfl, _, rfl⟩
    · exact .inr ⟨{ x.tank g.tank with low := false }, rfl, x.link, rfl⟩
    · exact .inl rfl
  have h1h : (Machine.debitBook g.tank i (s.engine i).net s).hoses = s.hoses ∧
      (Machine.debitBook g.tank i (s.engine i).net s).vehicles = s.vehicles ∧
      ∀ k, ((Machine.debitBook g.tank i (s.engine i).net s).tank k).reserved = (s.tank k).reserved := by
    unfold Machine.debitBook; dsimp only
    have base : ∀ (y : Tank) (x : StoreWrite) k, y.reserved = (s.tank g.tank).reserved →
        ((Machine.beginWrite x (s.setTank g.tank y)).tank k).reserved = (s.tank k).reserved := by
      intro y x k hy
      show ((s.setTank g.tank y).tank k).reserved = _
      by_cases e : k = g.tank
      · subst e; simpa using hy
      · rw [State.setTank_tank_ne _ _ e]
    rcases same (Machine.beginWrite (.book g.tank (saturateBook ((s.tank g.tank).book - ((s.engine i).net : Nat))))
        (s.setTank g.tank { s.tank g.tank with
          book := saturateBook ((s.tank g.tank).book - ((s.engine i).net : Nat))
          receipt := (s.tank g.tank).receipt.modify (Receipt.addDelivery i (s.engine i).net) })) with e | ⟨y, hy, l, e⟩
    · rw [e]; exact ⟨rfl, rfl, fun k => base _ _ k rfl⟩
    · rw [e]
      refine ⟨rfl, rfl, fun k => ?_⟩
      show ((State.setTank _ g.tank y).tank k).reserved = _
      by_cases e : k = g.tank
      · subst e; rw [State.setTank_tank_self, hy]; exact base _ _ _ rfl
      · rw [State.setTank_tank_ne _ _ e]; exact base _ _ k rfl
  have hd : Kept { w with grants := false } (Machine.takeOffReserved g.tank g.tankRes
      (Machine.debitBook g.tank i (s.engine i).net s)) := takeOffReserved_open h1.ungranted rfl _ _
  unfold Machine.settleAccounting; dsimp only
  obtain ⟨e1, e2, e3⟩ := h1h
  have et : ∀ k, ((Machine.takeOffReserved g.tank g.tankRes
      (Machine.debitBook g.tank i (s.engine i).net s)).tank k).reserved
        = (s.tank k).reserved - (if k = g.tank then g.tankRes else 0) := by
    intro k
    show ((State.setTank _ g.tank _).tank k).reserved = _
    by_cases e : k = g.tank
    · subst e; rw [State.setTank_tank_self]; simp only [if_true]; rw [e3]
    · rw [State.setTank_tank_ne _ _ e, e3]; simp [e]
  have eh : (Machine.takeOffReserved g.tank g.tankRes
      (Machine.debitBook g.tank i (s.engine i).net s)).hoses = s.hoses := e1
  have ev : (Machine.takeOffReserved g.tank g.tankRes
      (Machine.debitBook g.tank i (s.engine i).net s)).vehicles = s.vehicles := e2
  revert hd et eh ev
  generalize Machine.takeOffReserved g.tank g.tankRes (Machine.debitBook g.tank i (s.engine i).net s) = b1
  intro hd et eh ev
  have hc := creditFuel hd g.vehicle (s.engine i).net
  have cc : Calm b1 (Machine.creditFuel g.vehicle (s.engine i).net b1) :=
    calm_creditFuel hd.vehicles _ fun k hk => by
      have hk' : (s.vehicle g.vehicle).binding = some k := by
        simp only [State.vehicle, ev] at hk; exact hk
      have := (a.bound g.vehicle i).mpr ⟨g, hg, rfl⟩
      rw [hk'] at this; cases this
      rw [State.hose, eh]; exact hnr
  revert hc cc
  generalize Machine.creditFuel g.vehicle (s.engine i).net b1 = c1
  intro hc cc
  have ec : c1.hoses = s.hoses := cc.hoses.trans eh
  have h4 := joinQueue (beginWrite (setEngine hc i (advanceTotals (c1.engine i))) (.totalizers i
    (advanceTotals (c1.engine i)).grossTotal (advanceTotals (c1.engine i)).netTotal) rfl)
    (.delivery (deliveryOf i g b (advanceTotals (c1.engine i)) (recordedTime (Machine.beginWrite (.totalizers i
    (advanceTotals (c1.engine i)).grossTotal (advanceTotals (c1.engine i)).netTotal)
      (c1.setEngine i (advanceTotals (c1.engine i)))))))
  have last : ∀ (X : State) (y : Hose) (g' : Grant), Kept { w with grants := false } X → X.hoses = c1.hoses →
      X.tanks = c1.tanks → X.vehicles = c1.vehicles → y.state = .settled → y.grant = some g' →
      g'.vehicle = g.vehicle → Kept w (X.setHose i y) := by
    intro X y g' hX xh xt xv ys yg yv
    have h5 := setHose hX i y (fun c => by cases c) fun _ t => by
      rw [demands_none (x := y) (by rw [ys]; rfl), demands_none (x := X.hose i)]
      rw [State.hose, xh, ec]; exact hnd
    refine { h5 with grants := fun _ => ?_ }
    refine GrantsAgree_regrant a hg (fun k hk => ?_) (by rw [State.setHose_hose_self]; exact yg)
      (by rw [State.setHose_hose_self, ys]; simp) yv (fun e => by rw [State.setHose_hose_self, ys] at e; cases e)
      (fun u => ?_) fun k => ?_
    · rw [State.setHose_hose_ne _ _ hk, State.hose, xh, ec]; rfl
    · show (X.vehicle u).binding = _
      have := cc.bindings hd.vehicles u
      simp only [State.vehicle, ev, xv] at this ⊢
      exact this
    · have ek : (s.hose i).reservedOn k = if k = g.tank then g.tankRes else 0 := by
        rcases hi with e | e
        · rw [reservedOn_of hg (by rw [e]; rfl)]; simp only [eq_comm]
        · simp [Hose.reservedOn, hg, e, HoseState.reserves, hr e]
      have ez : y.reservedOn k = 0 := by
        unfold Hose.reservedOn; split <;> simp [ys, HoseState.reserves]
      rw [State.setHose_hose_self, ez, ek]
      show (X.tanks.get k).reserved + _ = _
      rw [xt, cc.tanks]
      have := et k
      rw [show b1.tanks.get k = b1.tank k from rfl, this]
      have el := reservedOn_le s i k
      rw [ek, ← a.reserved k] at el
      omega
  exact last _ _ _ h4 rfl rfl rfl rfl rfl rfl

theorem enterSettled (h : Kept w s) (hw : w.grants = true) (i : HoseId) (b : Bool) (hi : (s.hose i).state = .closing) :
    Kept w (Machine.enterSettled i b s) := by
  unfold Machine.enterSettled; split
  · exact h
  · rename_i g hg
    exact raise (startQuietTimer (settleAccounting (setEngine h _ _) hw i g b hg (.inl hi)
      fun e => by rw [show (s.hose i).state = _ from e] at hi; cases hi) _) _ _

theorem settleExpires (h : Kept w s) (hw : w.grants = true) (i : HoseId) : Kept w (Machine.settleExpires i s) := by
  unfold Machine.settleExpires; dsimp only; split
  · rename_i e _; exact enterSettled h hw i _ e
  · exact h

theorem closingExpires (h : Kept w s) (hw : w.grants = true) (i : HoseId) : Kept w (Machine.closingExpires i s) := by
  unfold Machine.closingExpires; dsimp only; split
  · rename_i e _; exact raise (enterSettled h hw i _ e) _ _
  · exact h

@[simp] theorem returnToIdle (h : Kept w s) (i : HoseId) : Kept w (Machine.returnToIdle i s) := by
  unfold Machine.returnToIdle; dsimp only; split
  · rename_i g hi hg
    refine raise ?_ _ _
    have h1 := setHose (setVehicle h.ungranted g.vehicle { s.vehicle g.vehicle with binding := none }
      (fun c => by cases c) rfl) i (s.hose i).toIdle (fun c => by cases c) fun _ t => by
        exact (demands_none rfl t).trans (demands_none (x := s.hose i) (by rw [hi]; rfl) t).symm
    refine { h1 with grants := fun c => ?_ }
    refine GrantsAgree_released (h.grants c) hg (fun k hk => State.setHose_hose_ne _ _ hk)
      (congrArg Hose.grant (State.setHose_hose_self _ i _)) (congrArg Hose.state (State.setHose_hose_self _ i _))
      (fun u => ?_) fun k => ?_
    · show ((State.setVehicle s g.vehicle _).vehicle u).binding = _
      by_cases e : u = g.vehicle
      · subst e; rw [State.setVehicle_vehicle_self h.vehicles]; simp
      · rw [State.setVehicle_vehicle_ne e]; simp [e]
    · show (s.tank k).reserved = _
      simp [Hose.reservedOn, hg, hi, HoseState.reserves]
  · exact h

/-! ### The emergency stop, pressure and pump timers -/

@[simp] theorem hoseTakesStop (h : Kept w s) (i : HoseId) : Kept w (Machine.hoseTakesStop i s) :=
  closeIf (withdrawIfReady h i) _ (fun _ e => e) _ i

@[simp] theorem startExpires (h : Kept w s) (t : TankId) : Kept w (Machine.startExpires t s) := by
  unfold Machine.startExpires; dsimp only; split
  · rename_i e _
    refine raise (reportStartFailure (freeSlot (setPump h.unslotted t (faultPump .startTimeout (s.pump t)) (fun _ => rfl)
      (fun c => by cases c) fun _ => rfl) fun c k => ?_) _) _ _
    by_cases hk : k = t
    · subst hk; simp [faultPump]
    · rw [State.setPump_pump_ne _ _ hk]
      intro f
      have e1 := (h.slot c k).mpr f
      have e2 := (h.slot c t).mpr e
      rw [e1] at e2; exact hk (Option.some.inj e2)
  · exact h

@[simp] theorem runOnExpires (h : Kept w s) (t : TankId) : Kept w (Machine.runOnExpires t s) := by
  unfold Machine.runOnExpires; dsimp only; split
  · rename_i e _
    exact setPump h t _ (fun _ => rfl) (fun _ => by simp [stopPump, e]) fun _ => rfl
  · exact h

/-! ### Requests on hoses and pumps -/

@[simp] theorem takeCancel (h : Kept w s) (b : Byte) : Kept w (Machine.takeCancel b s).1 := by
  unfold Machine.takeCancel; repeat' split
  · exact h
  · rename_i e; exact releaseGrant h _ _ e
  · exact h

@[simp] theorem takeStopRequest (h : Kept w s) (b : Byte) : Kept w (Machine.takeStopRequest b s).1 := by
  unfold Machine.takeStopRequest; repeat' split
  · exact h
  · rename_i e; exact enterClosing h _ .hostStop e
  · exact h

theorem flows_demands {st : HoseState} (h : st.flows = true) : st.demands = true := by
  cases st <;> first | rfl | cases h

@[simp] theorem takePause (h : Kept w s) (b : Byte) : Kept w (Machine.takePause b s).1 := by
  unfold Machine.takePause; dsimp only; repeat' split
  · exact h
  · rename_i e
    exact raise (setHose_moved h _ _ (flows_demands e) (by rfl) (by rfl) (by rfl)) _ _
  · exact h

@[simp] theorem takeResume (h : Kept w s) (b : Byte) : Kept w (Machine.takeResume b s).1 := by
  unfold Machine.takeResume; dsimp only; repeat' split
  · exact h
  · rename_i e
    refine raise (setHose_moved h _ _ (by rw [e]; rfl) ?_ (by rfl) (by rfl)) _ _
    dsimp only [resumedState]; repeat' split
    all_goals rfl
  · exact h

@[simp] theorem takeHoseQuery (h : Kept w s) (b : Byte) : Kept w (Machine.takeHoseQuery b s).1 := by
  unfold Machine.takeHoseQuery; split <;> exact h

/-- An IDLE hose takes a new configuration, which may name another tank. -/
@[simp] theorem takeHoseSet (h : Kept w s) (b : Byte) (x : WireHoseConfig) : Kept w (Machine.takeHoseSet b x s).1 := by
  unfold Machine.takeHoseSet; dsimp only; split
  · exact h
  · split
    · exact h
    · rename_i i _ e
      have e : (s.hose i).state = .idle := by simpa using e
      split
      · exact h
      · rename_i cfg _
        refine beginWrite (setHose h i { s.hose i with config := cfg } (fun c => ⟨rfl, (h.grants c).idle i, fun f => ⟨f, rfl⟩, rfl⟩) fun _ t => ?_)
          (.hoseConfig _ _) rfl
        exact (demands_none (by show (s.hose i).state.demands = _; rw [e]; rfl) t).trans
          (demands_none (x := s.hose i) (by rw [e]; rfl) t).symm

@[simp] theorem takeTotalizerRead (h : Kept w s) (b : Byte) : Kept w (Machine.takeTotalizerRead b s).1 := by
  unfold Machine.takeTotalizerRead; split <;> exact h

@[simp] theorem takePumpSet (h : Kept w s) (b : Byte) (x : WirePumpConfig) : Kept w (Machine.takePumpSet b x s).1 := by
  unfold Machine.takePumpSet; dsimp only; repeat' split
  all_goals first | exact h | exact beginWrite (setPump_kept h _ _ (by rfl) (by rfl) (by rfl)) _ (by rfl)

@[simp] theorem takePumpQuery (h : Kept w s) (b : Byte) : Kept w (Machine.takePumpQuery b s).1 := by
  unfold Machine.takePumpQuery; split <;> exact h

@[simp] theorem takePumpClear (h : Kept w s) (b : Byte) : Kept w (Machine.takePumpClear b s).1 := by
  unfold Machine.takePumpClear; dsimp only; repeat' split
  · exact h
  · rename_i e; exact setPump_kept h _ _ (by rfl) (by simp [e]) (by rfl)
  · exact h

/-! ### Calibration -/

/-- CAL_OPEN is taken by a running part, with the switch closed. -/
theorem takeCalOpen (h : Kept w s) (hp : s.phase = .running) (b : Byte) : Kept w (Machine.takeCalOpen b s).1 := by
  unfold Machine.takeCalOpen; dsimp only; repeat' split
  · exact h
  · rename_i e
    exact { h with
      grants := fun c => let ⟨b1, b2, b3, b4⟩ := h.grants c; ⟨b1, b2, b3, b4⟩
      levels := fun c d => let ⟨b1, b2, b3⟩ := h.levels c d; ⟨b1, b2, b3⟩
      sealed := fun _ _ f => by rw [show s.inputs.switchClosed = false from f] at e; cases e
      resealed := fun c => by rw [show s.phase = .restarting from c] at hp; cases hp }
  · exact h

@[simp] theorem takeCalClose (h : Kept w s) (b : Byte) : Kept w (Machine.takeCalClose b s).1 := by
  unfold Machine.takeCalClose; split
  · exact h
  · rename_i i _
    have e : s.protected → State.protected (s.setCal i (protect (s.cal i))) := fun hs k => by
      by_cases hk : k = i
      · subst hk; simp [protect]
      · rw [State.setCal_cal_ne _ _ hk]; exact hs k
    exact { h with
      grants := fun c => let ⟨b1, b2, b3, b4⟩ := h.grants c; ⟨b1, b2, b3, b4⟩
      levels := fun c d => let ⟨b1, b2, b3⟩ := h.levels c d; ⟨b1, b2, b3⟩
      sealed := fun c d f => e (h.sealed c d f)
      resealed := fun c => e (h.resealed c) }

@[simp] theorem takeCalRead (h : Kept w s) (b : Byte) : Kept w (Machine.takeCalRead b s).1 := by
  unfold Machine.takeCalRead; split <;> exact h

@[simp] theorem takeProductRead (h : Kept w s) (b : Byte) : Kept w (Machine.takeProductRead b s).1 := by
  unfold Machine.takeProductRead; split <;> exact h

@[simp] theorem takeCalWrite (h : Kept w s) (b : Byte) (x : WireCalibration) : Kept w (Machine.takeCalWrite b x s).1 := by
  unfold Machine.takeCalWrite; dsimp only; repeat' split
  all_goals first | exact h | skip
  rename_i hr
  exact joinQueue (takeReservation (setCal_kept h _ _ (by rfl)) fun _ => requestTest_room (by simpa using hr)) _

@[simp] theorem takeProductSet (h : Kept w s) (c : Byte) (n : Name) (b : BitVec 16) :
    Kept w (Machine.takeProductSet c n b s).1 := by
  unfold Machine.takeProductSet; repeat' split
  · exact h
  · exact h
  · rename_i hc
    have hr := firstFail_all hc (s.journal.requestTest, .journalFull) (by simp)
    exact joinQueue (takeReservation (setProduct h _ _) fun _ => requestTest_room hr) _

end Kept

end Sys2Proof.Machine
end

