-- ==== Sys2Proof/Laws/KeptRequests.lean ====
section
/-! SUPPORT. What the requests on the vehicle register, the journal's work and the settings store's work keep. -/

namespace Sys2Proof.Machine

open Sys2Proof

variable {w : Watch} {s : State}

namespace Kept

/-! ### The vehicle register -/

/-- Every record at another index than v carries another tag than a record that may be placed at v. -/
theorem tagHolder_none (hs : s.vehiclesSound = true) {v : VehicleId} {p : HostPart} (h : tagHolder v p s = none)
    (h1 : p.inUse = true) (h2 : p.enabled = true) (h3 : p.tag ≠ 0) {u : VehicleId} (hu : u ≠ v)
    (u1 : (s.vehicle u).host.inUse = true) (u2 : (s.vehicle u).host.enabled = true) : (s.vehicle u).host.tag ≠ p.tag := by
  unfold tagHolder at h
  rw [if_pos (by rw [h1, h2]; simpa using h3), Option.map_eq_none_iff, List.find?_eq_none] at h
  have hm : (u, s.vehicle u) ∈ s.listedVehicles := (State.mem_listedVehicles hs u _).mpr ⟨rfl, fun e => by
    rw [e] at u1; cases u1⟩
  have := h _ hm
  simpa [Vehicle.carries, hu, u1, u2] using this

theorem placed_binding (r : Vehicle) (p : HostPart) : (r.placed p).binding = r.binding ∧ (r.placed p).host = p := by
  unfold Vehicle.placed; split <;> exact ⟨rfl, rfl⟩

/-- A host part is placed, its tag held by no other record; its store write has not begun. -/
theorem placeRecord (h : Kept w s) (hp : s.phase.isReset = false) (v : VehicleId) (p : HostPart)
    (ht : tagHolder v p s = none) :
    Kept { w with placed := w.placed ++ [placedOf v (s.vehicle v) p] } (Machine.placeRecord v p s) := by
  obtain ⟨e1, e2⟩ := placed_binding (s.vehicle v) p
  have e : ∀ u, ((s.setVehicle v ((s.vehicle v).placed p)).vehicle u).host = if u = v then p else (s.vehicle u).host := by
    intro u; by_cases hu : u = v
    · subst hu; rw [State.setVehicle_vehicle_self h.vehicles, e2]; simp
    · rw [State.setVehicle_vehicle_ne hu]; simp [hu]
  refine recompute (?_ : Kept { w with placed := w.placed ++ [placedOf v (s.vehicle v) p] } (s.setVehicle v _)) v
  exact { h with
    vehicles := State.setVehicle_sound h.vehicles
    levels := fun c d => let ⟨b1, b2, b3⟩ := h.levels c d; ⟨b1, b2, b3⟩
    grants := fun c => by
      obtain ⟨b1, b2, b3, b4⟩ := h.grants c
      refine ⟨b1, fun u k => ?_, b3, b4⟩
      show _ ↔ ∃ g, (s.hose k).grant = some g ∧ g.vehicle = u
      by_cases hu : u = v
      · subst hu; rw [State.setVehicle_vehicle_self h.vehicles, e1]; exact b2 u k
      · rw [State.setVehicle_vehicle_ne hu]; exact b2 u k
    working := fun a b => by
      simp only [e]
      by_cases ha : a = v <;> by_cases hb : b = v <;> simp only [ha, hb, if_true, if_false]
      · exact fun _ _ _ _ _ _ => trivial
      · intro i1 i2 i3 i4 i5 i6
        exact absurd i5.symm (tagHolder_none h.vehicles ht i1 i2 i6 hb i3 i4)
      · intro i1 i2 i3 i4 i5 i6
        exact absurd i5 (tagHolder_none h.vehicles ht i3 i4 (i5 ▸ i6) ha i1 i2)
      · exact h.working a b
    order := fun c u => by
      have := h.order c u
      rw [after_host h.stored] at this
      rw [e u]
      show ((s.store.stored.after _).vehicle u).host = _
      rw [after_host h.stored]
      simp only [List.foldl_append, List.foldl_cons, List.foldl_nil, StoreWrite.hosts] at this ⊢
      have e' : ∀ f : VehicleId → HostPart, placeHost f (placedOf v (s.vehicle v) p) u = if u = v then p else f u :=
        fun f => rfl
      rw [e']; split
      · rfl
      · exact this
    live := fun _ => hp }

@[simp] theorem lockWithdraws (h : Kept w s) (v : VehicleId) (p : HostPart) : Kept w (Machine.lockWithdraws v p s) := by
  unfold Machine.lockWithdraws; repeat' split
  · exact withdrawIfReady h _
  · exact h
  · exact h

theorem acceptPut (h : Kept w s) (hw : w.placed = []) (hp : s.phase.isReset = false) (v : VehicleId) (p : HostPart)
    (ht : tagHolder v p s = none) : Kept w (Machine.acceptPut v p s) := by
  have h1 := lockWithdraws (placeRecord h hp v p ht) v p
  have h2 := beginPlaced h1 (by simp)
  rw [hw] at h2
  have e : ({ ({ w with placed := [] ++ [placedOf v (s.vehicle v) p] } : Watch) with placed := [] }) = w := by
    cases w; simp only at hw; rw [hw]
  rw [e] at h2
  exact h2

theorem takeVehiclePut (h : Kept w s) (hw : w.placed = []) (hp : s.phase.isReset = false) (i : BitVec 16)
    (x : WireHostPart) (n : BitVec 16) : Kept w (Machine.takeVehiclePut i x n s).1 := by
  unfold Machine.takeVehiclePut; dsimp only; repeat' split
  all_goals first
    | exact h
    | (rename_i e; exact acceptPut h hw hp _ _ e)

theorem placeRecords (rs : List HostPart) : ∀ (next : Nat) (done : List PlacedRecord) (s : State) {w : Watch},
    s.phase.isReset = false → Kept { w with placed := done } s →
    Kept { w with placed := (Machine.placeRecords rs next done s).2.written } (Machine.placeRecords rs next done s).1 := by
  induction rs with
  | nil => intro next done s w _ h; exact h
  | cons p rest ih =>
    intro next done s w hp h
    unfold Machine.placeRecords; dsimp only; split
    · exact h
    · rename_i v _
      split
      · exact h
      · rename_i hb
        split
        · exact h
        · rename_i ht
          have h1 : Kept { w with placed := done ++ [placedOf v (s.vehicle v) p] } (Machine.placeRecord v p s) :=
            placeRecord (w := { w with placed := done }) h hp v p ht
          have hc : Calm s (Machine.placeRecord v p s) := by
            obtain ⟨e1, _⟩ := placed_binding (s.vehicle v) p
            refine (calm_setVehicle s v _ e1).trans (calm_recompute fun k hk => ?_)
            rw [State.setVehicle_vehicle_self h.vehicles, e1] at hk
            rw [hk] at hb; exact absurd rfl hb
          split
          · exact h1
          · exact ih _ _ _ (by rw [hc.phase]; exact hp) h1

theorem takeLoadNext (h : Kept w s) (hw : w.placed = []) (hp : s.phase.isReset = false) (n : Byte)
    (ws : List WireHostPart) : Kept w (Machine.takeLoadNext n ws s).1 := by
  have ew : ∀ x, ({ ({ w with placed := x } : Watch) with placed := [] }) = w := fun x => by
    cases w; simp only at hw; rw [hw]
  unfold Machine.takeLoadNext; dsimp only; split
  · exact h
  · rename_i next _
    split
    · exact h
    · split
      · exact h
      · rename_i ps _
        have h1 := placeRecords ps next [] s (w := w) hp (by cases w; simp only at hw; rw [hw] at h; exact h)
        revert h1
        generalize Machine.placeRecords ps next [] s = r
        obtain ⟨t, r⟩ := r
        intro h1
        dsimp only at h1 ⊢
        have h2 := fun b => setLoad h1 b
        split
        · rename_i e
          have := h2 (if decide (r.status = StatusCode.loadEnded) = true then none else some r.next)
          rw [e] at this
          cases w; simp only at hw; subst hw; exact this
        · rename_i e
          have := beginPlaced (h2 (if decide (r.status = StatusCode.loadEnded) = true then none else some r.next))
            (by simp only [e]; simp)
          rw [ew] at this; exact this

@[simp] theorem takeHoursSet (h : Kept w s) (i : BitVec 16) (n : BitVec 32) (r : BitVec 16) :
    Kept w (Machine.takeHoursSet i n r s).1 := by
  unfold Machine.takeHoursSet; dsimp only; repeat' split
  all_goals first
    | exact h
    | exact beginWrite (recompute (setVehicle_kept h _ _ (by rfl) (by rfl)) _) _ (by rfl)

/-- Slots for one more reservation stay when a status is recomputed: a grant may be released, none is made. -/
theorem room_recompute (v : VehicleId) (h : s.journal.reservations + 1 ≤ s.journal.free) :
    (Machine.recompute v s).journal.reservations + 1 ≤ (Machine.recompute v s).journal.free := by
  have due : ∀ (a b : ServiceStatus) (s : State), (Machine.updateDueList v a b s).journal = s.journal := by
    intro a b s; unfold Machine.updateDueList; repeat' split
    all_goals rfl
  have fin : ∀ s : State, s.journal.reservations + 1 ≤ s.journal.free →
      (Machine.endReservation s).journal.reservations + 1 ≤ (Machine.endReservation s).journal.free := by
    intro s hr
    have hf : ∀ b, Journal.free { s.journal with reservations := s.journal.reservations - 1, faulted := b }
        = s.journal.free := fun b => free_congr rfl
    have : (Machine.endReservation s).journal.reservations = s.journal.reservations - 1 ∧
        (Machine.endReservation s).journal.free = s.journal.free := by
      unfold Machine.endReservation Machine.recoverTest; split
      · exact ⟨rfl, hf false⟩
      · exact ⟨rfl, hf _⟩
    omega
  have rel : ∀ (i : HoseId) (d : Detail) (s : State), s.journal.reservations + 1 ≤ s.journal.free →
      (Machine.releaseGrant i d s).journal.reservations + 1 ≤ (Machine.releaseGrant i d s).journal.free := by
    intro i d s hr
    have : (Machine.releaseGrant i d s).journal = s.journal ∨ ∃ b : State, b.journal = s.journal ∧
        (Machine.releaseGrant i d s).journal = (Machine.endReservation b).journal := by
      unfold Machine.releaseGrant; split
      · exact .inl rfl
      · rename_i g _
        dsimp only
        by_cases hj : g.journalRes = true
        · simp only [hj, if_true]
          exact .inr ⟨Machine.takeOffReserved g.tank g.tankRes s, rfl, rfl⟩
        · simp only [hj]
          exact .inl rfl
    rcases this with e | ⟨b, e1, e2⟩
    · rw [e]; exact hr
    · rw [e2]; exact fin b (by rw [e1]; exact hr)
  have rep : ∀ (i : HoseId) (c : ClassRecord) (st : ServiceStatus) (s : State),
      s.journal.reservations + 1 ≤ s.journal.free →
      (Machine.takeStatusReport i c st s).journal.reservations + 1 ≤ (Machine.takeStatusReport i c st s).journal.free := by
    intro i c st s hr
    unfold Machine.takeStatusReport; repeat' split
    · exact hr
    · exact rel _ _ _ hr
    · unfold Machine.reviseLimit; dsimp only; repeat' split
      · exact hr
      · exact hr
      · exact rel i _ (Machine.recolour i .overdue s) hr
      · exact hr
    · exact hr
    · exact hr
  unfold Machine.recompute; dsimp only; repeat' split
  · exact h
  · rw [due]; exact h
  · exact rep _ _ _ _ (by rw [due]; exact h)

theorem usage_journal (v : VehicleId) (s : State) : (Machine.beginUsageWrite v s).journal = s.journal := by
  unfold Machine.beginUsageWrite; dsimp only; split <;> rfl

theorem acceptDone (h : Kept w s) (v : VehicleId) (l : LineId) (n : Option Nat)
    (hr : s.journal.reservations + 1 ≤ s.journal.free) : Kept w (Machine.acceptDone v l n s) := by
  have h1 : Kept w (Machine.applyDoneReading v n s).1 := by
    unfold Machine.applyDoneReading; split
    · exact applyReading h _ _
    · exact h
  have r1 : (Machine.applyDoneReading v n s).1.journal.reservations + 1
      ≤ (Machine.applyDoneReading v n s).1.journal.free := by
    unfold Machine.applyDoneReading; split
    · dsimp only [Machine.applyReading]
      rw [usage_journal]; exact room_recompute v (by exact hr)
    · exact hr
  unfold Machine.acceptDone; dsimp only
  have h2 := fun m r => recompute (setVehicle_kept h1 v
    { (Machine.applyDoneReading v n s).1.vehicle v with marks := m, revision := r } rfl rfl) v
  exact setVehicle_kept (joinQueue (takeReservation (h2 _ _) fun _ => room_recompute v (by exact r1)) _) _ _
    (by rfl) (by rfl)

@[simp] theorem takeServiceDone (h : Kept w s) (i : BitVec 16) (l f : Byte) (n : BitVec 32) (r : BitVec 16) :
    Kept w (Machine.takeServiceDone i l f n r s).1 := by
  unfold Machine.takeServiceDone; dsimp only; split
  · repeat' split
    all_goals first | exact h | skip
    rename_i hr
    exact acceptDone h _ _ _ (requestTest_room (by simpa using hr))
  · exact h

@[simp] theorem takeClassSet (h : Kept w s) (c : Byte) (x : WireClass) : Kept w (Machine.takeClassSet c x s).1 := by
  unfold Machine.takeClassSet; split
  · exact beginWrite (setClass h _ _) _ rfl
  · exact h

@[simp] theorem takeVehicleGet (h : Kept w s) (i : BitVec 16) : Kept w (Machine.takeVehicleGet i s).1 := by
  unfold Machine.takeVehicleGet; split <;> exact h
@[simp] theorem takeVehicleFind (h : Kept w s) (t : Tag) : Kept w (Machine.takeVehicleFind t s).1 := by
  unfold Machine.takeVehicleFind; split <;> exact h
@[simp] theorem takeClassRead (h : Kept w s) (c : Byte) : Kept w (Machine.takeClassRead c s).1 := by
  unfold Machine.takeClassRead; split <;> exact h
@[simp] theorem takeLoadBegin (h : Kept w s) (i : BitVec 16) : Kept w (Machine.takeLoadBegin i s).1 := by
  unfold Machine.takeLoadBegin; repeat' split
  all_goals first | exact h | exact setLoad h _
@[simp] theorem takeLoadEnd (h : Kept w s) : Kept w (Machine.takeLoadEnd s).1 := by
  unfold Machine.takeLoadEnd; split
  · exact h
  · exact setLoad h _
@[simp] theorem takeDueListRead (h : Kept w s) (i : BitVec 16) (n : Byte) : Kept w (Machine.takeDueListRead i n s).1 := by
  unfold Machine.takeDueListRead; split <;> exact h
@[simp] theorem takeServiceQuery (h : Kept w s) (i : BitVec 16) : Kept w (Machine.takeServiceQuery i s).1 := by
  unfold Machine.takeServiceQuery; repeat' split
  all_goals exact h

/-! ### The journal -/

@[simp] theorem beginJournalWrite (h : Kept w s) : Kept w (Machine.beginJournalWrite s) := by
  unfold Machine.beginJournalWrite; repeat' split
  · exact h
  · exact enterFaulted h.unspared
  · unfold Machine.stampHead; dsimp only; split <;> exact setJournal_kept h _ (by rfl) (by rfl) (by rfl) (by rfl)
  · exact h

@[simp] theorem setHeldWait (h : Kept w s) (x : HeldWait) : Kept w (Machine.setHeldWait x s) := by
  unfold Machine.setHeldWait; split
  · exact h
  · rename_i q hq
    exact setLink_kept h _ rfl rfl rfl rfl (by rw [hq]; rfl) rfl rfl

@[simp] theorem reportWritten (h : Kept w s) (r : Record) (n : Nat) : Kept w (Machine.reportWritten r n s) := by
  unfold Machine.reportWritten; split
  · exact returnToIdle h _
  · exact h
  · unfold Machine.calibrationWritten; dsimp only; repeat' split
    all_goals first | exact beginWrite (setHeldWait h _) _ rfl | exact beginWrite h _ rfl
  · unfold Machine.serviceWritten; dsimp only; repeat' split
    all_goals first | exact beginWrite (setHeldWait h _) _ rfl | exact beginWrite h _ rfl
  · unfold Machine.adjustWritten; dsimp only; repeat' split
    all_goals first | exact beginWrite (finishHeld h _ _) _ rfl | exact beginWrite h _ rfl
  · exact h

/-- A slot of the ACTIVE segment is used: the segments are as they were but for its room, and a free slot is gone. -/
theorem useSlot_law {j : Journal} (h : j.SegmentsSound) {g : SegmentId} (hg : (j.segment g).state = .active) (x : Slot) :
    (useSlot g x j).SegmentsLoose ∧ (useSlot g x j).free + 1 = j.free ∧ ((useSlot g x j).segment g).state = .active := by
  have hs : ∀ k, ((useSlot g x j).segment k).state = (j.segment k).state := by
    intro k; simp only [useSlot, Journal.segment_setSegment]; split
    · rename_i e; rw [e]
    · rfl
  have one : ∀ a b : SegmentId, ((useSlot g x j).segment a).state = .active →
      ((useSlot g x j).segment b).state = .active → a = b := by
    intro a b; rw [hs, hs]; exact h.one a b
  refine ⟨⟨one, fun k hk => ?_, fun k hk => ?_⟩, ?_, by rw [hs]; exact hg⟩
  · have hk' : (j.segment k).state = .free := by rw [← hs]; exact hk
    have : k ≠ g := fun e => by rw [e, hg] at hk'; cases hk'
    simp only [useSlot, Journal.segment_setSegment, this, if_false]; exact h.blank k hk'
  · rw [hs]; exact h.erasing k hk
  · have hl := h.room g hg
    have hc : (useSlot g x j).countState .free = j.countState .free := by
      unfold Journal.countState; congr 1; exact List.filter_congr fun k _ => by rw [hs]
    rw [Journal.free_active one (g := g) (by rw [hs]; exact hg), Journal.free_active h.one hg, hc]
    simp only [useSlot, Journal.segment_setSegment, if_true, List.length_append, List.length_cons, List.length_nil]
    omega

theorem wear_law (g : SegmentId) (s : State) : (Machine.wear g s).phase = s.phase ∧
    (Machine.wear g s).journal.erase = s.journal.erase ∧
      ∀ k, ((Machine.wear g s).journal.segment k).state = (s.journal.segment k).state ∧
        ((Machine.wear g s).journal.segment k).slots = (s.journal.segment k).slots := by
  unfold Machine.wear; dsimp only; split
  · exact ⟨rfl, rfl, fun k => ⟨rfl, rfl⟩⟩
  · refine ⟨rfl, rfl, fun k => ?_⟩
    show ((s.journal.setSegment g _).segment k).state = _ ∧ ((s.journal.setSegment g _).segment k).slots = _
    simp only [Journal.segment_setSegment]; split
    · rename_i e; rw [e]; exact ⟨rfl, rfl⟩
    · exact ⟨rfl, rfl⟩

theorem writeSucceeds (h : Kept w s) (hw : w.segments = true) (g : SegmentId) (r : Record) (st : Stamp)
    (rest : List Queued) (hg : (s.journal.segment g).state = .active) : Kept w (Machine.writeSucceeds g r st rest s) := by
  have law : s.phase.isReset = false → _ := fun c =>
    useSlot_law (h.segments hw c) hg (.written { record := r, stamp := st })
  unfold Machine.writeSucceeds; dsimp only
  refine thresholdTest (reportWritten (segmentChange (settleJournal (w := { w with segments := false, spare := false })
    h.loosen _ (fun c => by cases c) fun c => by cases c) g (fun c => ?_) ?_ fun c d e => ?_) _ _)
  · obtain ⟨⟨a1, a2, a3⟩, -, -⟩ := law c
    exact ⟨a1, a2, a3⟩
  · show ((useSlot g (.written { record := r, stamp := st }) s.journal).segment g).state = _
    simp only [useSlot, Journal.segment_setSegment, if_true]; exact hg
  · have := h.spare c d e
    obtain ⟨-, a, -⟩ := law d
    refine (?_ : s.journal.reservations - 1 ≤ _).trans_eq
      (free_congr (k := useSlot g (.written { record := r, stamp := st }) s.journal) rfl).symm
    omega

theorem writeFails (h : Kept w s) (hw : w.segments = true) (g : SegmentId)
    (hg : (s.journal.segment g).state = .active) : Kept w (Machine.writeFails g s) := by
  have law : s.phase.isReset = false → _ := fun c => useSlot_law (h.segments hw c) hg .void
  unfold Machine.writeFails; dsimp only
  have h1 : Kept { w with segments := false, spare := false }
      (s.setJournal { useSlot g .void s.journal with writing := false }) :=
    settleJournal (w := { w with segments := false, spare := false })
      h.loosen _ (fun c => by cases c) fun c => by cases c
  have h2 : Kept { w with segments := false, spare := false }
      (Machine.wear g (s.setJournal { useSlot g .void s.journal with writing := false })) := by
    unfold Machine.wear; dsimp only; split
    · exact h1
    · exact beginWrite (settleJournal (w := { w with segments := false, spare := false })
        h1 _ (fun c => by cases c) fun c => by cases c) _ rfl
  obtain ⟨w1, w2, w3⟩ := wear_law g (s.setJournal { useSlot g .void s.journal with writing := false })
  refine faultTest (segmentChange (w := { w with spare := false }) h2 g (fun c => ?_) ?_ fun c => by cases c)
  · obtain ⟨⟨a1, a2, a3⟩, -, -⟩ := law (by rw [← c, w1]; rfl)
    exact ⟨fun a b => by rw [(w3 a).1, (w3 b).1]; exact a1 a b, fun a => by rw [(w3 a).1, (w3 a).2]; exact a2 a,
      fun a => by rw [(w3 a).1, w2]; exact a3 a⟩
  · rw [(w3 g).1]
    show ((useSlot g .void s.journal).segment g).state = _
    simp only [useSlot, Journal.segment_setSegment, if_true]; exact hg

@[simp] theorem endJournalWrite (h : Kept w s) (hw : w.segments = true) (b : Bool) :
    Kept w (Machine.endJournalWrite b s) := by
  unfold Machine.endJournalWrite; split
  · rename_i e _
    have hg := Journal.active_state e
    split
    · exact writeSucceeds h hw _ _ _ _ hg
    · exact writeFails h hw _ hg
  · exact h

/-! ### Erases -/

/-- A change of a segment that is and stays neither ACTIVE nor FREE. -/
theorem Journal.SegmentsSound_setSegment {j : Journal} (h : j.SegmentsSound) (g : SegmentId) (x : Segment)
    (h3 : x.state ≠ .active) (h4 : x.state ≠ .free) (e : Option SegmentId)
    (he : ∀ k, e = some k → ((j.setSegment g x).segment k).state = .erasing) :
    Journal.SegmentsSound { j.setSegment g x with erase := e } := by
  have hs : ∀ k, (Journal.segment { j.setSegment g x with erase := e } k) = if k = g then x else j.segment k :=
    fun k => Journal.segment_setSegment j g k x
  refine ⟨fun a b => ?_, fun a => ?_, fun a => ?_, fun a ha => he a ha⟩
  · rw [hs, hs]; split <;> split
    · exact fun c => absurd c h3
    · exact fun c => absurd c h3
    · exact fun _ c => absurd c h3
    · exact h.one a b
  · rw [hs]; split
    · exact fun c => absurd c h3
    · exact h.room a
  · rw [hs]; split
    · exact fun c => absurd c h4
    · exact h.blank a

theorem startErase (h : Kept w s) (hw : w.segments = true) : Kept w (Machine.startErase s) := by
  unfold Machine.startErase; split
  · exact h
  · split
    · exact h
    · rename_i g rest hl
      have hm : g ∈ s.journal.cutShort ++ s.journal.eligibleSegments s.store.stored.ack := by rw [hl]; simp
      have hg : (s.journal.segment g).state ≠ .active ∧ (s.journal.segment g).state ≠ .free := by
        rcases List.mem_append.mp hm with hm | hm
        · simp [(mem_cutShort _ _).mp hm]
        · simp [((mem_eligibleSegments _ _ _).mp hm).1]
      refine setJournal h _ (fun _ _ a => ?_) fun c d _ f => ?_
      · exact Journal.SegmentsSound_setSegment a g _ (by simp) (by simp) (some g) fun k hk => by cases hk; simp
      · have := h.spare c d f
        exact le_of_le_of_eq this ((free_congr rfl).trans (Journal.free_setSegment_other (h.segments hw d).one g
          { s.journal.segment g with state := .erasing, eraseMark := true, slots := [] } hg.1 hg.2
            (by simp) (by simp))).symm

theorem retire (h : Kept w s) (hw : w.segments = true) (g : SegmentId) (x : Segment)
    (hg : s.phase.isReset = false → (s.journal.segment g).state = .erasing) (he : s.journal.erase = none) :
    Kept w (Machine.retire g x s) := by
  refine thresholdTest (raise (beginWrite (setJournal h _ (fun _ _ a => ?_) fun c d _ f => ?_) (.retiredMarks _) rfl) _ _)
  · have := Journal.SegmentsSound_setSegment a g { x with state := .retired, worn := false, slots := [] } (by simp)
      (by simp) none fun k hk => by cases hk
    refine segmentsSound_congr (k := { s.journal.setSegment g _ with erase := none }) rfl ?_ this
    exact he
  · have hg := hg d
    exact le_of_le_of_eq (h.spare c d f) (Journal.free_setSegment_other (h.segments hw d).one g
      { x with state := .retired, worn := false, slots := [] } (by simp [hg]) (by simp [hg]) (by simp) (by simp)).symm

theorem freeSegment (h : Kept w s) (hw : w.segments = true) (g : SegmentId) (x : Segment)
    (hg : s.phase.isReset = false → (s.journal.segment g).state = .erasing) (he : s.journal.erase = none) :
    Kept w (Machine.freeSegment g x s) := by
  have law : s.phase.isReset = false →
      (s.journal.setSegment g { x with state := .free, eraseMark := false, slots := [] }).SegmentsSound ∧
      s.journal.free ≤ (s.journal.setSegment g { x with state := .free, eraseMark := false, slots := [] }).free := by
    intro c
    obtain ⟨a1, a2, a3, a4⟩ := h.segments hw c
    have hg := hg c
    have hc := s.journal.countState_setSegment g { x with state := .free, eraseMark := false, slots := [] } .free
    rw [if_neg (by simp [hg]), if_pos rfl] at hc
    have one : ∀ a b : SegmentId,
        ((s.journal.setSegment g { x with state := .free, eraseMark := false, slots := [] }).segment a).state = .active →
        ((s.journal.setSegment g { x with state := .free, eraseMark := false, slots := [] }).segment b).state = .active →
        a = b := by
      intro a b; simp only [Journal.segment_setSegment]; split <;> split
      · exact fun c => by cases c
      · exact fun c => by cases c
      · exact fun _ c => by cases c
      · exact a1 a b
    refine ⟨⟨one, fun a => ?_, fun a => ?_, fun a ha => ?_⟩, ?_⟩
    · simp only [Journal.segment_setSegment]; split
      · exact fun c => by cases c
      · exact a2 a
    · simp only [Journal.segment_setSegment]; split
      · exact fun _ => rfl
      · exact a3 a
    · rw [show (s.journal.setSegment g _).erase = s.journal.erase from rfl, he] at ha; cases ha
    · by_cases ha : ∃ k, (s.journal.segment k).state = .active
      · obtain ⟨k, hk⟩ := ha
        have hkg : k ≠ g := fun e => by rw [e, hg] at hk; cases hk
        have hs : ((s.journal.setSegment g { x with state := .free, eraseMark := false, slots := [] }).segment k)
            = s.journal.segment k := by simp [hkg]
        rw [Journal.free_active a1 hk, Journal.free_active (g := k) one (by rw [hs]; exact hk), hs]
        omega
      · have hn : ∀ k, (s.journal.segment k).state ≠ .active := fun k hk => ha ⟨k, hk⟩
        rw [Journal.free_none hn, Journal.free_none]
        · omega
        · intro k; simp only [Journal.segment_setSegment]; split
          · exact fun c => by cases c
          · exact hn k
  have h1 : Kept w (s.setJournal (s.journal.setSegment g { x with state := .free, eraseMark := false, slots := [] })) :=
    setJournal h _ (fun _ c _ => (law c).1) fun c d e f => (e f).trans (law d).2
  unfold Machine.freeSegment; dsimp only; split
  · rename_i hn
    refine activate (w := w) (h1.weaken (le_refl _) id id id (fun c => by cases c) id id rfl) g
      (fun c => (law c).1.loose) (fun _ => Journal.active_none hn) ?_
    show ((s.journal.setSegment g _).segment g).state = _
    simp
  · exact h1

theorem endErase (h : Kept w s) (hw : w.segments = true) (b : Bool) : Kept w (Machine.endErase b s) := by
  unfold Machine.endErase; split
  · exact h
  · rename_i g hg
    have h1 : Kept w (s.setJournal { s.journal with erase := none }) :=
      setJournal h _ (fun _ _ a => ⟨a.one, a.room, a.blank, fun k hk => by cases hk⟩) fun _ _ a f =>
        le_of_le_of_eq (a f) (free_congr (k := s.journal) rfl).symm
    have he : s.phase.isReset = false → (s.journal.segment g).state = .erasing := fun c =>
      (h.segments hw c).erasing g hg
    dsimp only
    refine recoverTest ?_
    split
    · exact retire h1 hw g _ he rfl
    · split
      · exact retire h1 hw g _ he rfl
      · exact freeSegment h1 hw g _ he rfl

@[simp] theorem takeJournalRead (h : Kept w s) (i : BitVec 32) (n : Byte) : Kept w (Machine.takeJournalRead i n s).1 := by
  unfold Machine.takeJournalRead; split <;> exact h

@[simp] theorem takeJournalAck (h : Kept w s) (n : BitVec 32) : Kept w (Machine.takeJournalAck n s).1 := by
  unfold Machine.takeJournalAck; dsimp only; repeat' split
  all_goals first
    | exact h
    | exact beginAckWrite (thresholdTest (setJournal_kept h _ (by rfl) (by rfl) (by rfl) (by rfl)))

@[simp] theorem takeJournalStatus (h : Kept w s) : Kept w (Machine.takeJournalStatus s).1 := h

/-! ### The settings store -/

@[simp] theorem answerHeld (h : Kept w s) (x : HeldWait) (b : ReplyBody) : Kept w (Machine.answerHeld x b s) := by
  unfold Machine.answerHeld; repeat' split
  all_goals first | exact h | exact finishHeld h _ _

@[simp] theorem finishClassSet (h : Kept w s) : Kept w (Machine.finishClassSet s) := by
  unfold Machine.finishClassSet; repeat' split
  all_goals first | exact h | exact finishHeld h _ _

@[simp] theorem writeStored (h : Kept w s) (x : StoreWrite) : Kept w (Machine.writeStored x s) := by
  unfold Machine.writeStored; split
  all_goals first | exact h | exact answerHeld h _ _ | skip
  · have h1 := fun i => setCal_kept h i { s.cal i with pending := false } rfl
    unfold Machine.calStored; dsimp only; repeat' split
    all_goals first | exact h1 _ | exact finishHeld (h1 _) _ _
  · unfold Machine.productStored; dsimp only; repeat' split
    all_goals first | exact setProduct h _ _ | exact finishHeld (setProduct h _ _) _ _
  · unfold Machine.vehiclesStored; repeat' split
    all_goals first | exact h | exact finishHeld h _ _
  · unfold Machine.usageStored; dsimp only; split
    · exact h
    · exact setVehicle_kept h _ _ (by rfl) (by rfl)
    · exact beginWrite (setVehicle_kept h _ _ (by rfl) (by rfl)) _ rfl
  · have h1 := fun v => setVehicle_kept h v { s.vehicle v with servicePending := false } rfl rfl
    unfold Machine.serviceStored; dsimp only; repeat' split
    all_goals first | exact h1 _ | exact finishHeld (h1 _) _ _
  · unfold Machine.classStored; repeat' split
    all_goals first | exact h | exact finishClassSet (setHeldWait h _)
  · unfold Machine.ackStored; dsimp only; split
    · exact h
    · exact setJournal_kept h _ (by rfl) (by rfl) (by rfl) (by rfl)
    · exact beginWrite (setJournal_kept h _ (by rfl) (by rfl) (by rfl) (by rfl)) _ rfl

@[simp] theorem beginStoreWrite (h : Kept w s) : Kept w (Machine.beginStoreWrite s) := by
  unfold Machine.beginStoreWrite; split
  · rename_i x rest e1 e2
    have e : Store.waiting { s.store with inFlight := some x, queue := rest } = s.store.waiting := by
      simp [Store.waiting, e1, e2]
    exact setStore h _ h.stored h.area (by rw [e]; exact h.tags) (by rw [e]; exact h.order)
  · exact h

@[simp] theorem endStoreWrite (h : Kept w s) : Kept w (Machine.endStoreWrite s) := by
  unfold Machine.endStoreWrite; split
  · exact h
  · rename_i x e1
    refine writeStored (setStore h _ (applyWrite_hosts h.stored x).1 ?_ (fun n => ?_) fun c v => ?_) x
    · intro a ha; exact h.area a (by rw [← applyWrite_area x]; exact ha)
    · have := h.tags (n + 1)
      simpa [Store.waiting, e1, Stored.after] using this
    · have := h.order c v
      simpa [Store.waiting, e1, Stored.after] using this

@[simp] theorem sweepVehicle (h : Kept w s) : Kept w (Machine.sweepVehicle s) := by
  unfold Machine.sweepVehicle; repeat' split
  · exact h
  · exact finishClassSet (setHeldWait (recompute h _) _)
  · exact h

end Kept

end Sys2Proof.Machine
end

