-- ==== Sys2Proof/Laws/JournalSteps.lean ====
section
/-! SUPPORT. What the journal's steps do, each said once: the threshold test, the entry to FAULTED, the next FREE segment
and the segment change, in the terms of the statements. -/

namespace Sys2Proof.Machine

open Sys2Proof

/-! ### The fill threshold and FAULTED (R160, R167) -/

/-- The threshold test is the one of the statements. -/
theorem thresholdTest_tested (u : State) : thresholdTest u = u.tested := by
  unfold thresholdTest State.tested Journal.thresholdPasses
  by_cases hp : u.journal.usable * u.link.site.threshold ≤ u.journal.held.length * 100 <;>
    cases ha : u.journal.armed <;> simp [hp, ha] <;> first | rfl | (rw [← ha]; rfl)

/-- The journal enters FAULTED. -/
theorem enterFaulted_enters (s : State) : EntersFaulted s (enterFaulted s) := by
  have hj (u : State) : (releaseHeldEarly u).journal = u.journal := by
    obtain ⟨l, e, _⟩ := releaseHeldEarly_frame u; rw [e]
  have hf (u : State) : releaseHeldEarly u = { u with link := (releaseHeldEarly u).link } := by
    obtain ⟨l, e, _⟩ := releaseHeldEarly_frame u; rw [e]
  have hl : ∀ v : State, (releaseHeldEarly (s.setJournal { s.journal with faulted := true })).link = v.link →
      v.clock = s.clock → v.phase = s.phase → v.journal.newest = s.journal.newest →
      (enterFaulted s).link = (raise .journal .faulted v).link := by
    intro v e h1 h2 h3
    have := hf (s.setJournal { s.journal with faulted := true })
    refine raise_link_congr _ _ e ?_ ?_ ?_
    · rw [this, h1]; rfl
    · rw [this, h2]; rfl
    · rw [this, h3]; rfl
  refine ⟨congrArg Journal.faulted (hj (s.setJournal { s.journal with faulted := true })), fun k tag wait h => ?_,
    fun h => ?_⟩
  · intro answers
    have hh : (s.setJournal { s.journal with faulted := true }).link.held = some { kind := k, tag := tag, wait := wait } := h
    cases wait with
    | calWrite _ o | productSet _ o | serviceDone _ o =>
      cases o <;> refine hl _ ?_ rfl rfl rfl <;> unfold releaseHeldEarly <;> rw [hh] <;>
        first | rfl | (simp only; unfold finishHeld; rw [hh]; rfl)
    | stockAdjust _ _ _ =>
      refine hl _ ?_ rfl rfl rfl
      unfold releaseHeldEarly; rw [hh]
      simp only; unfold finishHeld; rw [hh]; rfl
    | hoseSet _ | tankSet _ | strapSet _ | pumpSet _ | vehiclePut _ | loadNext _ _ _ _ | hoursSet _
    | classSet _ _ _ _ _ | siteSet =>
      refine hl _ ?_ rfl rfl rfl
      unfold releaseHeldEarly; rw [hh]; rfl
  · refine hl s ?_ rfl rfl rfl
    unfold releaseHeldEarly
    rw [show (s.setJournal { s.journal with faulted := true }).link.held = none from h]
    rfl

/-- The entry to FAULTED changes the flag and the link alone. -/
theorem enterFaulted_frame (s : State) : enterFaulted s =
    { s with journal := { s.journal with faulted := true }, link := (enterFaulted s).link } := by
  obtain ⟨l, e, _⟩ := releaseHeldEarly_frame (s.setJournal { s.journal with faulted := true })
  unfold enterFaulted; rw [e]; rfl

/-- No frame joins or leaves the receive queue at the entry to FAULTED. -/
theorem enterFaulted_frames (s : State) : (enterFaulted s).link.rxQueue = s.link.rxQueue := by
  obtain ⟨l, e, h⟩ := releaseHeldEarly_frame (s.setJournal { s.journal with faulted := true })
  unfold enterFaulted; rw [e]; exact h

/-- With free slots for the reservations, or FAULTED already, the fault test changes nothing. -/
theorem faultTest_stays {s : State} (h : s.journal.faulted = true ∨ s.journal.reservations ≤ s.journal.free) :
    faultTest s = s := by
  unfold faultTest; rw [if_neg]; intro hc; simp at hc; rcases h with h | h
  · rw [h] at hc; exact absurd hc.1 (by decide)
  · omega

/-- With fewer free slots than reservations a journal that is not FAULTED enters FAULTED. -/
theorem faultTest_enters {s : State} (hf : s.journal.faulted = false) (h : s.journal.free < s.journal.reservations) :
    faultTest s = enterFaulted s := by
  unfold faultTest; rw [if_pos]; simp [hf, h]

/-! ### The circular order of the segments (R151, R158) -/

/-- The segments after a segment stand in their circular order. -/
theorem segmentsAfter_rising : ∀ g : SegmentId,
    (segmentsAfter g).Pairwise (fun a b => stepsAfter g a < stepsAfter g b) := by decide +kernel

/-- The first segment that meets a test in circular order after a segment. -/
theorem find_segmentsAfter {p : SegmentId → Bool} {g k : SegmentId} (h : (segmentsAfter g).find? p = some k) :
    p k = true ∧ ∀ i, p i = true → stepsAfter g k ≤ stepsAfter g i := by
  obtain ⟨hk, front, back, e, hf⟩ := List.find?_eq_some_iff_append.mp h
  refine ⟨hk, fun i hi => ?_⟩
  have hs := segmentsAfter_rising g
  have hm := mem_segmentsAfter g i
  rw [e] at hs hm
  rw [List.pairwise_append] at hs
  rcases List.mem_append.mp hm with hm | hm
  · exact absurd hi (by simpa using hf i hm)
  · rcases List.mem_cons.mp hm with rfl | hm
    · exact le_refl _
    · exact le_of_lt ((List.pairwise_cons.mp hs.2.1).1 i hm)

/-- Two segments that stand as far after a segment are one. -/
theorem stepsAfter_inj : ∀ g i k : SegmentId, stepsAfter g i = stepsAfter g k → i = k := by decide +kernel

/-- The next FREE segment is the one that the journal finds. -/
theorem Journal.find_nextFree {j : Journal} {g k : SegmentId} (h : j.NextFree g k) :
    (segmentsAfter g).find? (fun i => decide ((j.segment i).state = .free)) = some k := by
  cases hf : (segmentsAfter g).find? (fun i => decide ((j.segment i).state = .free)) with
  | none => rw [List.find?_eq_none] at hf; simpa [h.free] using hf k (mem_segmentsAfter g k)
  | some i =>
    obtain ⟨h1, h2⟩ := find_segmentsAfter hf
    have h1 : (j.segment i).state = .free := by simpa using h1
    exact congrArg some (stepsAfter_inj g i k (le_antisymm (h2 k (by simpa using h.free)) (h.next i h1)))

/-- With no FREE segment the journal finds none. -/
theorem Journal.find_noneFree {j : Journal} {g : SegmentId} (h : ∀ k, (j.segment k).state ≠ .free) :
    (segmentsAfter g).find? (fun i => decide ((j.segment i).state = .free)) = none := by
  rw [List.find?_eq_none]; intro k _; simpa using h k

/-- The segments found cut short stand in circular order after the high-water mark's segment (R171). -/
theorem cutShort_rising (j : Journal) :
    j.cutShort.Pairwise (fun g k => stepsAfter j.highWater.segment g < stepsAfter j.highWater.segment k) :=
  (segmentsAfter_rising _).filter _

/-! ### The segment change (R158) -/

/-- The segment change before its fault test: a segment used to its last slot is FULL, and the next FREE one ACTIVE. -/
def segmentPassed (g : SegmentId) (x : State) : State :=
  if (x.journal.segment g).slots.length < 64 then x
  else activateNext g (x.setJournal (x.journal.setSegment g { x.journal.segment g with state := .full }))

/-- The segment change is that, with the fault test where the segment is used to its last slot. -/
theorem segmentChange_passed (g : SegmentId) (x : State) : segmentChange g x =
    if (x.journal.segment g).slots.length < 64 then segmentPassed g x else faultTest (segmentPassed g x) := by
  unfold segmentChange segmentPassed
  by_cases h : (x.journal.segment g).slots.length < 64
  · simp only [show Config.slotsPerSegment = 64 from rfl, h, if_true]
  · simp only [show Config.slotsPerSegment = 64 from rfl, h, if_false]

/-- What the segment change leaves, from a state `s` of which `x` has used one slot of the ACTIVE segment. -/
structure SegmentPassed (s x t : State) (g : SegmentId) : Prop where
  follows : ∃ ws, SegmentFollows s t g x.journal.comingSeq x.journal.newest ws
    ∧ t.store = { x.store with queue := x.store.queue ++ ws }
  segment : t.journal.segment g =
    { x.journal.segment g with state := if (x.journal.segment g).slots.length < 64 then .active else .full }
  journal : t.journal = { x.journal with segments := t.journal.segments, highWater := t.journal.highWater }
  frame : t = { x with journal := t.journal, store := t.store }

theorem segmentPassed_passed {s x : State} {g : SegmentId} (ha : (x.journal.segment g).state = .active)
    (hs : (s.journal.segment g).state = .active)
    (hk : ∀ k, k ≠ g → x.journal.segment k = s.journal.segment k) (hw : x.journal.highWater = s.journal.highWater)
    (hl : (x.journal.segment g).slots.length = (s.journal.segment g).slots.length + 1) :
    SegmentPassed s x (segmentPassed g x) g := by
  unfold segmentPassed
  split
  · rename_i h
    refine ⟨⟨[], ⟨fun _ => ⟨hw, hk, rfl⟩, fun h' => ?_, fun h' => ?_⟩, by simp⟩, by rw [if_pos h, ← ha], rfl, rfl⟩ <;> omega
  · rename_i h
    generalize hy : x.setJournal (x.journal.setSegment g { x.journal.segment g with state := .full }) = y
    have hyg : y.journal.segment g = { x.journal.segment g with state := .full } := by rw [← hy]; simp
    have hyk : ∀ k, k ≠ g → y.journal.segment k = s.journal.segment k := by
      intro k hkg; rw [← hy, ← hk k hkg]; simp [hkg]
    have hfree : ∀ k, (y.journal.segment k).state = .free ↔ (s.journal.segment k).state = .free := by
      intro k; by_cases e : k = g
      · subst e; rw [hyg, hs]; simp
      · rw [hyk k e]
    unfold activateNext
    cases hf : (segmentsAfter g).find? fun k => decide ((y.journal.segment k).state = .free) with
    | none =>
      have hn : ∀ k, (s.journal.segment k).state ≠ .free := fun k e => by
        rw [List.find?_eq_none] at hf; simpa [(hfree k).mpr e] using hf k (mem_segmentsAfter g k)
      have hhw : y.journal.highWater = s.journal.highWater := by rw [← hy]; exact hw
      refine ⟨⟨[], ⟨fun h' => by omega, fun _ k hk => absurd hk.free (hn k), fun _ _ => ⟨hhw, hyk, rfl⟩⟩, ?_⟩,
        by rw [if_neg h]; exact hyg, ?_, ?_⟩ <;> rw [← hy] <;> simp [State.setJournal, Journal.setSegment]
    | some i =>
      obtain ⟨h1, h2⟩ := find_segmentsAfter hf
      have h1 : (y.journal.segment i).state = .free := by simpa using h1
      have hig : i ≠ g := fun e => by subst e; rw [hyg] at h1; cases h1
      have hgi : g ≠ i := fun e => hig e.symm
      refine ⟨⟨[.highWater (activate i y).journal.highWater], ⟨fun h' => by omega, fun _ k hk => ?_, fun _ hn => ?_⟩, ?_⟩, ?_, ?_, ?_⟩
      · have hki : k = i := stepsAfter_inj g k i (le_antisymm (hk.next i ((hfree i).mp h1)) (h2 k (by simpa using (hfree k).mpr hk.free)))
        subst hki
        refine ⟨?_, ?_, fun j hj1 hj2 => ?_, rfl⟩
        · rw [← hy]; rfl
        · show (y.journal.setSegment k { y.journal.segment k with state := .active }).segment k = _
          simp only [Journal.segment_setSegment, if_true, hyk k hig]
        · show (y.journal.setSegment k { y.journal.segment k with state := .active }).segment j = _
          simp only [Journal.segment_setSegment, hj2, if_false, hyk j hj1]
      · exact absurd ((hfree i).mp h1) (hn i)
      · rw [← hy]; rfl
      · show (y.journal.setSegment i { y.journal.segment i with state := .active }).segment g = _
        simp only [Journal.segment_setSegment, hgi, h, if_false, hyg]
      · rw [← hy]; rfl
      · rw [← hy]; rfl

/-- The segment change leaves the free slots as they are. -/
theorem segmentPassed_free {x : State} {g : SegmentId} (hx : x.journal.SegmentsLoose)
    (ha : (x.journal.segment g).state = .active) : (segmentPassed g x).journal.free = x.journal.free := by
  unfold segmentPassed
  split
  · rfl
  · rename_i h
    generalize hy : x.setJournal (x.journal.setSegment g { x.journal.segment g with state := .full }) = y
    have hn : ∀ k, (y.journal.segment k).state ≠ .active := by
      intro k; rw [← hy]; simp only [State.setJournal_journal, Journal.segment_setSegment]; split
      · simp
      · rename_i e; exact fun f => e (hx.one k g f ha)
    have hyf : y.journal.free = x.journal.free := by
      rw [Journal.free_none hn, Journal.free_active hx.one ha, ← hy]
      have := x.journal.countState_setSegment g { x.journal.segment g with state := .full } .free
      rw [if_neg (by rw [ha]; decide), if_neg (by simp)] at this
      show 64 * (x.journal.setSegment g _).countState .free = _
      rw [show (x.journal.setSegment g { x.journal.segment g with state := .full }).countState .free =
        x.journal.countState .free by simpa using this]
      omega
    have hl : y.journal.SegmentsLoose := by
      refine ⟨fun a b c => absurd c (hn a), fun a => ?_, fun a e => ?_⟩
      · rw [← hy]; simp only [State.setJournal_journal, Journal.segment_setSegment]; split
        · exact fun e => by cases e
        · exact hx.blank a
      · rw [← hy] at e ⊢
        have e : (x.journal.segment a).state = .erasing := hx.erasing a e
        have : a ≠ g := fun f => by rw [f, ha] at e; cases e
        simpa [this] using e
    unfold activateNext
    split
    · rename_i i hi
      have hi : (y.journal.segment i).state = .free := by simpa using (find_segmentsAfter hi).1
      rw [← hyf, ← (Journal.activate_law hl hn hi).2]
      exact Kept.free_congr rfl
    · exact hyf

end Sys2Proof.Machine
end

