-- ==== Sys2Proof/Laws/KeptPower.lean ====
section
/-! SUPPORT. What the power-fail save, a loss of supply, restart and the link controller keep. -/

namespace Sys2Proof.Machine

open Sys2Proof

variable {w : Watch} {s : State}

namespace Kept

/-! ### The save -/

@[simp] theorem outputsOff (h : Kept w s) : Kept w (Machine.outputsOff s) := by
  have eh : ∀ i, ((Machine.outputsOff s).hose i) = closeValve (s.hose i) := fun i => vmap_get _ _ i
  have ep : ∀ t, ((Machine.outputsOff s).pump t) = starterOff (s.pump t) := fun t => vmap_get _ _ t
  have e1 : ∀ t, (Machine.outputsOff s).reservedOn t = s.reservedOn t := fun t =>
    sum_hoses_eq fun k => by rw [eh]; rfl
  have e2 : ∀ t, (Machine.outputsOff s).demandOn t = s.demandOn t := fun t =>
    sum_hoses_eq fun k => by rw [eh]; rfl
  exact { h with
    grants := fun c => by
      obtain ⟨a, b, r, e⟩ := h.grants c
      refine ⟨fun k => by rw [eh]; exact a k, fun v k => by rw [eh]; exact b v k,
        fun k g => by rw [eh]; exact r k g, fun t => by rw [e1]; exact e t⟩
    demand := fun c t => by rw [ep, e2]; exact h.demand c t
    slot := fun c t => by rw [ep]; exact h.slot c t
    levels := fun c d => let ⟨b1, b2, b3⟩ := h.levels c d; ⟨b1, b2, fun t => by rw [ep]; exact b3 t⟩ }

@[simp] theorem lastSample (h : Kept w s) (i : HoseId) : Kept w (Machine.lastSample i s) := by
  unfold Machine.lastSample; split
  · exact setEngine h _ _
  · exact h

theorem abandonWrite_law (st : Store) : (Machine.abandonWrite st).stored = st.stored ∧
    (Machine.abandonWrite st).waiting = st.waiting := by
  unfold Machine.abandonWrite; split
  · exact ⟨rfl, rfl⟩
  · rename_i x e; split
    · exact ⟨rfl, by simp [Store.waiting, e]⟩
    · exact ⟨rfl, rfl⟩

@[simp] theorem beginSave (h : Kept w s) (hp : s.phase.isReset = false) (c : SaveCause) :
    Kept w (Machine.beginSave c s) := by
  have h1 := forAll (f := Machine.lastSample) (fun i s h => lastSample h i) allHoses _ (outputsOff h)
  have ep : (Machine.forAll allHoses Machine.lastSample (Machine.outputsOff s)).phase = s.phase := by
    have : ∀ (xs : List HoseId) (t : State), (Machine.forAll xs Machine.lastSample t).phase = t.phase := by
      intro xs; induction xs with
      | nil => intro t; rfl
      | cons x rest ih =>
        intro t; refine (ih _).trans ?_
        unfold Machine.lastSample; split <;> rfl
    exact this _ _
  unfold Machine.beginSave; dsimp only
  revert h1 ep
  generalize Machine.forAll allHoses Machine.lastSample (Machine.outputsOff s) = t
  intro h1 ep
  obtain ⟨a1, a2⟩ := abandonWrite_law t.store
  exact { h1 with
    stored := by show (Machine.abandonWrite t.store).stored.vehiclesSound = true; rw [a1]; exact h1.stored
    area := by show (Machine.abandonWrite t.store).stored.areaSound; rw [a1]; exact h1.area
    grants := fun c => let ⟨b1, b2, b3, b4⟩ := h1.grants c; ⟨b1, b2, b3, b4⟩
    levels := fun _ d => by cases d
    sealed := fun _ d => by cases d
    resealed := fun d => by cases d
    attention := rfl
    waiting := Nat.zero_le _
    replies := Nat.zero_le _
    segments := fun c _ => let ⟨b1, b2, b3, _⟩ := h1.segments c (by rw [ep]; exact hp)
      ⟨b1, b2, b3, fun k hk => by cases hk⟩
    spare := fun c _ f => le_of_le_of_eq (h1.spare c (by rw [ep]; exact hp) f) (free_congr (k := t.journal) rfl).symm
    tags := fun n => by
      show tagsDistinct fun v => (((Machine.abandonWrite t.store).stored.after
        ((Machine.abandonWrite t.store).waiting.take n)).vehicle v).host
      rw [a1, a2]; exact h1.tags n
    order := fun _ v => by
      show (((Machine.abandonWrite t.store).stored.after
        ((Machine.abandonWrite t.store).waiting ++ [.vehicles w.placed])).vehicle v).host = _
      rw [a1, a2]; exact h1.order (by rw [ep]; exact hp) v
    live := fun _ => rfl }

/-- The usage parts that a save writes leave the host parts alone. -/
theorem saveUsage_law (s : State) (st : Stored) (h : st.vehiclesSound = true) :
    (saveUsage s st).vehiclesSound = true ∧ ∀ v, ((saveUsage s st).vehicle v).host = (st.vehicle v).host := by
  unfold saveUsage
  generalize s.listedVehicles = l
  induction l generalizing st with
  | nil => exact ⟨h, fun _ => rfl⟩
  | cons e rest ih =>
    simp only [List.foldl_cons]
    by_cases c : usageUnstored s e.1 e.2 = true
    · simp only [c, if_true]
      have hs : (st.setVehicle e.1 { st.vehicle e.1 with usage := e.2.usage }).vehiclesSound = true :=
        Sparse.wf_set e.1.isLt h
      obtain ⟨h1, h2⟩ := ih _ hs
      refine ⟨h1, fun v => (h2 v).trans ?_⟩
      rw [setVehicle_host h]; split
      · rename_i ev; rw [ev]
      · rfl
    · simp only [c]
      exact ih _ h

/-- A save writes the usage part of each listed vehicle that has a write of it in flight or waiting, and leaves every
other stored record as it is (R128). -/
theorem saveUsage_vehicle {s : State} {st : Stored} (hs : s.vehiclesSound = true) (h : st.vehiclesSound = true)
    (v : VehicleId) :
    (saveUsage s st).vehicle v =
      if s.vehicle v ≠ .unused ∧ usageUnstored s v (s.vehicle v) = true then
        { st.vehicle v with usage := (s.vehicle v).usage }
      else st.vehicle v := by
  have hn := State.nodup_listedVehicles hs
  have hm := State.mem_listedVehicles hs v
  unfold saveUsage
  generalize hr : s.vehicle v = r at hm
  have fold : ∀ (l : List (VehicleId × Vehicle)) (st : Stored), st.vehiclesSound = true → (l.map (·.1)).Nodup →
      ((l.foldl (fun st e => if usageUnstored s e.1 e.2 then st.setVehicle e.1 { st.vehicle e.1 with usage := e.2.usage }
          else st) st).vehicle v =
        match l.find? fun e => decide (e.1 = v) with
        | some e => if usageUnstored s v e.2 then { st.vehicle v with usage := e.2.usage } else st.vehicle v
        | none => st.vehicle v) := by
    intro l
    induction l with
    | nil => intro st _ _; rfl
    | cons e rest ih =>
      intro st h hn
      obtain ⟨hx, hn⟩ := List.nodup_cons.mp hn
      have hs : ∀ u : Usage, (st.setVehicle e.1 { st.vehicle e.1 with usage := u }).vehiclesSound = true :=
        fun u => Sparse.wf_set e.1.isLt h
      rw [List.foldl_cons, ih _ (by split; exact hs _; exact h) hn, List.find?_cons]
      by_cases ev : e.1 = v
      · have hnone : rest.find? (fun e => decide (e.1 = v)) = none := by
          rw [List.find?_eq_none]
          intro y hy; rw [decide_eq_true_eq]; exact fun hv => hx (List.mem_map.mpr ⟨y, hy, hv.trans ev.symm⟩)
        rw [hnone, decide_eq_true ev]; dsimp only
        subst ev
        split
        · exact Sparse.get_set_self h
        · rfl
      · rw [decide_eq_false ev]; dsimp only
        have : ∀ u : Usage, (st.setVehicle e.1 { st.vehicle e.1 with usage := u }).vehicle v = st.vehicle v :=
          fun u => Sparse.get_set_ne fun k => ev (Fin.ext k.symm)
        rw [show (if usageUnstored s e.1 e.2 then st.setVehicle e.1 { st.vehicle e.1 with usage := e.2.usage }
          else st).vehicle v = st.vehicle v by split; exact this _; rfl]
  rw [fold _ _ h hn]
  split
  · rename_i e he
    have h1 := List.find?_some he
    have h2 := List.mem_of_find?_eq_some he
    rw [decide_eq_true_eq] at h1
    obtain ⟨u, x⟩ := e
    cases h1
    obtain ⟨rfl, hu⟩ := (State.mem_listedVehicles hs u x).mp h2
    rw [hr] at hu ⊢
    by_cases c : usageUnstored s u r = true
    · rw [if_pos c, if_pos ⟨hu, c⟩]
    · rw [if_neg c, if_neg fun k => c k.2]
  · rename_i he
    rw [List.find?_eq_none] at he
    rw [if_neg]
    rintro ⟨hu, -⟩
    exact he _ ((hm r).mpr ⟨rfl, hu⟩) (decide_eq_true rfl)

/-- The usage parts are all that they change of the store. -/
theorem saveUsage_frame (s : State) (st : Stored) : saveUsage s st = { st with vehicles := (saveUsage s st).vehicles } := by
  unfold saveUsage
  generalize s.listedVehicles = l
  induction l generalizing st with
  | nil => rfl
  | cons e rest ih =>
    rw [List.foldl_cons]
    split
    · conv_lhs => rw [ih]
      rfl
    · exact ih st

/-- What a save writes to the power-fail area is sound. -/
theorem areaOf_sound (a : s.GrantsAgree) (c : SaveCause) :
    ((areaOf c s).snapshots.map (·.hose)).Nodup ∧ ((areaOf c s).snapshots.map (·.grant.vehicle)).Nodup := by
  have hsnap : ∀ i p, snapshotOf s i = some p → p.hose = i ∧ (s.hose i).grant = some p.grant := by
    intro i p hp
    unfold snapshotOf at hp; dsimp only at hp
    split at hp
    · cases hp
    · cases hp
    · cases hp
    · rename_i g hg
      cases hp
      exact ⟨rfl, by assumption⟩
  have hn : ∀ l : List HoseId, l.Nodup → (((l.filterMap (snapshotOf s)).map (·.hose)).Nodup ∧
      ((l.filterMap (snapshotOf s)).map (·.grant.vehicle)).Nodup) := by
    intro l
    induction l with
    | nil => intro _; simp
    | cons i rest ih =>
      intro hl
      obtain ⟨hi, hr⟩ := List.nodup_cons.mp hl
      obtain ⟨i1, i2⟩ := ih hr
      cases e : snapshotOf s i with
      | none => simp only [List.filterMap_cons, e]; exact ⟨i1, i2⟩
      | some p =>
        obtain ⟨p1, p2⟩ := hsnap i p e
        simp only [List.filterMap_cons, e, List.map_cons, List.nodup_cons]
        have away : ∀ q ∈ rest.filterMap (snapshotOf s), q.hose ≠ p.hose ∧ q.grant.vehicle ≠ p.grant.vehicle := by
          intro q hq
          obtain ⟨k, hk, ek⟩ := List.mem_filterMap.mp hq
          obtain ⟨q1, q2⟩ := hsnap k q ek
          have ne : k ≠ i := fun f => hi (f ▸ hk)
          refine ⟨by rw [q1, p1]; exact ne, fun f => ?_⟩
          have b1 := (a.bound p.grant.vehicle i).mpr ⟨_, p2, rfl⟩
          have b2 := (a.bound p.grant.vehicle k).mpr ⟨_, q2, f⟩
          rw [b1] at b2; exact ne (Option.some.inj b2).symm
        refine ⟨⟨fun hm => ?_, i1⟩, ⟨fun hm => ?_, i2⟩⟩
        · obtain ⟨q, hq, eq⟩ := List.mem_map.mp hm; exact (away q hq).1 eq
        · obtain ⟨q, hq, eq⟩ := List.mem_map.mp hm; exact (away q hq).2 eq
  exact hn allHoses (by decide)

/-- In reset nothing waits and no request is held. -/
theorem endSave (h : Kept w s) (hw : w.grants = true) (hp : w.placed = []) : Kept w (Machine.endSave s) := by
  unfold Machine.endSave; split
  · rename_i cause so e
    split
    · exact h
    · obtain ⟨u1, u2⟩ := saveUsage_law s s.store.stored h.stored
      have live : s.phase.live = false := by rw [e]; rfl
      exact { h with
        stored := u1
        area := fun a ha => by cases ha; exact areaOf_sound (h.grants hw) _
        grants := fun c => let ⟨b1, b2, b3, b4⟩ := h.grants c; ⟨b1, b2, b3, b4⟩
        levels := fun _ d => by cases d
        sealed := fun _ d => by cases d
        resealed := fun d => by cases d
        attention := by
          show s.link.attention = _
          rw [h.attention, live]; rfl
        segments := fun _ d => by cases d
        spare := fun _ d => by cases d
        tags := fun n => by
          show tagsDistinct fun v => (((savedStore cause s).after ([].take n)).vehicle v).host
          have := h.tags 0
          simp only [List.take_nil, List.take_zero] at this ⊢
          intro a b
          show ((saveUsage s s.store.stored).vehicle a).host.inUse = true →
            ((saveUsage s s.store.stored).vehicle a).host.enabled = true →
            ((saveUsage s s.store.stored).vehicle b).host.inUse = true →
            ((saveUsage s s.store.stored).vehicle b).host.enabled = true →
            ((saveUsage s s.store.stored).vehicle a).host.tag = ((saveUsage s s.store.stored).vehicle b).host.tag →
            ((saveUsage s s.store.stored).vehicle a).host.tag ≠ 0 → a = b
          rw [u2, u2]; exact this a b
        order := fun d => by cases d
        live := fun c => absurd hp c }
  all_goals exact h

@[simp] theorem takeResetCause (h : Kept w s) (hp : w.placed = []) (c : SaveCause) :
    Kept w (Machine.takeResetCause c s) := by
  unfold Machine.takeResetCause; split
  · rename_i e; exact beginSave h (by rw [e]; rfl) c
  · rename_i e; exact beginSave h (by rw [e]; rfl) c
  · rename_i e
    have live : s.phase.live = false := by rw [e]; rfl
    exact { h with
      grants := fun c => let ⟨b1, b2, b3, b4⟩ := h.grants c; ⟨b1, b2, b3, b4⟩
      levels := fun _ d => by cases d
      sealed := fun _ d => by cases d
      resealed := fun d => by cases d
      attention := by
        show s.link.attention = _
        rw [h.attention, live]; rfl
      segments := fun _ d => by cases d
      spare := fun _ d => by cases d
      order := fun d => by cases d
      live := fun c => absurd hp c }
  all_goals exact h

@[simp] theorem takeSupplyLoss (h : Kept w s) (hp : w.placed = []) : Kept w (Machine.takeSupplyLoss s) := by
  have lose : Kept w (Machine.loseSupply s) := by
    have h1 := outputsOff h
    unfold Machine.loseSupply; dsimp only
    exact { h1 with
      grants := fun c => let ⟨b1, b2, b3, b4⟩ := h1.grants c; ⟨b1, b2, b3, b4⟩
      levels := fun _ d => by cases d
      sealed := fun _ d => by cases d
      resealed := fun d => by cases d
      attention := rfl
      waiting := Nat.zero_le _
      replies := Nat.zero_le _
      segments := fun _ d => by cases d
      spare := fun _ d => by cases d
      tags := fun n => by
        have := h1.tags 0
        simp only [List.take_zero] at this
        show tagsDistinct fun v => ((Stored.after _ ([].take n)).vehicle v).host
        rw [List.take_nil]; exact this
      order := fun d => by cases d
      live := fun c => absurd hp c }
  have keep : ∀ p : Phase, p.live = s.phase.live → p.isReset = s.phase.isReset → p ≠ .running → p ≠ .restarting →
      Kept w (s.setPhase p) := fun p e1 e2 e3 e4 =>
    { h with
      grants := fun c => let ⟨b1, b2, b3, b4⟩ := h.grants c; ⟨b1, b2, b3, b4⟩
      levels := fun _ d => absurd d e3
      sealed := fun _ d => absurd d e3
      resealed := fun d => absurd d e4
      attention := by show s.link.attention = (p.live && _); rw [e1]; exact h.attention
      segments := fun c d => h.segments c (e2 ▸ d)
      spare := fun c d => h.spare c (e2 ▸ d)
      order := fun d => h.order (e2 ▸ d)
      live := fun c => absurd hp c }
  unfold Machine.takeSupplyLoss; split
  · exact lose
  · exact lose
  · exact lose
  · rename_i e; exact keep _ (by rw [e]; rfl) (by rw [e]; rfl) (by simp) (by simp)
  · rename_i e; exact keep _ (by rw [e]; rfl) (by rw [e]; rfl) (by simp) (by simp)

end Kept

end Sys2Proof.Machine
end

