-- ==== Sys2Proof/Laws/KeptRestart.lean ====
section
/-! SUPPORT. What restart keeps: the blocks at their reset values, the carried work re-established, and the end of
restart. -/

namespace Sys2Proof.Machine

open Sys2Proof

variable {w : Watch} {s : State}

namespace Kept

/-- A vehicle table restored from the store has the stored host parts and no binding. -/
theorem restored_get (classes : Vector ClassRecord 32) {b : Nat} {m : Sparse StoredVehicle}
    (h : Sparse.wf StoredVehicle.unused b m = true) (k : Nat) :
    (Sparse.get Vehicle.unused ((m.map fun e => (e.1, restoredVehicle classes e.2)).filter
      fun e => decide (e.2 ≠ Vehicle.unused)) k).host = (Sparse.get StoredVehicle.unused m k).host ∧
    (Sparse.get Vehicle.unused ((m.map fun e => (e.1, restoredVehicle classes e.2)).filter
      fun e => decide (e.2 ≠ Vehicle.unused)) k).binding = none := by
  induction m with
  | nil => exact ⟨rfl, rfl⟩
  | cons e rest ih =>
    obtain ⟨hb, -, habove, hrest⟩ := Sparse.wf_cons.mp h
    have ih := ih hrest
    have hx : (restoredVehicle classes e.2).host = e.2.host ∧ (restoredVehicle classes e.2).binding = none := ⟨rfl, rfl⟩
    by_cases hu : restoredVehicle classes e.2 = Vehicle.unused
    · have hf : ((e :: rest).map fun e => (e.1, restoredVehicle classes e.2)).filter
          (fun e => decide (e.2 ≠ Vehicle.unused)) = (rest.map fun e => (e.1, restoredVehicle classes e.2)).filter
          (fun e => decide (e.2 ≠ Vehicle.unused)) := by simp [hu]
      rw [hf]
      by_cases hk : e.1 = k
      · refine ⟨?_, ih.2⟩
        subst hk
        rw [ih.1, Sparse.get_of_below habove]
        simp only [Sparse.get, if_true]
        rw [← hx.1, hu]; rfl
      · refine ⟨ih.1.trans ?_, ih.2⟩
        simp [Sparse.get, hk]
    · have hf : ((e :: rest).map fun e => (e.1, restoredVehicle classes e.2)).filter
          (fun e => decide (e.2 ≠ Vehicle.unused)) = (e.1, restoredVehicle classes e.2) ::
          (rest.map fun e => (e.1, restoredVehicle classes e.2)).filter
          (fun e => decide (e.2 ≠ Vehicle.unused)) := by simp [hu]
      rw [hf]
      by_cases hk : e.1 = k
      · simp only [Sparse.get, hk, if_true]; exact hx
      · simp only [Sparse.get, hk, if_false]; exact ih

/-- The segments that a scan finds: none is ACTIVE but the one that the high-water mark names, and a FREE one is
blank. -/
theorem scanned_loose (st : Stored) (segs : Vector Segment 32) : (scanned st segs).SegmentsLoose := by
  have e : ∀ g, (scanned st segs).segment g = scanSegment st g (segs.get g) := fun g => tabulate_get _ g
  have ha : ∀ g, (scanSegment st g (segs.get g)).state = .active → g = st.highWater.segment := by
    intro g; unfold scanSegment; split
    · exact fun c => by cases c
    · split
      · exact fun c => by cases c
      · dsimp only; split
        · rename_i f; exact fun _ => f
        · split <;> exact fun c => by cases c
  refine ⟨fun a b ca cb => ?_, fun g => ?_, fun g hg => by cases hg⟩
  · rw [e] at ca cb; rw [ha a ca, ha b cb]
  · rw [e]; unfold scanSegment; split
    · exact fun c => by cases c
    · split
      · exact fun c => by cases c
      · dsimp only; split
        · exact fun c => by cases c
        · split
          · rename_i f; exact fun _ => List.isEmpty_iff.mp f
          · exact fun c => by cases c

theorem scanChange (h : Kept { w with segments := false } s)
    (hl : s.phase.isReset = false → s.journal.SegmentsLoose) : Kept w (Machine.scanChange s) := by
  unfold Machine.scanChange; split
  · rename_i g hg
    exact segmentChange (h.weaken (le_refl _) id id id id (fun c => by cases c) id rfl) g hl
      (Journal.active_state hg) h.spare
  · rename_i hn
    exact activateNext _ h hl fun _ => Journal.active_none hn

theorem resetBlocks (h : Kept w s) (hp : w.placed = []) (c : ResetCause) (k : SiteClock) :
    Kept w (Machine.resetBlocks c k s) := by
  have t0 := h.tags 0
  simp only [List.take_zero] at t0
  unfold Machine.resetBlocks; dsimp only
  refine scanChange (setDueList ?_ _) fun _ => scanned_loose _ _
  have eh : ∀ i : HoseId, (vmap Hose.reset s.store.stored.hoseConfigs).get i
      = Hose.reset (s.store.stored.hoseConfigs.get i) := fun i => vmap_get _ _ i
  have ev := fun v : VehicleId => restored_get s.store.stored.classes (m := s.store.stored.vehicles) (b := 512) h.stored v.val
  exact {
    vehicles := Sparse.wf_map_filter _ h.stored
    stored := h.stored
    grants := fun _ => {
      idle := fun i => by
        show ((vmap Hose.reset s.store.stored.hoseConfigs).get i).grant = none ↔
          ((vmap Hose.reset s.store.stored.hoseConfigs).get i).state = _
        rw [eh]; exact ⟨fun _ => rfl, fun _ => rfl⟩
      bound := fun v i => by
        show (Sparse.get Vehicle.unused _ v.val).binding = _ ↔
          ∃ g, ((vmap Hose.reset s.store.stored.hoseConfigs).get i).grant = some g ∧ _
        rw [eh]
        refine ⟨fun e => ?_, fun ⟨g, e, _⟩ => by cases e⟩
        have := (ev v).2
        rw [show Sparse.get Vehicle.unused _ v.val = Sparse.get Vehicle.unused (restoredVehicles s.store.stored) v.val from rfl] at e
        unfold restoredVehicles at e
        rw [this] at e; cases e
      ready := fun i g e => by
        have e' : ((vmap Hose.reset s.store.stored.hoseConfigs).get i).state = .ready := e
        rw [eh] at e'; cases e'
      reserved := fun t => by
        show ((tabulate _).get t : Tank).reserved = _
        rw [tabulate_get]
        refine (List.sum_eq_zero fun n hn => ?_).symm
        obtain ⟨i, _, rfl⟩ := List.mem_map.mp hn
        show Hose.reservedOn ((vmap Hose.reset s.store.stored.hoseConfigs).get i) t = 0
        rw [eh]; rfl }
    demand := fun _ t => by
      show ((tabulate _).get t : Pump).demand = _
      rw [tabulate_get]
      refine (List.sum_eq_zero fun n hn => ?_).symm
      obtain ⟨i, _, rfl⟩ := List.mem_map.mp hn
      show Hose.demandOn ((vmap Hose.reset s.store.stored.hoseConfigs).get i) t = 0
      rw [eh]; exact demands_none rfl t
    slot := fun _ t => by
      show none = some t ↔ ((tabulate _).get t : Pump).state = _
      rw [tabulate_get]; simp [Pump.reset]
    area := h.area
    levels := fun _ d => by cases d
    sealed := fun _ d => by cases d
    resealed := fun _ i => by
      show ((vmap Calibration.reset s.store.stored.cals).get i).opened = false
      rw [vmap_get]; rfl
    attention := rfl
    waiting := Nat.zero_le _
    replies := Nat.zero_le _
    segments := fun d => by cases d
    spare := fun _ _ _ => Nat.zero_le _
    working := fun a b => by
      show (Sparse.get Vehicle.unused (restoredVehicles s.store.stored) a.val).host.inUse = true →
        (Sparse.get Vehicle.unused (restoredVehicles s.store.stored) a.val).host.enabled = true →
        (Sparse.get Vehicle.unused (restoredVehicles s.store.stored) b.val).host.inUse = true →
        (Sparse.get Vehicle.unused (restoredVehicles s.store.stored) b.val).host.enabled = true →
        (Sparse.get Vehicle.unused (restoredVehicles s.store.stored) a.val).host.tag
          = (Sparse.get Vehicle.unused (restoredVehicles s.store.stored) b.val).host.tag →
        (Sparse.get Vehicle.unused (restoredVehicles s.store.stored) a.val).host.tag ≠ 0 → a = b
      unfold restoredVehicles
      rw [(ev a).1, (ev b).1]; exact t0 a b
    tags := fun n => by
      show tagsDistinct fun v => ((s.store.stored.after ([].take n)).vehicle v).host
      rw [List.take_nil]; exact t0
    order := fun _ v => by
      show ((s.store.stored.after [.vehicles w.placed]).vehicle v).host
        = (Sparse.get Vehicle.unused (restoredVehicles s.store.stored) v.val).host
      unfold restoredVehicles
      rw [(ev v).1, hp]; rfl
    live := fun c => absurd hp c }

/-! ### The carried work -/

@[simp] theorem queueAtRestart (h : Kept { w with spare := false } s) (r : Record) :
    Kept { w with spare := false } (Machine.queueAtRestart r s) :=
  takeReservation (joinQueue h r) fun c => by cases c

/-- What the settle accounting of a hose leaves of the other hoses and of the bindings. -/
theorem settle_frame (h : Kept w s) (hw : w.grants = true) (i : HoseId) (g : Grant) (b : Bool)
    (hg : (s.hose i).grant = some g) (hi : (s.hose i).state ≠ .ready) :
    (∀ k, k ≠ i → (Machine.settleAccounting i g b s).hose k = s.hose k) ∧
      ∀ u, ((Machine.settleAccounting i g b s).vehicle u).binding = (s.vehicle u).binding := by
  have hd : (Machine.takeOffReserved g.tank g.tankRes (Machine.debitBook g.tank i (s.engine i).net s)).hoses = s.hoses ∧
      (Machine.takeOffReserved g.tank g.tankRes (Machine.debitBook g.tank i (s.engine i).net s)).vehicles
        = s.vehicles := by
    unfold Machine.takeOffReserved Machine.debitBook Machine.lowTest; dsimp only; repeat' split
    all_goals exact ⟨rfl, rfl⟩
  unfold Machine.settleAccounting; dsimp only
  revert hd
  generalize Machine.takeOffReserved g.tank g.tankRes (Machine.debitBook g.tank i (s.engine i).net s) = b1
  intro ⟨eh, ev⟩
  have hv : b1.vehiclesSound = true := by unfold State.vehiclesSound; rw [ev]; exact h.vehicles
  have cc : Calm b1 (Machine.creditFuel g.vehicle (s.engine i).net b1) :=
    calm_creditFuel hv _ fun k hk => by
      have hk' : (s.vehicle g.vehicle).binding = some k := by
        simp only [State.vehicle, ev] at hk; exact hk
      have := ((h.grants hw).bound g.vehicle i).mpr ⟨g, hg, rfl⟩
      rw [hk'] at this; cases this
      rw [State.hose, eh]; exact hi
  revert cc
  generalize Machine.creditFuel g.vehicle (s.engine i).net b1 = c1
  intro cc
  have ec : c1.hoses = s.hoses := cc.hoses.trans eh
  refine ⟨fun k hk => ?_, fun u => ?_⟩
  · rw [State.setHose_hose_ne _ _ hk]
    show c1.hoses.get k = s.hoses.get k
    rw [ec]
  · show (c1.vehicle u).binding = _
    rw [cc.bindings hv u]
    simp only [State.vehicle, ev]

/-- A hose without a grant is re-established as SETTLED for a vehicle without a binding. -/
theorem restoreHose (h : Kept w s) (hw : w.grants = true) (g : Grant) (p : Snapshot) (hg : (s.hose p.hose).grant = none)
    (hu : (s.vehicle g.vehicle).binding = none) : Kept w (Machine.restoreHose g p s) := by
  have a := h.grants hw
  have hi := (a.idle p.hose).mp hg
  have h2 := setHose (setVehicle h.ungranted g.vehicle { s.vehicle g.vehicle with binding := some p.hose }
    (fun c => by cases c) rfl) p.hose
    { s.hose p.hose with
      state := .settled, valve := .closed, grant := some g, lastEnd := g.held.map (·.endReason) }
    (fun c => by cases c) fun _ t =>
      (demands_none rfl t).trans (demands_none (x := s.hose p.hose) (by rw [hi]; rfl) t).symm
  refine setEngine (?_ : Kept w (State.setHose _ p.hose _)) _ _
  refine { h2 with grants := fun c => ?_ }
  refine GrantsAgree_granted a hg hu (fun k hk => State.setHose_hose_ne _ _ hk)
    (congrArg Hose.grant (State.setHose_hose_self _ p.hose _)) (by rw [State.setHose_hose_self]; simp)
    (fun e => by rw [State.setHose_hose_self] at e; cases e) (fun u => ?_) fun k => ?_
  · show ((State.setVehicle s g.vehicle _).vehicle u).binding = _
    by_cases e : u = g.vehicle
    · subst e; rw [State.setVehicle_vehicle_self h.vehicles]; simp
    · rw [State.setVehicle_vehicle_ne e]; simp [e]
  · have : ∀ y : Hose, y.state = .settled → y.reservedOn k = 0 := by
      intro y hy; unfold Hose.reservedOn; split <;> simp [hy, HoseState.reserves]
    rw [this _ (by rw [State.setHose_hose_self])]; rfl

theorem restore_frame (g : Grant) (p : Snapshot) :
    (∀ k, k ≠ p.hose → (Machine.restoreHose g p s).hose k = s.hose k) ∧
      ((Machine.restoreHose g p s).hose p.hose).grant = some g ∧
      ((Machine.restoreHose g p s).hose p.hose).state = .settled ∧
      ∀ u, u ≠ g.vehicle → ((Machine.restoreHose g p s).vehicle u).binding = (s.vehicle u).binding := by
  refine ⟨fun k hk => ?_, ?_, ?_, fun u hu => ?_⟩
  · exact State.setHose_hose_ne _ _ hk
  · exact congrArg Hose.grant (State.setHose_hose_self _ p.hose _)
  · exact congrArg Hose.state (State.setHose_hose_self _ p.hose _)
  · show ((State.setVehicle s g.vehicle _).vehicle u).binding = _
    rw [State.setVehicle_vehicle_ne hu]

theorem reestablish (h : Kept { w with spare := false } s) (hw : w.grants = true) (c : SaveCause) (p : Snapshot)
    (hg : (s.hose p.hose).grant = none) (hu : (s.vehicle p.grant.vehicle).binding = none) :
    Kept { w with spare := false } (Machine.reestablish c p s) ∧
      (∀ k, k ≠ p.hose → (Machine.reestablish c p s).hose k = s.hose k) ∧
      ∀ u, u ≠ p.grant.vehicle → ((Machine.reestablish c p s).vehicle u).binding = (s.vehicle u).binding := by
  unfold Machine.reestablish; dsimp only; split
  · obtain ⟨f1, -, -, f4⟩ := restore_frame { p.grant with tankRes := 0, journalRes := true } p
    exact ⟨restoreHose h hw _ p hg hu, f1, f4⟩
  · generalize hgg : ({ p.grant with
      tankRes := 0, journalRes := true, endReason := some (p.endReason c), held := none } : Grant) = g
    have hv : g.vehicle = p.grant.vehicle := by rw [← hgg]
    have hz : g.tankRes = 0 := by rw [← hgg]
    obtain ⟨f1, f2, f3, f4⟩ := restore_frame g p
    have h1 := restoreHose h hw g p hg (by rw [hv]; exact hu)
    obtain ⟨k1, k2⟩ := settle_frame h1 hw p.hose g false f2 (by rw [f3]; simp)
    refine ⟨takeReservation (settleAccounting h1 hw p.hose g false f2 (.inr f3) fun _ => hz) fun c => (by cases c),
      fun k hk => (k1 k hk).trans (f1 k hk), fun u hu => (k2 u).trans (f4 u (by rw [hv]; exact hu))⟩

theorem reestablishAll (hw : w.grants = true) (c : SaveCause) (ps : List Snapshot) :
    ∀ s, Kept { w with spare := false } s → (ps.map (·.hose)).Nodup → (ps.map (·.grant.vehicle)).Nodup →
      (∀ p ∈ ps, (s.hose p.hose).grant = none ∧ (s.vehicle p.grant.vehicle).binding = none) →
      Kept { w with spare := false } (Machine.forAll ps (Machine.reestablish c) s) := by
  induction ps with
  | nil => intro s h _ _ _; exact h
  | cons p rest ih =>
    intro s h n1 n2 hp
    obtain ⟨a1, a2⟩ := List.nodup_cons.mp n1
    obtain ⟨b1, b2⟩ := List.nodup_cons.mp n2
    obtain ⟨q1, q2⟩ := hp p (by simp)
    obtain ⟨r1, r2, r3⟩ := reestablish h hw c p q1 q2
    refine ih _ r1 a2 b2 fun q hq => ?_
    obtain ⟨o1, o2⟩ := hp q (List.mem_cons_of_mem _ hq)
    have e1 : q.hose ≠ p.hose := fun e => a1 (List.mem_map.mpr ⟨q, hq, e⟩)
    have e2 : q.grant.vehicle ≠ p.grant.vehicle := fun e => b1 (List.mem_map.mpr ⟨q, hq, e⟩)
    exact ⟨by rw [r2 _ e1]; exact o1, by rw [r3 _ e2]; exact o2⟩

theorem restoreArea (h : Kept w s) (hw : w.grants = true) (a : Area) (hn : (a.snapshots.map (·.hose)).Nodup)
    (hm : (a.snapshots.map (·.grant.vehicle)).Nodup) (hg : ∀ i, (s.hose i).grant = none)
    (hu : ∀ v, (s.vehicle v).binding = none) : Kept { w with spare := false } (Machine.restoreArea a s) := by
  have plain : ∀ (rs : List CarriedReceipt) (x : State), (Machine.forAll rs Machine.storeCarried x).hoses = x.hoses ∧
      (Machine.forAll rs Machine.storeCarried x).vehicles = x.vehicles := by
    intro rs; induction rs with
    | nil => intro x; exact ⟨rfl, rfl⟩
    | cons r rest ih => intro x; exact ih _
  have queue : ∀ (rs : List Record) (x : State), (Machine.forAll rs Machine.queueAtRestart x).hoses = x.hoses ∧
      (Machine.forAll rs Machine.queueAtRestart x).vehicles = x.vehicles := by
    intro rs; induction rs with
    | nil => intro x; exact ⟨rfl, rfl⟩
    | cons r rest ih => intro x; exact ih _
  unfold Machine.restoreArea; dsimp only
  have h1 : Kept w (Machine.forAll a.receipts Machine.storeCarried s) :=
    forAll (f := Machine.storeCarried) (fun r s h => beginWrite h _ rfl) _ _ h
  refine forAll (f := Machine.queueAtRestart) (fun r s h => queueAtRestart h r) _ _ ?_
  refine reestablishAll hw a.cause _ _ (forAll (f := Machine.queueAtRestart) (fun r s h => queueAtRestart h r) _ _
    (queueAtRestart h1.unspared _)) hn hm fun p _ => ?_
  obtain ⟨q1, q2⟩ := queue a.records (Machine.queueAtRestart (.interruption (interruptionOf a s))
    (Machine.forAll a.receipts Machine.storeCarried s))
  obtain ⟨p1, p2⟩ := plain a.receipts s
  refine ⟨?_, ?_⟩
  · rw [State.hose, q1]
    show ((Machine.forAll a.receipts Machine.storeCarried s).hoses.get p.hose).grant = none
    rw [p1]; exact hg p.hose
  · simp only [State.vehicle, q2]
    show (Sparse.get Vehicle.unused (Machine.forAll a.receipts Machine.storeCarried s).vehicles _).binding = none
    rw [p2]; exact hu p.grant.vehicle

theorem resetBlocks_frame (c : ResetCause) (k : SiteClock) (hs : s.store.stored.vehiclesSound = true) :
    (∀ i, ((Machine.resetBlocks c k s).hose i).grant = none) ∧
      (∀ v, ((Machine.resetBlocks c k s).vehicle v).binding = none) ∧
      (Machine.resetBlocks c k s).store.stored = s.store.stored := by
  have fh : ∀ (c : StatusCode) (d : ReplyBody) (x : State), (Machine.finishHeld c d x).hoses = x.hoses ∧
      (Machine.finishHeld c d x).vehicles = x.vehicles ∧ (Machine.finishHeld c d x).store.stored = x.store.stored := by
    intro c d x; unfold Machine.finishHeld; split <;> exact ⟨rfl, rfl, rfl⟩
  have re : ∀ x : State, (Machine.releaseHeldEarly x).hoses = x.hoses ∧ (Machine.releaseHeldEarly x).vehicles = x.vehicles ∧
      (Machine.releaseHeldEarly x).store.stored = x.store.stored := by
    intro x; unfold Machine.releaseHeldEarly; repeat' split
    all_goals first | exact fh _ _ x | exact ⟨rfl, rfl, rfl⟩
  have ft : ∀ x : State, (Machine.faultTest x).hoses = x.hoses ∧ (Machine.faultTest x).vehicles = x.vehicles ∧
      (Machine.faultTest x).store.stored = x.store.stored := by
    intro x; unfold Machine.faultTest; split
    · exact re _
    · exact ⟨rfl, rfl, rfl⟩
  have an : ∀ (g : SegmentId) (x : State), (Machine.activateNext g x).hoses = x.hoses ∧
      (Machine.activateNext g x).vehicles = x.vehicles ∧
      (Machine.activateNext g x).store.stored = x.store.stored := by
    intro g x; unfold Machine.activateNext; split <;> exact ⟨rfl, rfl, rfl⟩
  have sc : ∀ x : State, (Machine.scanChange x).hoses = x.hoses ∧ (Machine.scanChange x).vehicles = x.vehicles ∧
      (Machine.scanChange x).store.stored = x.store.stored := by
    intro x; unfold Machine.scanChange; split
    · unfold Machine.segmentChange; dsimp only; split
      · exact ⟨rfl, rfl, rfl⟩
      · obtain ⟨a1, a2, a3⟩ := ft (Machine.activateNext _ (x.setJournal (x.journal.setSegment _ { x.journal.segment _ with state := .full })))
        obtain ⟨b1, b2, b3⟩ := an _ (x.setJournal (x.journal.setSegment _ { x.journal.segment _ with state := .full }))
        exact ⟨a1.trans b1, a2.trans b2, a3.trans b3⟩
    · exact an _ x
  unfold Machine.resetBlocks; dsimp only
  refine ⟨fun i => ?_, fun v => ?_, ?_⟩
  · rw [State.hose, (sc _).1]
    show ((vmap Hose.reset s.store.stored.hoseConfigs).get i).grant = none
    rw [vmap_get]; rfl
  · simp only [State.vehicle, (sc _).2.1]
    exact (restored_get s.store.stored.classes hs v.val).2
  · rw [(sc _).2.2]; rfl

theorem restarts (h : Kept w s) (hw : w.grants = true) (hp : w.placed = []) (c : ResetCause) (k : SiteClock) :
    Kept w (Machine.restart c k s) := by
  have h1 := resetBlocks h hp c k
  obtain ⟨f1, f2, f3⟩ := resetBlocks_frame c k h.stored
  have drop : ∀ x : State, Kept w x → Kept w (Machine.dropEvents x) := fun x hx =>
    setLink hx _ (by simp) hx.waiting hx.replies fun _ _ => ⟨rfl, rfl⟩
  have fault : ∀ x : State, Kept { w with spare := false } x → Kept w (Machine.faultAtRestart x) := fun x hx => by
    refine spared (setJournal hx _ (fun _ _ a => ?_) fun c => by cases c) fun _ _ f => ?_
    · exact segmentsSound_congr (k := x.journal) rfl rfl a
    · have f : decide (x.journal.free < x.journal.reservations) = false := f
      have f' : x.journal.reservations ≤ x.journal.free := by simpa using f
      exact le_of_le_of_eq f' (free_congr (k := x.journal) rfl).symm
  unfold Machine.restart; dsimp only
  refine drop _ (fault _ ?_)
  split
  · rename_i a ha
    split
    · rw [f3] at ha
      obtain ⟨n1, n2⟩ := h.area a ha
      exact restoreArea h1 hw a n1 n2 f1 f2
    · exact h1.unspared
  · exact h1.unspared

theorem takeResetRelease (h : Kept w s) (hw : w.grants = true) (hp : w.placed = []) (b : Bool) :
    Kept w (Machine.takeResetRelease b s) := by
  unfold Machine.takeResetRelease; split
  · exact restarts h hw hp _ _
  all_goals exact h

theorem takeAreaCleared (h : Kept w s) : Kept w (Machine.takeAreaCleared s) := by
  unfold Machine.takeAreaCleared; split
  · rename_i e
    have ep : ∀ t, (pressureFrom s.inputs s.pumps).get t
        = { s.pump t with pressureUp := s.inputs.pressure.get t } := fun t => tabulate_get _ t
    have ne : ∀ (k : EventKey) (d : Detail) (x : State), (Machine.raise k d x).link.events.isEmpty = false := by
      intro k d x; unfold Machine.raise; dsimp only [State.setLink]; split
      · rename_i hc
        cases hE : x.link.events with
        | nil => rw [hE] at hc; simp at hc
        | cons a b => rfl
      · simp
    dsimp only
    exact { h with
      grants := fun c => let ⟨b1, b2, b3, b4⟩ := h.grants c; ⟨b1, b2, b3, b4⟩
      demand := fun c t => by
        show ((pressureFrom s.inputs s.pumps).get t).demand = _
        rw [ep]; exact h.demand c t
      slot := fun c t => by
        show _ ↔ ((pressureFrom s.inputs s.pumps).get t).state = _
        rw [ep]; exact h.slot c t
      area := fun a ha => by cases ha
      levels := fun _ _ => ⟨rfl, rfl, fun t => by
        show ((pressureFrom s.inputs s.pumps).get t).pressureUp = _
        rw [ep]; rfl⟩
      sealed := fun _ _ _ => h.resealed e
      resealed := fun d => by cases d
      attention := by rw [ne]; rfl
      segments := fun c _ => h.segments c (by rw [e]; rfl)
      spare := fun c _ => h.spare c (by rw [e]; rfl)
      tags := fun n => by
        have r : (fun v => ((Stored.after { s.store.stored with area := none } (s.store.waiting.take n)).vehicle v).host)
            = fun v => ((s.store.stored.after (s.store.waiting.take n)).vehicle v).host := funext fun v => by
          rw [after_host h.stored]; exact after_host (st := { s.store.stored with area := none }) h.stored _ v
        exact (congrArg tagsDistinct r).mpr (h.tags n)
      order := fun _ v => by
        have := h.order (by rw [e]; rfl) v
        rw [after_host h.stored] at this
        exact (after_host (st := { s.store.stored with area := none }) h.stored _ v).trans this
      live := fun _ => rfl }
  all_goals exact h

end Kept

end Sys2Proof.Machine
end

