-- ==== Sys2Proof/Laws/KeptLink.lean ====
section
/-! SUPPORT. What the link controller, the level inputs and the passing of a second keep, and with them every
command. -/

namespace Sys2Proof.Machine

open Sys2Proof

variable {w : Watch} {s : State}

namespace Kept

/-! ### The controller's own requests -/

@[simp] theorem takeEventsRead (h : Kept w s) (hp : s.phase = .running) (n : Byte) :
    Kept w (Machine.takeEventsRead n s).1 := by
  unfold Machine.takeEventsRead; dsimp only; split
  · exact h
  · exact setLink h _ (by rw [hp]; simp [Phase.live]) h.waiting h.replies fun _ _ => ⟨rfl, rfl⟩

@[simp] theorem takeSiteSet (h : Kept w s) (a b : BitVec 16) (n : Byte) : Kept w (Machine.takeSiteSet a b n s).1 := by
  unfold Machine.takeSiteSet; dsimp only; split
  · exact beginWrite (thresholdTest (setLink_kept h _ (by rfl) (by rfl) (by rfl) (by rfl) (by rfl) (by rfl) (by rfl))) _
      (by rfl)
  · exact h

@[simp] theorem takeTimeSet (h : Kept w s) (n : BitVec 32) : Kept w (Machine.takeTimeSet n s).1 := by
  unfold Machine.takeTimeSet; split
  · exact h
  · refine setJournal_kept (setClock h _) _ ?_ ?_ ?_ ?_
    all_goals unfold restamp; repeat' split
    all_goals rfl

/-- The acceptance of RESTART. -/
theorem takeRestart (h : Kept w s) (hp : s.phase = .running) : Kept w (Machine.takeRestart s).1 := by
  unfold Machine.takeRestart; split
  · exact { h with
      grants := fun c => let ⟨b1, b2, b3, b4⟩ := h.grants c; ⟨b1, b2, b3, b4⟩
      levels := fun _ d => by cases d
      sealed := fun _ d => by cases d
      resealed := fun d => by cases d
      attention := by rw [show (s.setPhase .restartReply).link = s.link from rfl, h.attention, hp]; rfl
      segments := fun c _ => h.segments c (by rw [hp]; rfl)
      spare := fun c _ => h.spare c (by rw [hp]; rfl)
      order := fun _ => h.order (by rw [hp]; rfl)
      live := fun _ => rfl }
  · exact h

/-! ### The taking of a frame -/

theorem handle (h : Kept w s) (hw : w.placed = []) (hp : s.phase = .running) (r : Request) :
    Kept w (Machine.handle r s).1 := by
  have hr : s.phase.isReset = false := by rw [hp]; rfl
  cases r with
  | authorize => exact takeAuthorize h _ _ _ _ _
  | cancel => exact takeCancel h _
  | stop => exact takeStopRequest h _
  | pause => exact takePause h _
  | resume => exact takeResume h _
  | hoseQuery => exact takeHoseQuery h _
  | hoseSet => exact takeHoseSet h _ _
  | totalizerRead => exact takeTotalizerRead h _
  | calOpen => exact takeCalOpen h hp _
  | calClose => exact takeCalClose h _
  | calWrite => exact takeCalWrite h _ _
  | calRead => exact takeCalRead h _
  | productSet => exact takeProductSet h _ _ _
  | productRead => exact takeProductRead h _
  | receiptBegin => exact takeReceiptBegin h _
  | receiptEnd => exact takeReceiptEnd h _ _
  | stockAdjust => exact takeStockAdjust h _ _ _
  | tankSet => exact takeTankSet h _ _
  | strapSet => exact takeStrapSet h _ _ _
  | tankQuery => exact takeTankQuery h _
  | strapRead => exact takeStrapRead h _
  | pumpSet => exact takePumpSet h _ _
  | pumpQuery => exact takePumpQuery h _
  | pumpClear => exact takePumpClear h _
  | vehicleGet => exact takeVehicleGet h _
  | vehicleFind => exact takeVehicleFind h _
  | vehiclePut => exact takeVehiclePut h hw hr _ _ _
  | vehicleLoadBegin => exact takeLoadBegin h _
  | vehicleLoadNext => exact takeLoadNext h hw hr _ _
  | vehicleLoadEnd => exact takeLoadEnd h
  | classRead => exact takeClassRead h _
  | hoursSet => exact takeHoursSet h _ _ _
  | serviceDone => exact takeServiceDone h _ _ _ _ _
  | classSet => exact takeClassSet h _ _
  | dueListRead => exact takeDueListRead h _ _
  | serviceQuery => exact takeServiceQuery h _
  | journalRead => exact takeJournalRead h _ _
  | journalAck => exact takeJournalAck h _
  | journalStatus => exact takeJournalStatus h
  | status => exact h
  | eventsRead => exact takeEventsRead h hp _
  | siteSet => exact takeSiteSet h _ _ _
  | timeSet => exact takeTimeSet h _
  | restart => exact takeRestart h hp

/-- The answer of a block takes room for one reply. -/
theorem settle {p : State × Answer} (h : Kept w p.1) (k t : Byte) :
    Kept { w with room := w.room + 1 } (Machine.settle k t p) := by
  unfold Machine.settle; split
  · exact pushReply h _ _ _ _
  · refine setLink (w := { w with room := w.room + 1 })
      (h.weaken (v := { w with room := w.room + 1 }) (Nat.le_succ _) id id id id id id rfl) _ h.attention h.waiting
      ?_ fun _ _ => ⟨rfl, rfl⟩
    have := h.replies
    simp only [Option.isSome_some, if_true]; omega

theorem takeFrame (h : Kept w s) (hw : w.placed = []) (hp : s.phase = .running) (f : Frame) :
    Kept { w with room := w.room + 1 } (Machine.takeFrame f s) := by
  unfold Machine.takeFrame; split
  · exact pushReply h _ _ _ _
  · exact pushReply h _ _ _ _
  · exact settle (handle h hw hp _) _ _

@[simp] theorem linkAlive (h : Kept w s) : Kept w (Machine.linkAlive s) := by
  unfold Machine.linkAlive; dsimp only; split
  · exact setLink_kept h _ rfl rfl rfl rfl rfl rfl rfl
  · exact raise (setLink_kept h _ (by rfl) (by rfl) (by rfl) (by rfl) (by rfl) (by rfl) (by rfl)) _ _

@[simp] theorem linkExpires (h : Kept w s) : Kept w (Machine.linkExpires s) := by
  unfold Machine.linkExpires; split
  · exact h
  · exact raise (setLink_kept (setLoad h _) _ (by rfl) (by rfl) (by rfl) (by rfl) (by rfl) (by rfl) (by rfl)) _ _

theorem linkAlive_phase (s : State) : (Machine.linkAlive s).phase = s.phase := by
  unfold Machine.linkAlive; dsimp only; split <;> rfl

theorem takeNext (h : Kept {} s) : Kept {} (Machine.takeNext s) := by
  unfold Machine.takeNext; split
  · rename_i f rest hp hm hq
    simp only [Link.mayTake, Bool.and_eq_true, decide_eq_true_eq, Option.isNone_iff_eq_none] at hm
    obtain ⟨m1, m2⟩ := hm
    have m2 : s.link.tx.length ≤ 4 := m2
    have h1 : Kept { room := 4 } s := { h with replies := by rw [m1]; exact m2 }
    have h2 : Kept { room := 4 } (s.setLink { s.link with rxQueue := rest }) :=
      setLink h1 _ h1.attention (by have := h.waiting; rw [hq] at this; simp at this ⊢; omega) h1.replies
        fun _ _ => ⟨rfl, rfl⟩
    dsimp only; split
    · exact takeFrame h2 rfl hp f
    · exact takeFrame (linkAlive h2) rfl ((linkAlive_phase _).trans hp) f
  · exact h

theorem takeMany (n : Nat) : ∀ s, Kept {} s → Kept {} (Machine.takeMany n s) := by
  induction n with
  | zero => intro s h; exact h
  | succ n ih => intro s h; exact ih _ (takeNext h)

theorem drain (h : Kept {} s) : Kept {} (Machine.drain s) := takeMany _ _ h

@[simp] theorem offer (h : Kept w s) (f : Frame) : Kept w (Machine.offer f s) := by
  unfold Machine.offer; split
  · rename_i hl
    refine setLink h _ h.attention ?_ h.replies fun _ _ => ⟨rfl, rfl⟩
    have hl : s.link.rxQueue.length < 4 := hl
    simp only [List.length_append, List.length_cons, List.length_nil]; omega
  · exact h

theorem frameArrives (h : Kept {} s) (f : Frame) : Kept {} (Machine.frameArrives f s) := drain (offer (linkAlive h) f)

theorem hostRequest (h : Kept {} s) (t : Byte) (r : Request) : Kept {} (Machine.hostRequest t r s) := by
  unfold Machine.hostRequest; split
  · exact frameArrives h _
  · exact h

/-! ### The receiver and the transmitter -/

@[simp] theorem hunt (h : Kept w s) : Kept w (Machine.hunt s) := setLink_kept h _ rfl rfl rfl rfl rfl rfl rfl

theorem receive (h : Kept {} s) (b : List Byte) : Kept {} (Machine.receive b s) := by
  unfold Machine.receive; repeat' split
  · exact hunt h
  · exact frameArrives (hunt h) _
  · exact hunt h
  · exact setLink_kept h _ rfl rfl rfl rfl rfl rfl rfl

theorem takeByte (h : Kept {} s) (x : Byte) : Kept {} (Machine.takeByte x s) := by
  unfold Machine.takeByte; repeat' split
  · exact receive h _
  · exact h
  · exact receive h _

@[simp] theorem takeFramingError (h : Kept w s) : Kept w (Machine.takeFramingError s) := by
  unfold Machine.takeFramingError; split
  · exact h
  · exact hunt h

@[simp] theorem gapExpires (h : Kept w s) : Kept w (Machine.gapExpires s) := by
  unfold Machine.gapExpires; split
  · exact hunt h
  · exact h

@[simp] theorem takeReplySent (h : Kept w s) : Kept w (Machine.takeReplySent s) := by
  unfold Machine.takeReplySent; dsimp only; split
  · exact h
  · rename_i r rest ht
    have h1 : Kept w (s.setLink { s.link with tx := rest }) := setLink h _ h.attention h.waiting
      (by have := h.replies; rw [ht] at this; simp only [List.length_cons] at this; dsimp only; omega)
      fun _ _ => ⟨rfl, rfl⟩
    split
    · rename_i e
      simp only [Bool.and_eq_true, decide_eq_true_eq] at e
      exact beginSave h1 (by rw [e.1]; rfl) _
    · exact h1

/-! ### The level inputs -/

/-- An input takes its new level; the blocks do not know it yet. -/
theorem setInputs (h : Kept w s) (i : Inputs) : Kept { w with levels := false } (s.setInputs i) :=
  { h with
    grants := fun c => let ⟨b1, b2, b3, b4⟩ := h.grants c; ⟨b1, b2, b3, b4⟩
    levels := fun c => by cases c
    sealed := fun c => by cases c }

/-- The blocks have taken the level. -/
theorem levelled (h : Kept { w with levels := false } s) (hl : w.levels = true → s.phase = .running → s.LevelsAgree)
    (hs : w.levels = true → s.phase = .running → s.inputs.switchClosed = false → s.protected) : Kept w s :=
  { h with levels := hl, sealed := hs }

/-- A level change, when what a running part does of it keeps what is watched. -/
theorem levelChange (h : Kept w s) (b : Bool) (i : Inputs) (f : State → State)
    (hf : s.phase = .running → Kept { w with levels := false } (s.setInputs i) → Kept w (f (s.setInputs i))) :
    Kept w (Machine.levelChange b i f s) := by
  unfold Machine.levelChange; split
  · have h1 := setInputs h i
    have quiet : s.phase ≠ .running → Kept w (s.setInputs i) := fun hp =>
      levelled h1 (fun _ c => absurd c hp) fun _ c => absurd c hp
    unfold whenRunning; split
    · rename_i e; exact hf e h1
    all_goals exact quiet fun c => by rename_i e; rw [show s.phase = _ from e] at c; cases c
  · exact h

theorem emergencyStopActive (h : Kept w s) :
    Kept w (Machine.levelChange (!s.inputs.estop) { s.inputs with estop := true } Machine.takeStop s) := by
  refine levelChange h _ _ _ fun hp h1 => ?_
  unfold Machine.takeStop; dsimp only
  refine raise (stopPumps (forAll (f := Machine.hoseTakesStop) (fun i s h => hoseTakesStop h i) _ _ ?_)) _ _
  refine levelled (setLink h1 _ h1.attention h1.waiting h1.replies fun c => by cases c) (fun c _ => ?_) fun c _ f => ?_
  · obtain ⟨b1, b2, b3⟩ := h.levels c hp
    exact ⟨b1, rfl, b3⟩
  · exact h.sealed c hp f

theorem emergencyStopRelease (h : Kept w s) :
    Kept w (Machine.levelChange s.inputs.estop { s.inputs with estop := false } Machine.takeRelease s) := by
  refine levelChange h _ _ _ fun hp h1 => ?_
  unfold Machine.takeRelease; dsimp only
  refine raise (forAll (fun t s h => ?_) _ _ ?_) _ _
  · split
    · rename_i e
      simp only [Bool.and_eq_true, decide_eq_true_eq] at e
      exact requestSlot h t (by rw [e.2]; simp)
    · exact h
  · refine levelled (setLink h1 _ h1.attention h1.waiting h1.replies fun c => by cases c) (fun c _ => ?_) fun c _ f => ?_
    · obtain ⟨b1, b2, b3⟩ := h.levels c hp
      exact ⟨b1, rfl, b3⟩
    · exact h.sealed c hp f

theorem switchClose (h : Kept w s) :
    Kept w (Machine.levelChange (!s.inputs.switchClosed) { s.inputs with switchClosed := true }
      Machine.takeSwitchClose s) := by
  refine levelChange h _ _ _ fun hp h1 => ?_
  unfold Machine.takeSwitchClose
  refine raise ?_ _ _
  refine levelled (setLink h1 _ h1.attention h1.waiting h1.replies fun c => by cases c) (fun c _ => ?_)
    fun _ _ f => by cases f
  obtain ⟨b1, b2, b3⟩ := h.levels c hp
  exact ⟨rfl, b2, b3⟩

theorem switchOpen (h : Kept w s) :
    Kept w (Machine.levelChange s.inputs.switchClosed { s.inputs with switchClosed := false }
      Machine.takeSwitchOpen s) := by
  refine levelChange h _ _ _ fun hp h1 => ?_
  unfold Machine.takeSwitchOpen
  have sealed : (((s.setInputs { s.inputs with switchClosed := false }).setCals (vmap protect s.cals))).protected := by
    intro i
    show ((vmap protect s.cals).get i).opened = false
    rw [vmap_get]; rfl
  have h2 : Kept { w with levels := false }
      ((s.setInputs { s.inputs with switchClosed := false }).setCals (vmap protect s.cals)) :=
    { h1 with
      grants := fun c => let ⟨b1, b2, b3, b4⟩ := h1.grants c; ⟨b1, b2, b3, b4⟩
      levels := fun c => by cases c
      sealed := fun c => by cases c
      resealed := fun _ => sealed }
  refine raise ?_ _ _
  refine levelled (setLink h2 _ h2.attention h2.waiting h2.replies fun c => by cases c) (fun c _ => ?_)
    fun _ _ _ => sealed
  obtain ⟨b1, b2, b3⟩ := h.levels c hp
  exact ⟨rfl, b2, b3⟩

/-- The pump of a tank takes the level of its pressure switch, whatever else it does. -/
theorem setPump_pressure (h : Kept w s) (hp : s.phase = .running) {v : Watch} (hv : v.levels = w.levels) (t : TankId)
    (b : Bool) (x : Pump) (hx : x.pressureUp = b)
    (h1 : Kept { v with levels := false } ((s.setInputs (s.inputs.setPressure t b)).setPump t x)) :
    Kept v ((s.setInputs (s.inputs.setPressure t b)).setPump t x) := by
  refine levelled h1 (fun c _ => ?_) fun c _ f => h.sealed (hv ▸ c) hp f
  obtain ⟨b1, b2, b3⟩ := h.levels (hv ▸ c) hp
  refine ⟨b1, b2, fun k => ?_⟩
  show ((State.setPump _ t x).pump k).pressureUp = (upd s.inputs.pressure t b).get k
  by_cases hk : k = t
  · subst hk; rw [State.setPump_pump_self, upd_get_self, hx]
  · rw [State.setPump_pump_ne _ _ hk, upd_get_ne _ _ hk]; exact b3 k

theorem pressureUp (h : Kept w s) (t : TankId) :
    Kept w (Machine.levelChange (!s.inputs.pressure.get t) (s.inputs.setPressure t true) (Machine.takePressureUp t)
      s) := by
  refine levelChange h _ _ _ fun hp h1 => ?_
  have keep : ∀ x : Pump, x.pressureUp = true → x.demand = (s.pump t).demand →
      (x.state = .starting ↔ (s.pump t).state = .starting) →
      Kept w ((s.setInputs (s.inputs.setPressure t true)).setPump t x) := fun x a b c =>
    setPump_pressure h hp rfl t true x a (setPump h1 t x (fun _ => b) (fun _ => c) fun c => by cases c)
  have leave : ∀ x : Pump, (s.pump t).state = .starting → x.pressureUp = true → x.demand = (s.pump t).demand →
      x.state ≠ .starting → Kept w (Machine.freeSlot ((s.setInputs (s.inputs.setPressure t true)).setPump t x)) :=
    fun x e a b c => by
      refine freeSlot (setPump_pressure (v := { w with slot := false }) h hp rfl t true x a
        (setPump h1.unslotted t x (fun _ => b) (fun c => by cases c) fun c => by cases c)) fun f k => ?_
      by_cases hk : k = t
      · subst hk; rw [State.setPump_pump_self]; exact c
      · rw [State.setPump_pump_ne _ _ hk]
        intro g
        have g1 := (h.slot f k).mpr g
        have g2 := (h.slot f t).mpr e
        rw [g1] at g2; exact hk (Option.some.inj g2)
  unfold Machine.takePressureUp; dsimp only; split
  · rename_i e
    have e : (s.pump t).state = .starting := e
    split
    · exact reportRunning (leave _ e (by rfl) (by rfl) (by simp)) t
    · refine leave _ e ?_ ?_ ?_
      all_goals unfold runOnOrStop; split <;> simp [State.pump, State.setInputs]
  · rename_i e; exact raise (keep _ (by rfl) (by rfl) (by rfl)) _ _
  · rename_i e; exact raise (keep _ (by rfl) (by rfl) (by rfl)) _ _
  all_goals exact keep _ (by rfl) (by rfl) (by rfl)

theorem pressureDown (h : Kept w s) (t : TankId) :
    Kept w (Machine.levelChange (s.inputs.pressure.get t) (s.inputs.setPressure t false) (Machine.takePressureDown t)
      s) := by
  refine levelChange h _ _ _ fun hp h1 => ?_
  have keep : ∀ x : Pump, x.pressureUp = false → x.demand = (s.pump t).demand →
      (x.state = .starting ↔ (s.pump t).state = .starting) →
      Kept w ((s.setInputs (s.inputs.setPressure t false)).setPump t x) := fun x a b c =>
    setPump_pressure h hp rfl t false x a (setPump h1 t x (fun _ => b) (fun _ => c) fun c => by cases c)
  unfold Machine.takePressureDown; dsimp only; split
  · rename_i e
    have e : (s.pump t).state = .running := e
    exact raise (reportPressureLost (keep _ (by rfl) (by rfl) (by simp [faultPump, e])) t) _ _
  · rename_i e
    have e : (s.pump t).state = .runOn := e
    exact raise (keep _ (by rfl) (by rfl) (by simp [faultPump, e])) _ _
  all_goals exact keep _ (by rfl) (by rfl) (by rfl)

/-! ### The passing of a second -/

theorem secondPasses (h : Kept w s) : Kept w (Machine.secondPasses s) := by
  have h1 := setClock h (countSecond s.clock)
  unfold Machine.secondPasses whenRunning; split
  · rename_i e
    revert h1 e
    generalize s.setClock (countSecond s.clock) = x
    intro h1 e
    have eh : ∀ i, (Machine.runTimers x).hose i = { x.hose i with timers := (x.hose i).timers.run } := fun i =>
      vmap_get _ _ i
    have ep : ∀ t, (Machine.runTimers x).pump t = { x.pump t with
        startTimer := Timer.run (x.pump t).startTimer, runOnTimer := Timer.run (x.pump t).runOnTimer } := fun t =>
      vmap_get _ _ t
    have et : ∀ t, ((Machine.runTimers x).tank t).reserved = (x.tank t).reserved := fun t => by
      show ((vmap _ x.tanks).get t : Tank).reserved = _
      rw [vmap_get]; rfl
    exact { h1 with
      grants := fun c => by
        obtain ⟨a, b, r, q⟩ := h1.grants c
        refine ⟨fun i => by rw [eh]; exact a i, fun v i => by rw [eh]; exact b v i, fun i g => by rw [eh]; exact r i g,
          fun t => ?_⟩
        rw [et, q t]
        exact sum_hoses_eq fun i => by rw [eh]; rfl
      demand := fun c t => by
        rw [ep]
        refine (h1.demand c t).trans (sum_hoses_eq fun i => by rw [eh]; rfl)
      slot := fun c t => by rw [ep]; exact h1.slot c t
      levels := fun c d => by
        obtain ⟨b1, b2, b3⟩ := h1.levels c d
        exact ⟨b1, b2, fun t => by rw [ep]; exact b3 t⟩ }
  all_goals exact h1

/-- A command that a running part takes. -/
theorem whenRunning {f : State → State} (h : Kept w s) (hf : s.phase = .running → Kept w (f s)) :
    Kept w (Machine.whenRunning s f) := by
  unfold Machine.whenRunning; split
  · rename_i e; exact hf e
  all_goals exact h

theorem whenLive {f : State → State} (h : Kept w s) (hf : Kept w (f s)) : Kept w (Machine.whenLive s f) := by
  unfold Machine.whenLive; split
  · exact hf
  · exact h

theorem whenWriting {f : State → State} (h : Kept w s) (hf : Kept w (f s)) : Kept w (Machine.whenWriting s f) := by
  unfold Machine.whenWriting; split
  all_goals first | exact hf | exact h

end Kept

end Sys2Proof.Machine
end

