-- ==== Sys2Proof/Laws/Ranges.lean ====
section
/-! SUPPORT. The ranges of the records that requests carry, each said once: inside them the record reads as its fields,
outside them it reads as none (R57, R70, R92, R111, R118, R202). -/

namespace Sys2Proof

open Sys2Proof.Machine

theorem inRange_iff {lo hi x : Nat} : inRange lo hi x = true ↔ lo ≤ x ∧ x ≤ hi := by simp [inRange]

theorem printable_iff {n : Name} : printable n = true ↔ ∀ x ∈ n.toList, 0x20 ≤ x.toNat ∧ x.toNat ≤ 0x7E := by
  simp only [printable, List.all_eq_true, inRange_iff]

theorem onlyBits_low {b : Byte} : onlyBits 0x0F#8 b = true ↔ b.toNat ≤ 15 := by
  rw [onlyBits, decide_eq_true_eq]
  have : ∀ b : Byte, (b &&& ~~~0x0F#8 = 0) ↔ b.toNat ≤ 15 := by decide
  exact this b

/-- Each value is above the one before it exactly when each is above all before it. -/
theorem rising_iff : ∀ {xs : List Nat}, rising xs = true ↔ xs.Pairwise (· < ·)
  | [] => by simp [rising]
  | [a] => by simp [rising]
  | a :: b :: rest => by
    simp only [rising, Bool.and_eq_true, decide_eq_true_eq]
    rw [rising_iff]
    refine Iff.trans ?_ List.pairwise_cons.symm
    refine ⟨fun ⟨h, p⟩ => ⟨fun x hx => ?_, p⟩, fun ⟨h, p⟩ => ⟨h b List.mem_cons_self, p⟩⟩
    rcases List.mem_cons.mp hx with rfl | hx
    · exact h
    · exact Nat.lt_trans h ((List.pairwise_cons.mp p).1 x hx)

/-- No value is below the one before it exactly when none is below any before it. -/
theorem notFalling_iff : ∀ {xs : List Nat}, notFalling xs = true ↔ xs.Pairwise (· ≤ ·)
  | [] => by simp [notFalling]
  | [a] => by simp [notFalling]
  | a :: b :: rest => by
    simp only [notFalling, Bool.and_eq_true, decide_eq_true_eq]
    rw [notFalling_iff]
    refine Iff.trans ?_ List.pairwise_cons.symm
    refine ⟨fun ⟨h, p⟩ => ⟨fun x hx => ?_, p⟩, fun ⟨h, p⟩ => ⟨h b List.mem_cons_self, p⟩⟩
    rcases List.mem_cons.mp hx with rfl | hx
    · exact h
    · exact Nat.le_trans h ((List.pairwise_cons.mp p).1 x hx)

/-- The points of a calibration record that are read. -/
def WireCalibration.read (w : WireCalibration) : Curve :=
  (w.points.toList.take w.count.toNat).map fun p => (p.rate.toNat, p.factor.toNat)

/-- The ranges of a calibration record (R57). -/
structure WireCalibration.Inside (w : WireCalibration) : Prop where
  k : 10 ≤ w.k.toNat ∧ w.k.toNat ≤ 2000
  count : 2 ≤ w.count.toNat ∧ w.count.toNat ≤ 5
  rates : (w.read.map (·.1)).Pairwise (· < ·)
  factors : ∀ p ∈ w.read, 90000 ≤ p.2 ∧ p.2 ≤ 110000
  errorLimit : 1 ≤ w.errorLimit.toNat
  maxRate : 100 ≤ w.maxRate.toNat

theorem curveOf_eq (count : Nat) (ps : List WireCurvePoint) : curveOf count ps =
    let c : Curve := (ps.take count).map fun p => (p.rate.toNat, p.factor.toNat)
    if (2 ≤ count ∧ count ≤ 5) ∧ (c.map (·.1)).Pairwise (· < ·) ∧ ∀ p ∈ c, 90000 ≤ p.2 ∧ p.2 ≤ 110000 then some c
    else none := by
  unfold curveOf; dsimp only
  simp only [Bool.and_eq_true, inRange_iff, rising_iff, List.all_eq_true, and_assoc]

theorem calDataOf_inside {w : WireCalibration} (h : w.Inside) (n : Nat) : calDataOf n w =
    some { k := w.k.toNat, curve := w.read, errorLimit := w.errorLimit.toNat, maxRate := w.maxRate.toNat,
           count := n } := by
  have e : w.errorLimit.toNat ≤ 255 := by have := w.errorLimit.isLt; omega
  have m : w.maxRate.toNat ≤ 65535 := by have := w.maxRate.isLt; omega
  have c : curveOf w.count.toNat w.points.toList = some w.read := by
    rw [curveOf_eq]; exact if_pos ⟨h.count, h.rates, h.factors⟩
  unfold calDataOf; rw [c]; dsimp only
  rw [if_pos]
  simp only [Bool.and_eq_true, inRange_iff]
  exact ⟨⟨h.k, h.errorLimit, e⟩, h.maxRate, m⟩

theorem calDataOf_outside {w : WireCalibration} (h : ¬w.Inside) (n : Nat) : calDataOf n w = none := by
  unfold calDataOf; rw [curveOf_eq]; dsimp only
  split
  · rfl
  · rename_i c hc
    split at hc
    · rename_i hi
      cases hc
      rw [if_neg]
      simp only [Bool.and_eq_true, inRange_iff]
      exact fun ⟨⟨a, b, _⟩, d, _⟩ => h ⟨a, hi.1, hi.2.1, hi.2.2, b, d⟩
    · cases hc

/-- The ranges of a tank configuration (R70, R91). -/
structure WireTankConfig.Inside (w : WireTankConfig) : Prop where
  product : 1 ≤ w.product.toNat ∧ w.product.toNat ≤ 4
  capacity : 1000 ≤ w.capacity.toNat ∧ w.capacity.toNat ≤ 2000000
  heel : w.heel.toNat < w.capacity.toNat
  lowAlarm : w.lowAlarm.toNat ≤ w.capacity.toNat
  receiptSettle : 60 ≤ w.receiptSettle.toNat ∧ w.receiptSettle.toNat ≤ 3600

theorem tankConfigOf_inside {w : WireTankConfig} (h : w.Inside) {p : ProductId} (e : productOf w.product = some p) :
    tankConfigOf w = some
      { product := p, capacity := w.capacity.toNat * 1000, heel := w.heel.toNat * 1000,
        lowAlarm := w.lowAlarm.toNat * 1000, receiptSettle := w.receiptSettle.toNat } := by
  unfold tankConfigOf; rw [e]; dsimp only
  rw [if_pos]; rfl
  simp only [Bool.and_eq_true, inRange_iff, decide_eq_true_eq]
  exact ⟨⟨⟨h.capacity, h.heel⟩, h.lowAlarm⟩, h.receiptSettle⟩

theorem tankConfigOf_outside {w : WireTankConfig} (h : ¬w.Inside) : tankConfigOf w = none := by
  unfold tankConfigOf
  split
  · rfl
  · rename_i p hp
    rw [if_neg]
    simp only [Bool.and_eq_true, inRange_iff, decide_eq_true_eq]
    rintro ⟨⟨⟨a, b⟩, c⟩, d⟩
    refine h ⟨?_, a, b, c, d⟩
    unfold productOf at hp
    split at hp
    · cases hp
    · unfold finOf at hp
      split at hp
      · omega
      · cases hp

/-- The ranges of a strapping table for a tank of a capacity (R92). -/
structure StrapInside (capacity n : Nat) (p : Strap) : Prop where
  count : 2 ≤ n ∧ n ≤ 32
  length : p.length = n
  levels : ∀ x ∈ p, x.1 ≤ 99999
  rise : (p.map (·.1)).Pairwise (· < ·)
  volumes : (p.map (·.2)).Pairwise (· ≤ ·)
  last : lastVolume p ≤ capacity

theorem strapOf_inside {capacity count : Nat} {points : List WireStrapPoint}
    (h : StrapInside capacity count (points.map fun x => (x.level.toNat, x.volume.toNat))) :
    strapOf capacity count points = some (points.map fun x => (x.level.toNat, x.volume.toNat)) := by
  unfold strapOf; dsimp only
  rw [if_pos]
  simp only [Bool.and_eq_true, inRange_iff, decide_eq_true_eq, List.all_eq_true, rising_iff, notFalling_iff]
  exact ⟨⟨⟨⟨⟨h.count, by simpa using h.length⟩, h.levels⟩, h.rise⟩, h.volumes⟩, h.last⟩

theorem strapOf_outside {capacity count : Nat} {points : List WireStrapPoint}
    (h : ¬StrapInside capacity count (points.map fun x => (x.level.toNat, x.volume.toNat))) :
    strapOf capacity count points = none := by
  unfold strapOf; dsimp only
  rw [if_neg]
  simp only [Bool.and_eq_true, inRange_iff, decide_eq_true_eq, List.all_eq_true, rising_iff, notFalling_iff]
  rintro ⟨⟨⟨⟨⟨a, b⟩, c⟩, d⟩, e⟩, f⟩
  exact h ⟨a, by simpa using b, c, d, e, f⟩

/-- The conditions of a host part with in-use yes (R118 check 1, R202). -/
structure WireHostPart.Inside (w : WireHostPart) : Prop where
  cls : w.cls.toNat ≤ 31
  products : w.products.toNat ≤ 15
  flags : w.flags.toNat ≤ 15
  fleet : ∀ x ∈ w.fleet.toList, 0x20 ≤ x.toNat ∧ x.toNat ≤ 0x7E

theorem hostPartOf_inside {w : WireHostPart} (hu : w.flags.getLsbD 0 = true) (h : w.Inside) {c : ClassId}
    (e : classOf w.cls = some c) : hostPartOf w =
      some { inUse := true, tag := w.tag, fleet := w.fleet, cls := c, products := w.products.setWidth 4,
             enabled := w.flags.getLsbD 1, hostLocked := w.flags.getLsbD 2, standalonePermit := w.flags.getLsbD 3 } := by
  unfold hostPartOf; rw [if_pos hu, e]; dsimp only
  rw [if_pos]
  simp only [Bool.and_eq_true, onlyBits_low, printable_iff]
  exact ⟨⟨h.products, h.flags⟩, h.fleet⟩

theorem hostPartOf_outside {w : WireHostPart} (hu : w.flags.getLsbD 0 = true) (h : ¬w.Inside) : hostPartOf w = none := by
  unfold hostPartOf; rw [if_pos hu]
  split
  · rfl
  · rename_i c hc
    rw [if_neg]
    simp only [Bool.and_eq_true, onlyBits_low, printable_iff]
    rintro ⟨⟨a, b⟩, d⟩
    refine h ⟨?_, a, b, d⟩
    unfold classOf finOf at hc
    split at hc
    · omega
    · cases hc

theorem hostPartOf_removal {w : WireHostPart} (hu : w.flags.getLsbD 0 = false) : hostPartOf w = some HostPart.unused := by
  unfold hostPartOf; rw [if_neg (by rw [hu]; decide)]

/-- The ranges of a class record (R111). -/
structure WireClass.Inside (w : WireClass) : Prop where
  action : w.overdueAction = 0#8 ∨ w.overdueAction = 1#8
  name : ∀ x ∈ w.name.toList, 0x20 ≤ x.toNat ∧ x.toNat ≤ 0x7E
  defaultPreset : w.defaultPreset.toNat ≤ 9999
  burnRate : w.burnRate.toNat ≤ 2000
  warn : 1 ≤ w.warn.toNat ∧ w.warn.toNat ≤ 999
  grace : w.grace.toNat ≤ 1000
  limp : w.limp.toNat ≤ 9999
  fuel : ∀ n : LineId, (w.lines.get n).fuel.toNat ≤ 4000000

/-- The class record that a CLASS_SET spells. -/
def WireClass.record (w : WireClass) : ClassRecord :=
  { name := w.name, defaultPreset := w.defaultPreset.toNat, burnRate := w.burnRate.toNat, warn := w.warn.toNat,
    grace := w.grace.toNat, overdueAction := if w.overdueAction = 0#8 then .limit else .refuse,
    limp := w.limp.toNat, lines := vmap lineOfWire w.lines }

/-- A condition on every member of a vector's list is one on every position. -/
theorem all_lines {p : WireLine → Bool} {v : Vector WireLine 4} :
    v.toList.all p = true ↔ ∀ n : LineId, p (v.get n) = true := by
  rw [List.all_eq_true]
  constructor
  · intro h n
    exact h _ (by rw [Vector.get_eq_getElem]; exact Vector.mem_toList_iff.mpr (Vector.getElem_mem n.isLt))
  · intro h x hx
    obtain ⟨i, hi, rfl⟩ := Vector.mem_iff_getElem.mp (Vector.mem_toList_iff.mp hx)
    exact h ⟨i, hi⟩

theorem classRecordOf_inside {w : WireClass} (h : w.Inside) : classRecordOf w = some w.record := by
  have e : overdueActionOf w.overdueAction = some (if w.overdueAction = 0#8 then .limit else .refuse) := by
    unfold overdueActionOf
    rcases h.action with c | c <;> rw [c] <;> decide
  unfold classRecordOf; rw [e]; dsimp only
  rw [if_pos]; rfl
  simp only [Bool.and_eq_true, inRange_iff, printable_iff, all_lines]
  exact ⟨⟨⟨⟨⟨⟨h.name, Nat.zero_le _, h.defaultPreset⟩, Nat.zero_le _, h.burnRate⟩, h.warn⟩, Nat.zero_le _, h.grace⟩,
    Nat.zero_le _, h.limp⟩, fun n => ⟨Nat.zero_le _, h.fuel n⟩⟩

theorem classRecordOf_outside {w : WireClass} (h : ¬w.Inside) : classRecordOf w = none := by
  unfold classRecordOf
  split
  · rfl
  · rename_i a ha
    rw [if_neg]
    simp only [Bool.and_eq_true, inRange_iff, printable_iff, all_lines]
    rintro ⟨⟨⟨⟨⟨⟨b, -, c⟩, -, d⟩, e⟩, -, f⟩, -, g⟩, i⟩
    refine h ⟨?_, b, c, d, e, f, g, fun n => (i n).2⟩
    unfold overdueActionOf at ha
    split at ha
    · exact .inl ‹_›
    · split at ha
      · exact .inr ‹_›
      · cases ha

end Sys2Proof
end

