-- ==== Sys2Proof/Laws/Settle.lean ====
section
/-! SUPPORT. What the settle accounting does, said once for the settle of a CLOSING hose and for the deliveries that
restart settles (R28, R183). -/

namespace Sys2Proof.Machine

open Sys2Proof

/-- The low test sets the low flag to what the book says. -/
theorem lowTest_low (k : TankId) (s : State) : ((lowTest k s).tank k).low = isLow (s.tank k) := by
  unfold lowTest; dsimp only
  cases hl : isLow (s.tank k) <;> cases hx : (s.tank k).low <;>
    simp only [Bool.not_true, Bool.not_false, Bool.and_true, Bool.and_false, Bool.false_eq_true, if_true, if_false]
  · exact hx
  · rw [State.setTank_tank_self]
  · show ((s.setTank k _).tank k).low = _
    rw [State.setTank_tank_self]
  · exact hx

/-- What the crediting of fuel changes. -/
structure Credited (s t : State) (v : VehicleId) (net : Nat) : Prop where
  sound : t.vehiclesSound = true
  others : ∀ u, u ≠ v → t.vehicle u = s.vehicle u
  unused : (s.vehicle v).host.inUse = false → t.vehicle v = s.vehicle v
  used : (s.vehicle v).host.inUse = true →
    let r := { s.vehicle v with usage := { (s.vehicle v).usage with fuel := min 281474976710655 ((s.vehicle v).usage.fuel + net) } }
    t.vehicle v =
      { r with
        status := statusOf (s.classOf r.host.cls) r
        usageWrite := match r.usageWrite with | .none => .inFlight | .inFlight | .again => .again }
    ∧ (r.usageWrite = .none → .usage v r.usage ∈ t.store.queue)
  writes : ∀ w ∈ s.store.queue, w ∈ t.store.queue
  frame : ∃ vs dl dr ev att q, t =
    { s with
      vehicles := vs, dueList := dl, dueRevision := dr, link := { s.link with events := ev, attention := att }
      store := { s.store with queue := q } }

theorem creditFuel_law {s : State} {v : VehicleId} (net : Nat) (hw : s.vehiclesSound = true)
    (hb : ∀ h, (s.vehicle v).binding = some h → (s.hose h).state ≠ .ready) :
    Credited s (creditFuel v net s) v net := by
  unfold creditFuel; dsimp only; split
  · rename_i hi
    generalize hr : ({ s.vehicle v with
      usage := { (s.vehicle v).usage with fuel := satAdd Config.fuelLimit (s.vehicle v).usage.fuel net } } : Vehicle) = r
    have hs1 : (s.setVehicle v r).vehiclesSound = true := State.setVehicle_sound hw
    have hv1 : (s.setVehicle v r).vehicle v = r := State.setVehicle_vehicle_self hw
    obtain ⟨a1, a2, a3, vs, dl, dr, ev, att, a4⟩ := recompute_quiet (v := v) hs1
      (by rw [hv1, ← hr]; exact hb)
    rw [hv1] at a3
    have hz : ∀ u, u ≠ v → (recompute v (s.setVehicle v r)).vehicle u = s.vehicle u := fun u hu =>
      (a2 u hu).trans (State.setVehicle_vehicle_ne hu)
    revert a1 a3 a4 hz
    generalize recompute v (s.setVehicle v r) = z
    intro a1 a3 a4 hz
    have hzu : (z.vehicle v).usageWrite = r.usageWrite := by rw [a3]
    have hzs : (z.vehicle v).usage = r.usage := by rw [a3]
    have er : r = { s.vehicle v with
      usage := { (s.vehicle v).usage with fuel := min 281474976710655 ((s.vehicle v).usage.fuel + net) } } := hr.symm
    have ec : ∀ x y : State, x.classes = s.classes → x.classOf r.host.cls = s.classOf r.host.cls := fun x _ e => by
      simp only [State.classOf, e]
    have a3 : z.vehicle v = { r with status := statusOf (s.classOf r.host.cls) r } := a3
    unfold beginUsageWrite; dsimp only
    rw [hzu]
    split
    · rename_i hu
      refine ⟨State.setVehicle_sound a1, fun u hu => ?_, fun c => absurd hi (by rw [c]; simp), fun _ => ?_, fun w hq => ?_, ?_⟩
      · exact (State.setVehicle_vehicle_ne hu).trans (hz u hu)
      · rw [← er]
        refine ⟨(State.setVehicle_vehicle_self a1).trans ?_, fun _ => ?_⟩
        · rw [a3, hu]
        · refine List.mem_append_right _ ?_
          rw [hzs]; exact List.mem_singleton.mpr rfl
      · subst a4; exact List.mem_append_left _ hq
      · subst a4; exact ⟨_, _, _, _, _, _, rfl⟩
    all_goals
      rename_i hu
      refine ⟨State.setVehicle_sound a1, fun u hu => ?_, fun c => absurd hi (by rw [c]; simp), fun _ => ?_, fun w hq => ?_, ?_⟩
      · exact (State.setVehicle_vehicle_ne hu).trans (hz u hu)
      · rw [← er]
        refine ⟨(State.setVehicle_vehicle_self a1).trans ?_, fun c => absurd (hu.symm.trans c) (by simp)⟩
        rw [a3, hu]
      · subst a4; exact hq
      · subst a4; exact ⟨_, _, _, _, _, _, rfl⟩
  · rename_i hi
    exact ⟨hw, fun _ _ => rfl, fun _ => rfl, fun c => absurd c hi, fun _ h => h, _, _, _, _, _, _, rfl⟩

/-- What the debit of a tank's book changes (R28, R74, R83). -/
structure Debited (s t : State) (k : TankId) (h : HoseId) (net : Nat) : Prop where
  tank : t.tank k =
    { s.tank k with
      book := saturateBook ((s.tank k).book - net)
      low := decide (saturateBook ((s.tank k).book - net) - (s.tank k).config.heel < (s.tank k).config.lowAlarm)
      receipt := (s.tank k).receipt.modify (Receipt.addDelivery h net) }
  others : ∀ j, j ≠ k → t.tank j = s.tank j
  frame : ∃ ts ev att, t =
    { s with
      tanks := ts, link := { s.link with events := ev, attention := att }
      store := { s.store with queue := s.store.queue ++ [.book k (saturateBook ((s.tank k).book - net))] } }

theorem debitBook_law (k : TankId) (h : HoseId) (net : Nat) (s : State) : Debited s (debitBook k h net s) k h net := by
  unfold debitBook; dsimp only
  generalize hx : ({ s.tank k with
    book := saturateBook ((s.tank k).book - net), receipt := (s.tank k).receipt.modify (Receipt.addDelivery h net) } : Tank) = x
  have eb : saturateBook ((s.tank k).book - net) = x.book := by rw [← hx]
  rw [eb]
  have hl := lowTest_low k (beginWrite (.book k x.book) (s.setTank k x))
  obtain ⟨b, ev, att, e⟩ := lowTest_frame k (beginWrite (.book k x.book) (s.setTank k x))
  have hz : (beginWrite (.book k x.book) (s.setTank k x)).tank k = x := State.setTank_tank_self _ _ _
  have hzo : ∀ j, j ≠ k → (beginWrite (.book k x.book) (s.setTank k x)).tank j = s.tank j := fun j hj =>
    State.setTank_tank_ne _ _ hj
  have hq : (beginWrite (.book k x.book) (s.setTank k x)) = { s with
      tanks := upd s.tanks k x, store := { s.store with queue := s.store.queue ++ [.book k x.book] } } := rfl
  rw [hz] at e hl
  have self : (lowTest k (beginWrite (.book k x.book) (s.setTank k x))).tank k = { x with low := b } := by
    rw [e]; exact upd_get_self _ _ _
  refine ⟨?_, fun j hj => ?_, ?_⟩
  · rw [self] at hl
    have hl : b = isLow x := hl
    rw [self, hl, ← hx]; rfl
  · rw [e]; exact (upd_get_ne _ _ hj).trans (hzo j hj)
  · rw [e, hq, ← hx]; exact ⟨_, _, _, rfl⟩

/-- What the settle accounting of a hose changes (R28). -/
structure Accounted (s t : State) (h : HoseId) (g : Grant) (d : DeliveryRecord) : Prop where
  sound : t.vehiclesSound = true
  hose : t.hose h =
    { s.hose h with
      state := .settled, valve := .closed, lamp := .off, timers := .stopped, lastEnd := some d.endReason
      grant := some { g with tankRes := 0, held := some d } }
  otherHoses : ∀ k, k ≠ h → t.hose k = s.hose k
  engine : t.engine h = advanceTotals (s.engine h)
  otherEngines : ∀ k, k ≠ h → t.engine k = s.engine k
  tank : t.tank g.tank =
    { s.tank g.tank with
      book := saturateBook ((s.tank g.tank).book - (s.engine h).net)
      reserved := (s.tank g.tank).reserved - g.tankRes
      low := decide (saturateBook ((s.tank g.tank).book - (s.engine h).net) - (s.tank g.tank).config.heel
        < (s.tank g.tank).config.lowAlarm)
      receipt := (s.tank g.tank).receipt.modify (Receipt.addDelivery h (s.engine h).net) }
  otherTanks : ∀ k, k ≠ g.tank → t.tank k = s.tank k
  vehicle : (s.vehicle g.vehicle).host.inUse = true →
    let r := { s.vehicle g.vehicle with
      usage := { (s.vehicle g.vehicle).usage with
        fuel := min 281474976710655 ((s.vehicle g.vehicle).usage.fuel + (s.engine h).net) } }
    t.vehicle g.vehicle =
      { r with
        status := statusOf (s.classOf r.host.cls) r
        usageWrite := match r.usageWrite with | .none => .inFlight | .inFlight | .again => .again }
    ∧ (r.usageWrite = .none → .usage g.vehicle r.usage ∈ t.store.queue)
  unused : (s.vehicle g.vehicle).host.inUse = false → t.vehicle g.vehicle = s.vehicle g.vehicle
  otherVehicles : ∀ u, u ≠ g.vehicle → t.vehicle u = s.vehicle u
  journal : t.journal = { s.journal with queue := s.journal.queue ++ [{ record := .delivery d, stamp := none }] }
  writes : (∀ w ∈ s.store.queue, w ∈ t.store.queue) ∧ .book g.tank (t.tank g.tank).book ∈ t.store.queue ∧
    .totalizers h (t.engine h).grossTotal (t.engine h).netTotal ∈ t.store.queue
  frame : ∃ hs es ts vs dl dr j ev att q, t =
    { s with
      hoses := hs, engines := es, tanks := ts, vehicles := vs, dueList := dl, dueRevision := dr, journal := j
      link := { s.link with events := ev, attention := att }, store := { s.store with queue := q } }

theorem settleAccounting_law {s : State} (h : HoseId) (g : Grant) (b : Bool) (hw : s.vehiclesSound = true)
    (hb : ∀ k, (s.vehicle g.vehicle).binding = some k → (s.hose k).state ≠ .ready) :
    Accounted s (settleAccounting h g b s) h g
      (deliveryOf h g b (advanceTotals (s.engine h)) (recordedTime s)) := by
  obtain ⟨d1, d2, ts, ev, att, d3⟩ := debitBook_law g.tank h (s.engine h).net s
  unfold settleAccounting; dsimp only
  revert d1 d2 d3
  generalize debitBook g.tank h (s.engine h).net s = s1
  intro d1 d2 d3
  generalize hs2 : takeOffReserved g.tank g.tankRes s1 = s2
  have t1 : s2.tank g.tank =
    { s.tank g.tank with
      book := saturateBook ((s.tank g.tank).book - (s.engine h).net)
      reserved := (s.tank g.tank).reserved - g.tankRes
      low := decide (saturateBook ((s.tank g.tank).book - (s.engine h).net) - (s.tank g.tank).config.heel
        < (s.tank g.tank).config.lowAlarm)
      receipt := (s.tank g.tank).receipt.modify (Receipt.addDelivery h (s.engine h).net) } := by
    rw [← hs2]; refine (State.setTank_tank_self _ _ _).trans ?_; rw [d1]
  have t2 : ∀ k, k ≠ g.tank → s2.tank k = s.tank k := fun k hk => by
    rw [← hs2]; exact (State.setTank_tank_ne _ _ hk).trans (d2 k hk)
  obtain ⟨ts2, e2⟩ : ∃ ts, s2 = { s with
      tanks := ts, link := { s.link with events := ev, attention := att }
      store := { s.store with
        queue := s.store.queue ++ [.book g.tank (saturateBook ((s.tank g.tank).book - (s.engine h).net))] } } := by
    rw [← hs2, d3]; exact ⟨_, rfl⟩
  have v2 : ∀ u, s2.vehicle u = s.vehicle u := fun u => by rw [e2]; rfl
  have h2 : ∀ k, s2.hose k = s.hose k := fun k => by rw [e2]; rfl
  have c2 : ∀ c, s2.classOf c = s.classOf c := fun c => by rw [e2]; rfl
  obtain ⟨q1, q2, q3, q4, q5, vs, dl, dr, ev', att', q, q6⟩ := creditFuel_law (s := s2) (v := g.vehicle) (s.engine h).net
    (by rw [e2]; exact hw) (by rw [v2]; intro k hk; rw [h2]; exact hb k hk)
  simp only [v2, c2] at q2 q3 q4
  generalize creditFuel g.vehicle (s.engine h).net s2 = s3 at q1 q2 q3 q4 q5 q6 ⊢
  have en : s3.engine h = s.engine h := by rw [q6, e2]; rfl
  have tm : recordedTime (beginWrite (.totalizers h (advanceTotals (s.engine h)).grossTotal
      (advanceTotals (s.engine h)).netTotal) (s3.setEngine h (advanceTotals (s.engine h)))) = recordedTime s := by
    rw [q6, e2]; rfl
  rw [en, tm]
  generalize deliveryOf h g b (advanceTotals (s.engine h)) (recordedTime s) = d
  have ho : ∀ k, s3.hose k = s.hose k := fun k => by rw [q6, e2]; rfl
  have ta : ∀ k, s3.tank k = s2.tank k := fun k => by rw [q6]; rfl
  refine ⟨q1, ?_, fun k hk => ?_, State.setEngine_engine_self _ _ _, fun k hk => ?_, (ta _).trans t1,
    fun k hk => (ta k).trans (t2 k hk), fun c => ⟨(q4 c).1, fun e => List.mem_append_left _ ((q4 c).2 e)⟩, q3, q2, ?_,
    ⟨fun w hq => ?_, ?_, ?_⟩, ?_⟩
  · rw [State.setHose_hose_self]
    have : (joinQueue (.delivery d) (beginWrite (.totalizers h (advanceTotals (s.engine h)).grossTotal
      (advanceTotals (s.engine h)).netTotal) (s3.setEngine h (advanceTotals (s.engine h))))).hose h = s.hose h := ho h
    rw [this]
  · rw [State.setHose_hose_ne _ _ hk]; exact ho k
  · refine (State.setEngine_engine_ne _ _ hk).trans ?_
    rw [q6, e2]; rfl
  · have e : s3.journal = s.journal := by rw [q6, e2]
    exact congrArg (fun j : Journal => ({ j with queue := j.queue ++ [{ record := .delivery d, stamp := none }] } : Journal)) e
  · refine List.mem_append_left _ (q5 w ?_)
    rw [e2]; exact List.mem_append_left _ hq
  · refine List.mem_append_left _ (q5 _ ?_)
    show StoreWrite.book g.tank (s3.tank g.tank).book ∈ _
    rw [ta, t1, e2]; exact List.mem_append_right _ (List.mem_singleton.mpr rfl)
  · refine List.mem_append_right _ ?_
    show StoreWrite.totalizers h ((s3.setEngine h _).engine h).grossTotal _ ∈ _
    rw [show (State.setHose (joinQueue (.delivery d) (beginWrite (.totalizers h (advanceTotals (s.engine h)).grossTotal
      (advanceTotals (s.engine h)).netTotal) (s3.setEngine h (advanceTotals (s.engine h))))) h _).engine h
        = (s3.setEngine h (advanceTotals (s.engine h))).engine h from rfl, State.setEngine_engine_self]
    exact List.mem_singleton.mpr rfl
  · rw [q6, e2]; exact ⟨_, _, _, _, _, _, _, _, _, _, rfl⟩

end Sys2Proof.Machine
end

