-- ==== Sys2Proof/Laws/Restart.lean ====
section
/-! SUPPORT. What the two steps of restart do: the blocks rebuilt from the settings store (R182 step 1), and a hose
re-established from its snapshot (R183). -/

namespace Sys2Proof.Machine

open Sys2Proof

/-- In canonical form the indices rise. -/
theorem Sparse.rising_keys {α : Type} [DecidableEq α] {d : α} {b : Nat} {m : Sparse α} (hw : Sparse.wf d b m = true) :
    (m.map (·.1)).Pairwise (· < ·) := by
  induction m with
  | nil => simp
  | cons e rest ih =>
    obtain ⟨-, -, habove, hrest⟩ := Sparse.wf_cons.mp hw
    simp only [List.all_eq_true, decide_eq_true_eq] at habove
    refine List.pairwise_cons.mpr ⟨fun k hk => ?_, ih hrest⟩
    obtain ⟨f, hf, rfl⟩ := List.mem_map.mp hk
    exact habove f hf

/-- The vehicles are listed in ascending order. -/
theorem State.rising_listedVehicles {s : State} (h : s.vehiclesSound = true) :
    (s.listedVehicles.map (·.1)).Pairwise (fun u v => u.val < v.val) := by
  have hk := Sparse.rising_keys h
  rw [List.pairwise_map] at hk
  rw [List.pairwise_map]
  unfold State.listedVehicles
  refine List.Pairwise.filterMap _ (fun e f hef x hx y hy => ?_) hk
  split at hx
  · split at hy
    · cases hx; cases hy; exact hef
    · cases hy
  · cases hx

/-- What a segment change leaves while no reservation is held. -/
structure Scanned (s t : State) : Prop where
  queue : t.journal.queue = s.journal.queue
  reservations : t.journal.reservations = s.journal.reservations
  faulted : t.journal.faulted = s.journal.faulted
  ack : t.journal.ack = s.journal.ack
  newest : t.journal.newest = s.journal.newest
  frame : ∃ j q, t = { s with journal := j, store := { s.store with queue := q } }

theorem scanChange_law {s : State} (h0 : s.journal.reservations = 0) : Scanned s (scanChange s) := by
  have an : ∀ (g : SegmentId) (x : State), Scanned x (activateNext g x) := fun g x => by
    unfold activateNext; split
    · exact ⟨rfl, rfl, rfl, rfl, rfl, _, _, rfl⟩
    · exact ⟨rfl, rfl, rfl, rfl, rfl, x.journal, x.store.queue, rfl⟩
  unfold scanChange; split
  · unfold segmentChange; dsimp only; split
    · exact ⟨rfl, rfl, rfl, rfl, rfl, s.journal, s.store.queue, rfl⟩
    · rename_i g _ _
      obtain ⟨a1, a2, a3, a4, a5, j, q, a6⟩ :=
        an g (s.setJournal (s.journal.setSegment g { s.journal.segment g with state := .full }))
      have hf : ∀ x : State, x.journal.reservations = 0 → faultTest x = x := by
        intro x hx; unfold faultTest; rw [hx, if_neg]; simp
      rw [hf _ (a2.trans h0)]
      exact ⟨a1, a2, a3, a4, a5, j, q, a6⟩
  · exact an _ s

/-- What step 1 of restart leaves (R182). -/
structure Rebuilt (s t : State) (c : ResetCause) (k : SiteClock) : Prop where
  phase : t.phase = .restarting
  inputs : t.inputs = s.inputs
  clock : t.clock = k
  hose : ∀ h : HoseId, t.hose h = Hose.reset (s.store.stored.hoseConfigs.get h)
  engine : ∀ h : HoseId, t.engine h = Engine.reset (s.store.stored.totals.get h)
  cal : ∀ h : HoseId, t.cal h = Calibration.reset (s.store.stored.cals.get h)
  product : ∀ p : ProductId, t.product p = Product.reset (s.store.stored.products.get p)
  tank : ∀ x : TankId, t.tank x = Tank.reset (s.store.stored.tankConfigs.get x) (s.store.stored.straps.get x)
    (s.store.stored.books.get x) (s.store.stored.revisions.get x)
  pump : ∀ x : TankId, t.pump x = Pump.reset (s.store.stored.pumpConfigs.get x) (s.inputs.pressure.get x)
  slot : t.slotHolder = none
  vehicles : t.vehiclesSound = true
  vehicle : ∀ v : VehicleId, (t.vehicle v).host = (s.store.stored.vehicle v).host
    ∧ (t.vehicle v).revision = (s.store.stored.vehicle v).revision
    ∧ (t.vehicle v).binding = none ∧ (t.vehicle v).servicePending = false ∧ (t.vehicle v).usageWrite = .none
    ∧ ((s.store.stored.vehicle v).host.inUse = true → (t.vehicle v).usage = (s.store.stored.vehicle v).usage
      ∧ (t.vehicle v).marks = (s.store.stored.vehicle v).marks)
    ∧ (t.vehicle v).status = statusOf (s.store.stored.classes.get (s.store.stored.vehicle v).host.cls) (t.vehicle v)
  rising : t.dueList.Pairwise fun u v => u.val < v.val
  due : ∀ v : VehicleId, v ∈ t.dueList ↔ (t.vehicle v).host.inUse = true ∧ (t.vehicle v).status.listed = true
  dueRevision : t.dueRevision = 0
  classes : t.classes = s.store.stored.classes
  load : t.loadSession = none
  queue : t.journal.queue = []
  reservations : t.journal.reservations = 0
  faulted : t.journal.faulted = false
  ack : t.journal.ack = s.store.stored.ack
  link : t.link.lastReset = c ∧ t.link.online = false ∧ t.link.events = []
  stored : t.store.stored = s.store.stored

/-- A vehicle table restored from the store (R129). -/
theorem restored_vehicle (st : Stored) (h : st.vehiclesSound = true) (v : VehicleId) :
    Sparse.get Vehicle.unused (restoredVehicles st) v.val = restoredVehicle st.classes (st.vehicle v) := by
  unfold restoredVehicles Stored.vehicle
  have h : Sparse.wf StoredVehicle.unused 512 st.vehicles = true := h
  generalize st.vehicles = m at h
  generalize v.val = k
  induction m with
  | nil => rfl
  | cons e rest ih =>
    obtain ⟨-, -, habove, hrest⟩ := Sparse.wf_cons.mp h
    have ih := ih hrest
    by_cases hk : e.1 = k
    · subst hk
      have e2 : Sparse.get StoredVehicle.unused (e :: rest) e.1 = e.2 := by simp [Sparse.get]
      rw [e2]
      by_cases hu : restoredVehicle st.classes e.2 = Vehicle.unused
      · have hf : ((e :: rest).map fun e => (e.1, restoredVehicle st.classes e.2)).filter
            (fun e => decide (e.2 ≠ Vehicle.unused)) = (rest.map fun e => (e.1, restoredVehicle st.classes e.2)).filter
            (fun e => decide (e.2 ≠ Vehicle.unused)) := by simp [hu]
        rw [hf, ih, Sparse.get_of_below habove, hu]; rfl
      · have hf : ((e :: rest).map fun e => (e.1, restoredVehicle st.classes e.2)).filter
            (fun e => decide (e.2 ≠ Vehicle.unused)) = (e.1, restoredVehicle st.classes e.2) ::
            (rest.map fun e => (e.1, restoredVehicle st.classes e.2)).filter
            (fun e => decide (e.2 ≠ Vehicle.unused)) := by simp [hu]
        rw [hf]; simp [Sparse.get]
    · have e2 : Sparse.get StoredVehicle.unused (e :: rest) k = Sparse.get StoredVehicle.unused rest k := by
        simp [Sparse.get, hk]
      rw [e2, ← ih]
      by_cases hu : restoredVehicle st.classes e.2 = Vehicle.unused
      · simp [hu]
      · simp [hu, Sparse.get, hk]

theorem resetBlocks_law {s : State} (h : s.store.stored.vehiclesSound = true) (c : ResetCause) (k : SiteClock) :
    Rebuilt s (resetBlocks c k s) c k := by
  unfold resetBlocks; dsimp only
  generalize hX : State.setDueList _ _ = X
  have hr : X.journal.reservations = 0 := by rw [← hX]; rfl
  have hv : X.vehiclesSound = true := by rw [← hX]; exact Sparse.wf_map_filter _ h
  have hve : ∀ v : VehicleId, X.vehicle v = restoredVehicle s.store.stored.classes (s.store.stored.vehicle v) := fun v => by
    rw [← hX]; exact restored_vehicle _ h v
  have hd : X.dueList = restoredDueList X := by rw [← hX]; rfl
  obtain ⟨a1, a2, a3, a4, a5, j, q, e⟩ := scanChange_law hr
  have hq : ∀ t, t = scanChange X → t = { X with journal := j, store := { X.store with queue := q } } := fun t ht => ht.trans e
  generalize scanChange X = t at a1 a2 a3 a4 a5 e
  have ev : ∀ v, t.vehicle v = X.vehicle v := fun v => by rw [e]; rfl
  have edl : t.dueList = X.dueList := by rw [e]
  refine
    { phase := by rw [e, ← hX]; rfl
      inputs := by rw [e, ← hX]; rfl
      clock := by rw [e, ← hX]; rfl
      hose := fun i => by rw [e, ← hX]; exact vmap_get _ _ i
      engine := fun i => by rw [e, ← hX]; exact vmap_get _ _ i
      cal := fun i => by rw [e, ← hX]; exact vmap_get _ _ i
      product := fun i => by rw [e, ← hX]; exact vmap_get _ _ i
      tank := fun i => by rw [e, ← hX]; exact tabulate_get _ i
      pump := fun i => by rw [e, ← hX]; exact tabulate_get _ i
      slot := by rw [e, ← hX]; rfl
      vehicles := by rw [e]; exact hv
      vehicle := fun v => ?_
      rising := ?_
      due := fun v => ?_
      dueRevision := by rw [e, ← hX]; rfl
      classes := by rw [e, ← hX]; rfl
      load := by rw [e, ← hX]; rfl
      queue := a1.trans (by rw [← hX]; rfl)
      reservations := a2.trans hr
      faulted := a3.trans (by rw [← hX]; rfl)
      ack := a4.trans (by rw [← hX]; rfl)
      link := by rw [e, ← hX]; exact ⟨rfl, rfl, rfl⟩
      stored := by rw [e, ← hX]; rfl }
  · rw [ev, hve]
    refine ⟨rfl, rfl, rfl, rfl, rfl, fun c => ⟨?_, ?_⟩, rfl⟩
    · show (if _ then _ else _) = _; rw [c]; rfl
    · show (if _ then _ else _) = _; rw [c]; rfl
  · rw [edl, hd]
    exact (State.rising_listedVehicles hv).sublist (List.filter_sublist.map _)
  · rw [edl, hd, ev, restoredDueList, List.mem_map]
    constructor
    · rintro ⟨⟨u, r⟩, hm, rfl⟩
      obtain ⟨h1, h2⟩ := List.mem_filter.mp hm
      obtain ⟨h3, -⟩ := (State.mem_listedVehicles hv u r).mp h1
      simp only [Bool.and_eq_true] at h2
      rw [h3]; exact h2
    · rintro ⟨h1, h2⟩
      refine ⟨(v, X.vehicle v), List.mem_filter.mpr ⟨(State.mem_listedVehicles hv v _).mpr ⟨rfl, fun c => ?_⟩, ?_⟩, rfl⟩
      · rw [c] at h1; cases h1
      · simp [h1, h2]

/-- What restart makes of a hose with a snapshot (R56, R183). -/
structure Reestablished (s t : State) (c : SaveCause) (p : Snapshot) (d : DeliveryRecord) : Prop where
  sound : t.vehiclesSound = true
  hose : t.hose p.hose =
    { s.hose p.hose with
      state := .settled, valve := .closed
      lamp := if p.settled then (s.hose p.hose).lamp else .off
      timers := if p.settled then (s.hose p.hose).timers else .stopped
      lastEnd := if p.settled then p.grant.held.map (·.endReason) else some d.endReason
      grant := some
        (if p.settled then { p.grant with tankRes := 0, journalRes := true }
        else { p.grant with tankRes := 0, journalRes := true, endReason := some (p.endReason c), held := some d }) }
  otherHoses : ∀ k, k ≠ p.hose → t.hose k = s.hose k
  engine : t.engine p.hose =
    if p.settled then (s.engine p.hose).restore p.measure else advanceTotals ((s.engine p.hose).restore p.measure)
  otherEngines : ∀ k, k ≠ p.hose → t.engine k = s.engine k
  record : d = deliveryOf p.hose
    { p.grant with tankRes := 0, journalRes := true, endReason := some (p.endReason c), held := none } false
    (advanceTotals ((s.engine p.hose).restore p.measure)) (recordedTime s)
  tank : t.tank p.grant.tank =
    if p.settled then s.tank p.grant.tank
    else
      { s.tank p.grant.tank with
        book := saturateBook ((s.tank p.grant.tank).book - p.measure.net)
        low := decide (saturateBook ((s.tank p.grant.tank).book - p.measure.net) - (s.tank p.grant.tank).config.heel
          < (s.tank p.grant.tank).config.lowAlarm)
        receipt := (s.tank p.grant.tank).receipt.modify (Receipt.addDelivery p.hose p.measure.net) }
  otherTanks : ∀ k, k ≠ p.grant.tank → t.tank k = s.tank k
  binding : (t.vehicle p.grant.vehicle).binding = some p.hose
  usage : (t.vehicle p.grant.vehicle).usage =
    if p.settled = false ∧ (s.vehicle p.grant.vehicle).host.inUse = true then
      { (s.vehicle p.grant.vehicle).usage with
        fuel := min 281474976710655 ((s.vehicle p.grant.vehicle).usage.fuel + p.measure.net) }
    else (s.vehicle p.grant.vehicle).usage
  host : (t.vehicle p.grant.vehicle).host = (s.vehicle p.grant.vehicle).host
  otherVehicles : ∀ u, u ≠ p.grant.vehicle → t.vehicle u = s.vehicle u
  journal : t.journal =
    if p.settled then s.journal
    else
      { s.journal with
        queue := s.journal.queue ++ [{ record := .delivery d, stamp := none }]
        reservations := s.journal.reservations + 1 }
  writes : (∀ w ∈ s.store.queue, w ∈ t.store.queue) ∧ (p.settled = false →
    .totalizers p.hose (t.engine p.hose).grossTotal (t.engine p.hose).netTotal ∈ t.store.queue)
  frame : ∃ hs es ts vs dl dr j ev att q, t =
    { s with
      hoses := hs, engines := es, tanks := ts, vehicles := vs, dueList := dl, dueRevision := dr, journal := j
      link := { s.link with events := ev, attention := att }, store := { s.store with queue := q } }

theorem reestablish_law {s : State} (hw : s.vehiclesSound = true) (c : SaveCause) (p : Snapshot) :
    ∃ d, Reestablished s (reestablish c p s) c p d := by
  have key : ∀ g : Grant, g.vehicle = p.grant.vehicle → (restoreHose g p s).vehiclesSound = true ∧
      (restoreHose g p s).hose p.hose = { s.hose p.hose with
        state := .settled, valve := .closed, grant := some g, lastEnd := g.held.map (·.endReason) } ∧
      (∀ k, k ≠ p.hose → (restoreHose g p s).hose k = s.hose k) ∧
      (restoreHose g p s).engine p.hose = (s.engine p.hose).restore p.measure ∧
      (∀ k, k ≠ p.hose → (restoreHose g p s).engine k = s.engine k) ∧
      (restoreHose g p s).vehicle g.vehicle = { s.vehicle g.vehicle with binding := some p.hose } ∧
      (∀ u, u ≠ g.vehicle → (restoreHose g p s).vehicle u = s.vehicle u) ∧
      ∃ hs es vs, restoreHose g p s = { s with hoses := hs, engines := es, vehicles := vs } := by
    intro g _
    refine ⟨State.setVehicle_sound hw, State.setHose_hose_self _ _ _, fun k hk => State.setHose_hose_ne _ _ hk,
      State.setEngine_engine_self _ _ _, fun k hk => State.setEngine_engine_ne _ _ hk,
      State.setVehicle_vehicle_self hw, fun u hu => State.setVehicle_vehicle_ne hu, _, _, _, rfl⟩
  refine ⟨deliveryOf p.hose
    { p.grant with tankRes := 0, journalRes := true, endReason := some (p.endReason c), held := none } false
    (advanceTotals ((s.engine p.hose).restore p.measure)) (recordedTime s), ?_⟩
  unfold reestablish; dsimp only
  cases hs : p.settled with
  | true =>
    simp only [if_true]
    obtain ⟨k0, k1, k2, k3, k4, k5, k6, hs', es, vs, k7⟩ := key { p.grant with tankRes := 0, journalRes := true } rfl
    generalize restoreHose { p.grant with tankRes := 0, journalRes := true } p s = t at *
    have et : ∀ k, t.tank k = s.tank k := fun k => by rw [k7]; rfl
    have k5 : t.vehicle p.grant.vehicle = { s.vehicle p.grant.vehicle with binding := some p.hose } := k5
    refine ⟨k0, ?_, k2, ?_, k4, rfl, ?_, fun k _ => et k, by rw [k5], ?_, by rw [k5], k6, ?_, ⟨fun w hq => ?_, fun c => ?_⟩, ?_⟩
    · rw [k1]; simp [hs]
    · rw [k3]; simp [hs]
    · rw [et]; simp [hs]
    · rw [k5]; simp [hs]
    · rw [k7]; simp [hs]
    · rw [k7]; exact hq
    · rw [hs] at c; cases c
    · rw [k7]; exact ⟨hs', es, s.tanks, vs, s.dueList, s.dueRevision, s.journal, s.link.events, s.link.attention,
        s.store.queue, rfl⟩
  | false =>
    simp only [Bool.false_eq_true, if_false]
    generalize hg : ({ p.grant with
      tankRes := 0, journalRes := true, endReason := some (p.endReason c), held := none } : Grant) = g
    have hgv : g.vehicle = p.grant.vehicle := by rw [← hg]
    have hgt : g.tank = p.grant.tank := by rw [← hg]
    have hgr : g.tankRes = 0 := by rw [← hg]
    obtain ⟨k0, k1, k2, k3, k4, k5, k6, hs', es, vs, k7⟩ := key g hgv
    generalize restoreHose g p s = r at *
    have a := settleAccounting_law p.hose g false k0 (by
      rw [k5]; intro k hk; cases hk; rw [k1]; simp)
    have tm : recordedTime r = recordedTime s := by rw [k7]; rfl
    rw [k3, tm] at a
    generalize hD : deliveryOf p.hose g false (advanceTotals ((s.engine p.hose).restore p.measure)) (recordedTime s) = d at a ⊢
    have hnet : (r.engine p.hose).net = p.measure.net := by rw [k3]; rfl
    have et : ∀ k, r.tank k = s.tank k := fun k => by rw [k7]; rfl
    have ej : r.journal = s.journal := by rw [k7]
    have rv : (r.vehicle g.vehicle).host = (s.vehicle p.grant.vehicle).host ∧
        (r.vehicle g.vehicle).usage = (s.vehicle p.grant.vehicle).usage := by rw [k5, hgv]; exact ⟨rfl, rfl⟩
    refine ⟨a.sound, ?_, fun k hk => (a.otherHoses k hk).trans (k2 k hk), ?_, fun k hk => (a.otherEngines k hk).trans (k4 k hk),
      by rw [hg, hD], ?_, fun k hk => (a.otherTanks k (by rw [hgt]; exact hk)).trans (et k), ?_, ?_, ?_,
      fun u hu => (a.otherVehicles u (by rw [hgv]; exact hu)).trans (k6 u (by rw [hgv]; exact hu)), ?_,
      ⟨fun w hq => a.writes.1 w (by rw [k7]; exact hq), fun _ => a.writes.2.2⟩, ?_⟩
    · refine (a.hose.trans ?_)
      rw [k1, ← hg]; simp [hs]
    · refine (a.engine.trans ?_)
      rw [k3]; simp [hs]
    · have := a.tank
      rw [hgt, hnet, hgr, et] at this
      refine Eq.trans this ?_
      simp [hs]
    · show ((settleAccounting p.hose g false r).vehicle p.grant.vehicle).binding = _
      rw [← hgv]
      cases hi : (r.vehicle g.vehicle).host.inUse with
      | true => rw [(a.vehicle hi).1, k5]
      | false => rw [a.unused hi, k5]
    · show ((settleAccounting p.hose g false r).vehicle p.grant.vehicle).usage = _
      rw [← rv.1, ← rv.2, ← hgv, ← hnet]
      cases hi : (r.vehicle g.vehicle).host.inUse with
      | true => rw [(a.vehicle hi).1]; simp [hs]
      | false => rw [a.unused hi]; simp [hs]
    · show ((settleAccounting p.hose g false r).vehicle p.grant.vehicle).host = _
      rw [← rv.1, ← hgv]
      cases hi : (r.vehicle g.vehicle).host.inUse with
      | true => rw [(a.vehicle hi).1]
      | false => rw [a.unused hi]
    · have := a.journal
      rw [ej] at this
      simp only [hs]
      exact congrArg (fun j : Journal => ({ j with reservations := j.reservations + 1 } : Journal)) this
    · obtain ⟨hs2, es2, ts2, vs2, dl, dr, j, ev, att, q, f⟩ := a.frame
      rw [f, k7]
      exact ⟨_, _, _, _, _, _, _, _, _, _, rfl⟩

end Sys2Proof.Machine
end

