-- ==== Sys2Proof/Laws/Slots.lean ====
section
/-! SUPPORT. The images of journal slots read back as what they are (R203), so the scan of the slots' bytes is the scan
of the slots (R170). -/

namespace Sys2Proof.Machine

open Sys2Proof

@[simp] theorem beBytes_length (n x : Nat) : (beBytes n x).length = n := by
  induction n generalizing x with
  | zero => rfl
  | succ n ih => simp [beBytes, ih]

@[simp] theorem beBytesInt_length (n : Nat) (x : Int) : (beBytesInt n x).length = n := beBytes_length _ _

@[simp] theorem slotFields_length (fields : List Byte) : (slotFields fields).length = 52 := by
  unfold slotFields
  rw [List.length_take, List.length_append, List.length_replicate]
  omega

theorem fields_length (r : Record) : r.fields.length = 52 := by
  cases r <;>
    simp [Record.fields, deliveryFields, receiptFields, calibrationFields, serviceFields, adjustFields, interruptionFields]

theorem commonPart_length (r : JRecord) : (commonPart r).length = 10 := by simp [commonPart]

theorem slotImage_length (r : JRecord) : (slotImage r).length = 64 := by
  simp [slotImage, fields_length, commonPart_length]

theorem kind_range (r : Record) : 1 ≤ r.kind ∧ r.kind ≤ 6 := by cases r <;> simp [Record.kind]

theorem slotImage_kind (r : JRecord) : (byteAt (slotImage r) 0).toNat = r.record.kind := by
  have : byteAt (slotImage r) 0 = BitVec.ofNat 8 (r.record.kind / 256 ^ 0) := rfl
  rw [this]; have := kind_range r.record
  simp only [BitVec.toNat_ofNat, Nat.pow_zero, Nat.div_one]; omega

/-- The last two bytes of a slot are the check word over the first 62. -/
theorem slotImage_check (r : JRecord) : u16At (slotImage r) 62 = crc16 ((slotImage r).take 62) := by
  have e : (commonPart r ++ r.record.fields).length = 62 := by simp [fields_length, commonPart_length]
  unfold slotImage; dsimp only
  rw [List.take_left' e]
  generalize crc16 (commonPart r ++ r.record.fields) = c
  revert e
  generalize commonPart r ++ r.record.fields = b
  intro e
  have g0 : byteAt (b ++ beBytes 2 c.toNat) 62 = BitVec.ofNat 8 (c.toNat / 256) := by
    simp [byteAt, List.getD, e, beBytes]
  have g1 : byteAt (b ++ beBytes 2 c.toNat) 63 = BitVec.ofNat 8 c.toNat := by
    simp [byteAt, List.getD, e, beBytes]
  unfold u16At
  rw [g0, g1]
  apply BitVec.eq_of_toNat_eq
  have := c.isLt
  simp only [BitVec.toNat_append, BitVec.toNat_ofNat]
  rw [← Nat.shiftLeft_add_eq_or_of_lt (by omega), Nat.shiftLeft_eq]
  omega

theorem readSlot_record (r : JRecord) : readSlot (slotImage r) = .record := by
  have k := slotImage_kind r
  have hk := kind_range r.record
  have nb : ((slotImage r).all fun x => decide (x = 0xFF#8)) = false := by
    rw [List.all_eq_false]
    refine ⟨byteAt (slotImage r) 0, ?_, ?_⟩
    · have : 0 < (slotImage r).length := by rw [slotImage_length]; decide
      simp [byteAt, List.getD, this]
    · have : byteAt (slotImage r) 0 ≠ 0xFF#8 := fun c => by
        rw [c] at k; have k : 255 = r.record.kind := k; omega
      simpa using this
  unfold readSlot
  rw [nb, slotImage_check, k]
  simp [inRange, hk]

theorem readSlot_void : readSlot voidImage = .void := by decide
theorem readSlot_blank : readSlot blankImage = .blank := by decide

/-- A slot reads back VOID exactly when it is VOID. -/
theorem readsVoid_iff (x : Slot) : x.readsVoid = decide (x = .void) := by
  cases x with
  | written r => simp [Slot.readsVoid, Slot.image, readSlot_record]
  | void => simp [Slot.readsVoid, Slot.image, readSlot_void]

/-- The marker byte stands in slot 0 exactly when the segment carries the erase mark. -/
theorem carriesMarker_first (x : Segment) : carriesMarker x.firstImage = x.eraseMark := by
  unfold Segment.firstImage
  cases x.eraseMark with
  | true => exact (by decide : carriesMarker eraseMarkImage = true)
  | false =>
    simp only [Bool.false_eq_true, if_false]
    split
    · decide
    · rename_i slot _ _
      cases slot with
      | void => decide
      | written r =>
        have k := slotImage_kind r
        have hk := kind_range r.record
        have : byteAt (slotImage r) 0 ≠ 0x00#8 := fun c => by
          rw [c] at k; have k : 0 = r.record.kind := k; omega
        simp [carriesMarker, Slot.image, this]

/-- The scan of a segment, by its marks and slots (R170). -/
theorem scanSegment_eq (st : Stored) (g : SegmentId) (x : Segment) : scanSegment st g x =
    if st.retired.get g then { x with state := .retired, worn := false, slots := [] }
    else if x.eraseMark then { x with state := .erasing, worn := st.worn.get g, slots := [] }
    else
      { x with
        state := if g = st.highWater.segment then .active else if x.slots.isEmpty then .free else .full
        worn := st.worn.get g || x.slots.any fun y => decide (y = .void) } := by
  unfold scanSegment
  rw [carriesMarker_first, show Slot.readsVoid = fun y => decide (y = .void) from funext readsVoid_iff]

end Sys2Proof.Machine
end

