-- ==== Sys2Proof/Laws/Scan.lean ====
section
/-! SUPPORT. What the journal's scan at a reset leaves, in the terms of the statements (R170, R171). -/

namespace Sys2Proof.Machine

open Sys2Proof

/-- Without a record nothing is found. -/
theorem highest_nil : highest [] = none := rfl

/-- The record found as the newest has the highest sequence number. -/
theorem highest_spec {rs : List JRecord} (h : rs ≠ []) :
    ∃ r ∈ rs, (∀ x ∈ rs, x.stamp.seq ≤ r.stamp.seq) ∧ highest rs = some (r.stamp.seq, r.stamp.time) := by
  induction rs using List.reverseRecOn with
  | nil => exact absurd rfl h
  | append_singleton rs y ih =>
    unfold highest; rw [List.foldl_append]
    change ∃ r ∈ rs ++ [y], _ ∧ (match highest rs with
      | none => some (y.stamp.seq, y.stamp.time)
      | some b => if b.1 < y.stamp.seq then some (y.stamp.seq, y.stamp.time) else some b) = _
    by_cases e : rs = []
    · subst e; exact ⟨y, by simp, by simp, rfl⟩
    · obtain ⟨r, h1, h2, h3⟩ := ih e
      rw [h3]; simp only
      split
      · rename_i hlt
        refine ⟨y, by simp, fun x hx => ?_, rfl⟩
        rcases List.mem_append.mp hx with hx | hx
        · exact (h2 x hx).trans hlt.le
        · rw [List.mem_singleton.mp hx]
      · rename_i hlt
        refine ⟨r, by simp [h1], fun x hx => ?_, rfl⟩
        rcases List.mem_append.mp hx with hx | hx
        · exact h2 x hx
        · rw [List.mem_singleton.mp hx]; omega

theorem segmentsAfter_nodup (g : SegmentId) : (segmentsAfter g).Nodup :=
  (segmentsAfter_rising g).imp fun h e => by rw [e] at h; exact Nat.lt_irrefl _ h

/-- The journals of the same slots hold the same records. -/
theorem written_perm {j k : Journal} (h : ∀ g, (j.segment g).slots = (k.segment g).slots) : j.written.Perm k.written := by
  unfold Journal.written
  refine (List.perm_insertionSort _ _).trans (List.Perm.trans ?_ (List.perm_insertionSort _ _).symm)
  simp only [h]
  refine List.Perm.flatMap_right _ ?_
  exact (List.perm_ext_iff_of_nodup (segmentsAfter_nodup _) (segmentsAfter_nodup _)).mpr fun g => by
    simp [mem_segmentsAfter]

/-- What a segment change of the scanned journal leaves: the states of segments, the high-water mark and the store
writes; everything else is as the scan found it. -/
theorem leaves_of {st : Stored} {found : Vector Segment 32} {j : Journal} {writes : List StoreWrite}
    (same : ∀ g, j.segment g = { scanSegment st g (found.get g) with state := (j.segment g).state })
    (state : ∀ g, (scanSegment st g (found.get g)).state ≠ .free → (scanSegment st g (found.get g)).state ≠ .active →
      (j.segment g).state = (scanSegment st g (found.get g)).state)
    (used : ∀ g, (j.segment g).state = .retired → (scanSegment st g (found.get g)).state = .retired)
    (rest : j = { scanned st found with segments := j.segments, highWater := j.highWater })
    (goesOn : st.GoesOn found → (j.segment st.highWater.segment).state = .active
      ∧ (∀ g, st.FoundFree found g → (j.segment g).state = .free) ∧ j.highWater = st.highWater ∧ writes = [])
    (filled : st.Unmarked found st.highWater.segment → 64 ≤ (found.get st.highWater.segment).slots.length →
      (j.segment st.highWater.segment).state = .full)
    (next : ¬st.GoesOn found → ∀ k, st.FoundFree found k →
      (∀ i, st.FoundFree found i → stepsAfter st.highWater.segment k ≤ stepsAfter st.highWater.segment i) →
      (j.segment k).state = .active ∧ (∀ i, st.FoundFree found i → i ≠ k → (j.segment i).state = .free)
        ∧ j.highWater = { seq := j.nextSeq, segment := k, newest := j.newest } ∧ writes = [.highWater j.highWater])
    (noneFree : ¬st.GoesOn found → (∀ i, ¬st.FoundFree found i) → j.highWater = st.highWater ∧ writes = []) :
    ScanLeaves st found j writes := by
  have hseg : ∀ g, (scanned st found).segment g = scanSegment st g (found.get g) := fun g => tabulate_get _ g
  generalize hk : (Journal.mk (tabulate fun g => scanSegment st g (found.get g)) st.highWater st.highWater.seq none st.ack
    .none [] 0 false false true none) = k
  have hks : ∀ g, k.segment g = scanSegment st g (found.get g) := by rw [← hk]; exact fun g => tabulate_get _ g
  have hp : j.written.Perm k.written := written_perm fun g => by rw [hks, same]
  have hn : j.nextSeq = max st.highWater.seq (match highest k.written with | some f => f.1 + 1 | none => 0) := by
    rw [rest, ← hk]; rfl
  have hw : j.newest = newestOf (highest k.written) st.highWater.newest := by rw [rest, ← hk]; rfl
  have ha : j.armed = !k.thresholdPasses st.site.threshold := by rw [rest, ← hk]; rfl
  have hack : j.ack = k.ack := by rw [rest, ← hk]; rfl
  have hu : j.usable = k.usable := by
    unfold Journal.usable
    congr 2
    refine List.filter_congr fun g _ => ?_
    rw [decide_eq_decide, not_iff_not, hks]
    refine ⟨used g, fun h => ?_⟩
    rw [state g (by rw [h]; decide) (by rw [h]; decide), h]
  have hh : j.held.length = k.held.length := by
    unfold Journal.held; rw [hack]; exact (hp.filter _).length_eq
  refine ⟨fun g hr => ?_, fun g hr he => ?_, fun g hm => ?_, fun g hm hg hb => ?_, goesOn, filled, next, noneFree, ?_, ?_,
    fun h => ?_, fun h => ?_, ?_, ?_⟩
  · have hs := scanSegment_eq st g (found.get g)
    rw [if_pos hr] at hs
    rw [same g, state g (by rw [hs]; exact fun c => by cases c) (by rw [hs]; exact fun c => by cases c), hs]
  · have hs := scanSegment_eq st g (found.get g)
    rw [if_neg (by rw [hr]; decide), if_pos he] at hs
    rw [same g, state g (by rw [hs]; exact fun c => by cases c) (by rw [hs]; exact fun c => by cases c), hs]
  · have hs := scanSegment_eq st g (found.get g)
    rw [if_neg (by rw [hm.1]; decide), if_neg (by rw [hm.2]; decide)] at hs
    refine (same g).trans ?_
    rw [hs]
  · have hs := scanSegment_eq st g (found.get g)
    rw [if_neg (by rw [hm.1]; decide), if_neg (by rw [hm.2]; decide), if_neg hg,
      if_neg (by rw [List.isEmpty_iff]; exact hb)] at hs
    rw [state g (by rw [hs]; exact fun c => by cases c) (by rw [hs]; exact fun c => by cases c), hs]
  · rw [hn]
    refine ⟨Nat.le_max_left _ _, fun r hr => ?_⟩
    have hr := hp.mem_iff.mp hr
    obtain ⟨x, _, h2, h3⟩ := highest_spec (rs := k.written) (fun e => by rw [e] at hr; cases hr)
    rw [h3]
    have := h2 r hr
    exact lt_of_lt_of_le (Nat.lt_succ_of_le this) (Nat.le_max_right _ _)
  · rw [hn]
    by_cases e : k.written = []
    · rw [e]; left; exact Nat.max_eq_left (Nat.zero_le _)
    · obtain ⟨x, h1, _, h3⟩ := highest_spec e
      rw [h3]
      rcases Nat.le_total st.highWater.seq (x.stamp.seq + 1) with h | h
      · right; exact ⟨x, hp.mem_iff.mpr h1, Nat.max_eq_right h⟩
      · left; exact Nat.max_eq_left h
  · have h' : k.written = [] := by rw [h] at hp; exact List.nil_perm.mp hp
    rw [hw, h', highest_nil]; rfl
  · have h' : k.written ≠ [] := fun e => by rw [e] at hp; exact h (List.perm_nil.mp hp)
    obtain ⟨x, h1, h2, h3⟩ := highest_spec h'
    refine ⟨x, hp.mem_iff.mpr h1, fun y hy => h2 y (hp.mem_iff.mp hy), ?_⟩
    rw [hw, h3]
    cases st.highWater.newest <;> rfl
  · rw [ha, hu, hh]
    unfold Journal.thresholdPasses
    rw [← decide_not, decide_eq_decide, Nat.not_le]
  · rw [rest]; exact ⟨rfl, rfl, rfl⟩

/-- What the scan makes of a segment that is FREE, and of the one that the high-water mark names. -/
theorem scanSegment_free (st : Stored) (found : Vector Segment 32) (g : SegmentId) :
    (scanSegment st g (found.get g)).state = .free ↔ st.FoundFree found g := by
  rw [scanSegment_eq]
  constructor
  · intro h
    split at h
    · cases h
    · split at h
      · cases h
      · rename_i h1 h2
        simp only at h
        split at h
        · cases h
        · split at h
          · rename_i h3 h4
            exact ⟨⟨by simpa using h1, by simpa using h2⟩, List.isEmpty_iff.mp h4, h3⟩
          · cases h
  · rintro ⟨⟨h1, h2⟩, h3, h4⟩
    rw [if_neg (by rw [h1]; decide), if_neg (by rw [h2]; decide)]
    simp only
    rw [if_neg h4, h3]; rfl

theorem scanSegment_active (st : Stored) (found : Vector Segment 32) (g : SegmentId) :
    (scanSegment st g (found.get g)).state = .active ↔ st.Unmarked found g ∧ g = st.highWater.segment := by
  rw [scanSegment_eq]
  constructor
  · intro h
    split at h
    · cases h
    · split at h
      · cases h
      · rename_i h1 h2
        simp only at h
        split at h
        · rename_i h3
          exact ⟨⟨by simpa using h1, by simpa using h2⟩, h3⟩
        · split at h <;> cases h
  · rintro ⟨⟨h1, h2⟩, h3⟩
    rw [if_neg (by rw [h1]; decide), if_neg (by rw [h2]; decide)]
    simp only
    rw [if_pos h3]

theorem scanSegment_slots {st : Stored} {found : Vector Segment 32} {g : SegmentId} (h : st.Unmarked found g) :
    (scanSegment st g (found.get g)).slots = (found.get g).slots := by
  rw [scanSegment_eq, if_neg (by rw [h.1]; decide), if_neg (by rw [h.2]; decide)]

/-- The next FREE segment, from a journal `y` in which no segment is ACTIVE: the scanned journal, but for the segment of
the high-water mark. -/
theorem activateNext_leaves {st : Stored} {found : Vector Segment 32} {y : State} (hb : ¬st.GoesOn found)
    (hq : y.store.queue = [])
    (rest : y.journal = { scanned st found with segments := y.journal.segments })
    (other : ∀ g, g ≠ st.highWater.segment → y.journal.segment g = scanSegment st g (found.get g))
    (marked : ¬st.Unmarked found st.highWater.segment →
      y.journal.segment st.highWater.segment = scanSegment st st.highWater.segment (found.get st.highWater.segment))
    (filled : st.Unmarked found st.highWater.segment → y.journal.segment st.highWater.segment =
      { scanSegment st st.highWater.segment (found.get st.highWater.segment) with state := .full }) :
    ScanLeaves st found (activateNext st.highWater.segment y).journal (activateNext st.highWater.segment y).store.queue := by
  have same : ∀ g, y.journal.segment g = { scanSegment st g (found.get g) with state := (y.journal.segment g).state } := by
    intro g
    by_cases hg : g = st.highWater.segment
    · subst hg
      by_cases hm : st.Unmarked found st.highWater.segment
      · rw [filled hm]
      · rw [marked hm]
    · rw [other g hg]
  have free : ∀ g, (y.journal.segment g).state = .free ↔ st.FoundFree found g := by
    intro g
    rw [← scanSegment_free]
    by_cases hg : g = st.highWater.segment
    · subst hg
      by_cases hm : st.Unmarked found st.highWater.segment
      · rw [filled hm, scanSegment_free]
        exact ⟨fun c => (by cases c), fun c => absurd rfl c.other⟩
      · rw [marked hm]
    · rw [other g hg]
  have state : ∀ g, (scanSegment st g (found.get g)).state ≠ .active →
      (y.journal.segment g).state = (scanSegment st g (found.get g)).state := by
    intro g hg
    by_cases e : g = st.highWater.segment
    · subst e
      rw [marked fun hm => hg ((scanSegment_active ..).mpr ⟨hm, rfl⟩)]
    · rw [other g e]
  have used : ∀ g, (y.journal.segment g).state = .retired → (scanSegment st g (found.get g)).state = .retired := by
    intro g h
    by_cases e : g = st.highWater.segment
    · subst e
      by_cases hm : st.Unmarked found st.highWater.segment
      · rw [filled hm] at h; cases h
      · rwa [marked hm] at h
    · rwa [other g e] at h
  unfold activateNext
  cases hf : (segmentsAfter st.highWater.segment).find? fun g => decide ((y.journal.segment g).state = .free) with
  | none =>
    have hn : ∀ g, ¬st.FoundFree found g := fun g c => by
      rw [List.find?_eq_none] at hf
      simpa [(free g).mpr c] using hf g (mem_segmentsAfter _ g)
    have hh : y.journal.highWater = st.highWater := by rw [rest]; rfl
    refine leaves_of same (fun g _ h => state g h) used (by rw [hh]; exact rest) (fun h => absurd h hb)
      (fun hm _ => by rw [filled hm]) (fun _ k hk => absurd hk (hn k)) fun _ _ => ⟨hh, hq⟩
  | some i =>
    obtain ⟨h1, h2⟩ := find_segmentsAfter hf
    have h1 : (y.journal.segment i).state = .free := by simpa using h1
    have hi := (free i).mp h1
    have hseg : ∀ g, (activate i y).journal.segment g
        = if g = i then { y.journal.segment i with state := .active } else y.journal.segment g := fun g =>
      Journal.segment_setSegment ..
    have hbusy : (scanSegment st i (found.get i)).state = .free := (scanSegment_free ..).mpr hi
    refine leaves_of (fun g => ?_) (fun g hg h => ?_) (fun g h => ?_) ?_ (fun h => absurd h hb) (fun hm hl => ?_)
      (fun _ k hk hleast => ?_) fun _ hn => absurd hi (hn i)
    · by_cases e : g = i
      · subst e; rw [hseg, if_pos rfl, same g]
      · rw [hseg, if_neg e]; exact same g
    · rw [hseg, if_neg fun e => hg (by rw [e]; exact hbusy)]; exact state g h
    · rw [hseg] at h; split at h
      · cases h
      · exact used g h
    · have e : (activate i y).journal
          = { y.journal with segments := (activate i y).journal.segments, highWater := (activate i y).journal.highWater } := rfl
      rw [e]; rw [rest]
    · rw [hseg, if_neg fun e => hi.other e.symm, filled hm]
    · have hki : k = i := by
        refine stepsAfter_inj _ _ _ (le_antisymm (hleast i hi) (h2 k ?_))
        simpa using (free k).mpr hk
      subst hki
      refine ⟨by rw [hseg, if_pos rfl], fun g hg hne => by rw [hseg, if_neg hne]; exact (free g).mpr hg, ?_, ?_⟩
      · have hc : y.journal.comingSeq = y.journal.nextSeq := by rw [rest]; rfl
        show HighWater.mk y.journal.comingSeq k y.journal.newest = _
        rw [hc]; rfl
      · show y.store.queue ++ [_] = _
        rw [hq]; rfl

/-- What the scan and the segment change after it leave. -/
theorem scanChange_leaves {st : Stored} {found : Vector Segment 32} {x : State} (hj : x.journal = scanned st found)
    (hq : x.store.queue = []) : ScanLeaves st found (scanChange x).journal (scanChange x).store.queue := by
  have hseg : ∀ g, x.journal.segment g = scanSegment st g (found.get g) := fun g => by rw [hj]; exact tabulate_get _ g
  have hh : x.journal.highWater = st.highWater := by rw [hj]; rfl
  unfold scanChange
  cases ha : x.journal.active with
  | none =>
    have hn : ¬st.Unmarked found st.highWater.segment := fun c => by
      unfold Journal.active at ha
      rw [List.find?_eq_none] at ha
      refine ha st.highWater.segment (List.mem_finRange _) ?_
      rw [hseg, decide_eq_true_eq, scanSegment_active]; exact ⟨c, rfl⟩
    simp only [hh]
    exact activateNext_leaves (fun c => hn c.1) hq (by rw [hj]) (fun g _ => hseg g) (fun _ => hseg _) fun c => absurd c hn
  | some g =>
    have hg := List.find?_some ha
    rw [hseg, decide_eq_true_eq, scanSegment_active] at hg
    obtain ⟨hm, rfl⟩ := hg
    simp only
    rw [segmentChange_passed]
    have hl : (x.journal.segment st.highWater.segment).slots = (found.get st.highWater.segment).slots := by
      rw [hseg, scanSegment_slots hm]
    have hr : x.journal.reservations = 0 := by rw [hj]; rfl
    rw [hl]
    unfold segmentPassed
    rw [hl]
    by_cases hlt : (found.get st.highWater.segment).slots.length < 64
    · rw [if_pos hlt, if_pos hlt]
      refine leaves_of (fun g => by rw [hseg]) (fun g _ _ => by rw [hseg]) (fun g h => by rwa [hseg] at h)
        (by rw [hh, hj]; rfl) (fun _ => ⟨?_, fun g h => ?_, hh, hq⟩) (fun _ h => by omega)
        (fun h => absurd ⟨hm, hlt⟩ h) fun h => absurd ⟨hm, hlt⟩ h
      · rw [hseg]; exact (scanSegment_active ..).mpr ⟨hm, rfl⟩
      · rw [hseg]; exact (scanSegment_free ..).mpr h
    · rw [if_neg hlt, if_neg hlt, faultTest_stays]
      · refine activateNext_leaves (fun c => hlt c.2) hq ?_ (fun g hg => ?_) (fun c => absurd hm c) fun _ => ?_
        · rw [hj]; rfl
        · simp [hg, hseg]
        · simp [hseg]
      · right
        refine le_of_eq_of_le ?_ (Nat.zero_le _)
        unfold activateNext
        split <;> exact hr

end Sys2Proof.Machine
end

