-- ==== Sys2Proof/Laws/Service.lean ====
section
/-! SUPPORT. Service accounting, each operation said once: the figures of a line and the worst line of a vehicle (R134,
R135), and what a change of status leaves of the vehicles (R137). -/

namespace Sys2Proof.Machine

open Sys2Proof

/-! ### Lines (R134, R135) -/

/-- The figures of a line are those of the statements. -/
theorem lineReply_eq (c : ClassRecord) (r : Vehicle) (n : LineId) :
    lineReply c r.usage (c.lines.get n) (r.marks.get n) = r.lineFigures c n := by
  unfold lineReply Vehicle.lineFigures
  have hm : measuredHours r.usage (r.marks.get n) =
      (match r.usage.meter, r.usage.hours, (r.marks.get n).hours with
      | true, some a, some b => some (a - b)
      | _, _, _ => none) := by
    unfold measuredHours; cases r.usage.meter <;> cases r.usage.hours <;> cases (r.marks.get n).hours <;> rfl
  have hu : (c.lines.get n).used = decide ((c.lines.get n).hour ≠ 0 ∨ (c.lines.get n).fuel ≠ 0) := by
    unfold ScheduleLine.used; simp [Bool.decide_or]
  unfold linePerMille hoursSince
  rw [hm, hu]; rfl

/-- The worst of lines in ascending order: the greatest per-mille, the lower line where two are equal. -/
theorem worse_best (xs : List (LineId × Nat)) : ∀ b, (b :: xs).Pairwise (fun x y => x.1 < y.1) →
    ∃ y, xs.foldl worseLine (some b) = some y ∧ y ∈ b :: xs ∧
      ∀ x ∈ b :: xs, x.2 < y.2 ∨ x.2 = y.2 ∧ y.1 ≤ x.1 := by
  induction xs with
  | nil => intro b _; exact ⟨b, rfl, by simp, by simp⟩
  | cons x xs ih =>
    intro b hp
    rw [List.foldl_cons]
    obtain ⟨hp1, hp3⟩ := List.pairwise_cons.mp hp
    by_cases hb : b.2 < x.2
    · rw [show worseLine (some b) x = some x by simp [worseLine, hb]]
      obtain ⟨y, h1, h2, h3⟩ := ih x hp3
      refine ⟨y, h1, List.mem_cons_of_mem _ h2, fun a ha => ?_⟩
      rcases List.mem_cons.mp ha with rfl | ha
      · have := h3 x (by simp); left; omega
      · exact h3 a ha
    · rw [show worseLine (some b) x = some b by simp [worseLine, hb]]
      obtain ⟨y, h1, h2, h3⟩ :=
        ih b (List.pairwise_cons.mpr ⟨fun a ha => hp1 a (by simp [ha]), (List.pairwise_cons.mp hp3).2⟩)
      refine ⟨y, h1, ?_, fun a ha => ?_⟩
      · rcases List.mem_cons.mp h2 with rfl | h2
        · simp
        · simp [h2]
      · rcases List.mem_cons.mp ha with rfl | ha
        · exact h3 a (by simp)
        · rcases List.mem_cons.mp ha with rfl | ha
          · have hlt := hp1 a (by simp)
            rcases h3 b (by simp) with h | ⟨h, h'⟩
            · left; omega
            · rcases Nat.lt_or_ge a.2 y.2 with h'' | h''
              · left; exact h''
              · right; exact ⟨by omega, le_of_lt (lt_of_le_of_lt h' hlt)⟩
          · exact h3 a (by simp [ha])

/-- The worst line of a vehicle is that of the statements. -/
theorem worstOf_iff (s : State) (v : VehicleId) (w : LineId) (n : Nat) : s.worstOf v = some (w, n) ↔
    (s.vehicle v).worstIs (s.classOf (s.vehicle v).host.cls) w ∧
      n = ((s.vehicle v).lineFigures (s.classOf (s.vehicle v).host.cls) w).perMille := by
  unfold State.worstOf worstLine
  simp only
  generalize s.vehicle v = r
  generalize s.classOf r.host.cls = c
  have hm : ∀ x : LineId × Nat, x ∈ usedLines c r.usage r.marks ↔
      (r.lineFigures c x.1).used = true ∧ x.2 = (r.lineFigures c x.1).perMille := by
    intro x
    unfold usedLines
    rw [List.mem_map]
    constructor
    · rintro ⟨a, ha, rfl⟩
      rw [List.mem_filter] at ha
      simp only [← lineReply_eq]
      exact ⟨ha.2, rfl⟩
    · rintro ⟨h1, h2⟩
      simp only [← lineReply_eq] at h1 h2
      exact ⟨x.1, List.mem_filter.mpr ⟨(by decide : ∀ n : LineId, n ∈ allLines) _, h1⟩, Prod.ext rfl h2.symm⟩
  have hs : (usedLines c r.usage r.marks).Pairwise (fun x y => x.1 < y.1) := by
    unfold usedLines
    rw [List.pairwise_map]
    exact List.Pairwise.filter _ (by decide : allLines.Pairwise (· < ·))
  cases hl : usedLines c r.usage r.marks with
  | nil =>
    refine ⟨fun h => by simp at h, fun h => ?_⟩
    have := (hm (w, n)).mpr ⟨h.1.used, h.2⟩
    rw [hl] at this; cases this
  | cons b xs =>
    rw [hl] at hs
    obtain ⟨y, h1, h2, h3⟩ := worse_best xs b hs
    rw [List.foldl_cons, show worseLine none b = some b from rfl, h1]
    rw [← hl] at h2 h3
    have hy := (hm y).mp h2
    constructor
    · intro e; cases e
      refine ⟨⟨hy.1, fun k hk => ?_⟩, hy.2⟩
      have := h3 (k, (r.lineFigures c k).perMille) ((hm _).mpr ⟨hk, rfl⟩)
      rw [← hy.2]; exact this
    · rintro ⟨h4, h5⟩
      have hw := h3 (w, n) ((hm _).mpr ⟨h4.used, h5⟩)
      have hg := h4.greatest y.1 hy.1
      rw [← hy.2, ← h5] at hg
      simp only at hw
      have e2 : y.2 = n := by omega
      have e1 : y.1 = w := by
        rcases hw with hw | ⟨_, hw⟩
        · omega
        · rcases hg with hg | ⟨_, hg⟩
          · omega
          · exact le_antisymm hw hg
      rw [← e1, ← e2]

/-! ### Changes of status (R137) -/

/-- Of the vehicles nothing changes but their statuses and their bindings. -/
structure Restatused (s t : State) : Prop where
  sound : t.vehiclesSound = true
  each : ∀ x, ∃ st b, t.vehicle x = { s.vehicle x with status := st, binding := b }

theorem Restatused.refl {s : State} (h : s.vehiclesSound = true) : Restatused s s := ⟨h, fun _ => ⟨_, _, rfl⟩⟩

theorem Restatused.trans {s t u : State} (a : Restatused s t) (b : Restatused t u) : Restatused s u :=
  ⟨b.sound, fun x => by
    obtain ⟨_, _, e⟩ := b.each x
    obtain ⟨_, _, f⟩ := a.each x
    exact ⟨_, _, by rw [e, f]⟩⟩

/-- A state with the same vehicles. -/
theorem Restatused.same {s t : State} (h : s.vehiclesSound = true) (e : t.vehicles = s.vehicles) : Restatused s t :=
  ⟨by unfold State.vehiclesSound; rw [e]; exact h, fun x => ⟨_, _, by unfold State.vehicle; rw [e]⟩⟩

theorem setVehicle_restatused {s : State} (h : s.vehiclesSound = true) (v : VehicleId) (st : ServiceStatus)
    (b : Option HoseId) : Restatused s (s.setVehicle v { s.vehicle v with status := st, binding := b }) :=
  ⟨State.setVehicle_sound h, fun x => by
    by_cases e : x = v
    · subst e; exact ⟨_, _, State.setVehicle_vehicle_self h⟩
    · exact ⟨_, _, by rw [State.setVehicle_vehicle_ne e]⟩⟩

/-- The release of a grant takes a binding off. -/
theorem releaseGrant_restatused (h : HoseId) (d : Detail) {s : State} (hs : s.vehiclesSound = true) :
    Restatused s (releaseGrant h d s) := by
  unfold releaseGrant
  split
  · exact .refl hs
  · rename_i g _
    have h1 : Restatused s (if g.journalRes then endReservation (takeOffReserved g.tank g.tankRes s)
        else takeOffReserved g.tank g.tankRes s) := by
      split
      · refine .same hs ?_
        obtain ⟨_, _, _, e⟩ := recoverTest_frame ((takeOffReserved g.tank g.tankRes s).setJournal
          { (takeOffReserved g.tank g.tankRes s).journal with
            reservations := (takeOffReserved g.tank g.tankRes s).journal.reservations - 1 })
        unfold endReservation; rw [e]; rfl
      · exact .same hs rfl
    exact h1.trans ((setVehicle_restatused h1.sound g.vehicle _ none).trans
      (.same (setVehicle_restatused h1.sound g.vehicle _ none).sound rfl))

theorem takeStatusReport_restatused (h : HoseId) (c : ClassRecord) (new : ServiceStatus) {s : State}
    (hs : s.vehiclesSound = true) : Restatused s (takeStatusReport h c new s) := by
  unfold takeStatusReport
  split
  · split
    · split
      · exact .same hs rfl
      · exact releaseGrant_restatused h _ hs
    · have hr : Restatused s (recolour h .overdue s) := .same hs rfl
      unfold reviseLimit
      split
      · exact hr
      · split
        · exact hr
        · split
          · exact hr.trans (releaseGrant_restatused h _ hr.sound)
          · exact .same hs rfl
    · exact .same hs rfl
  · exact .refl hs

/-- A recomputation, whatever hose the vehicle is bound to. -/
theorem recompute_restatused (v : VehicleId) {s : State} (hs : s.vehiclesSound = true) : Restatused s (recompute v s) := by
  have hu : ∀ st, Restatused s (updateDueList v (s.vehicle v).status st (s.setVehicle v { s.vehicle v with status := st })) := by
    intro st
    have h1 := setVehicle_restatused hs v st (s.vehicle v).binding
    obtain ⟨_, _, _, _, e⟩ := updateDueList_frame v (s.vehicle v).status st (s.setVehicle v { s.vehicle v with status := st })
    rw [e]; exact h1.trans (.same h1.sound rfl)
  unfold recompute
  simp only
  split
  · exact .refl hs
  · split
    · exact hu _
    · exact (hu _).trans (takeStatusReport_restatused _ _ _ (hu _).sound)

end Sys2Proof.Machine
end

