-- ==== Sys2Proof/Tests/Slice0.lean ====
section
/-! SUPPORT. Tests: well-formedness refuses what it must, figures that the manual works out, and for each statement a
concrete state and operands that meet its hypotheses, each clause at a boundary of its range. -/

namespace Sys2Proof.Tests

open Sys2Proof Sys2Proof.Machine

/-! ### Well-formedness -/

def point : WireStrapPoint := { level := 0#32, volume := 0#32 }
def part : WireHostPart := { tag := 7#64, fleet := spaces, cls := 0#8, products := 1#8, flags := 3#8 }

theorem test_wf_strap_low : Instr.wf (.strapSet 0#8 0#8 1#8 [point]) = false := by decide
theorem test_wf_strap_least : Instr.wf (.strapSet 0#8 0#8 2#8 [point, point]) = true := by decide
theorem test_wf_strap_high : Instr.wf (.strapSet 0#8 0#8 33#8 (List.replicate 33 point)) = false := by decide
theorem test_wf_load_empty : Instr.wf (.vehicleLoadNext 0#8 0#8 []) = false := by decide
theorem test_wf_load_most : Instr.wf (.vehicleLoadNext 0#8 8#8 (List.replicate 8 part)) = true := by decide
theorem test_wf_load_high : Instr.wf (.vehicleLoadNext 0#8 9#8 (List.replicate 9 part)) = false := by decide
theorem test_wf_known_kind : Instr.wf (.unknownKind 0#8 0x01#8 []) = false := by decide
theorem test_wf_unknown_kind : Instr.wf (.unknownKind 0#8 0x00#8 [1#8]) = true := by decide
theorem test_wf_long_body : Instr.wf (.unknownKind 0#8 0x00#8 (List.replicate 1025 0#8)) = false := by
  show (!kindKnown 0x00#8 && decide ((List.replicate 1025 0#8).length ≤ 1024)) = false
  rw [List.length_replicate]
  decide

/-! ### Figures of the manual -/

/-- The CRC of the text 123456789 (R189). -/
theorem test_crc : crc16 [0x31#8, 0x32#8, 0x33#8, 0x34#8, 0x35#8, 0x36#8, 0x37#8, 0x38#8, 0x39#8] = 0x29B1#16 := by
  decide +kernel

/-- The engine of the worked measurement of Chapter 2, HELD at 38.40 °C. -/
def metered : Engine :=
  { Engine.reset (0, 0) with
    latched := some { k := 100, curve := [(2000, 100250), (8000, 99800)], errorLimit := 20, maxRate := 8000, beta := 830 }
    latest := some 3840, held := true, sampleTimer := true }

def sampled (n : Nat) (e : Engine) : Engine := fullSample { e with dP := n }

/-- The first sample of the worked measurement. -/
theorem test_first_sample :
    let e := sampled 250 metered
    (e.lastQ, e.gross, e.net, e.rg, e.rn, e.sum, e.overspeed) = (6000, 2498, 2449, 7500000, 483844, 9592320, false) := by
  decide

/-- The second sample: the factor truncated toward zero, the residues carried. -/
theorem test_second_sample :
    let e := sampled 251 { metered with gross := 2498, net := 2449, rg := 7500000, rn := 483844, sum := 9592320 }
    (e.gross, e.net, e.rg, e.rn, e.sum) = (5007, 4909, 4699000, 754046, 19226880) := by decide

/-- The third sample and the final partial sample with no pulse. -/
theorem test_third_sample :
    let e := sampled 249
      { metered with gross := 5007, net := 4909, rg := 4699000, rn := 754046, sum := 19226880, latest := some 3912 }
    (e.gross, e.net, e.rg, e.rn, e.sum, (finishMeasurement e).average) =
      (7496, 7348, 2747000, 924266, 28963848, some 3863) := by decide

/-- VEHICLE_GET answers with a body of 77 bytes: 5 bytes of header before it and the CRC after it (11.1, 11.4). -/
theorem test_vehicle_reply :
    let f := replyFrame { kind := 0xB0#8, tag := 9#8, status := .ok, body := .vehicle (vehicleImage 5 .unused) }
    (f.length, f.take 6) = (84, [0xA5#8, 0x00#8, 0x4D#8, 0xB0#8, 0x09#8, 0x00#8]) := by
  decide +kernel

/-! ### A station to test on -/

/-- A part with an online link. -/
def online : State := State.reset.setLink { State.reset.link with online := true, linkTimer := some 30 }

/-- An enabled machine with tag 7 that may take product 1. -/
def machine : Vehicle :=
  { Vehicle.unused with
    host := { HostPart.unused with inUse := true, tag := 7#64, products := 1#4, enabled := true, standalonePermit := true } }

/-- The machine at index 5 and 50,000 L in tank 0. -/
def station : State :=
  { online with
    vehicles := [(5, machine)]
    tanks := upd online.tanks 0 { online.tank 0 with book := 50000000 } }

def given : Grant :=
  { vehicle := 5, path := .tag, tag := 7#64, tank := 0, product := 0, hours := none, regress := false, preset := 200000,
    tankRes := 210000, journalRes := true, flags := ⟨false, false, false, false⟩, statusAtGrant := .ok,
    start := some ⟨0, false⟩, endReason := some .nozzleHung, held := none }

/-- The station with hose 0 in a state, its grant given, the vehicle bound and every timer running. -/
def inState (x : HoseState) : State :=
  { station with
    vehicles := [(5, { machine with binding := some 0 })]
    hoses := upd station.hoses 0
      { station.hose 0 with
        state := x, grant := some given, timers := ⟨some 1, some 1, some 1, some 1, some 1, some 1⟩ }
    engines := upd station.engines 0 metered }

theorem online_free : online.linkFree := ⟨rfl, rfl, rfl, rfl, by decide⟩
theorem station_free : station.linkFree := ⟨rfl, rfl, rfl, rfl, by decide⟩
theorem inState_free (x : HoseState) : (inState x).linkFree := ⟨rfl, rfl, rfl, rfl, Nat.zero_le _⟩

theorem station_sound : station.vehiclesSound = true := by decide
theorem inState_sound (x : HoseState) : (inState x).vehiclesSound = true := by cases x <;> decide

/-- Every index but 5 is unused. -/
theorem station_others {u : VehicleId} (hu : u ≠ 5) : station.vehicle u = Vehicle.unused := by
  by_contra hn
  have hm := (State.mem_listedVehicles station_sound u (station.vehicle u)).mpr ⟨rfl, hn⟩
  simp [State.listedVehicles, station] at hm
  exact hu (by rw [hm.1])

/-- Vehicle 5 is the one that carries tag 7. -/
theorem station_carrier : station.onlyCarrier 7#64 5 := by
  refine ⟨by decide, fun u h => ?_⟩
  by_contra hu
  rw [station_others hu] at h
  exact absurd h (by decide)

theorem station_authorizes : station.mayAuthorize 0 5 :=
  ⟨rfl, rfl, by decide, rfl, rfl, rfl, rfl, rfl, by decide, fun r h => (by cases h), by decide⟩

/-! ### Witnesses: the link and the receiver -/

def saving : State := { station with phase := .saving .supplyWarning false }
def inReset : State := { station with phase := .inReset (.saved .supplyWarning) true }
def restarting : State := { station with phase := .restarting }

/-- The station with a link of its own making. -/
def linked (l : Link) : State := station.setLink l

theorem witness_IdleStepPassesSecond :
    station.pending = [] ∧ station.phase = .running ∧ saving.pending = [] ∧ saving.phase ≠ .running := by decide

/-- The station before its machine was placed. -/
def bare : State := { station with vehicles := [] }

/-- Soundness of a state with idle hoses, an empty register and no write that waits. -/
theorem bare_sound : bare.Sound where
  vehicles := rfl
  stored := rfl
  valves := by decide
  events := by decide
  due := ⟨List.nodup_nil, fun v => by simp [bare, station, online, State.reset, State.vehicle, Sparse.get,
    Vehicle.unused, ServiceStatus.listed, State.setLink]⟩
  grants :=
    { idle := by decide
      bound := fun v h => by
        have e : (bare.hose h).grant = none := by revert h; decide
        rw [e, show (bare.vehicle v).binding = none from rfl]; simp
      ready := fun h g e => by
        have : (bare.hose h).state = .idle := by revert h; decide
        rw [this] at e; cases e
      reserved := by unfold State.reservedOn; decide }
  demand := by unfold State.demandAgrees; decide
  slot := by unfold State.slotAgrees; decide
  area := fun a h => by cases h
  levels := fun _ => ⟨rfl, rfl, by decide⟩
  sealed := fun _ _ => by unfold State.protected; decide
  resealed := fun h => by cases h
  link := ⟨rfl, by decide, by decide⟩
  segments := fun _ => by
    have free : ∀ g : SegmentId, (bare.journal.segment g).state = (if g = 0 then .active else .free)
      ∧ (bare.journal.segment g).slots = [] := by decide
    refine ⟨fun g k a b => ?_, fun g _ => by rw [(free g).2]; decide, fun g _ => (free g).2, fun g e => by cases e⟩
    rw [(free g).1] at a; rw [(free k).1] at b
    split at a <;> split at b <;> simp_all
  spare := fun _ _ => by decide
  tags := by
    refine ⟨fun u v h => (nomatch h), fun n => ?_, fun _ _ => rfl⟩
    rw [show bare.store.waiting = [] from rfl, List.take_nil]
    exact fun u v h => nomatch h

theorem witness_StepKeepsSound : ∃ t, bare.Sound ∧ step bare = .next t := ⟨_, bare_sound, rfl⟩

theorem witness_RequestsReadBack :
    Request.wf (.authorize 0#8 511#16 0#16 0#8 0#32) = true
    ∧ Request.wf (.strapSet 0#8 2#8 (List.replicate 2 point)) = true
    ∧ Request.wf (.strapSet 0#8 32#8 (List.replicate 32 point)) = true
    ∧ Request.wf (.vehicleLoadNext 1#8 [part]) = true
    ∧ Request.wf (.vehicleLoadNext 8#8 (List.replicate 8 part)) = true := by decide

theorem witness_BytesMakeTheRequest :
    Request.wf .status = true ∧ station.phase = .running ∧ station.link.rx = none ∧ station.link.gapTimer = false := by
  decide

theorem witness_ReceiverHuntsAndDrops :
    (station.phase = .running ∧ station.link.rx = none ∧ 0xA4#8 ≠ 0xA5#8)
    ∧ (linked { station.link with rx := some [] }).link.rx = some []
    ∧ ((linked { station.link with rx := some [4#8] }).link.rx = some [4#8] ∧ 1024 < (4#8).toNat * 256 + (1#8).toNat)
    ∧ (linked { station.link with gapTimer := true }).link.gapTimer = true
    ∧ (Request.wf (.restart) = true
        ∧ 0#16 ≠ crc16 (beBytes 2 (putBody .restart).length ++ [requestKind .restart, 0#8] ++ putBody .restart)) := by
  decide +kernel

/-- The link held by a SITE_SET, with a number of frames waiting. -/
def heldLink (n : Nat) : State :=
  linked { station.link with
    held := some { kind := 0x52#8, tag := 0#8, wait := .siteSet }
    rxQueue := List.replicate n { tag := 0#8, content := .request .status } }

def ready : Reply := { kind := 0xD4#8, tag := 0#8, status := .ok, body := .none }

/-- The link with four replies waiting beside the one being sent. -/
def fullLink : State := linked { station.link with tx := List.replicate 5 ready }

theorem witness_LinkQueueAndMode :
    Request.wf .status = true
    ∧ ((heldLink 3).phase = .running ∧ (heldLink 3).link.online = true ∧ (heldLink 3).link.rxQueue.length < 4
      ∧ (heldLink 3).link.held ≠ none)
    ∧ ¬(heldLink 4).link.rxQueue.length < 4
    ∧ (fullLink.phase = .running ∧ fullLink.link.online = true ∧ fullLink.link.held = none ∧ 4 < fullLink.link.tx.length)
    ∧ (State.reset.phase = .running ∧ State.reset.link.online = false ∧ State.reset.link.linkTimer = none)
    ∧ station.link.linkTimer = some 30 := by decide

theorem witness_UnknownKindsAnswered : station.linkFree
    ∧ ([] : List Byte).length ≤ 1024 ∧ (List.replicate 1024 0#8).length ≤ 1024
    ∧ (0x00#8).toNat ∉ bodyLengths.map (·.1) ∧ (0x80#8).toNat ∉ bodyLengths.map (·.1)
    ∧ 0x00#8 ≠ 0x24#8 ∧ 0x80#8 ≠ 0x34#8
    ∧ ([] : List WireStrapPoint).length < 2 ∧ (List.replicate 1 point).length < 2
    ∧ 32 < (List.replicate 33 point).length ∧ (List.replicate 127 point).length ≤ 127
    ∧ ([] : List WireHostPart).length < 1 ∧ 8 < (List.replicate 9 part).length
    ∧ (List.replicate 53 part).length ≤ 53
    ∧ station.link.rx = none ∧ station.link.gapTimer = false
    ∧ ((0x07#8).toNat, 13) ∈ bodyLengths ∧ (List.replicate 12 0#8).length ≠ 13
    ∧ (∀ n : Nat, 2 ≤ n → n ≤ 32 → (List.replicate 259 0#8).length ≠ 2 + 8 * n)
    ∧ (∀ n : Nat, 1 ≤ n → n ≤ 8 → ([] : List Byte).length ≠ 1 + 19 * n) := by
  have h (n : Nat) : (List.replicate n 0#8).length = n := List.length_replicate
  have hp (n : Nat) : (List.replicate n point).length = n := List.length_replicate
  have hq (n : Nat) : (List.replicate n part).length = n := List.length_replicate
  refine ⟨station_free, by decide, by rw [h], by decide, by decide, by decide, by decide, by decide, by decide,
    by rw [hp]; decide, by rw [hp], by decide, by rw [hq]; decide, by rw [hq], rfl, rfl, by decide,
    by rw [h]; decide, fun n _ _ => ?_, fun n _ _ => ?_⟩
  · rw [List.length_replicate]; omega
  · rw [List.length_nil]; omega

/-! ### Witnesses: authorization and delivery -/

def byTag : AuthRequest := { path := .tag, who := .inl 7#64, supervisor := false, hours := none, presetL := 0 }
def byHost : AuthRequest := { path := .host, who := .inr 5, supervisor := false, hours := none, presetL := 0 }

/-- A journal with one slot more or less than the 17 that a first grant asks for. -/
def slotsUsed (n : Nat) : Journal :=
  { station.journal with
    segments := (Vector.replicate 32 { Segment.blank with state := .retired, eraseMark := true }).set 0
      { Segment.blank with state := .active, slots := List.replicate n .void } }

theorem witness_RefusalIsFirstFailedCheck :
    station.link.estop = false ∧ (linked { station.link with estop := true }).link.estop = true
    ∧ (slotsUsed 48).free < (slotsUsed 48).reservations + 1 + 16
    ∧ (slotsUsed 47).reservations + 1 + 16 ≤ (slotsUsed 47).free ∧ (slotsUsed 47).faulted = false
    ∧ (station.hose 0).state = .idle ∧ ((inState .ready).hose 0).state ≠ .idle
    ∧ findVehicle (.inr 5) station = some 5 ∧ findVehicle (.inr 6) station = none := by decide +kernel

theorem witness_TagReadGrants :
    station.phase = .running ∧ station.vehiclesSound = true ∧ (7#64 : Tag) ≠ 0 ∧ station.onlyCarrier 7#64 5
    ∧ station.mayAuthorize 0 5 ∧ (applyHours 5 none station).1.passesLate 0 5 .tag false
    ∧ 1000 ≤ (clampFor 0 5 byTag (applyHours 5 none station).1).preset :=
  ⟨rfl, station_sound, by decide, station_carrier, station_authorizes,
    ⟨by decide, fun _ h => absurd h (by decide), by decide⟩, by decide⟩

theorem witness_TagReadOtherwise :
    (station.phase = .running ∧ (station.hose 0).state = .idle
      ∧ authorizeHose 0 { byTag with who := .inl 0#64 } station = (station, .error .noVehicle))
    ∧ (((inState .ready).hose 0).state = .ready ∧ ((inState .ready).hose 0).grant = some given
      ∧ (7#64 : Tag) ≠ 0 ∧ 7#64 = given.tag ∧ (8#64 : Tag) ≠ given.tag)
    ∧ ((inState .settled).hose 0).state ≠ .idle ∧ ((inState .settled).hose 0).state ≠ .ready :=
  ⟨⟨rfl, rfl, rfl⟩, by decide, by decide⟩

theorem witness_AuthorizeGrants :
    station.linkFree ∧ 8 ≤ (8#8).toNat ∧ 512 ≤ (512#16).toNat ∧ 4#8 &&& 0xFC#8 ≠ 0#8
    ∧ (0#8).toNat = (0 : HoseId).val ∧ (5#16).toNat = (5 : VehicleId).val ∧ 3#8 &&& 0xFC#8 = 0#8
    ∧ authorizeHose 0 { byHost with who := .inr 6 } station.heard = (station.heard, .error .noVehicle)
    ∧ station.vehiclesSound = true ∧ station.mayAuthorize 0 5
    ∧ (applyHours 5 none station.heard).1.passesLate 0 5 .host false
    ∧ 1000 ≤ (clampFor 0 5 byHost (applyHours 5 none station.heard).1).preset :=
  ⟨station_free, by decide, by decide, by decide, rfl, rfl, by decide, rfl, station_sound, station_authorizes,
    ⟨by decide, fun h => (by cases h), by decide⟩, by decide⟩

/-- A class with a line due each liter, whose limp allowance is 1 L. -/
def strictClass : ClassRecord :=
  { ClassRecord.default with
    lines := #v[⟨0, 1⟩, ⟨0, 0⟩, ⟨0, 0⟩, ⟨0, 0⟩], grace := 100, overdueAction := .refuse, limp := 1 }

/-- The machine, bound to hose 0, after 1.5 L. -/
def overdue : Vehicle := { machine with binding := some 0, usage := { Usage.fresh with fuel := 1500 } }

/-- The station with hose 0 READY for a machine whose class is such that its status is to change. -/
def dueIn (c : ClassRecord) : State :=
  { inState .ready with vehicles := [(5, overdue)], classes := upd station.classes 0 c }

theorem witness_ReadyGrantIsReleased :
    (let s := inState .ready;
      s.linkFree ∧ s.vehiclesSound = true ∧ (s.hose 0).grant = some given ∧ given.journalRes = true
        ∧ s.phase = .running ∧ (s.hose 0).state = .ready ∧ (s.hose 0).timers.ready = some 1
        ∧ (0#8).toNat = (0 : HoseId).val)
    ∧ (∀ c : ClassRecord, c = strictClass ∨ c = { strictClass with overdueAction := .limit }
          ∨ c = { strictClass with overdueAction := .limit, limp := 0 } ∨ c = { strictClass with grace := 1000 } →
        (dueIn c).vehiclesSound = true ∧ ((dueIn c).hose 0).grant = some given ∧ ((dueIn c).hose 0).state = .ready
          ∧ ((dueIn c).vehicle given.vehicle).binding = some 0
          ∧ statusOf ((dueIn c).classOf ((dueIn c).vehicle given.vehicle).host.cls) ((dueIn c).vehicle given.vehicle) ≠
              ((dueIn c).vehicle given.vehicle).status)
    ∧ (∀ c : ClassRecord, c.lines = strictClass.lines → c.grace = 100 → c.warn = strictClass.warn →
        c.burnRate = strictClass.burnRate → statusOf c overdue = .overdue)
    ∧ given.flags.supervisor = false ∧ 1 * 1000 < given.preset ∧ 0 * 1000 < 1000 ∧ ¬1 * 1000 < 1000
    ∧ statusOf { strictClass with grace := 1000 } overdue = .due := by
  refine ⟨⟨inState_free _, inState_sound _, rfl, rfl, rfl, rfl, rfl, rfl⟩, fun c h => ?_, fun c h1 h2 h3 h4 => ?_, rfl,
    by decide, by decide, by decide, by decide⟩
  · rcases h with rfl | rfl | rfl | rfl <;> decide
  · have h0 : statusOf strictClass overdue = .overdue := by decide
    rw [← h0]
    unfold statusOf worstLine statusOfPerMille usedLines
    rw [h1, h2, h3, h4]
    rfl

theorem witness_LiftBeginsDelivery :
    let s := inState .ready
    let t := { s with slotHolder := some 3 }
    s.phase = .running ∧ (s.hose 0).state = .ready ∧ (s.hose 0).grant = some given
      ∧ (s.pump 0).state = .stopped ∧ (s.pump 0).demand = 0 ∧ s.link.estop = false ∧ s.slotHolder = none
      ∧ t.slotHolder ≠ none ∧ (1 : HoseId) ≠ 0 ∧ (3 : TankId) ≠ 0 := by decide

theorem witness_LiftHangAndDisplayOtherwise :
    station.phase = .running ∧ (station.hose 7).state = .idle ∧ (station.hose 7).timers.refusal = none
    ∧ ((inState .starting).hose 0).state ≠ .idle ∧ ((inState .starting).hose 0).state ≠ .ready
    ∧ ((inState .closing).hose 0).state = .closing ∧ ((inState .starting).hose 0).timers.refusal = some 1 := by decide

theorem witness_FlowIsClosed :
    ((inState .starting).phase = .running ∧ ((inState .starting).hose 0).state = .starting)
    ∧ (((inState .trimming).hose 0).state = .trimming ∧ ((inState .trimming).hose 0).timers.noFlow = some 1)
    ∧ (((inState .paused).hose 0).state = .paused ∧ ((inState .paused).hose 0).timers.pause = some 1)
    ∧ (inState .paused).linkFree ∧ (0#8).toNat = (0 : HoseId).val :=
  ⟨by decide, by decide, by decide, inState_free .paused, rfl⟩

theorem witness_PauseAndResume :
    (inState .flowing).linkFree ∧ ((inState .flowing).hose 0).grant = some given
    ∧ ((inState .flowing).hose 0).state = .flowing ∧ ((inState .paused).hose 0).state = .paused
    ∧ (0#8).toNat = (0 : HoseId).val := ⟨inState_free _, rfl, rfl, rfl, rfl⟩

/-- The station under emergency stop, with a pump that is demanded. -/
def stopped : State :=
  { station with
    inputs := { station.inputs with estop := true }
    pumps := upd station.pumps 0 { station.pump 0 with demand := 1 } }

theorem witness_EmergencyStopClosesAll :
    ((inState .ready).phase = .running ∧ (inState .ready).inputs.estop = false
      ∧ ∀ h : HoseId, ((inState .ready).hose h).state = .ready → ((inState .ready).hose h).grant ≠ none)
    ∧ (stopped.inputs.estop = true ∧ 0 < (stopped.pump 0).demand ∧ (stopped.pump 0).state = .stopped
      ∧ (stopped.pump 1).demand = 0) := by decide

theorem witness_AgreeingPulseCounts : (inState .closing).phase = .running ∧ station.phase = .running := by decide

/-- The engine of the worked measurement after a number of errors. -/
def erring (n : Nat) : State :=
  { inState .flowing with engines := upd station.engines 0 { metered with errors := n } }

theorem witness_DisagreeingPulseCounts : ∀ l, metered.latched = some l →
    (station.phase = .running ∧ (station.hose 1).state = .idle ∧ (station.engine 1).latched = none)
    ∧ ((inState .ready).hose 0).state = .ready ∧ ((inState .settled).hose 0).state = .settled
    ∧ ((erring 19).phase = .running ∧ ((erring 19).engine 0).latched = some l
      ∧ min 65535 (((erring 19).engine 0).errors + 1) ≤ l.errorLimit)
    ∧ (((erring 20).engine 0).latched = some l ∧ l.errorLimit < min 65535 (((erring 20).engine 0).errors + 1)
      ∧ ((erring 20).engine 0).faultReported = false)
    ∧ ((erring 20).hose 0).state = .flowing ∧ ((inState .closing).hose 0).state = .closing := by
  intro l h; cases h; decide

theorem witness_TemperatureIsHeld :
    station.phase = .running ∧ (station.setEngine 2 { metered with holdTimer := some 60 }).engine 2 =
      { metered with holdTimer := some 60 } :=
  ⟨rfl, rfl⟩

theorem witness_SampleArithmetic : ∃ l, metered.latched = some l := ⟨_, rfl⟩

theorem witness_TablesInterpolate :
    let points := [(2000, 100250), (8000, 99800)]
    rising (points.map (·.1)) = true
    ∧ (points = (2000, 100250) :: [(8000, 99800)] ∧ 2000 ≤ 2000)
    ∧ (points = [(2000, 100250)] ++ [(8000, 99800)] ∧ 8000 ≤ 8000)
    ∧ (points = [] ++ (2000, 100250) :: (8000, 99800) :: [] ∧ 2000 ≤ 7999 ∧ 7999 < 8000) := by decide

/-- The station with hose 0 in a state and a gross volume, one sample timer running. -/
def poured (x : HoseState) (n : Nat) : State :=
  { inState x with engines := upd station.engines 0 { metered with gross := n } }

theorem witness_SampleIsCompared :
    (station.phase = .running ∧ (station.engine 1).sampleTimer = false)
    ∧ ((poured .starting 0).phase = .running ∧ ((poured .starting 0).hose 0).grant = some given
      ∧ ((poured .starting 0).engine 0).sampleTimer = true)
    ∧ (let s := poured .paused 198500
      given.preset ≤ (fullSample (s.engine 0)).gross + (s.hose 0).config.prestop)
    ∧ (let s := poured .flowing 198499
      (fullSample (s.engine 0)).gross + (s.hose 0).config.prestop < given.preset) := by decide

theorem witness_ClosingHoseSettles :
    let s := inState .closing
    s.phase = .running ∧ s.vehiclesSound = true ∧ (s.hose 0).state = .closing ∧ (s.hose 0).grant = some given
      ∧ given.endReason = some .nozzleHung ∧ given.start = some ⟨0, false⟩ ∧ (s.vehicle given.vehicle).binding = some 0
      ∧ (s.hose 0).timers.settle = some 1 ∧ (s.hose 0).timers.closing = some 1 :=
  ⟨rfl, inState_sound _, rfl, rfl, rfl, rfl, rfl, rfl, rfl⟩

/-! ### Witnesses: calibration, tanks and pumps -/

/-- The station with the metrology switch closed and hose 7 open for calibration. -/
def inspected : State :=
  { station with
    inputs := { station.inputs with switchClosed := true }
    cals := upd station.cals 7 { station.cal 7 with opened := true } }

def curvePoint (q : BitVec 16) : WireCurvePoint := { rate := q, factor := 100000#32 }
def wireCal : WireCalibration :=
  { k := 100#16, count := 2#8, points := #v[curvePoint 1000#16, curvePoint 2000#16, curvePoint 0#16, curvePoint 0#16,
      curvePoint 0#16], errorLimit := 20#8, maxRate := 10000#16 }

theorem inspected_free : inspected.linkFree := ⟨rfl, rfl, rfl, rfl, by decide⟩

theorem witness_SwitchAndProtection :
    (station.phase = .running ∧ station.inputs.switchClosed = false ∧ station.linkFree)
    ∧ (inspected.phase = .running ∧ inspected.inputs.switchClosed = true ∧ inspected.linkFree)
    ∧ (7#8).toNat = (7 : HoseId).val := ⟨⟨rfl, rfl, station_free⟩, ⟨rfl, rfl, inspected_free⟩, rfl⟩

/-- Hose 7's calibration record with a write count, pending or not. -/
def counted (n : Nat) (p : Bool) : State :=
  { inspected with
    cals := upd station.cals 7 { data := { CalData.default with count := n }, opened := true, pending := p } }

theorem witness_CalibrationWrites :
    inspected.linkFree ∧ (7#8).toNat = (7 : HoseId).val ∧ (station.cal 7).opened = false
    ∧ ((counted 0 true).cal 7).opened = true ∧ ((counted 0 true).cal 7).pending = true
    ∧ 65535 ≤ ((counted 65535 false).cal 7).data.count ∧ ((counted 65534 false).cal 7).data.count < 65535
    ∧ (inspected.hose 7).state = .idle
    ∧ wireCal.Inside ∧ ¬({ wireCal with k := 9#16 } : WireCalibration).Inside
    ∧ ¬({ wireCal with maxRate := 99#16 } : WireCalibration).Inside
    ∧ (slotsUsed 64).free < (slotsUsed 64).reservations + 1
    ∧ (slotsUsed 63).faulted = false ∧ (slotsUsed 63).reservations + 1 ≤ (slotsUsed 63).free
    ∧ (4#8).toNat = (3 : ProductId).val + 1 ∧ (2000#16).toNat ≤ 2000 ∧ ¬(2001#16).toNat ≤ 2000
    ∧ (∀ x ∈ spaces.toList, 0x20 ≤ x.toNat ∧ x.toNat ≤ 0x7E)
    ∧ inspected.inputs.switchClosed = true ∧ station.inputs.switchClosed = false ∧ (inspected.product 3).pending = false
    ∧ (∀ h : HoseId, (inspected.tank (inspected.hose h).config.tank).config.product = 3 →
        (inspected.hose h).state = .idle)
    ∧ (((inState .ready).tank ((inState .ready).hose 0).config.tank).config.product = 0
      ∧ ((inState .ready).hose 0).state ≠ .idle) := by
  refine ⟨inspected_free, rfl, rfl, rfl, rfl, by decide, by decide, rfl, ?_, fun h => ?_, fun h => ?_, ?_⟩
  · exact ⟨by decide, by decide, by decide, by decide, by decide, by decide⟩
  · exact absurd h.k (by decide)
  · exact absurd h.maxRate (by decide)
  · decide +kernel

/-- Tank 0 QUIET, with a reading of its probe. -/
def quietTank : State :=
  { station with
    tanks := upd station.tanks 0
      { station.tank 0 with
        quiet := true, quietTimer := some 1, staleTimer := some 1, probeValid := true, probeNet := some 50000000 } }

theorem quietTank_free : quietTank.linkFree := ⟨rfl, rfl, rfl, rfl, by decide⟩

theorem witness_ProbeSampleIsCompared :
    (station.phase = .running ∧ (station.tank 0).quiet = false)
    ∧ (quietTank.phase = .running ∧ (quietTank.tank 0).quiet = true ∧ (quietTank.tank 0).receipt = .normal) := by decide

theorem witness_TankTimersExpire :
    quietTank.phase = .running ∧ (quietTank.tank 0).staleTimer = some 1 ∧ (quietTank.tank 0).quietTimer = some 1 := by
  decide

def opened : Receipt :=
  { openingNet := 40000000, openingTime := ⟨0, false⟩, baselines := Vector.replicate 8 none, delivered := 0, docket := none }

/-- Tank 0 in a receipt state, the probe VALID or STALE. -/
def receiving (r : ReceiptState) (valid : Bool) : State :=
  { quietTank with tanks := upd quietTank.tanks 0 { quietTank.tank 0 with receipt := r, probeValid := valid } }

theorem witness_ReceiptCloses :
    let s := receiving (.settling opened (some 0)) true
    let d := { opened with docket := some 10000000 }
    let t := receiving (.settling d (some 0)) false
    let u := receiving (.settling opened (some 0)) false
    (s.phase = .running ∧ (s.tank 0).receipt = .settling opened (some 0) ∧ (s.tank 0).probeValid = true
      ∧ (s.tank 0).probeNet = some 50000000)
    ∧ ((t.tank 0).receipt = .settling d (some 0) ∧ (t.tank 0).probeValid = false ∧ d.docket = some 10000000)
    ∧ ((u.tank 0).receipt = .settling opened (some 0) ∧ (u.tank 0).probeValid = false ∧ opened.docket = none) := by
  decide

theorem witness_ReceiptRequests :
    quietTank.linkFree ∧ (0#8).toNat = (0 : TankId).val
    ∧ ((receiving (.receiving opened) true).tank 0).receipt ≠ .normal
    ∧ ((receiving .normal false).tank 0).receipt = .normal ∧ ((receiving .normal false).tank 0).probeValid = false
    ∧ (quietTank.tank 0).receipt = .normal ∧ (quietTank.tank 0).probeValid = true
    ∧ (slotsUsed 64).free < (slotsUsed 64).reservations + 1 ∧ (slotsUsed 63).reservations + 1 ≤ (slotsUsed 63).free
    ∧ (slotsUsed 63).faulted = false ∧ (quietTank.tank 0).probeNet = some 50000000
    ∧ (∀ h : HoseId, (quietTank.hose h).config.tank = 0 → (quietTank.hose h).state ≠ .ready)
    ∧ (let s : State := { inState .ready with tanks := quietTank.tanks }
      s.linkFree ∧ s.vehiclesSound = true ∧ (s.tank 0).receipt = .normal ∧ (s.tank 0).probeValid = true
        ∧ (s.tank 0).probeNet = some 50000000 ∧ s.journal.faulted = false ∧ s.journal.reservations + 1 ≤ s.journal.free
        ∧ (allHoses.filter fun h => decide ((s.hose h).config.tank = 0) && decide ((s.hose h).state = .ready)) = [0]
        ∧ (s.hose 0).grant = some given ∧ given.tank = 0 ∧ given.journalRes = true)
    ∧ 2000000 < (2000001#32).toNat ∧ (2000000#32).toNat ≤ 2000000
    ∧ ((receiving (.receiving opened) true).tank 0).receipt = .receiving opened
    ∧ (∀ r : Receipt, (quietTank.tank 0).receipt ≠ .receiving r) := by
  refine ⟨quietTank_free, rfl, by decide, by decide, by decide, by decide, by decide, ?_, ?_, ?_, rfl, by decide,
    ⟨⟨rfl, rfl, rfl, rfl, Nat.zero_le _⟩, ?_⟩, by decide, by decide, by decide, fun r h => by cases h⟩
  all_goals decide +kernel

def wireTank : WireTankConfig :=
  { product := 1#8, capacity := 100000#32, heel := 0#32, lowAlarm := 0#32, receiptSettle := 300#16 }

theorem witness_StockAndTankConfiguration :
    station.linkFree ∧ (0#8).toNat = (0 : TankId).val
    ∧ (0x800000000000#48).toInt < -140737488355327 ∧ -140737488355327 ≤ (0x800000000001#48).toInt
    ∧ (station.tank 0).book ≠ (0#48).toInt ∧ (station.tank 0).book = (50000000#48).toInt
    ∧ (slotsUsed 64).free < (slotsUsed 64).reservations + 1 ∧ (slotsUsed 63).reservations + 1 ≤ (slotsUsed 63).free
    ∧ (slotsUsed 63).faulted = false
    ∧ (wireTank.Inside ∧ wireTank.product.toNat = (0 : ProductId).val + 1
      ∧ lastVolume (station.tank 0).strap ≤ wireTank.capacity.toNat * 1000)
    ∧ ¬({ wireTank with capacity := 999#32 } : WireTankConfig).Inside
    ∧ ¬lastVolume (station.tank 0).strap ≤ ({ wireTank with capacity := 99999#32 } : WireTankConfig).capacity.toNat * 1000
    ∧ ((∀ h : HoseId, (station.hose h).config.tank = 0 → (station.hose h).state = .idle)
      ∧ (station.tank 0).receipt = .normal)
    ∧ (((inState .ready).hose 0).config.tank = 0 ∧ ((inState .ready).hose 0).state ≠ .idle)
    ∧ Request.wf (.strapSet 0#8 2#8 [point, { point with level := 99999#32 }]) = true
    ∧ StrapInside (station.tank 0).config.capacity 2 [(0, 0), (99999, 0)]
    ∧ ¬StrapInside (station.tank 0).config.capacity 2 [(0, 0), (100000, 0)] := by
  refine ⟨station_free, rfl, by decide, by decide, by decide, by decide, ?_, ?_, ?_, ⟨?_, rfl, by decide⟩,
    fun h => ?_, by decide, by decide, by decide, by decide, ?_, fun h => ?_⟩
  · decide +kernel
  · decide +kernel
  · decide +kernel
  · exact ⟨by decide, by decide, by decide, by decide, by decide⟩
  · exact absurd h.capacity (by decide)
  · exact ⟨by decide, by decide, by decide, by decide, by decide, by decide⟩
  · exact absurd h.levels (by decide)

/-- Pump 0 in a state with its timers, tank 0's pressure switch at a level. -/
def pumping (x : PumpState) (up : Bool) : State :=
  { inState .flowing with
    inputs := { station.inputs with pressure := upd station.inputs.pressure 0 up }
    pumps := upd station.pumps 0
      { station.pump 0 with state := x, demand := 1, startTimer := some 1, runOnTimer := some 1 } }

/-- Pump 0 starting with pumps 1 to 3 waiting for the slot, pump 2 of the best priority with pump 3. -/
def competing : State :=
  { pumping .starting false with
    slotHolder := some 0
    pumps := (((pumping .starting false).pumps.set 1 (waiting 1 1)).set 2 (waiting 2 0)).set 3 (waiting 3 0) }
where
  waiting (k : TankId) (priority : Nat) : Pump :=
    { station.pump k with
      state := .waiting, demand := 1, config := { (station.pump k).config with priority := priority } }

theorem competing_next : competing.nextToStart 2 := ⟨by decide, by decide⟩

theorem witness_PressureUpRuns :
    ((pumping .starting false).phase = .running ∧ (pumping .starting false).inputs.pressure.get 0 = false
      ∧ ((pumping .starting false).pump 0).state = .starting ∧ 0 < ((pumping .starting false).pump 0).demand)
    ∧ (let s := (pumping .starting false).setPump 0 { (pumping .starting false).pump 0 with demand := 0 }
      (s.pump 0).state = .starting ∧ (s.pump 0).demand = 0 ∧ s.inputs.pressure.get 0 = false)
    ∧ (station.inputs.pressure.get 0 = false ∧ (station.pump 0).state = .stopped)
    ∧ ((pumping .fault false).inputs.pressure.get 0 = false ∧ ((pumping .fault false).pump 0).state = .fault)
    ∧ (competing.phase = .running ∧ competing.inputs.pressure.get 0 = false ∧ (competing.pump 0).state = .starting
      ∧ 0 < (competing.pump 0).demand ∧ competing.nextToStart 2)
    ∧ (let s := competing.setPump 0 { competing.pump 0 with demand := 0 }
      (s.pump 0).state = .starting ∧ (s.pump 0).demand = 0 ∧ s.nextToStart 2)
    ∧ (∀ j : TankId, ((pumping .starting false).pump j).state ≠ .waiting) :=
  ⟨by decide, by decide, by decide, by decide, ⟨rfl, rfl, rfl, by decide, competing_next⟩,
    ⟨rfl, rfl, ⟨by decide, by decide⟩⟩, by decide⟩

theorem witness_PumpFaultsAndStops :
    ((pumping .running true).phase = .running ∧ (pumping .running true).inputs.pressure.get 0 = true
      ∧ ((pumping .running true).pump 0).state = .running ∧ ((pumping .running true).hose 0).config.tank = 0
      ∧ ((pumping .running true).hose 0).state = .flowing ∧ ((pumping .running true).hose 1).config.tank ≠ 0)
    ∧ (((pumping .fault true).pump 0).state ≠ .running ∧ ((pumping .fault true).pump 0).state ≠ .runOn)
    ∧ (((pumping .starting true).pump 0).state = .starting ∧ ((pumping .starting true).pump 0).startTimer = some 1)
    ∧ ((competing.pump 0).startTimer = some 1 ∧ competing.nextToStart 2)
    ∧ (((pumping .runOn true).pump 0).state = .runOn ∧ ((pumping .runOn true).pump 0).runOnTimer = some 1) :=
  ⟨by decide, by decide, by decide, ⟨rfl, competing_next⟩, by decide⟩

theorem witness_PumpRequests :
    station.linkFree ∧ (3#8).toNat = (3 : TankId).val ∧ (station.pump 3).state = .stopped
    ∧ ((pumping .fault true).pump 0).state = .fault
    ∧ ((120#8).toNat ≤ 120 ∧ 2 ≤ (2#8).toNat ∧ (60#8).toNat ≤ 60 ∧ (3#8).toNat ≤ 3)
    ∧ ¬(121#8).toNat ≤ 120 ∧ ¬2 ≤ (1#8).toNat ∧ ¬(61#8).toNat ≤ 60 ∧ ¬(4#8).toNat ≤ 3 :=
  ⟨station_free, rfl, rfl, rfl, by decide⟩

/-! ### Witnesses: vehicles and service -/

/-- The station with the machine bound to hose 0. -/
def bound : State := inState .ready

/-- The host part that `part` stands for: it would hold vehicle 5's tag. -/
def hosted : HostPart := { HostPart.unused with inUse := true, tag := 7#64, products := 1#4, enabled := true }

theorem clash_five : hosted.Clashes (station.vehicle 5).host := ⟨rfl, rfl, by decide, rfl, rfl, rfl⟩

theorem clashes_five {p : HostPart} {y : VehicleId} (h : p.Clashes (station.vehicle y).host) : y = 5 := by
  by_contra hy
  have := h.2.2.2.1
  rw [station_others hy] at this
  cases this

theorem witness_VehiclePutPlaces :
    station.linkFree ∧ station.vehiclesSound = true ∧ (5#16).toNat = (5 : VehicleId).val
    ∧ (511#16).toNat = (511 : VehicleId).val
    ∧ (part.flags.getLsbD 0 = true ∧ part.Inside ∧ part.cls.toNat = (0 : ClassId).val ∧ part.flags.getLsbD 1 = true
      ∧ (5 : VehicleId) ≠ 511 ∧ hosted.Clashes (station.vehicle 5).host
      ∧ ∀ y : VehicleId, y ≠ 511 → hosted.Clashes (station.vehicle y).host → y = 5)
    ∧ (({ part with flags := 16#8 } : WireHostPart).flags.getLsbD 0 = false)
    ∧ (({ part with flags := 0x11#8 } : WireHostPart).flags.getLsbD 0 = true
      ∧ ¬({ part with flags := 0x11#8 } : WireHostPart).flags.toNat ≤ 15)
    ∧ (∀ x : VehicleId, x ≠ 511 → ¬{ hosted with tag := 0 }.Clashes (station.vehicle x).host)
    ∧ (station.vehicle 5).revision ≠ (1#16).toNat ∧ (station.vehicle 511).revision = (0#16).toNat
    ∧ (station.vehicle 511).binding = none ∧ bound.linkFree ∧ bound.vehiclesSound = true
    ∧ (bound.vehicle 5).binding = some 0 ∧ (bound.vehicle 5).host.inUse = true
    ∧ (bound.vehicle 5).host.tag = part.tag ∧ (bound.vehicle 5).host.cls = 0
    ∧ (bound.vehicle 5).host.tag ≠ ({ part with tag := 8#64 } : WireHostPart).tag
    ∧ (bound.vehicle 5).status = statusOf (bound.classOf 0) (bound.vehicle 5)
    ∧ (bound.hose 0).state = .ready ∧ ((inState .flowing).hose 0).state ≠ .ready
    ∧ (({ part with flags := 7#8 } : WireHostPart).flags.getLsbD 2 = true ∧ part.flags.getLsbD 2 = false)
    ∧ (bound.hose 0).grant = some given ∧ given.vehicle = 5 ∧ given.journalRes = true :=
  ⟨station_free, station_sound, rfl, rfl,
    ⟨rfl, ⟨by decide, by decide, by decide, by decide⟩, rfl, rfl, by decide, clash_five, fun _ _ h => clashes_five h⟩, rfl,
    ⟨rfl, by decide⟩, fun _ _ h => absurd rfl h.2.2.1, by decide, rfl, rfl, inState_free _, inState_sound _, rfl, rfl, rfl, rfl,
    by decide, by decide, rfl, by decide, ⟨rfl, rfl⟩, rfl, rfl, rfl⟩

/-- The station with a load session at an index. -/
def loading (n : Nat) : State := { station with loadSession := some n }

/-- A record with a tag that no vehicle holds, as it is carried and as it stands. -/
def newPart : WireHostPart := { part with tag := 8#64 }
def newHosted : HostPart := { hosted with tag := 8#64 }

/-- The first record of a request is placed at a free index. -/
theorem loads_first (v : VehicleId) (ps : List HostPart) (hv : v ≠ 5) :
    (loading v.val).Places v.val (newHosted :: ps) 0 v newHosted :=
  ⟨⟨rfl, rfl, by rw [show (loading v.val).vehicle v = station.vehicle v from rfl, station_others hv]; rfl⟩,
    fun x _ h => by
      unfold State.hostAfter at h
      rw [if_neg (by omega)] at h
      have := clashes_five (y := x) h
      subst this
      exact absurd (show (7#64 : Tag) = 8#64 from h.2.2.2.2.2) (by decide)⟩

theorem witness_LoadSessionPlaces :
    station.linkFree ∧ station.vehiclesSound = true ∧ station.loadSession = none
    ∧ (511#16).toNat < 512 ∧ 512 ≤ (512#16).toNat
    ∧ 1 ≤ [part].length ∧ (List.replicate 8 part).length ≤ 8 ∧ (2#8).toNat ≠ [part].length
    ∧ (1#8).toNat = [part].length ∧ (8#8).toNat = (List.replicate 8 part).length
    ∧ hostPartOf { part with cls := 32#8 } = none
    ∧ [newPart, newPart].map hostPartOf = [newHosted, newHosted].map some
    ∧ (loading 511).loadSession = some 511 ∧ (loading 511).Places 511 [newHosted, newHosted] 0 511 newHosted
    ∧ (loading 510).Places 510 [newHosted] 0 510 newHosted ∧ (loading 4).Places 4 [newHosted, newHosted] 0 4 newHosted
    ∧ ({ bound with loadSession := some 4 } : State).loadSession = some 4 ∧ (bound.vehicle 5).binding = some 0
    ∧ ((loading 510).Reaches 510 [newHosted, newHosted] 1 511 newHosted
      ∧ newHosted.Clashes ((loading 510).hostAfter 510 [newHosted, newHosted] 1 510)
      ∧ ∀ y : VehicleId, y ≠ 511 → newHosted.Clashes ((loading 510).hostAfter 510 [newHosted, newHosted] 1 y) → y = 510)
    ∧ ((loading 6).Reaches 6 [hosted] 0 6 hosted ∧ hosted.Clashes ((loading 6).hostAfter 6 [hosted] 0 5)) := by
  refine ⟨station_free, station_sound, rfl, by decide, by decide, by decide, by decide, by decide, rfl, rfl, by decide,
    by decide, rfl, loads_first 511 _ (by decide), loads_first 510 _ (by decide), loads_first 4 _ (by decide), rfl, rfl,
    ⟨⟨rfl, rfl, rfl⟩, ⟨rfl, rfl, by decide, rfl, rfl, rfl⟩, fun y _ h => ?_⟩, ⟨rfl, rfl, rfl⟩, clash_five⟩
  unfold State.hostAfter at h
  split at h
  · exact Fin.ext (by omega)
  · have := clashes_five (y := y) h
    subst this
    exact absurd h.2.2.2.2.2 (by decide)

/-- The machine with an hour reading. -/
def metredMachine : Vehicle := { machine with usage := { Usage.fresh with hours := some 100, meter := true } }

theorem witness_HourReadings :
    station.linkFree ∧ station.vehiclesSound = true ∧ (5#16).toNat = (5 : VehicleId).val
    ∧ (station.vehicle 6).host.inUse = false ∧ (station.vehicle 5).host.inUse = true
    ∧ (station.vehicle 5).revision ≠ (1#16).toNat ∧ (station.vehicle 5).revision = (0#16).toNat
    ∧ (station.vehicle 5).binding = none ∧ (station.vehicle 5).usage.hours = none
    ∧ metredMachine.usage.hours = some 100 ∧ 99 < 100 ∧ ¬100 < 100 :=
  ⟨station_free, station_sound, rfl, rfl, rfl, by decide, rfl, rfl, rfl, rfl, by decide, by decide⟩

/-- The machine of `overdue`, its class strict, the hose it is bound to in a state, with a status to be left. -/
def restatus (x : HoseState) (st : ServiceStatus) : State :=
  { inState x with vehicles := [(5, { overdue with status := st })], classes := upd station.classes 0 strictClass }

theorem witness_StatusFollowsWorstLine :
    machine.host.inUse = true
    ∧ (∀ n : LineId, ¬((ClassRecord.default.lines.get n).hour ≠ 0 ∨ (ClassRecord.default.lines.get n).fuel ≠ 0))
    ∧ (let c := { ClassRecord.default with lines := #v[⟨0, 100⟩, ⟨0, 0⟩, ⟨0, 0⟩, ⟨0, 0⟩] }
      ((c.lines.get 0).hour ≠ 0 ∨ (c.lines.get 0).fuel ≠ 0)
        ∧ ∀ n : LineId, (c.lines.get n).hour ≠ 0 ∨ (c.lines.get n).fuel ≠ 0 → n = 0)
    ∧ (∀ st : ServiceStatus, st ∈ [ServiceStatus.ok, .dueSoon, .due, .overdue] →
        let s := restatus .flowing st
        s.vehiclesSound = true ∧ (s.vehicle 5).binding = some 0 ∧ (s.hose 0).state ≠ .ready
          ∧ statusOf (s.classOf (s.vehicle 5).host.cls) (s.vehicle 5) = .overdue) := by decide

theorem witness_ServiceDoneMarksLines :
    station.linkFree ∧ station.vehiclesSound = true ∧ (5#16).toNat = (5 : VehicleId).val
    ∧ (4#8).toNat = (3 : LineId).val + 1 ∧ (1#8).toNat = (0 : LineId).val + 1 ∧ 1#8 &&& 0xFE#8 = 0#8
    ∧ (station.vehicle 6).host.inUse = false ∧ (station.vehicle 5).host.inUse = true
    ∧ (station.vehicle 5).revision ≠ (1#16).toNat ∧ (station.vehicle 5).revision = (0#16).toNat
    ∧ ({ machine with servicePending := true } : Vehicle).servicePending = true
    ∧ (station.vehicle 5).servicePending = false ∧ (station.vehicle 5).binding = none
    ∧ (let s := restatus .flowing .ok
      s.linkFree ∧ s.vehiclesSound = true ∧ (s.vehicle 5).binding = some 0 ∧ (s.hose 0).state ≠ .ready
        ∧ (s.vehicle 5).revision = 0 ∧ (s.vehicle 5).servicePending = false ∧ s.journal.faulted = false
        ∧ s.journal.reservations + 1 ≤ s.journal.free)
    ∧ ((restatus .ready .ok).vehicle 5).binding = some 0 ∧ ((restatus .ready .ok).hose 0).state = .ready
    ∧ 512 ≤ (512#16).toNat ∧ (0#8).toNat = 0 ∧ 5 ≤ (5#8).toNat ∧ 2#8 &&& 0xFE#8 ≠ 0#8
    ∧ (slotsUsed 64).free < (slotsUsed 64).reservations + 1 ∧ (slotsUsed 63).reservations + 1 ≤ (slotsUsed 63).free
    ∧ (slotsUsed 63).faulted = false :=
  ⟨station_free, station_sound, rfl, rfl, rfl, by decide, rfl, rfl, by decide, rfl, rfl, rfl, rfl,
    ⟨⟨rfl, rfl, rfl, rfl, Nat.zero_le _⟩, by decide +kernel⟩, rfl, rfl, by decide, rfl, by decide, by decide,
    by decide +kernel, by decide +kernel, rfl⟩

def wireClass : WireClass :=
  { name := spaces, defaultPreset := 1000#16, burnRate := 0#16, warn := 900#16, grace := 100#16, overdueAction := 0#8,
    limp := 200#16, lines := Vector.replicate 4 { hour := 0#16, fuel := 0#32 } }

/-- The link held by a CLASS_SET of class 0 whose sweep has yet to begin. -/
def sweeping (stored : Bool) : State :=
  linked { station.link with
    held := some { kind := 0x3A#8, tag := 0#8, wait := .classSet 0 stored 0 0 0 } }

theorem witness_ClassSetSweeps :
    station.linkFree ∧ (31#8).toNat = (31 : ClassId).val ∧ wireClass.Inside
    ∧ ¬({ wireClass with overdueAction := 2#8 } : WireClass).Inside ∧ ¬({ wireClass with warn := 0#16 } : WireClass).Inside
    ∧ (sweeping true).phase = .running ∧ (sweeping true).link.rxQueue = []
    ∧ (sweeping true).link.held = some { kind := 0x3A#8, tag := 0#8, wait := .classSet 0 true 0 0 0 }
    ∧ nextOfClass 0 0 (sweeping true) = some 5 ∧ nextOfClass 0 6 (sweeping true) = none
    ∧ station.vehiclesSound = true := by
  refine ⟨station_free, rfl, ?_, fun h => ?_, fun h => ?_, rfl, rfl, rfl, by decide, by decide, station_sound⟩
  · exact ⟨by decide, by decide, by decide, by decide, by decide, by decide, by decide, by decide⟩
  · exact absurd h.action (by decide)
  · exact absurd h.warn (by decide)

/-! ### Witnesses: the journal and the settings store -/

def receipt : Record :=
  .receipt
    { tank := 0, product := 0, openingNet := 0, openingTime := ⟨0, false⟩, closingNet := none, delivered := none,
      docket := none, volume := 0, difference := none, book := 0, probeFail := false, unmeasured := true }

def delivery : DeliveryRecord :=
  deliveryOf 0 given false metered ⟨0, false⟩

/-- The station with one record queued, a write in flight or not. -/
def queued (r : Record) (st : Option Stamp) (w : Bool) (next : Nat) : State :=
  { inState .settled with
    journal := { station.journal with
      queue := [{ record := r, stamp := st }], reservations := 1, writing := w, nextSeq := next } }

def stamp : Stamp := { seq := 1, time := 0, valid := false }

/-- A state whose link is held by a request. -/
def holdingFor (w : HeldWait) (s : State) : State :=
  s.setLink { s.link with held := some { kind := 0x12#8, tag := 0#8, wait := w } }

theorem witness_JournalWriteBegins :
    let s := queued receipt (some stamp) false 2
    let t := queued receipt none false 4294967295
    let u := queued receipt none false 4294967296
    (s.phase = .running ∧ s.link.rxQueue = [] ∧ s.journal.queue = [{ record := receipt, stamp := some stamp }]
      ∧ s.journal.writing = false ∧ s.journal.active ≠ none ∧ s.journal.faulted = false)
    ∧ (t.journal.queue = [{ record := receipt, stamp := none }] ∧ t.journal.nextSeq ≤ 4294967295)
    ∧ (u.journal.queue = [{ record := receipt, stamp := none }] ∧ 4294967295 < u.journal.nextSeq
      ∧ u.link.held = none)
    ∧ (∀ w ∈ [HeldWait.calWrite 7 none, .productSet 3 none, .serviceDone 5 none, .stockAdjust 0 0 1, .siteSet],
        (holdingFor w u).link.held = some { kind := 0x12#8, tag := 0#8, wait := w }
          ∧ (holdingFor w u).link.rxQueue = []) := by
  decide

/-- A write in flight in segment 0, with `n` slots used before it; segment 31 is FREE or RETIRED, the others RETIRED. -/
def filling (r : Record) (n : Nat) (last : SegmentState) : State :=
  { queued r (some stamp) true 2 with
    journal := { (queued r (some stamp) true 2).journal with
      segments := ((Vector.replicate 32 { Segment.blank with state := .retired }).set 0
        { Segment.blank with state := .active, slots := List.replicate n .void }).set 31
          { Segment.blank with state := last } } }

/-- Its segments are sound, with room for the record. -/
theorem filling_sound (r : Record) (n : Nat) (hn : n < 64) (last : SegmentState) (h : last = .free ∨ last = .retired) :
    (filling r n last).journal.SegmentsSound ∧ (filling r n last).journal.spare := by
  have seg : ∀ g : SegmentId, (filling r n last).journal.segment g =
      if g = 31 then { Segment.blank with state := last }
      else if g = 0 then { Segment.blank with state := .active, slots := List.replicate n .void }
      else { Segment.blank with state := .retired } := by
    intro g
    simp only [filling, Journal.segment, Vector.get_eq_getElem, Vector.getElem_set, Vector.getElem_replicate]
    by_cases h31 : g = 31
    · subst h31; rfl
    · have : ¬31 = g.val := fun e => h31 (Fin.ext e.symm)
      rw [if_neg this, if_neg h31]
      by_cases h0 : g = 0
      · subst h0; rfl
      · have : ¬0 = g.val := fun e => h0 (Fin.ext e.symm)
        rw [if_neg this, if_neg h0]
  have active : ∀ g : SegmentId, ((filling r n last).journal.segment g).state = .active → g = 0 := by
    intro g; rw [seg]
    rcases h with rfl | rfl <;> (repeat' split) <;> first | (intro _; assumption) | (intro c; cases c)
  refine ⟨⟨fun g k a b => (active g a).trans (active k b).symm, fun g a => ?_, fun g a => ?_, fun g e => by cases e⟩,
    fun _ => ?_⟩
  · rw [active g a, seg]
    show (List.replicate n Slot.void).length < 64
    rw [List.length_replicate]; exact hn
  · rw [seg] at a ⊢
    revert a; repeat' split
    all_goals first | (intro _; rfl) | (intro c; cases c)
  · have hf : (filling r n last).journal.active = some 0 := by rcases h with rfl | rfl <;> rfl
    have h1 : 64 - ((filling r n last).journal.segment 0).slots.length ≤ (filling r n last).journal.free := by
      unfold Journal.free; rw [hf]; exact Nat.le_add_right _ _
    have h2 : ((filling r n last).journal.segment 0).slots.length = n := by
      rw [seg]; exact List.length_replicate
    show 1 ≤ _
    omega

def calRecord : Record := .calibration (.hose 7 100 101 2 100000 100001 1)
def productRecord : Record := .calibration (.product 3 830 840 spaces)
def adjustRecord : AdjustRecord := { tank := 0, oldBook := 0, newBook := 1, revision := 1 }

theorem witness_JournalWriteEnds :
    (let s := queued (.delivery delivery) (some stamp) true 2
    s.phase = .running ∧ s.link.rxQueue = [] ∧ s.journal.writing = true ∧ s.journal.active = some 0
      ∧ s.journal.queue = [{ record := .delivery delivery, stamp := some stamp }]
      ∧ (s.hose delivery.hose).state = .settled ∧ (s.hose delivery.hose).grant = some given ∧ s.vehiclesSound = true
      ∧ (s.journal.segment 0).worn = false)
    ∧ (∀ (r : Record) (n : Nat) (last : SegmentState), last = .free ∨ last = .retired → n < 64 →
        let s := filling r n last
        s.phase = .running ∧ s.link.rxQueue = [] ∧ s.journal.writing = true ∧ s.journal.active = some 0
          ∧ s.journal.queue = [{ record := r, stamp := some stamp }] ∧ s.journal.SegmentsSound ∧ s.journal.spare
          ∧ s.link.held = none
          ∧ ∀ w : HeldWait, (holdingFor w s).link.held = some { kind := 0x12#8, tag := 0#8, wait := w })
    ∧ ((filling receipt 62 .free).journal.segment 0).slots.length + 1 < 64
    ∧ (64 ≤ ((filling receipt 63 .free).journal.segment 0).slots.length + 1
      ∧ (filling receipt 63 .free).journal.NextFree 0 31)
    ∧ (64 ≤ ((filling receipt 63 .retired).journal.segment 0).slots.length + 1
      ∧ (∀ k : SegmentId, ((filling receipt 63 .retired).journal.segment k).state ≠ .free)
      ∧ (filling receipt 63 .retired).journal.faulted = false)
    ∧ (calRecord = .calibration (.hose 7 100 101 2 100000 100001 1)
      ∧ productRecord = .calibration (.product 3 830 840 spaces)
      ∧ Record.adjust adjustRecord = .adjust adjustRecord) := by
  refine ⟨⟨rfl, rfl, rfl, by decide, rfl, rfl, rfl, inState_sound .settled, rfl⟩, fun r n last h hn => ?_, by decide,
    ⟨by decide, ⟨by decide, by decide⟩⟩, ⟨by decide, by decide, rfl⟩, rfl, rfl, rfl⟩
  obtain ⟨a, b⟩ := filling_sound r n hn last h
  exact ⟨rfl, rfl, rfl, by rcases h with rfl | rfl <;> rfl, rfl, a, b, rfl, fun _ => rfl⟩

/-- The station with segment 31 in a state, its erase in flight or not. -/
def erasing (x : Segment) (e : Option SegmentId) (a : SegmentState) : State :=
  { station with
    journal := { station.journal with
      segments := (station.journal.segments.set 31 x).set 0 { Segment.blank with state := a }, erase := e } }

/-- Two segments cut short, and two FULL ones of which the later holds the older record. -/
def aged : State :=
  let held := fun n : Nat =>
    { Segment.blank with
      state := .full, slots := [.written { record := receipt, stamp := { stamp with seq := n } }] }
  { station with
    journal := { station.journal with
      segments := (((station.journal.segments.set 31 { Segment.blank with state := .erasing, eraseMark := true }).set 30
        { Segment.blank with state := .erasing, eraseMark := true }).set 1 (held 6)).set 2 (held 5) } }

theorem witness_ErasesBeginAndEnd :
    (let s := erasing { Segment.blank with state := .full } none .active;
      s.phase = .running ∧ s.journal.erase = none ∧ s.journal.cutShort = []
        ∧ s.journal.eligibleSegments s.store.stored.ack = [31])
    ∧ (station.journal.cutShort = [] ∧ station.journal.eligibleSegments station.store.stored.ack = [])
    ∧ (let s := erasing { Segment.blank with state := .erasing } (some 31) .active;
      s.phase = .running ∧ s.journal.erase = some 31 ∧ (s.journal.segment 31).worn = false ∧ s.journal.active = some 0)
    ∧ (let s := erasing { Segment.blank with state := .erasing } (some 31) .full;
      s.journal.erase = some 31 ∧ s.journal.active = none)
    ∧ (let s := erasing { Segment.blank with state := .erasing, worn := true } (some 31) .active;
      s.journal.erase = some 31 ∧ (s.journal.segment 31).worn = true)
    ∧ aged.journal.cutShort = [30, 31]
    ∧ (aged.journal.eligibleSegments 6 = [2, 1] ∧ aged.journal.eligibleSegments 5 = [2]) := by decide +kernel

/-- The station with one held record, of sequence 5. -/
def holdingOne (w : WriteWait) : State :=
  { station with
    journal := { station.journal with
      segments := station.journal.segments.set 0
        { Segment.blank with state := .active, slots := [.written { record := receipt, stamp := { stamp with seq := 5 } }] }
      newest := some (5, 0), nextSeq := 6, ackWrite := w } }

theorem witness_JournalAcknowledged :
    station.linkFree ∧ station.link.inspection = false ∧ station.journal.newest = none
    ∧ (linked { station.link with inspection := true }).link.inspection = true
    ∧ (let s := holdingOne .none
      s.linkFree ∧ s.journal.newest = some (5, 0) ∧ 5 < (6#32).toNat ∧ (5#32).toNat ≤ 5
        ∧ (s.journal.written.filter fun r => decide (s.journal.ack < r.stamp.seq)) =
            [{ record := receipt, stamp := { stamp with seq := 5 } }]
        ∧ (4#32).toNat < 5 ∧ s.journal.ackWrite = .none ∧ (holdingOne .inFlight).journal.ackWrite ≠ .none) :=
  ⟨station_free, rfl, rfl, rfl, ⟨rfl, rfl, rfl, rfl, by decide⟩, rfl, by decide, by decide, by decide, by decide, rfl, by decide⟩

/-- The station with a write in flight and a request held for it. -/
def storing (w : StoreWrite) (h : HeldWait) : State :=
  { linked { station.link with held := some { kind := 0x07#8, tag := 0#8, wait := h } } with
    store := { station.store with inFlight := some w } }

theorem witness_StoreWritesAndAnswers :
    let w : StoreWrite := .hoseConfig 7 (.default 3)
    let x : State := { station with store := { station.store with queue := [w] } }
    let placed : PlacedRecord := { vehicle := 5, host := machine.host, revision := 1, fresh := true }
    let class_ := fun (n : Nat) => storing (.classRecord 0 .default) (.classSet 0 false n 0 0)
    (x.phase = .running ∧ x.store.inFlight = none ∧ x.store.queue = [w])
    ∧ (∀ (w : StoreWrite) (h : HeldWait), (storing w h).phase = .running ∧ (storing w h).link.rxQueue = []
        ∧ (storing w h).store.inFlight = some w
        ∧ (storing w h).link.held = some { kind := 0x07#8, tag := 0#8, wait := h }
        ∧ (storing w h).vehiclesSound = true ∧ (storing w h).store.stored.vehiclesSound = true
        ∧ (storing w h).journal.ackWrite = .none)
    ∧ ([placed, { placed with vehicle := 6 }].map (·.vehicle)).Nodup
    ∧ (nextOfClass 0 0 (class_ 0) ≠ none ∧ nextOfClass 0 6 (class_ 6) = none)
    ∧ ((storing (.usage 6 .fresh) .siteSet).vehicle 6).usageWrite = .none
    ∧ (let s := erasing { Segment.blank with state := .full } none .active
      s.journal.erase = none ∧ (s.journal.segment 31).state = .full
        ∧ ∀ r : JRecord, .written r ∈ (s.journal.segment 31).slots → r.stamp.seq ≤ 0) := by
  refine ⟨by decide, fun w h => ⟨rfl, rfl, rfl, rfl, ?_, rfl, rfl⟩, by decide, by decide, by decide, rfl, by decide, ?_⟩
  · exact station_sound
  · intro r h
    have : ((erasing { Segment.blank with state := .full } none .active).journal.segment 31).slots = [] := by decide
    rw [this] at h; cases h

/-! ### Witnesses: settings, queries and events -/

def wireHose : WireHoseConfig :=
  { tank := 3#8, prestop := 5000#16, slowVolume := 500#16, readyTimeout := 10#16, noFlowTimeout := 300#16,
    pauseTimeout := 1800#16, settleTime := 10#8 }

theorem witness_HoseAndSiteSettings :
    station.linkFree ∧ (7#8).toNat = (7 : HoseId).val ∧ (station.hose 7).state = .idle
    ∧ ((inState .ready).hose 0).state ≠ .idle ∧ wireHose.tank.toNat = (3 : TankId).val
    ∧ (wireHose.tank.toNat ≤ 3 ∧ wireHose.prestop.toNat ≤ 5000 ∧ wireHose.slowVolume.toNat ≤ 500
      ∧ 10 ≤ wireHose.readyTimeout.toNat ∧ wireHose.readyTimeout.toNat ≤ 600 ∧ 10 ≤ wireHose.noFlowTimeout.toNat
      ∧ wireHose.noFlowTimeout.toNat ≤ 300 ∧ 30 ≤ wireHose.pauseTimeout.toNat ∧ wireHose.pauseTimeout.toNat ≤ 1800
      ∧ 1 ≤ wireHose.settleTime.toNat ∧ wireHose.settleTime.toNat ≤ 10)
    ∧ ¬({ wireHose with tank := 4#8 } : WireHoseConfig).tank.toNat ≤ 3
    ∧ (5 ≤ (5#16).toNat ∧ (600#16).toNat ≤ 600 ∧ (9999#16).toNat ≤ 9999 ∧ 10 ≤ (10#8).toNat ∧ (95#8).toNat ≤ 95)
    ∧ ¬5 ≤ (4#16).toNat ∧ ¬(96#8).toNat ≤ 95 :=
  ⟨station_free, rfl, rfl, by decide, rfl, by decide, by decide, by decide, by decide, by decide⟩

theorem witness_ControllerRequestsAndSending :
    station.linkFree ∧ station.journal.newest = none
    ∧ (let s : State := { station with journal := { station.journal with newest := some (1, 100) } }
      s.journal.newest = some (1, 100) ∧ (99#32).toNat < 100 ∧ 100 ≤ (100#32).toNat)
    ∧ ((queued receipt (some stamp) true 2).linkFree ∧ (queued receipt (some stamp) true 2).journal.writing = true
      ∧ (queued receipt (some stamp) true 2).journal.queue = [{ record := receipt, stamp := some stamp }])
    ∧ ((0#8).toNat < 1 ∧ 1 ≤ (1#8).toNat ∧ (32#8).toNat ≤ 32 ∧ 32 < (33#8).toNat)
    ∧ (∀ h : HoseId, (station.hose h).state = .idle) ∧ ((inState .ready).hose 0).state ≠ .idle
    ∧ (let s : State := { linked { station.link with tx := [ready] } with phase := .restartReply }
      s.link.tx = [ready] ∧ s.phase = .restartReply ∧ ready.kind = 0xD4#8 ∧ ready.status = .ok
        ∧ (linked { station.link with tx := [ready] }).phase = .running
        ∧ (linked { station.link with tx := [ready] }).link.rxQueue = [])
    ∧ (let s := linked { fullLink.link with rxQueue := [{ tag := 0#8, content := .unknownKind 0#8 [] }] }
      s.link.tx = ready :: List.replicate 4 ready ∧ s.phase = .running ∧ s.link.online = true ∧ s.link.held = none
        ∧ (List.replicate 4 ready).length ≤ 4
        ∧ s.link.rxQueue = [{ tag := 0#8, content := .unknownKind 0#8 [] }]) :=
  ⟨station_free, rfl, by decide, ⟨⟨rfl, rfl, rfl, rfl, by decide⟩, rfl, rfl⟩, by decide, by decide, by decide, by decide,
    by decide⟩

theorem witness_FieldQueriesRead :
    station.linkFree ∧ (7#8).toNat = (7 : HoseId).val ∧ (4#8).toNat = (3 : ProductId).val + 1
    ∧ (1#8).toNat = (0 : ProductId).val + 1 ∧ (3#8).toNat = (3 : TankId).val := ⟨station_free, rfl, rfl, rfl, rfl⟩

theorem witness_RegisterQueriesAndFind :
    station.linkFree ∧ station.vehiclesSound = true ∧ (511#16).toNat = (511 : VehicleId).val ∧ 512 ≤ (512#16).toNat
    ∧ (station.vehicle 511).host.inUse = false ∧ (station.vehicle 5).host.inUse = true
    ∧ (31#8).toNat = (31 : ClassId).val
    ∧ ((511#16).toNat < 512 ∧ (0#8).toNat < 1 ∧ 1 ≤ (1#8).toNat ∧ (32#8).toNat ≤ 32 ∧ 32 < (33#8).toNat
      ∧ (8#8).toNat ≤ 8 ∧ 8 < (9#8).toNat)
    ∧ (7#64 : Tag) ≠ 0 ∧ station.onlyCarrier 7#64 5 :=
  ⟨station_free, station_sound, rfl, by decide, rfl, rfl, rfl, by decide, by decide, station_carrier⟩

theorem witness_RequestsRefused :
    station.linkFree ∧ 8 ≤ (8#8).toNat ∧ 4 ≤ (4#8).toNat ∧ (0#8).toNat = 0 ∧ 5 ≤ (5#8).toNat ∧ 32 ≤ (32#8).toNat
    ∧ 512 ≤ (512#16).toNat ∧ (0#8).toNat = (0 : HoseId).val ∧ (station.hose 0).state ≠ .ready
    ∧ ((inState .settled).linkFree ∧ ((inState .settled).hose 0).state = .settled) :=
  ⟨station_free, by decide, by decide, rfl, by decide, by decide, by decide, rfl, by decide, inState_free .settled, rfl⟩

theorem witness_EventsCoalesce :
    (∃ e, station.link.events = [] ++ e :: [] ∧ e.key = .restart ∧ ∀ x ∈ ([] ++ [] : List EventEntry), x.key ≠ .restart)
    ∧ ∀ x ∈ station.link.events, x.key ≠ .mode := ⟨⟨_, rfl, rfl, by simp⟩, by decide⟩

/-! ### Witnesses: the save and restart -/

theorem witness_SaveBeginsOrSupplyGoes :
    (inState .flowing).phase = .running ∧ ((inState .flowing).hose 0).state.counted = true
    ∧ saving.phase = .saving .supplyWarning false ∧ inReset.phase = .inReset (.saved .supplyWarning) true
    ∧ restarting.phase = .restarting := by decide

theorem witness_SaveCompletes :
    let s : State := { inState .flowing with phase := .saving .supplyWarning false }
    let t : State := { queued receipt (some stamp) true 2 with phase := .saving .supplyWarning false }
    let u : State := { receiving (.receiving opened) true with phase := .saving .supplyWarning false }
    let w : State := s.setStore { s.store with queue := [.usage 5 .fresh] }
    s.phase = .saving .supplyWarning false ∧ s.vehiclesSound = true ∧ s.store.stored.vehiclesSound = true
      ∧ s.journal.writing = false ∧ t.journal.writing = true
      ∧ (s.hose 0).grant = some given ∧ (s.hose 0).state ≠ .idle ∧ (s.hose 0).state ≠ .ready
      ∧ (u.phase = .saving .supplyWarning false ∧ u.vehiclesSound = true ∧ (u.tank 0).receipt = .receiving opened)
      ∧ (.usage 5 .fresh ∈ w.store.queue ∧ w.vehicle 5 ≠ .unused ∧ (s.vehicle 5).usageWrite = .none
        ∧ s.store.queue = []) := by decide

/-- An area with hose 0's unfinished delivery, hose 1's settled one to another vehicle and a receipt. -/
def carried : Area :=
  let p : Snapshot := { hose := 0, state := .flowing, grant := given, measure := metered.snap }
  { cause := .supplyWarning, snapshots := [p, { p with hose := 1, state := .settled, grant := { given with vehicle := 6 } }],
    receipts := [{ tank := 0, openingNet := 0, openingTime := ⟨0, false⟩, docket := none }],
    records := [.delivery { delivery with hose := 1 }] }

/-- The part in reset after a save that stored the machine's record and an area. -/
def carrying (a : Area) : State :=
  { inReset with
    store := { inReset.store with
      stored := { inReset.store.stored with
        vehicles := [(5, { host := machine.host, revision := 0, usage := .fresh, marks := freshMarks })], area := some a } } }

/-- Segments as a scan may find them: 1 with a void slot, 2 with a number of slots used, 3 with the erase mark. -/
def foundSegments (n : Nat) : Vector Segment 32 :=
  (((Vector.replicate 32 Segment.blank).set 1 { Segment.blank with slots := [.void] }).set 2
    { Segment.blank with slots := List.replicate n .void }).set 3 { Segment.blank with eraseMark := true }

theorem witness_RestartResetsAndEnds :
    (inReset.phase = .inReset (.saved .supplyWarning) true ∧ inReset.store.stored.vehiclesSound = true
      ∧ ∀ a : Area, inReset.store.stored.area = some a → a.snapshots = [] ∧ a.receipts = [] ∧ a.records = [])
    ∧ (let s := carrying { carried with snapshots := [], receipts := [], records := [] }
      s.phase = .inReset (.saved .supplyWarning) true
        ∧ s.store.stored.area = some { carried with snapshots := [], receipts := [], records := [] })
    ∧ (let st := inReset.store.stored
      let found := inReset.journal.segments
      st.GoesOn found ∧ st.FoundFree found 1 ∧ st.FoundFree found 31 ∧ ¬st.FoundFree found 0)
    ∧ (let st := { inReset.store.stored with highWater := { seq := 1, segment := 2, newest := none } }
      st.Unmarked (foundSegments 64) 2 ∧ ((foundSegments 64).get 2).slots.length = 64 ∧ ¬st.GoesOn (foundSegments 64)
        ∧ st.FoundFree (foundSegments 64) 4 ∧ st.GoesOn (foundSegments 63)
        ∧ (∀ i, st.FoundFree (foundSegments 64) i → stepsAfter 2 4 ≤ stepsAfter 2 i)
        ∧ st.Unmarked (foundSegments 64) 1 ∧ ((foundSegments 64).get 1).slots ≠ [] ∧ ((foundSegments 64).get 3).eraseMark = true
        ∧ { st with retired := Vector.replicate 32 true }.retired.get 1 = true)
    ∧ restarting.phase = .restarting
    ∧ ({ restarting with link := { restarting.link with events := [] } } : State).link.events = [] :=
  ⟨⟨rfl, rfl, fun a h => by cases h⟩, ⟨rfl, rfl⟩, ⟨⟨⟨rfl, rfl⟩, by decide⟩, ⟨⟨rfl, rfl⟩, rfl, by decide⟩,
    ⟨⟨rfl, rfl⟩, rfl, by decide⟩, fun h => h.other rfl⟩,
    ⟨⟨rfl, rfl⟩, rfl, fun h => absurd h.2 (by decide), ⟨⟨rfl, rfl⟩, rfl, by decide⟩, ⟨⟨rfl, rfl⟩, by decide⟩,
      fun i h => by
        have : ∀ i : SegmentId, ((foundSegments 64).get i).eraseMark = false → ((foundSegments 64).get i).slots = [] →
            stepsAfter 2 4 ≤ stepsAfter 2 i := by decide
        exact this i h.unmarked.2 h.blank,
      ⟨rfl, rfl⟩, by decide, rfl, rfl⟩, rfl, rfl⟩

theorem witness_RestartCarriesWork :
    let s := carrying carried
    s.phase = .inReset (.saved .supplyWarning) true ∧ s.store.stored.area = some carried
      ∧ (carried.snapshots ≠ [] ∨ carried.receipts ≠ [] ∨ carried.records ≠ [])
      ∧ s.store.stored.vehiclesSound = true ∧ s.store.stored.areaSound
      ∧ (∃ p ∈ carried.snapshots, p.hose = 0) ∧ (∀ p ∈ carried.snapshots, p.hose ≠ 7)
      ∧ (s.store.stored.vehicle 5).host.inUse = true ∧ ∀ p ∈ carried.snapshots, p.grant.vehicle ≠ 511 :=
  ⟨rfl, rfl, .inl (by decide), by decide, fun a h => by cases h; decide, ⟨_, List.mem_cons_self, rfl⟩, by decide,
    by decide, by decide⟩

end Sys2Proof.Tests
end

/-! PROOFS. The family of Chapter 2, measurement: the arithmetic of a sample, the pulses and the temperature of an
engine. First what each operation of the engine answers, case by case; then the statements, each from those lemmas. -/

namespace Sys2Proof.Machine

open Sys2Proof

/-! ### The arithmetic of a sample (R40 to R52) -/

/-- A clamp to a range that is not empty, in the words of `max` and `min`. -/
theorem clampInt_eq_max_min {lo hi : Int} (hle : lo ≤ hi) (x : Int) : clampInt lo hi x = max lo (min hi x) := by
  unfold clampInt
  split
  · omega
  · split <;> omega

/-- Stage 4: the latest temperature, clamped, while it is held; the reference once the hold has lapsed, and before the
first valid sample (R46). -/
theorem temperatureUsed_eq (e : Engine) :
    temperatureUsed e =
      if e.held then (match e.latest with | some t => max (-2000) (min 7000 t) | none => 1500) else 1500 := by
  cases hh : e.held with
  | false => simp [temperatureUsed, hh]
  | true =>
    cases hl : e.latest with
    | none => simp [temperatureUsed, hl]
    | some t =>
      simp only [temperatureUsed, hh, hl]
      exact clampInt_eq_max_min (by decide) t

/-- Stage 4 reads the hold and the latest temperature alone, which the taking of the count leaves (R40, R46). -/
@[simp] theorem temperatureUsed_countTaken (e : Engine) (q : Nat) (o : Bool) :
    temperatureUsed { e with dP := 0, lastQ := q, overspeed := o } = temperatureUsed e := rfl

/-- The volume correction factor with its clamp in the words of `max` and `min` (R47). -/
theorem vcf_eq_max_min (beta : Nat) (t : Int) :
    vcf beta t = (max 950000 (min 1050000 (1000000 - roundHalfAway (beta * (t - 1500)) 100))).toNat := by
  unfold vcf
  rw [clampInt_eq_max_min (by decide)]

/-- A full sample of an engine with a latched calibration: stage 1, then the stages that it shares with the final
partial sample (R40, R41). -/
theorem fullSample_latched {e : Engine} {l : Latched} (hl : e.latched = some l) :
    fullSample e =
      sampleStages l (flowRate e.dP l.k) e.dP
        { e with
          dP := 0, lastQ := flowRate e.dP l.k
          overspeed := e.overspeed || decide (l.maxRate < flowRate e.dP l.k) } := by
  simp only [fullSample, hl]

/-- The final partial sample of an engine with a latched calibration: the shared stages at the last flow rate (R50). -/
theorem partialSample_latched {e : Engine} {l : Latched} (hl : e.latched = some l) :
    partialSample e = sampleStages l e.lastQ e.dP { e with sampleTimer := false, dP := 0 } := by
  simp only [partialSample, hl]

/-- Settles O26: both samples run the shared stages. For the full one the temperature and the volume correction factor
are rewritten to the clamps by `max` and `min` that the statement spells out; for the final one what is left is the
discarding of the residues. -/
theorem sampleArithmetic : Obligations.SampleArithmetic := by
  refine ⟨fun e l hl => ?_, fun e l hl => ?_⟩
  · intro q n dVg t d c m
    have ht : temperatureUsed e = t := temperatureUsed_eq e
    have hv : vcf l.beta t = (max 950000 (min 1050000 c)).toNat := vcf_eq_max_min l.beta t
    rw [fullSample_latched hl]
    simp only [sampleStages, temperatureUsed_countTaken, ht, hv]
    rfl
  · dsimp only
    rw [finishMeasurement, partialSample_latched hl]
    rfl

/-! ### Pulses (R6, R37, R38) -/

theorem HoseState.counted_eq_false_iff (st : HoseState) :
    st.counted = false ↔ st = .idle ∨ st = .ready ∨ st = .settled := by
  cases st <;> decide

/-- Of the states that count for the tank, CLOSING alone no longer demands its pump (R79, R99). -/
theorem HoseState.demands_of_counted {st : HoseState} (hc : st.counted = true) (hn : st ≠ .closing) :
    st.demands = true := by
  cases st with
  | starting | flowing | trimming | paused => rfl
  | closing => exact absurd rfl hn
  | idle | ready | settled => cases hc

@[simp] theorem pulseTimers_state (x : Hose) : (pulseTimers x).state = x.state := by
  unfold pulseTimers
  split <;> rfl

/-- No timer waits for flow in STARTING and PAUSED (R37). -/
theorem pulseTimers_waiting {x : Hose} (hs : x.state = .starting ∨ x.state = .paused) : pulseTimers x = x := by
  obtain hs | hs := hs <;> simp only [pulseTimers, hs]

theorem pulseTimers_open {x : Hose} (hs : x.state = .flowing ∨ x.state = .trimming) :
    pulseTimers x = { x with timers := { x.timers with noFlow := some x.config.noFlowTimeout } } := by
  obtain hs | hs := hs <;> simp only [pulseTimers, hs]

theorem pulseTimers_closing {x : Hose} (hs : x.state = .closing) :
    pulseTimers x = { x with timers := { x.timers with settle := some x.config.settleTime } } := by
  simp only [pulseTimers, hs]

theorem closeIf_pos {p : HoseState → Bool} {h : HoseId} {s : State} (r : EndReason) (hp : p (s.hose h).state = true) :
    closeIf p r h s = enterClosing h r s := if_pos hp

theorem closeIf_neg {p : HoseState → Bool} {h : HoseId} {s : State} (r : EndReason) (hp : p (s.hose h).state = false) :
    closeIf p r h s = s := if_neg (by simp [hp])

theorem exec_agreeingPulse {s : State} (hr : s.phase = .running) (h : HoseId) :
    exec (.agreeingPulse h) s = .next (takeAgreeing h s) :=
  congrArg Host.Outcome.next (whenRunning_running hr _)

theorem exec_disagreeingPulse {s : State} (hr : s.phase = .running) (h : HoseId) :
    exec (.disagreeingPulse h) s = .next (takeDisagreeing h s) :=
  congrArg Host.Outcome.next (whenRunning_running hr _)

theorem takeAgreeing_counted {s : State} {h : HoseId} (hc : (s.hose h).state.counted = true) :
    takeAgreeing h s =
      (s.setEngine h { s.engine h with dP := min 65535 ((s.engine h).dP + 1) }).setHose h (pulseTimers (s.hose h)) :=
  if_pos hc

theorem takeAgreeing_stray {s : State} {h : HoseId} (hc : (s.hose h).state.counted = false) :
    takeAgreeing h s = strayPulse h s := if_neg (by simp [hc])

theorem takeDisagreeing_stray {s : State} {h : HoseId} (hc : (s.hose h).state.counted = false) :
    takeDisagreeing h s = strayPulse h s := if_neg (by simp [hc])

/-- A stray pulse is counted at the hose and reported (R6). -/
theorem strayPulse_eq (h : HoseId) (s : State) :
    strayPulse h s =
      raise (.hoseFault h) .strayFlow (s.setHose h { s.hose h with stray := min 65535 ((s.hose h).stray + 1) }) := rfl

/-- The count is above the latched limit and no fault has been reported: the fault is due (R38). -/
theorem overLimit_latched {e : Engine} {l : Latched} (hl : e.latched = some l) :
    overLimit e = (decide (l.errorLimit < e.errors) && !e.faultReported) := by
  simp only [overLimit, hl]

/-- An error that reports no fault changes the count and the hose's timers alone. -/
theorem takeDisagreeing_within {s : State} {h : HoseId} (hc : (s.hose h).state.counted = true)
    (ho : overLimit (countError (s.engine h)) = false) :
    takeDisagreeing h s = (s.setHose h (pulseTimers (s.hose h))).setEngine h (countError (s.engine h)) := by
  simp [takeDisagreeing, hc, ho]

/-- An error that reports a fault closes a delivery that is not closing yet. -/
theorem takeDisagreeing_fault {s : State} {h : HoseId} (hc : (s.hose h).state.counted = true)
    (ho : overLimit (countError (s.engine h)) = true) :
    takeDisagreeing h s = closeIf HoseState.demands .measureFault h
      ((s.setHose h (pulseTimers (s.hose h))).setEngine h
        { countError (s.engine h) with faultReported := true }) := by
  simp [takeDisagreeing, hc, ho]

/-- Settles O23: in each state, whether the pulse counts and which timer it restarts. -/
theorem agreeingPulseCounts : Obligations.AgreeingPulseCounts := by
  intro s h hr x counted
  rw [exec_agreeingPulse hr]
  split
  next hs => rw [takeAgreeing_counted (congrArg HoseState.counted hs), pulseTimers_waiting (.inl hs)]
  next hs => rw [takeAgreeing_counted (congrArg HoseState.counted hs), pulseTimers_waiting (.inr hs)]
  next hs => rw [takeAgreeing_counted (congrArg HoseState.counted hs), pulseTimers_open (.inl hs)]
  next hs => rw [takeAgreeing_counted (congrArg HoseState.counted hs), pulseTimers_open (.inr hs)]
  next hs => rw [takeAgreeing_counted (congrArg HoseState.counted hs), pulseTimers_closing hs]
  next hs => rw [takeAgreeing_stray (congrArg HoseState.counted hs), strayPulse_eq]
  next hs => rw [takeAgreeing_stray (congrArg HoseState.counted hs), strayPulse_eq]
  next hs => rw [takeAgreeing_stray (congrArg HoseState.counted hs), strayPulse_eq]

/-- Settles O24: a pulse that counts either stays within the limit, or is the first above it, and then the state that
the hose kept decides whether there is a delivery left to close. -/
theorem disagreeingPulseCounts : Obligations.DisagreeingPulseCounts := by
  intro s h hr
  dsimp only
  rw [exec_disagreeingPulse hr]
  refine ⟨fun hst => ?_, fun l hl h1 h2 h3 => ?_⟩
  · rw [takeDisagreeing_stray ((HoseState.counted_eq_false_iff _).mpr hst), strayPulse_eq]
  have hc : (s.hose h).state.counted = true := by
    rw [← Bool.not_eq_false, HoseState.counted_eq_false_iff]
    simp [h1, h2, h3]
  have ho := overLimit_latched (e := countError (s.engine h)) hl
  refine ⟨fun hin => ?_, fun hlim hf => ?_⟩
  · have hoff : overLimit (countError (s.engine h)) = false := by
      rw [ho, Bool.and_eq_false_iff, decide_eq_false_iff_not, Bool.not_eq_false', not_lt]
      exact hin
    rw [takeDisagreeing_within hc hoff]
    rfl
  · have hon : overLimit (countError (s.engine h)) = true := by
      rw [ho, Bool.and_eq_true, decide_eq_true_eq, Bool.not_eq_true']
      exact ⟨hlim, hf⟩
    rw [takeDisagreeing_fault hc hon]
    refine ⟨fun hcl => ?_, fun hcl => ⟨_, rfl, ?_⟩⟩
    · rw [closeIf_neg _ (by simp [hcl, HoseState.demands])]
      rfl
    · rw [closeIf_pos _ (by simpa using HoseState.demands_of_counted hc hcl)]
      exact enterClosing_closed _ h .measureFault

/-! ### The temperature hold (R44, R45) -/

theorem exec_temperatureSample {s : State} (hr : s.phase = .running) (h : HoseId) (reading : Option Int) :
    exec (.temperatureSample h reading) s = .next (s.setEngine h (takeTemperature reading (s.engine h))) :=
  congrArg Host.Outcome.next (whenRunning_running hr _)

theorem exec_holdTimerExpiry {s : State} (hr : s.phase = .running) (h : HoseId) :
    exec (.holdTimerExpiry h) s = .next (s.setEngine h (lapseHold (s.engine h))) :=
  congrArg Host.Outcome.next (whenRunning_running hr _)

/-- An engine written back as it stands leaves every engine as it was. -/
theorem State.setEngine_self_engine (s : State) (h j : HoseId) : (s.setEngine h (s.engine h)).engine j = s.engine j := by
  by_cases hj : j = h
  · rw [hj, State.setEngine_engine_self]
  · exact State.setEngine_engine_ne s _ hj

theorem lapseHold_running {e : Engine} {n : Nat} (hn : e.holdTimer = some n) :
    lapseHold e = { e with held := false, holdTimer := none } := by
  simp only [lapseHold, hn]

/-- Settles O25: a sample that is valid, one that is not, and the expiry. -/
theorem temperatureIsHeld : Obligations.TemperatureIsHeld := by
  intro s h hr
  refine ⟨fun t => exec_temperatureSample hr h (some t), ⟨_, exec_temperatureSample hr h none, ?_, rfl, ?_⟩,
    fun n hn => ?_⟩
  · exact State.setEngine_self_engine s h h
  · exact State.setEngine_self_engine s h
  · rw [exec_holdTimerExpiry hr, lapseHold_running hn]

end Sys2Proof.Machine

/-! PROOFS. The family of Chapter 7, service accounting: the per-mille of a line and the status of the worst one, then
what a change of status does to the due list. First what each operation answers, case by case; then the statement. -/

namespace Sys2Proof.Machine

open Sys2Proof

/-! ### The worst line (R134 to R136) -/

/-- The hours since a mark: measured where they can be, else estimated from fuel (R134). -/
theorem hoursSince_eq (burn : Nat) (u : Usage) (m : Mark) :
    hoursSince burn u m =
      match u.meter, u.hours, m.hours with
      | true, some a, some b => a - b
      | _, _, _ => estimatedHours burn (fuelSince u m) := by
  unfold hoursSince measuredHours
  cases u.meter <;> cases u.hours <;> cases m.hours <;> rfl

/-- The per-mille of a line, with 0 for a measure whose interval is 0 (R135). -/
theorem linePerMille_eq (burn : Nat) (l : ScheduleLine) (u : Usage) (m : Mark) :
    linePerMille burn l u m =
      min 65535 (max (if l.hour = 0 then 0 else hoursSince burn u m * 1000 / l.hour)
        (if l.fuel = 0 then 0 else fuelSince u m * 1000 / (l.fuel * 1000))) := by
  simp only [linePerMille, hourPerMille, fuelPerMille, apply_ite (Option.getD · 0), Option.getD_none, Option.getD_some]

theorem ScheduleLine.used_iff (l : ScheduleLine) : l.used = true ↔ l.hour ≠ 0 ∨ l.fuel ≠ 0 := by
  simp [ScheduleLine.used]

section
variable {c : ClassRecord} {u : Usage} {marks : Vector Mark 4}

theorem mem_usedLines {x : LineId × Nat} :
    x ∈ usedLines c u marks ↔
      (c.lines.get x.1).used = true ∧ linePerMille c.burnRate (c.lines.get x.1) u (marks.get x.1) = x.2 := by
  have hall : ∀ n : LineId, n ∈ allLines := by decide
  simp only [usedLines, List.mem_map, List.mem_filter]
  constructor
  · rintro ⟨n, ⟨-, hn⟩, rfl⟩
    exact ⟨hn, rfl⟩
  · rintro ⟨hx, hp⟩
    exact ⟨x.1, ⟨hall x.1, hx⟩, Prod.ext rfl hp⟩

theorem usedLines_ascending : (usedLines c u marks).Pairwise (fun x y => x.1 < y.1) :=
  List.pairwise_map.mpr (List.Pairwise.filter _ (by decide : allLines.Pairwise (· < ·)))

theorem worstLine_eq_none (h : ∀ n : LineId, (c.lines.get n).used = false) : worstLine c u marks = none := by
  have hnil : usedLines c u marks = [] :=
    List.eq_nil_iff_forall_not_mem.mpr fun x hx => absurd (mem_usedLines.mp hx).1 (by simp [h])
  rw [worstLine, hnil]
  rfl

/-- Where a line is used there is a worst line, and its per-mille is the greatest of a used line. -/
theorem worstLine_greatest {w : LineId} (hw : (c.lines.get w).used = true) :
    ∃ y, worstLine c u marks = some y ∧ y ∈ usedLines c u marks ∧ ∀ x ∈ usedLines c u marks, x.2 ≤ y.2 := by
  have hmem : (w, linePerMille c.burnRate (c.lines.get w) u (marks.get w)) ∈ usedLines c u marks :=
    mem_usedLines.mpr ⟨hw, rfl⟩
  obtain ⟨b, xs, hl⟩ := List.exists_cons_of_ne_nil (List.ne_nil_of_mem hmem)
  obtain ⟨y, hy, hin, hbest⟩ := worse_best xs b (hl ▸ usedLines_ascending)
  rw [worstLine, hl]
  exact ⟨y, hy, hin, fun x hx => (hbest x hx).elim le_of_lt fun h => le_of_eq h.1⟩

end

theorem statusOf_no_used_line {c : ClassRecord} (r : Vehicle) (h : ∀ n : LineId, (c.lines.get n).used = false) :
    statusOf c r = .ok := by
  rw [statusOf, worstLine_eq_none h]
  split <;> rfl

/-- The status of an in-use vehicle is that of any used line whose per-mille no used line exceeds (R136). -/
theorem statusOf_worst {c : ClassRecord} {r : Vehicle} {w : LineId} (hr : r.host.inUse = true)
    (hw : (c.lines.get w).used = true)
    (hmax : ∀ n : LineId, (c.lines.get n).used = true →
      linePerMille c.burnRate (c.lines.get n) r.usage (r.marks.get n)
        ≤ linePerMille c.burnRate (c.lines.get w) r.usage (r.marks.get w)) :
    statusOf c r = statusOfPerMille c (linePerMille c.burnRate (c.lines.get w) r.usage (r.marks.get w)) := by
  obtain ⟨y, hy, hin, hbest⟩ := worstLine_greatest (u := r.usage) (marks := r.marks) hw
  obtain ⟨hused, hp⟩ := mem_usedLines.mp hin
  have hle : y.2 ≤ linePerMille c.burnRate (c.lines.get w) r.usage (r.marks.get w) := hp ▸ hmax y.1 hused
  have hge := hbest (w, linePerMille c.burnRate (c.lines.get w) r.usage (r.marks.get w)) (mem_usedLines.mpr ⟨hw, rfl⟩)
  rw [statusOf, if_pos hr, hy, ← le_antisymm hle hge]

/-! ### The due list follows a change of status (R141, R142) -/

/-- A record written to the vehicle beforehand shows in neither the due list nor the link. -/
theorem DueListFollows.of_setVehicle {s t : State} {u v : VehicleId} {x : Vehicle} {old new : ServiceStatus}
    (h : DueListFollows (s.setVehicle u x) t v old new) : DueListFollows s t v old new :=
  ⟨h.joins, h.leaves, h.stays, h.worse, h.quiet⟩

/-! ### The recomputation (R137) -/

theorem takeStatusReport_of_not_ready {h : HoseId} {s : State} (hh : (s.hose h).state ≠ .ready) (c : ClassRecord)
    (new : ServiceStatus) : takeStatusReport h c new s = s := by
  unfold takeStatusReport
  split
  · next hr _ => exact absurd hr hh
  · rfl

theorem updateDueList_hose (v : VehicleId) (old new : ServiceStatus) (s : State) (h : HoseId) :
    (updateDueList v old new s).hose h = s.hose h := by
  obtain ⟨_, _, _, _, e⟩ := updateDueList_frame v old new s
  rw [e]
  rfl

section
variable {s : State} {v : VehicleId}

theorem recompute_unchanged (h : statusOf (s.classOf (s.vehicle v).host.cls) (s.vehicle v) = (s.vehicle v).status) :
    recompute v s = s :=
  if_pos h

/-- A recomputation that changes the status, where no hose in READY is bound, is the write of it and the due list's
update. -/
theorem recompute_changed {new : ServiceStatus}
    (hnew : statusOf (s.classOf (s.vehicle v).host.cls) (s.vehicle v) = new) (hne : new ≠ (s.vehicle v).status)
    (hb : ∀ h, (s.vehicle v).binding = some h → (s.hose h).state ≠ .ready) :
    recompute v s =
      updateDueList v (s.vehicle v).status new (s.setVehicle v { s.vehicle v with status := new }) := by
  unfold recompute
  simp only [hnew, if_neg hne]
  split
  · rfl
  · next h hh =>
    exact takeStatusReport_of_not_ready (by rw [updateDueList_hose, State.setVehicle_hose]; exact hb h hh) _ _

end

/-- Settles O43: the recomputation in its two cases, then the status by the worst line. -/
theorem statusFollowsWorstLine : Obligations.StatusFollowsWorstLine := by
  refine ⟨fun s v hw => ⟨recompute_unchanged, fun hne hb => ?_⟩, ?_⟩
  · have hq := recompute_quiet hw hb
    obtain ⟨_, _, _, _, _, hframe⟩ := hq.frame
    refine ⟨hq.self, hq.others, ?_, by rw [hframe]⟩
    rw [recompute_changed rfl hne hb]
    exact (updateDueList_follows v hne _).of_setVehicle
  · intro c r hr used fuel hours perMille
    have hused : ∀ n, (c.lines.get n).used = true ↔ used n := fun n => ScheduleLine.used_iff _
    have hhours : ∀ n, hoursSince c.burnRate r.usage (r.marks.get n) = hours n := fun n => hoursSince_eq _ _ _
    have hperMille : ∀ n, linePerMille c.burnRate (c.lines.get n) r.usage (r.marks.get n) = perMille n := fun n => by
      rw [linePerMille_eq, hhours]
      rfl
    refine ⟨fun hno => statusOf_no_used_line r fun n => Bool.eq_false_iff.mpr (mt (hused n).mp (hno n)),
      fun w hw hmax => ?_⟩
    rw [← hperMille w]
    exact statusOf_worst hr ((hused w).mpr hw) fun n hn => by
      rw [hperMille, hperMille]
      exact hmax n ((hused n).mp hn)

end Sys2Proof.Machine

/-! PROOFS. Every command answers a next state and leaves the queue of commands alone, and every step keeps a sound
state sound. The valves, the event queue and the due list are followed along the chain of edits that a command is; the
other laws are the aspects of `Kept`, which each block's operations keep. -/

namespace Sys2Proof.Machine

open Sys2Proof

/-! ### The event queue (R196) -/

/-- Coalescing keeps the keys of the entries. -/
theorem keys_coalesced (k : EventKey) (d : Detail) (es : List EventEntry) :
    (es.map fun e => if e.key = k then { e with count := min Config.raiseLimit (e.count + 1), detail := d } else e).map
      (·.key) = es.map (·.key) := by
  rw [List.map_map]
  refine List.map_congr_left fun e _ => ?_
  dsimp only [Function.comp]
  split <;> rfl

theorem eventsSound_raise (k : EventKey) (d : Detail) {s : State} (h : eventsSound s.link.events) :
    eventsSound (raise k d s).link.events := by
  obtain ⟨hnodup, hcount⟩ := h
  rw [raise_events]
  split
  · refine ⟨by rw [keys_coalesced]; exact hnodup, fun x hx => ?_⟩
    obtain ⟨e, he, rfl⟩ := List.mem_map.mp hx
    have := hcount e he
    split
    · exact ⟨by dsimp only [Config.raiseLimit]; omega, Nat.min_le_left _ _⟩
    · exact this
  · next hnew =>
    simp only [List.any_eq_true, decide_eq_true_eq, not_exists, not_and] at hnew
    refine ⟨?_, fun x hx => ?_⟩
    · rw [List.map_append, List.map_cons, List.map_nil, List.nodup_append]
      refine ⟨hnodup, List.nodup_singleton _, fun a ha b hb => ?_⟩
      obtain ⟨e, he, rfl⟩ := List.mem_map.mp ha
      rw [List.mem_singleton.mp hb]
      exact hnew e he
    · rcases List.mem_append.mp hx with hx | hx
      · exact hcount x hx
      · rw [List.mem_singleton.mp hx]
        exact ⟨le_refl 1, (by decide : 1 ≤ Config.raiseLimit)⟩

theorem eventsSound_drop (n : Nat) {es : List EventEntry} (h : eventsSound es) : eventsSound (es.drop n) :=
  ⟨by rw [List.map_drop]; exact h.1.sublist (List.drop_sublist n _), fun e he => h.2 e (List.mem_of_mem_drop he)⟩

theorem eventsSound_updateDueList (v : VehicleId) (old new : ServiceStatus) {s : State} (h : eventsSound s.link.events) :
    eventsSound (updateDueList v old new s).link.events := by
  unfold updateDueList
  split
  · exact eventsSound_raise _ _ h
  · split
    · exact h
    · split
      · exact eventsSound_raise _ _ h
      · exact h

/-! ### The due list (R141) -/

/-- The due list after an update: the vehicle joins at the end, leaves, or the list stands. -/
theorem updateDueList_dueList (v : VehicleId) (old new : ServiceStatus) (s : State) :
    (updateDueList v old new s).dueList =
      if new.listed = true ∧ old.listed = false then s.dueList ++ [v]
      else if new.listed = false ∧ old.listed = true then s.dueList.filter fun x => decide (x ≠ v)
      else s.dueList := by
  cases old <;> cases new <;> rfl

theorem updateDueList_vehicle (v : VehicleId) (old new : ServiceStatus) (s : State) (u : VehicleId) :
    (updateDueList v old new s).vehicle u = s.vehicle u := by
  obtain ⟨_, _, _, _, e⟩ := updateDueList_frame v old new s
  rw [e]
  rfl

/-- A change of a vehicle's status, with the due list's update, keeps the list the one of the statuses. -/
theorem dueSound_status {s : State} (hs : s.vehiclesSound = true) (h : s.dueSound) (v : VehicleId) (new : ServiceStatus) :
    (updateDueList v (s.vehicle v).status new (s.setVehicle v { s.vehicle v with status := new })).dueSound := by
  obtain ⟨hnodup, hmem⟩ := h
  have hstatus : ∀ u, ((updateDueList v (s.vehicle v).status new
      (s.setVehicle v { s.vehicle v with status := new })).vehicle u).status.listed =
      if u = v then new.listed else (s.vehicle u).status.listed := fun u => by
    rw [updateDueList_vehicle]
    by_cases hu : u = v
    · rw [if_pos hu, hu, State.setVehicle_vehicle_self hs]
    · rw [if_neg hu, State.setVehicle_vehicle_ne hu]
  unfold State.dueSound
  simp only [hstatus]
  rw [updateDueList_dueList, State.setVehicle_dueList]
  split
  · next hj =>
    obtain ⟨hnew, hold⟩ := hj
    have hv : v ∉ s.dueList := by rw [hmem, hold]; decide
    refine ⟨List.nodup_append.mpr ⟨hnodup, List.nodup_singleton _, fun a ha b hb => ?_⟩, fun u => ?_⟩
    · rw [List.mem_singleton.mp hb]
      exact fun e => hv (e ▸ ha)
    · by_cases hu : u = v <;> simp [hu, hnew, hmem]
  · split
    · next hl =>
      obtain ⟨hnew, -⟩ := hl
      refine ⟨hnodup.filter _, fun u => ?_⟩
      by_cases hu : u = v <;> simp [hu, hnew, hmem]
    · next hj hl =>
      have hsame : new.listed = (s.vehicle v).status.listed := by
        cases hn : new.listed <;> cases ho : (s.vehicle v).status.listed <;> simp_all
      refine ⟨hnodup, fun u => ?_⟩
      by_cases hu : u = v
      · rw [if_pos hu, hu, hmem, hsame]
      · rw [if_neg hu, hmem]

/-- A record written with the status it had keeps the due list the one of the statuses. -/
theorem dueSound_setVehicle {s : State} (hs : s.vehiclesSound = true) (h : s.dueSound) (v : VehicleId) {x : Vehicle}
    (hx : x.status = (s.vehicle v).status) : (s.setVehicle v x).dueSound := by
  refine ⟨h.1, fun u => (h.2 u).trans ?_⟩
  by_cases hu : u = v
  · rw [hu, State.setVehicle_vehicle_self hs, hx]
  · rw [State.setVehicle_vehicle_ne hu]

/-! ### What the edits keep -/

/-- The laws of soundness that each edit keeps. -/
structure State.EditSound (s : State) : Prop where
  vehicles : s.vehiclesSound = true
  stored : s.store.stored.vehiclesSound = true
  valves : s.valvesSafe
  events : eventsSound s.link.events
  due : s.dueSound

namespace Edit

variable {s₀ s : State}

/-- No edit touches the queue of the commands that wait. -/
theorem pending_eq (h : Edit s₀ s) : s.pending = s₀.pending := by
  induction h with
  | start => rfl
  | hose _ _ _ _ ih | hoses _ _ _ ih | raised _ _ _ ih | read _ _ _ _ ih | vehicle _ _ _ _ ih | stored _ _ _ ih => exact ih
  | status _ v new ih =>
    obtain ⟨_, _, _, _, e⟩ := updateDueList_frame v _ new (State.setVehicle _ v _)
    rw [e]
    exact ih
  | other _ _ ht ih => exact ht.pending.trans ih
  | restart _ _ ht ih => exact ht.pending.trans ih

theorem sound (h : Edit s₀ s) (hs : s₀.EditSound) : s.EditSound := by
  induction h with
  | start => exact hs
  | hose _ i x hv ih =>
    refine { ih with valves := fun j => ?_ }
    by_cases hj : j = i
    · rw [hj, State.setHose_hose_self]; exact hv (ih.valves i)
    · rw [State.setHose_hose_ne _ _ hj]; exact ih.valves j
  | hoses _ _ hv ih => exact { ih with valves := fun j => hv j (ih.valves j) }
  | raised _ k d ih => exact { ih with events := eventsSound_raise k d ih.events }
  | read _ n _ hl ih => exact { ih with events := by rw [State.setLink_link, hl]; exact eventsSound_drop n ih.events }
  | vehicle _ v _ hx ih =>
    exact { ih with vehicles := State.setVehicle_sound ih.vehicles, due := dueSound_setVehicle ih.vehicles ih.due v hx }
  | @status u _ v new ih =>
    have hdue := dueSound_status ih.vehicles ih.due v new
    have hevents := eventsSound_updateDueList v (u.vehicle v).status new
      (s := u.setVehicle v { u.vehicle v with status := new }) ih.events
    obtain ⟨_, _, _, _, e⟩ := updateDueList_frame v (u.vehicle v).status new
      (u.setVehicle v { u.vehicle v with status := new })
    rw [e] at hdue hevents ⊢
    exact ⟨State.setVehicle_sound ih.vehicles, ih.stored, ih.valves, hevents, hdue⟩
  | stored _ _ hx ih => exact { ih with stored := hx ih.stored }
  | other _ t ht ih =>
    obtain ⟨hhoses, hevents, hvehicles, hdue, hstored, -⟩ := ht
    obtain ⟨h1, h2, h3, h4, h5⟩ := ih
    refine ⟨?_, ?_, fun i => ?_, ?_, ?_, fun v => ?_⟩
    · rw [State.vehiclesSound, hvehicles]; exact h1
    · rw [Stored.vehiclesSound, hstored]; exact h2
    · rw [State.hose, hhoses]; exact h3 i
    · rw [hevents]; exact h4
    · rw [hdue]; exact h5.1
    · rw [hdue, State.vehicle, hvehicles]; exact h5.2 v
  | restart _ t ht ih =>
    obtain ⟨hvehicles, hdue⟩ := ht.sound ih.stored
    refine ⟨hvehicles, ?_, fun i => .inl (ht.closed i), ?_, hdue⟩
    · rw [Stored.vehiclesSound, ht.stored]; exact ih.stored
    · rw [ht.events]; exact ⟨List.nodup_nil, fun _ he => by cases he⟩

end Edit

/-! ### Every command answers a next state -/

theorem exec_next (c : Instr) (s : State) : ∃ t, exec c s = .next t := by
  cases c <;> exact ⟨_, rfl⟩

/-- Settles O3: what a command answers is a chain of edits, and no edit touches the queue. -/
theorem commandsCompleteKeepQueue : Obligations.CommandsCompleteKeepQueue := by
  intro c s
  obtain ⟨t, ht⟩ := exec_next c s
  exact ⟨t, ht, (Edit.exec c .start ht).pending_eq⟩

/-! ### The aspects that whole operations keep -/

/-- The laws of soundness with nothing left open. -/
theorem State.Sound.kept {s : State} (h : s.Sound) : Kept {} s where
  vehicles := h.vehicles
  stored := h.stored
  grants _ := h.grants
  demand _ := h.demand
  slot _ := h.slot
  area := h.area
  levels _ := h.levels
  sealed _ := h.sealed
  resealed := h.resealed
  attention := h.link.attention
  waiting := h.link.waiting
  replies := h.link.replies
  segments _ := h.segments
  spare _ := h.spare
  working := h.tags.working
  tags := h.tags.stored
  order hp v := by
    have := h.tags.order hp v
    rw [Stored.after] at this ⊢
    rw [List.foldl_append]
    exact this
  live c := absurd rfl c

theorem Kept.sound {s : State} (h : Kept {} s) (he : s.EditSound) : s.Sound where
  vehicles := h.vehicles
  stored := h.stored
  valves := he.valves
  events := he.events
  due := he.due
  grants := h.grants rfl
  demand := h.demand rfl
  slot := h.slot rfl
  area := h.area
  levels := h.levels rfl
  sealed := h.sealed rfl
  resealed := h.resealed
  link := ⟨h.attention, h.waiting, h.replies⟩
  segments := h.segments rfl
  spare := h.spare rfl
  tags := ⟨h.working, h.tags, fun hp v => by
    have := h.order hp v
    rw [Stored.after, List.foldl_append] at this
    exact this⟩

theorem Kept.withPending {w : Watch} {s : State} (h : Kept w s) (q : List Instr) : Kept w { s with pending := q } :=
  h.other _ ⟨rfl, rfl, rfl, rfl, rfl, rfl, rfl, rfl, rfl, rfl, rfl⟩

theorem State.EditSound.withPending {s : State} (h : s.EditSound) (q : List Instr) :
    State.EditSound { s with pending := q } := { h with }

namespace Kept

variable {s t : State}

/-! A command keeps the aspects when the operation that its meaning names keeps them. -/

theorem ran {f : State → State} (e : (.next (Machine.whenRunning s f) : Result) = .next t) (h : Kept {} s)
    (hf : Kept {} (f s)) : Kept {} t := by
  cases e; exact whenRunning h fun _ => hf

theorem lived {f : State → State} (e : (.next (Machine.whenLive s f) : Result) = .next t) (h : Kept {} s)
    (hf : Kept {} (f s)) : Kept {} t := by
  cases e; exact whenLive h hf

theorem wrote {f : State → State} (e : (.next (Machine.whenWriting s f) : Result) = .next t) (h : Kept {} s)
    (hf : Kept {} (f s)) : Kept {} t := by
  cases e; exact whenWriting h hf

theorem of_next {u : State} (e : (.next u : Result) = .next t) (h : Kept {} u) : Kept {} t := by
  cases e; exact h

theorem exec (c : Instr) (h : Kept {} s) (e : Machine.exec c s = .next t) : Kept {} t := by
  cases c with
  | tagRead i tag n => exact ran e h (takeTag h i tag _)
  | nozzleLift i => exact ran e h (takeLift h i)
  | nozzleHang i => exact ran e h (takeHang h i)
  | agreeingPulse i => exact ran e h (takeAgreeing h i)
  | disagreeingPulse i => exact ran e h (takeDisagreeing h i)
  | temperatureSample i r => exact ran e h (setEngine h i _)
  | holdTimerExpiry i => exact ran e h (setEngine h i _)
  | sampleTimerExpiry i => exact ran e h (takeSample h i)
  | readyTimerExpiry i => exact ran e h (readyExpires h i)
  | noFlowTimerExpiry i => exact ran e h (noFlowExpires h i)
  | pauseTimerExpiry i => exact ran e h (pauseExpires h i)
  | settleTimerExpiry i => exact ran e h (settleExpires h rfl i)
  | closingLimitExpiry i => exact ran e h (closingExpires h rfl i)
  | refusalDisplayExpiry i => exact ran e h (displayEnds h i)
  | emergencyStopActive => exact of_next e (emergencyStopActive h)
  | emergencyStopRelease => exact of_next e (emergencyStopRelease h)
  | metrologySwitchClose => exact of_next e (switchClose h)
  | metrologySwitchOpen => exact of_next e (switchOpen h)
  | probeSample k r => exact ran e h (takeProbe h k r)
  | staleTimerExpiry k => exact ran e h (probeStale h k)
  | quietTimerExpiry k => exact ran e h (tankQuiet h k)
  | receiptSettleTimerExpiry k => exact ran e h (closeReceipt h k)
  | pressureUp k => exact of_next e (pressureUp h k)
  | pressureDown k => exact of_next e (pressureDown h k)
  | startTimerExpiry k => exact ran e h (startExpires h k)
  | runOnTimerExpiry k => exact ran e h (runOnExpires h k)
  | supplyWarning => exact of_next e (takeResetCause h rfl _)
  | resetLineAssert => exact of_next e (takeResetCause h rfl _)
  | supplyLoss => exact of_next e (takeSupplyLoss h rfl)
  | powerFailSaveComplete => exact of_next e (endSave h rfl rfl)
  | resetRelease b => exact of_next e (takeResetRelease h rfl rfl b)
  | powerFailAreaCleared => exact of_next e (takeAreaCleared h)
  | rxByte x => exact ran e h (takeByte h x)
  | framingError => exact ran e h (takeFramingError h)
  | gapTimerExpiry => exact ran e h (gapExpires h)
  | linkTimerExpiry => exact ran e h (linkExpires h)
  | replySent => exact lived e h (drain (takeReplySent h))
  | journalWriteStart => exact lived e h (drain (beginJournalWrite h))
  | journalWriteComplete b => exact wrote e h (drain (endJournalWrite h rfl b))
  | eraseStart => exact lived e h (startErase h rfl)
  | eraseComplete b => exact lived e h (endErase h rfl b)
  | settingsWriteStart => exact lived e h (beginStoreWrite h)
  | settingsWriteComplete => exact wrote e h (drain (endStoreWrite h))
  | classSweepVehicle => exact lived e h (drain (sweepVehicle h))
  | authorize | cancel | stop | pause | resume | hoseQuery | hoseSet | totalizerRead | calOpen | calClose | calWrite
  | calRead | productSet | productRead | receiptBegin | receiptEnd | stockAdjust | tankSet | strapSet | tankQuery
  | strapRead | pumpSet | pumpQuery | pumpClear | vehicleGet | vehicleFind | vehiclePut | vehicleLoadBegin
  | vehicleLoadNext | vehicleLoadEnd | classRead | hoursSet | serviceDone | classSet | dueListRead | serviceQuery
  | journalRead | journalAck | journalStatus | status | eventsRead | siteSet | timeSet | restart =>
    exact ran e h (hostRequest h _ _)
  | unknownKind tag kind body =>
    refine ran e h ?_
    split
    · exact frameArrives h _
    · exact h

theorem step (h : Kept {} s) (e : Machine.step s = .next t) : Kept {} t := by
  unfold Machine.step at e
  split at e
  · exact of_next e (secondPasses h)
  · next rest _ => exact exec _ (h.withPending rest) e

end Kept

/-- Settles O6: the blocks' operations keep the aspects, and the chain of edits that a step is keeps the rest. -/
theorem stepKeepsSound : Obligations.StepKeepsSound := by
  intro s t hs ht
  have hedit : s.EditSound := ⟨hs.vehicles, hs.stored, hs.valves, hs.events, hs.due⟩
  obtain ⟨q, hq⟩ := Edit.step ht
  exact (hs.kept.step ht).sound (hq.sound (hedit.withPending q))

end Sys2Proof.Machine

/-! PROOFS. The step and the passing of a second, the reset state, and the event queue. -/

namespace Sys2Proof.Machine

open Sys2Proof

/-! ### The step and the second -/

/-- Settles O1: the step's two cases, the second of them. -/
theorem stepRunsFrontCommand : Obligations.StepRunsFrontCommand := fun _ _ _ => rfl

theorem secondPasses_running {s : State} (h : s.phase = .running) :
    secondPasses s = runTimers (s.setClock (countSecond s.clock)) := whenRunning_running (s := s.setClock (countSecond s.clock)) h _

theorem secondPasses_not_running {s : State} (h : s.phase ≠ .running) :
    secondPasses s = s.setClock (countSecond s.clock) := by
  unfold secondPasses whenRunning
  split
  · next hp => exact absurd hp h
  all_goals rfl

theorem runTimers_hose (s : State) (h : HoseId) :
    (runTimers s).hose h = { s.hose h with timers := (s.hose h).timers.run } := vmap_get _ _ h

theorem runTimers_engine (s : State) (h : HoseId) :
    (runTimers s).engine h = { s.engine h with holdTimer := Timer.run (s.engine h).holdTimer } := vmap_get _ _ h

theorem runTimers_tank (s : State) (k : TankId) :
    (runTimers s).tank k =
      { s.tank k with
        staleTimer := Timer.run (s.tank k).staleTimer, quietTimer := Timer.run (s.tank k).quietTimer
        receipt := (s.tank k).receipt.run } := vmap_get _ _ k

theorem runTimers_pump (s : State) (k : TankId) :
    (runTimers s).pump k =
      { s.pump k with
        startTimer := Timer.run (s.pump k).startTimer, runOnTimer := Timer.run (s.pump k).runOnTimer } := vmap_get _ _ k

/-- The settle timer of a receipt, in the words of the statement: the other receipt states have none. -/
theorem ReceiptState.run_eq (r : ReceiptState) :
    r.run = match r with
      | .settling r n => .settling r (n.map (· - 1))
      | other => other := by
  cases r <;> rfl

/-- Settles O2: a part that runs has its timers run down, and every part its clock count. -/
theorem idleStepPassesSecond : Obligations.IdleStepPassesSecond := by
  intro s hq
  have hstep : step s = .next (secondPasses s) := by unfold step; rw [hq]
  refine ⟨_, hstep, ?_⟩
  by_cases hr : s.phase = .running
  · rw [secondPasses_running hr]
    refine ⟨rfl, fun hn => absurd hr hn, fun _ => ⟨fun h => runTimers_hose _ h, fun h => runTimers_engine _ h, fun k => ?_,
      fun k => runTimers_pump _ k, rfl, rfl⟩⟩
    rw [runTimers_tank, ReceiptState.run_eq]
    rfl
  · rw [secondPasses_not_running hr]
    exact ⟨rfl, fun _ => rfl, fun h => absurd h hr⟩

/-! ### The reset state -/

/-- At reset no index is listed, so that each reads as unused (R110). -/
theorem State.reset_vehicle (v : VehicleId) : State.reset.vehicle v = Vehicle.unused := rfl

theorem reset_stored_vehicle (v : VehicleId) : State.reset.store.stored.vehicle v = StoredVehicle.unused := rfl

/-- A table of unused records carries no tag. -/
theorem tagsDistinct_unused : tagsDistinct fun _ => HostPart.unused := fun _ _ h => nomatch (h : HostPart.unused.inUse = true)

/-- Settles O4: the reset state is one closed value. -/
theorem resetValues : Obligations.ResetValues := by
  refine ⟨by decide, by decide, fun v => ⟨rfl, rfl⟩, by decide, rfl, rfl, rfl, rfl, rfl, by decide, rfl, rfl, rfl, rfl,
    rfl, rfl, rfl, rfl⟩

theorem reset_grantsAgree : State.reset.GrantsAgree where
  idle := by decide
  bound v h := by
    have hg : (State.reset.hose h).grant = none := by revert h; decide
    have hb : Vehicle.unused.binding = none := rfl
    simp only [State.reset_vehicle, hb, hg, reduceCtorEq, false_and, exists_false]
  ready h g hs := absurd hs (by revert h; decide)
  reserved := by decide

theorem reset_segmentsSound : State.reset.journal.SegmentsSound where
  one := by decide
  room := by decide
  blank := by decide
  erasing _ h := by cases h

/-- Settles O5: law by law, on the reset state. -/
theorem resetIsSound : Obligations.ResetIsSound where
  vehicles := rfl
  stored := rfl
  valves := by decide
  events := by decide
  due := ⟨List.nodup_nil, fun _ => ⟨nofun, nofun⟩⟩
  grants := reset_grantsAgree
  demand := by unfold State.demandAgrees; decide
  slot := by unfold State.slotAgrees; decide
  area _ h := by cases h
  levels _ := ⟨rfl, rfl, by decide⟩
  sealed _ _ := by unfold State.protected; decide
  resealed h := by cases h
  link := ⟨by decide, by decide, by decide⟩
  segments _ := reset_segmentsSound
  spare _ := by unfold Journal.spare; decide
  tags := ⟨tagsDistinct_unused, fun n => by cases n <;> exact tagsDistinct_unused, fun _ _ => rfl⟩

/-! ### The event queue (R196) -/

/-- An entry of another key stands as it is when an event is raised. -/
theorem map_coalesce_others {k : EventKey} {d : Detail} {es : List EventEntry} (h : ∀ x ∈ es, x.key ≠ k) :
    (es.map fun e => if e.key = k then { e with count := min Config.raiseLimit (e.count + 1), detail := d } else e) = es := by
  rw [List.map_congr_left fun x hx => if_neg (h x hx), List.map_id']

/-- Settles O56: the entry of the key stands in the queue, or none does. -/
theorem eventsCoalesce : Obligations.EventsCoalesce := by
  intro s k d
  refine ⟨fun front back e hes hek hothers => ?_, fun hnone => ?_⟩
  · have hfront : ∀ x ∈ front, x.key ≠ k := fun x hx => hothers x (List.mem_append_left _ hx)
    have hback : ∀ x ∈ back, x.key ≠ k := fun x hx => hothers x (List.mem_append_right _ hx)
    have hany : s.link.events.any (fun e => decide (e.key = k)) = true :=
      List.any_eq_true.mpr ⟨e, by simp [hes], by simp [hek]⟩
    rw [raise_events, if_pos hany, hes, List.map_append, List.map_cons, map_coalesce_others hfront,
      map_coalesce_others hback, if_pos hek]
  · have hany : s.link.events.any (fun e => decide (e.key = k)) = false :=
      List.any_eq_false.mpr fun x hx => by simpa using hnone x hx
    exact (raise_events k d s).trans (if_neg (ne_true_of_eq_false hany))

end Sys2Proof.Machine

/-! PROOFS. The bytes of a request's body read back as its fields, and the bytes of a frame, one after the other, do
what the frame's arrival does. -/

namespace Sys2Proof.Machine

open Sys2Proof

/-! ### Words from their bytes (R202) -/

/-- A word is its two halves, high half first. -/
theorem halves_append {n : Nat} (x : BitVec (n + n)) : x.extractLsb' n n ++ x.extractLsb' 0 n = x :=
  (BitVec.extractLsb'_append_extractLsb'_eq_extractLsb' (by simp)).trans (by simp)

theorem halves16 (x : BitVec 16) : x.extractLsb' 8 8 ++ x.extractLsb' 0 8 = x := halves_append (n := 8) x

theorem halves32 (x : BitVec 32) : x.extractLsb' 16 16 ++ x.extractLsb' 0 16 = x := halves_append (n := 16) x

theorem halves64 (x : BitVec 64) : x.extractLsb' 32 32 ++ x.extractLsb' 0 32 = x := halves_append (n := 32) x

theorem parts48 (x : BitVec 48) : x.extractLsb' 16 32 ++ x.extractLsb' 0 16 = x :=
  (BitVec.extractLsb'_append_extractLsb'_eq_extractLsb' (by simp)).trans (by simp)

section
variable (front back : List Byte) {o : Nat} (ho : o = front.length)
include ho

theorem byteAt_append (b : Byte) : byteAt (front ++ b :: back) o = b := by
  subst ho; simp [byteAt]

theorem u16At_append (x : BitVec 16) : u16At (front ++ (put16 x ++ back)) o = x := by
  have h0 := byteAt_append front (x.extractLsb' 0 8 :: back) ho (x.extractLsb' 8 8)
  have h1 := byteAt_append (front ++ [x.extractLsb' 8 8]) back (o := o + 1) (by simp [ho]) (x.extractLsb' 0 8)
  rw [List.append_assoc] at h1
  exact (congrArg₂ (· ++ ·) h0 h1).trans (halves16 x)

theorem u32At_append (x : BitVec 32) : u32At (front ++ (put32 x ++ back)) o = x := by
  have h0 := u16At_append front (put16 (x.extractLsb' 0 16) ++ back) ho (x.extractLsb' 16 16)
  have h1 := u16At_append (front ++ put16 (x.extractLsb' 16 16)) back (o := o + 2) (by simp [ho]) (x.extractLsb' 0 16)
  rw [List.append_assoc] at h1
  exact (congrArg₂ (· ++ ·) h0 h1).trans (halves32 x)

theorem u48At_append (x : BitVec 48) : u48At (front ++ (put48 x ++ back)) o = x := by
  have h0 := u32At_append front (put16 (x.extractLsb' 0 16) ++ back) ho (x.extractLsb' 16 32)
  have h1 := u16At_append (front ++ put32 (x.extractLsb' 16 32)) back (o := o + 4) (by simp [ho]) (x.extractLsb' 0 16)
  rw [List.append_assoc] at h1
  exact (congrArg₂ (· ++ ·) h0 h1).trans (parts48 x)

theorem u64At_append (x : BitVec 64) : u64At (front ++ (put64 x ++ back)) o = x := by
  have h0 := u32At_append front (put32 (x.extractLsb' 0 32) ++ back) ho (x.extractLsb' 32 32)
  have h1 := u32At_append (front ++ put32 (x.extractLsb' 32 32)) back (o := o + 4) (by simp [ho]) (x.extractLsb' 0 32)
  rw [List.append_assoc] at h1
  exact (congrArg₂ (· ++ ·) h0 h1).trans (halves64 x)

theorem nameAt_append (n : Name) : nameAt (front ++ (putName n ++ back)) o = n := by
  have hlen : (putName n).length = 8 := putName_length n
  have hat : ∀ i (hi : i < 8), byteAt (front ++ (putName n ++ back)) (o + i) = n[i] := fun i hi => by
    rw [byteAt, List.getD_eq_getElem?_getD, List.getElem?_append_right (by omega), ho, Nat.add_sub_cancel_left,
      List.getElem?_append_left (by omega)]
    simp [putName, hi]
  unfold nameAt
  refine Vector.ext fun i hi => ?_
  interval_cases i <;> simp [← hat]

end

/-! ### Lists of items -/

theorem hostPartAt_putHostPart (w : WireHostPart) (back : List Byte) : hostPartAt (putHostPart w ++ back) 0 = w := by
  obtain ⟨tag, fleet, cls, products, flags⟩ := w
  have h1 := u64At_append [] (putName fleet ++ ([cls, products, flags] ++ back)) (o := 0) rfl tag
  have h2 := nameAt_append (put64 tag) ([cls, products, flags] ++ back) rfl fleet
  have h3 := byteAt_append (put64 tag ++ putName fleet) ([products, flags] ++ back) (o := 16) (by simp) cls
  have h4 := byteAt_append (put64 tag ++ putName fleet ++ [cls]) (flags :: back) (o := 17) (by simp) products
  have h5 := byteAt_append (put64 tag ++ putName fleet ++ [cls, products]) back (o := 18) (by simp) flags
  simp only [List.append_assoc, List.nil_append, List.cons_append, put64_length] at h1 h2 h3 h4 h5
  simp only [hostPartAt, putHostPart, List.append_assoc, List.nil_append, List.cons_append, h1, h2, h3, h4, h5]

theorem hostPartsOf_flatMap (ws : List WireHostPart) : hostPartsOf ws.length (ws.flatMap putHostPart) = ws := by
  induction ws with
  | nil => rfl
  | cons w rest ih =>
    rw [List.flatMap_cons, List.length_cons, hostPartsOf, hostPartAt_putHostPart,
      List.drop_left' (putHostPart_length w), ih]

theorem strapPointsOf_flatMap (ps : List WireStrapPoint) : strapPointsOf ps.length (ps.flatMap putStrapPoint) = ps := by
  induction ps with
  | nil => rfl
  | cons p rest ih =>
    have h1 := u32At_append [] (put32 p.volume ++ rest.flatMap putStrapPoint) (o := 0) rfl p.level
    have h2 := u32At_append (put32 p.level) (rest.flatMap putStrapPoint) rfl p.volume
    rw [List.flatMap_cons, List.length_cons, strapPointsOf, List.drop_left' (putStrapPoint_length p), ih]
    simp only [List.nil_append, put32_length] at h1 h2
    simp only [putStrapPoint, List.append_assoc, h1, h2]

/-! ### Bodies (R202, table of request kinds) -/

theorem vector4 {α : Type} (v : Vector α 4) : v = #v[v[0], v[1], v[2], v[3]] := by
  refine Vector.ext fun i hi => ?_
  interval_cases i <;> rfl

theorem vector5 {α : Type} (v : Vector α 5) : v = #v[v[0], v[1], v[2], v[3], v[4]] := by
  refine Vector.ext fun i hi => ?_
  interval_cases i <;> rfl

theorem vector8 {α : Type} (v : Vector α 8) : v = #v[v[0], v[1], v[2], v[3], v[4], v[5], v[6], v[7]] := by
  refine Vector.ext fun i hi => ?_
  interval_cases i <;> rfl

/-- The fields of a request are read from the body it is sent with: a list by its items; every other body is a list of
bytes, whose words are put together again from their halves. -/
theorem readBody_putBody {r : Request} (hr : r.wf = true) : readBody (requestKind r) (putBody r) = some r := by
  cases r
  case strapSet t n ps =>
    have hlen : (putBody (.strapSet t n ps)).length = 8 * ps.length + 2 := by
      simp [putBody, flatMap_length putStrapPoint_length]
    have hcount : ((putBody (.strapSet t n ps)).length - 2) / 8 = ps.length := by omega
    have hps := strapPointsOf_flatMap ps
    rw [← hcount] at hps
    exact congrArg (fun x => some (Request.strapSet t n x)) hps
  case vehicleLoadNext n ws =>
    have hlen : (putBody (.vehicleLoadNext n ws)).length = 19 * ws.length + 1 := by
      simp [putBody, flatMap_length putHostPart_length]
    have hcount : ((putBody (.vehicleLoadNext n ws)).length - 1) / 19 = ws.length := by omega
    have hws := hostPartsOf_flatMap ws
    rw [← hcount] at hws
    exact congrArg (fun x => some (Request.vehicleLoadNext n x)) hws
  case' productSet c n b => rw [vector8 n]
  case' vehiclePut v w n =>
    obtain ⟨tag, fleet, cls, products, flags⟩ := w
    rw [vector8 fleet]
  case' calWrite h w =>
    obtain ⟨k, count, points, limit, rate⟩ := w
    rw [vector5 points]
  case' classSet c w =>
    obtain ⟨name, preset, burn, warn, grace, action, limp, lines⟩ := w
    rw [vector8 name, vector4 lines]
  all_goals
    simp only [readBody, requestKind, BitVec.reduceToNat, putBody, putName, putHostPart, putCurvePoint, putLine, put16,
      put32, put48, put64, nameAt, hostPartAt, curvePointAt, lineAt, byteAt, u16At, u32At, u48At, u64At, Nat.reduceAdd,
      Vector.toList_mk, List.flatMap_cons, List.flatMap_nil, List.cons_append, List.nil_append, List.append_nil,
      List.getD_cons_zero, List.getD_cons_succ, halves16, halves32, parts48, halves64]

/-- Settles O7: the kind is known, the length suits it, and the fields are read. -/
theorem requestsReadBack : Obligations.RequestsReadBack := by
  intro r hr
  have hknown : kindKnown (requestKind r) = true := by cases r <;> rfl
  simp only [parseContent, hknown, (putBody_suits hr).1, readBody_putBody hr, Bool.not_true, Bool.false_eq_true, if_false]

end Sys2Proof.Machine

/-! PROOFS. The frame receiver, the receive queue and the link mode. A frame is followed byte by byte: each byte but the
last leaves the receiver with the bytes so far, and the last one brings the frame or drops it. -/

namespace Sys2Proof.Machine

open Sys2Proof

/-! ### The bytes of a frame (R187, R189) -/

/-- The bytes of a frame after its start byte, with a CRC that may disagree (R187). -/
def frameRest (kind tag : Byte) (body : List Byte) (crc : BitVec 16) : List Byte :=
  beBytes 2 body.length ++ [kind, tag] ++ body ++ put16 crc

theorem frameRest_length (kind tag : Byte) (body : List Byte) (crc : BitVec 16) :
    (frameRest kind tag body crc).length = body.length + 6 := by
  simp [frameRest]; omega

theorem put16_ofNat (n : Nat) : put16 (BitVec.ofNat 16 n) = beBytes 2 n := by
  have h1 : (BitVec.ofNat 16 n).extractLsb' 8 8 = BitVec.ofNat 8 (n / 256 ^ 1) :=
    BitVec.eq_of_toNat_eq (by simp [Nat.shiftRight_eq_div_pow]; omega)
  have h0 : (BitVec.ofNat 16 n).extractLsb' 0 8 = BitVec.ofNat 8 (n / 256 ^ 0) :=
    BitVec.eq_of_toNat_eq (by simp)
  rw [put16, h1, h0]
  rfl

/-- A frame's first bytes give the length of its body. -/
theorem frameLength_frameRest {body : List Byte} (hb : body.length ≤ 1024) (kind tag : Byte) (crc : BitVec 16) :
    frameLength (frameRest kind tag body crc) = body.length := by
  have h := u16At_append [] ([kind, tag] ++ body ++ put16 crc) (o := 0) rfl (BitVec.ofNat 16 body.length)
  rw [put16_ofNat, List.nil_append, ← List.append_assoc, ← List.append_assoc] at h
  rw [frameLength, frameRest, h, BitVec.toNat_ofNat, Nat.mod_eq_of_lt (by omega)]

theorem crcAgrees_frameRest {body : List Byte} (hb : body.length ≤ 1024) (kind tag : Byte) (crc : BitVec 16) :
    crcAgrees (frameRest kind tag body crc) =
      decide (crc16 (beBytes 2 body.length ++ [kind, tag] ++ body) = crc) := by
  have hcovered : (beBytes 2 body.length ++ [kind, tag] ++ body).length = body.length + 4 := by simp; omega
  have hcrc := u16At_append (beBytes 2 body.length ++ [kind, tag] ++ body) [] (o := body.length + 4) hcovered.symm crc
  rw [List.append_nil] at hcrc
  unfold crcAgrees
  rw [frameLength_frameRest hb, frameRest, List.take_left' hcovered, hcrc]

theorem frameOf_frameRest {body : List Byte} (hb : body.length ≤ 1024) (kind tag : Byte) (crc : BitVec 16) :
    frameOf (frameRest kind tag body crc) = { tag := tag, content := parseContent kind body } := by
  have hbody : ((frameRest kind tag body crc).drop 4).take body.length = body := by
    rw [frameRest, List.append_assoc (beBytes 2 body.length ++ [kind, tag]), List.drop_left' (by simp), List.take_left]
  unfold frameOf
  rw [frameLength_frameRest hb, hbody]
  rfl

/-! ### The receiver (R188) -/

/-- The receiver holds the bytes of a frame so far, and the gap timer runs. -/
def State.receiving (s : State) (b : List Byte) : State := s.setLink { s.link with rx := some b, gapTimer := true }

theorem hunt_receiving {s : State} (hx : s.link.rx = none) (hg : s.link.gapTimer = false) (b : List Byte) :
    hunt (s.receiving b) = s := by
  obtain ⟨_, _, _, _, _, _, _, _, _, _, _, _, _, _, _, _, ⟨_, _, _, _, _, _, _, _, _, _, _, _, _⟩, _, _⟩ := s
  simp only at hx hg
  subst hx hg
  rfl

theorem exec_rxByte {s : State} (hr : s.phase = .running) (b : Byte) : exec (.rxByte b) s = .next (takeByte b s) :=
  congrArg Host.Outcome.next (whenRunning_running hr _)

theorem takeByte_receiving (b : Byte) (s : State) (got : List Byte) :
    takeByte b (s.receiving got) = receive (got ++ [b]) (s.receiving got) := rfl

/-- Bytes that make no whole frame yet are kept, with the gap timer started again. -/
theorem receive_more {b : List Byte} {s : State} (hlen : 2 ≤ b.length → frameLength b ≤ 1024)
    (hsize : b.length < frameLength b + 6) : receive b s = s.receiving b := by
  unfold receive
  rw [if_neg, if_neg]
  · rfl
  · simp only [Bool.and_eq_true, decide_eq_true_eq]
    rintro ⟨-, hl⟩
    exact absurd hl (show ¬b.length = frameLength b + 6 by omega)
  · simp only [Bool.and_eq_true, decide_eq_true_eq]
    rintro ⟨h2, hl⟩
    exact absurd (hlen h2) (not_le.mpr hl)

/-- The last byte of a frame brings it, where the CRC agrees, and drops it otherwise. -/
theorem receive_whole {b : List Byte} {s : State} (hlen : frameLength b ≤ 1024) (hsize : b.length = frameLength b + 6) :
    receive b s = if crcAgrees b then frameArrives (frameOf b) (hunt s) else hunt s := by
  unfold receive
  rw [if_neg, if_pos]
  · simp only [Bool.and_eq_true, decide_eq_true_eq]
    exact ⟨by omega, hsize⟩
  · simp only [Bool.and_eq_true, decide_eq_true_eq]
    exact fun ⟨_, hl⟩ => absurd hlen (not_le.mpr hl)

/-- The length stands in the first two bytes, so the bytes after them do not change it. -/
theorem frameLength_append {b : List Byte} (h : 2 ≤ b.length) (more : List Byte) :
    frameLength (b ++ more) = frameLength b := by
  have hat : ∀ o, o < 2 → byteAt (b ++ more) o = byteAt b o := fun o ho => by
    simp only [byteAt, List.getD_eq_getElem?_getD, List.getElem?_append_left (show o < b.length by omega)]
  unfold frameLength u16At
  rw [hat 0 (by omega), hat 1 (by omega)]

/-- The rest of a frame, from any place in it on, brings the frame at its last byte or drops it there. -/
theorem runAll_rest {s : State} (hr : s.phase = .running) (hx : s.link.rx = none) (hg : s.link.gapTimer = false)
    {full : List Byte} (hlen : frameLength full ≤ 1024) (hsize : full.length = frameLength full + 6) :
    ∀ (rest got : List Byte), got ++ rest = full → rest ≠ [] →
      runAll (rest.map .rxByte) (s.receiving got) =
        .next (if crcAgrees full then frameArrives (frameOf full) s else s)
  | [], _, _, hne => absurd rfl hne
  | [b], got, hfull, _ => by
    have hnext : exec (.rxByte b) (s.receiving got) = .next (if crcAgrees full then frameArrives (frameOf full) s else s) := by
      rw [exec_rxByte (s := s.receiving got) hr, takeByte_receiving, hfull, receive_whole hlen hsize, hunt_receiving hx hg]
    simp only [List.map_cons, List.map_nil, runAll, hnext]
  | b :: c :: rest, got, hfull, _ => by
    have happ : (got ++ [b]) ++ (c :: rest) = full := by rw [List.append_assoc]; exact hfull
    have hgot : (got ++ [b]).length + (rest.length + 1) = full.length := by
      rw [← happ, List.length_append (as := got ++ [b]), List.length_cons]
    have hnext : exec (.rxByte b) (s.receiving got) = .next (s.receiving (got ++ [b])) := by
      rw [exec_rxByte (s := s.receiving got) hr, takeByte_receiving]
      congr 1
      by_cases h2 : 2 ≤ (got ++ [b]).length
      · have hl : frameLength (got ++ [b]) = frameLength full := by rw [← happ, frameLength_append h2]
        exact (receive_more (fun _ => hl ▸ hlen) (by omega)).trans rfl
      · exact (receive_more (fun h => absurd h h2) (by omega)).trans rfl
    rw [List.map_cons, runAll, hnext]
    exact runAll_rest hr hx hg hlen hsize (c :: rest) (got ++ [b]) happ (List.cons_ne_nil _ _)

/-- The bytes of a frame with its start byte bring the frame, where the CRC agrees, and leave the state otherwise. -/
theorem runAll_frame {s : State} (hr : s.phase = .running) (hx : s.link.rx = none) (hg : s.link.gapTimer = false)
    {body : List Byte} (hb : body.length ≤ 1024) (kind tag : Byte) (crc : BitVec 16) :
    runAll ((0xA5#8 :: frameRest kind tag body crc).map .rxByte) s =
      .next (if crc16 (beBytes 2 body.length ++ [kind, tag] ++ body) = crc then
          frameArrives { tag := tag, content := parseContent kind body } s
        else s) := by
  have hl := frameLength_frameRest hb kind tag crc
  have hsize := frameRest_length kind tag body crc
  have hstart : exec (.rxByte 0xA5#8) s = .next (s.receiving []) := by
    rw [exec_rxByte hr]
    simp only [takeByte, hx, if_true]
    rw [receive_more (by simp) (by simp)]
  rw [List.map_cons, runAll, hstart]
  have := runAll_rest hr hx hg (full := frameRest kind tag body crc) (by omega) (by omega) _ [] rfl
    (List.ne_nil_of_length_pos (by exact hsize ▸ Nat.succ_pos _))
  rw [crcAgrees_frameRest hb, frameOf_frameRest hb] at this
  simp only [decide_eq_true_eq] at this
  exact this

/-- The command of a well-formed request is the arrival of its frame. -/
theorem exec_commandOf_arrives {s : State} (hs : s.phase = .running) {r : Request} (hr : r.wf = true) (tag : Byte) :
    exec (commandOf tag r) s = .next (frameArrives { tag := tag, content := .request r } s) := by
  rw [exec_commandOf, whenRunning_running hs, hostRequest, if_pos (putBody_suits hr).2, contentOf_wf hr]

/-- Settles O8: the whole frame arrives with its last byte, and reads back as its request. -/
theorem bytesMakeTheRequest : Obligations.BytesMakeTheRequest := by
  intro r tag s hr hs hx hg
  have hframe := runAll_frame hs hx hg (putBody_suits hr).2 (requestKind r) tag
    (crc16 (beBytes 2 (putBody r).length ++ [requestKind r, tag] ++ putBody r))
  rw [if_pos rfl, requestsReadBack r hr] at hframe
  rw [exec_commandOf_arrives hs hr]
  exact hframe

/-- Two bytes as a number, high byte first. -/
theorem frameLength_pair (a b : Byte) : frameLength [a, b] = a.toNat * 256 + b.toNat := by
  show (a ++ b).toNat = _
  rw [BitVec.toNat_append, ← Nat.shiftLeft_add_eq_or_of_lt b.isLt, Nat.shiftLeft_eq]

/-- Settles O9: in HUNT, then while a frame is received, then the gap timer; and a whole frame whose CRC disagrees. -/
theorem receiverHuntsAndDrops : Obligations.ReceiverHuntsAndDrops := by
  refine ⟨fun s hs => ⟨fun hx => ⟨fun b hb => ?_, ?_, ?_⟩, fun got hx => ⟨?_, fun b hgot => ?_, fun a b hgot hlong => ?_⟩, ?_⟩,
    fun r tag crc s hr hs hx hg hcrc => ?_⟩
  · rw [exec_rxByte hs]
    simp only [takeByte, hx, if_neg hb]
  · rw [exec_rxByte hs]
    simp only [takeByte, hx, if_true]
    rw [receive_more (by simp) (by simp)]
    rfl
  · exact congrArg Host.Outcome.next ((whenRunning_running hs _).trans (by simp only [takeFramingError, hx]))
  · exact congrArg Host.Outcome.next ((whenRunning_running hs _).trans (by simp only [takeFramingError, hx]; rfl))
  · subst hgot
    rw [exec_rxByte hs]
    simp only [takeByte, hx]
    rw [receive_more (by simp) (by simp)]
    rfl
  · subst hgot
    rw [exec_rxByte hs]
    simp only [takeByte, hx]
    have hl : Config.bodyLimit < frameLength ([a] ++ [b]) := by
      show 1024 < frameLength [a, b]
      rw [frameLength_pair]; exact hlong
    rw [receive, if_pos (by simpa using hl)]
    rfl
  · exact congrArg Host.Outcome.next (whenRunning_running hs _)
  · have hframe := runAll_frame hs hx hg (putBody_suits hr).2 (requestKind r) tag crc
    rw [if_neg (Ne.symm hcrc)] at hframe
    exact hframe

/-! ### The link mode and the receive queue (R172, R173, R190 to R192) -/

/-- While a request holds the link or the transmitter has no room, no frame is taken. -/
theorem drain_blocked {s : State} (h : s.link.held ≠ none ∨ 4 < s.link.tx.length) : drain s = s := by
  refine takeMany_blocked _ s ?_
  unfold Link.mayTake
  rcases h with h | h
  · cases hh : s.link.held with
    | none => exact absurd hh h
    | some q => rfl
  · simp only [Bool.and_eq_false_iff, decide_eq_false_iff_not]
    exact .inr (not_le.mpr h)

/-- A valid frame in STANDALONE sets the mode ONLINE (R172). -/
theorem linkAlive_standalone {s : State} (h : s.link.online = false) :
    linkAlive s = raise .mode .online
      (s.setLink { s.link with online := true, linkTimer := some s.link.site.linkTimeout }) := by
  unfold linkAlive
  simp only [h, Bool.false_eq_true, if_false]

/-- The mode's change has restarted the link timer, so that the frame finds the link heard. -/
theorem heard_linkAlive {s : State} (h : s.link.online = false) : (linkAlive s).heard = linkAlive s := by
  rw [linkAlive_standalone h]
  rfl

theorem frameArrives_linkAlive {s : State} (h : s.link.online = false) (f : Frame) :
    frameArrives f (linkAlive s) = frameArrives f s := by
  have honline : (linkAlive s).link.online = true := by rw [linkAlive_standalone h]; rfl
  rw [frameArrives, frameArrives, linkAlive_online honline, heard_linkAlive h]

/-- Settles O10: a frame behind a held request or a full transmitter; a frame in STANDALONE; the link timer. -/
theorem linkQueueAndMode : Obligations.LinkQueueAndMode := by
  refine ⟨fun r tag s hr hs ho hblocked => ?_, fun s hs => ⟨fun r tag hr ho => ?_, fun n hn => ?_, fun hn => ?_⟩⟩
  · rw [exec_commandOf_arrives hs hr, frameArrives, linkAlive_online ho]
    have hoffer : offer { tag := tag, content := .request r } s.heard =
        if s.link.rxQueue.length < 4 then
          s.heard.setLink { s.heard.link with rxQueue := s.link.rxQueue ++ [{ tag := tag, content := .request r }] }
        else s.heard := rfl
    rw [hoffer]
    split
    · exact congrArg Host.Outcome.next (drain_blocked hblocked)
    · exact congrArg Host.Outcome.next (drain_blocked hblocked)
  · rw [← linkAlive_standalone ho, exec_commandOf_arrives hs hr,
      exec_commandOf_arrives ((Kept.linkAlive_phase s).trans hs) hr, frameArrives_linkAlive ho]
  · refine congrArg Host.Outcome.next ((whenRunning_running hs _).trans ?_)
    simp only [linkExpires, hn]
    rfl
  · refine congrArg Host.Outcome.next ((whenRunning_running hs _).trans ?_)
    simp only [linkExpires, hn]

/-! ### Frames that are no request (R191 checks 1 and 2) -/

/-- A kind that the table of Chapter 11 does not list is unknown. -/
theorem kindKnown_unlisted : ∀ kind : Byte, kind.toNat ∉ bodyLengths.map (·.1) → kind ≠ 0x24#8 → kind ≠ 0x34#8 →
    kindKnown kind = false := by decide

theorem kindKnown_listed {kind : Byte} {n : Nat} (h : (kind.toNat, n) ∈ bodyLengths) : kindKnown kind = true := by
  have hall : ∀ p ∈ bodyLengths, kindKnown (BitVec.ofNat 8 p.1) = true := by decide
  simpa using hall _ h

/-- The length of a listed kind's body is the one that the table gives. -/
theorem lengthSuits_listed {kind : Byte} {n : Nat} (h : (kind.toNat, n) ∈ bodyLengths) (len : Nat) :
    lengthSuits kind len = (len == n) := by
  have hall : bodyLengths.map (fun p => lengthSuits (BitVec.ofNat 8 p.1) len) = bodyLengths.map fun p => len == p.2 := rfl
  simpa using List.map_inj_left.mp hall _ h

theorem parseContent_unknown {kind : Byte} (h : kindKnown kind = false) (body : List Byte) :
    parseContent kind body = .unknownKind kind body := by
  simp only [parseContent, h, Bool.not_false, if_true]

theorem parseContent_badLength {kind : Byte} {body : List Byte} (h : kindKnown kind = true)
    (hl : lengthSuits kind body.length = false) : parseContent kind body = .badLength kind body := by
  simp only [parseContent, h, hl, Bool.not_true, Bool.not_false, Bool.false_eq_true, if_false, if_true]

/-- STRAP_SET's body holds 2 to 32 points of 8 bytes. -/
theorem lengthSuits_strapSet {len : Nat} (h : ∀ n, 2 ≤ n → n ≤ 32 → len ≠ 2 + 8 * n) :
    lengthSuits 0x24#8 len = false := by
  show ((len - 2) % 8 == 0 && inRange 18 258 len) = false
  rw [Bool.eq_false_iff, Ne, Bool.and_eq_true, beq_iff_eq, inRange_iff]
  rintro ⟨hmod, hlo, hhi⟩
  exact h ((len - 2) / 8) (by omega) (by omega) (by omega)

/-- VEHICLE_LOAD_NEXT's body holds 1 to 8 records of 19 bytes. -/
theorem lengthSuits_loadNext {len : Nat} (h : ∀ n, 1 ≤ n → n ≤ 8 → len ≠ 1 + 19 * n) :
    lengthSuits 0x34#8 len = false := by
  show ((len - 1) % 19 == 0 && inRange 20 153 len) = false
  rw [Bool.eq_false_iff, Ne, Bool.and_eq_true, beq_iff_eq, inRange_iff]
  rintro ⟨hmod, hlo, hhi⟩
  exact h ((len - 1) / 19) (by omega) (by omega) (by omega)

/-- A request whose body's length does not suit its kind is answered so. -/
theorem exec_badLength {s : State} (hs : s.linkFree) {r : Request} (tag : Byte)
    (hfits : (putBody r).length ≤ 1024) (hl : lengthSuits (requestKind r) (putBody r).length = false) :
    exec (commandOf tag r) s = .next (s.heard.answered (replyKind (requestKind r)) tag .badLength .none) := by
  rw [exec_commandOf, whenRunning_running hs.running, hostRequest, if_pos hfits, contentOf, hl, frameArrives_free hs]
  rfl

/-- Settles O11: the frame of an unknown kind, the list requests with too few or too many items, then the same frames
byte by byte. -/
theorem unknownKindsAnswered : Obligations.UnknownKindsAnswered := by
  intro s tag kind body hs hb
  refine ⟨fun hk h24 h34 => ?_, fun tank count points hn hmax => ?_, fun count records hn hmax => ?_, fun hx hg => ?_⟩
  · have hunknown := parseContent_unknown (kindKnown_unlisted kind hk h24 h34) body
    refine congrArg Host.Outcome.next ((whenRunning_running hs.running _).trans ?_)
    rw [if_pos hb, hunknown, frameArrives_free hs]
    rfl
  · have hlen : (putBody (.strapSet tank count points)).length = 8 * points.length + 2 := by
      simp [putBody, flatMap_length putStrapPoint_length]
    exact exec_badLength hs (r := .strapSet tank count points) tag (by omega)
      (lengthSuits_strapSet fun n _ _ => by omega)
  · have hlen : (putBody (.vehicleLoadNext count records)).length = 19 * records.length + 1 := by
      simp [putBody, flatMap_length putHostPart_length]
    exact exec_badLength hs (r := .vehicleLoadNext count records) tag (by omega)
      (lengthSuits_loadNext fun n _ _ => by omega)
  · have hframe := runAll_frame hs.running hx hg hb kind tag (crc16 (beBytes 2 body.length ++ [kind, tag] ++ body))
    rw [if_pos rfl, frameArrives_free hs] at hframe
    have hrefused : kindKnown kind = true → lengthSuits kind body.length = false →
        runAll ((0xA5#8 :: frameRest kind tag body (crc16 (beBytes 2 body.length ++ [kind, tag] ++ body))).map .rxByte) s
          = .next (s.heard.answered (replyKind kind) tag .badLength .none) := fun hk hl => by
      rw [hframe, parseContent_badLength hk hl]
      rfl
    refine ⟨fun hk h24 h34 => ?_, fun n hn hne => ?_, fun h24 hne => ?_, fun h34 hne => ?_⟩
    · rw [parseContent_unknown (kindKnown_unlisted kind hk h24 h34) body] at hframe
      exact hframe
    · exact hrefused (kindKnown_listed hn) (by rw [lengthSuits_listed hn]; exact beq_false_of_ne hne)
    · subst h24
      exact hrefused rfl (lengthSuits_strapSet hne)
    · subst h34
      exact hrefused rfl (lengthSuits_loadNext hne)

end Sys2Proof.Machine


/-! PROOFS. Requests on a free link, and the hose between its lift and the end of its flow. First what a request that is
answered or held leaves, then each operation of the hose by its cases; then the statements. -/

namespace Sys2Proof.Machine

open Sys2Proof

/-! ### A request on a free link (R191, R194) -/

section
variable {s t : State} {r : Request}

theorem exec_replies {c : StatusCode} {b : ReplyBody} (hs : s.linkFree) (hr : r.wf = true) (tag : Byte)
    (h : handle r s.heard = (t, .reply c b)) :
    exec (commandOf tag r) s = .next (t.answered (replyKind (requestKind r)) tag c b) := by
  rw [exec_free hs hr, h, settle_reply]

theorem exec_holds {w : HeldWait} (hs : s.linkFree) (hr : r.wf = true) (tag : Byte)
    (h : handle r s.heard = (t, .hold w)) :
    exec (commandOf tag r) s = .next (t.holding (requestKind r) tag w) := by
  rw [exec_free hs hr, h, settle_hold]

theorem exec_refuses {c : StatusCode} (hs : s.linkFree) (hr : r.wf = true) (tag : Byte)
    (h : handle r s.heard = refuse c s.heard) :
    exec (commandOf tag r) s = .next (s.heard.answered (replyKind (requestKind r)) tag c .none) :=
  exec_replies hs hr tag h

end

/-- What a command of the field does to a running part. -/
theorem next_whenRunning {s : State} (hr : s.phase = .running) (f : State → State) :
    (Host.Outcome.next (whenRunning s f) : Result) = .next (f s) :=
  congrArg Host.Outcome.next (whenRunning_running hr f)

/-! ### The states of a hose -/

theorem HoseState.demands_iff (st : HoseState) :
    st.demands = true ↔ st = .starting ∨ st = .flowing ∨ st = .trimming ∨ st = .paused := by
  cases st <;> decide

theorem HoseState.flows_iff (st : HoseState) : st.flows = true ↔ st = .flowing ∨ st = .trimming := by
  cases st <;> decide

theorem HoseState.compares_iff (st : HoseState) :
    st.compares = true ↔ st = .flowing ∨ st = .trimming ∨ st = .paused := by
  cases st <;> decide

/-! ### PAUSE and RESUME (R23, R24) -/

section
variable {s : State} {h : HoseId} {b : Byte}

theorem takePause_flows (hb : b.toNat = h.val) (hf : (s.hose h).state.flows = true) :
    takePause b s =
      (raise (.hoseState h) (.entered .paused) (s.setHose h
        { s.hose h with
          state := .paused, valve := .closed
          timers := { (s.hose h).timers with noFlow := none, pause := some (s.hose h).config.pauseTimeout } }),
        .reply .ok .none) := by
  simp only [takePause, hoseOf_some hb, if_pos hf]

theorem takePause_refused (hb : b.toNat = h.val) (hf : (s.hose h).state.flows = false) :
    takePause b s = refuse .state s := by
  simp [takePause, hoseOf_some hb, hf]

/-- RESUME of a paused hose enters the state that its remaining volume decides. -/
theorem takeResume_paused (hb : b.toNat = h.val) (hp : (s.hose h).state = .paused) :
    takeResume b s =
      (raise (.hoseState h) (.entered (resumedState (s.hose h) (s.engine h).gross).1) (s.setHose h
        { s.hose h with
          state := (resumedState (s.hose h) (s.engine h).gross).1
          valve := (resumedState (s.hose h) (s.engine h).gross).2
          timers := { (s.hose h).timers with pause := none, noFlow := some (s.hose h).config.noFlowTimeout } }),
        .reply .ok .none) := by
  simp only [takeResume, hoseOf_some hb, if_pos hp]

theorem takeResume_refused (hb : b.toNat = h.val) (hp : (s.hose h).state ≠ .paused) :
    takeResume b s = refuse .state s := by
  simp only [takeResume, hoseOf_some hb, if_neg hp]

end

/-- A remaining volume at most the slow volume resumes in TRIMMING with the valve SLOW, another in FLOWING with the valve
FULL (R24). -/
theorem resumedState_granted {x : Hose} {g : Grant} (hg : x.grant = some g) (gross : Nat) :
    resumedState x gross =
      (if (g.preset : Int) - gross ≤ x.config.slowVolume then .trimming else .flowing,
        if (g.preset : Int) - gross ≤ x.config.slowVolume then .slow else .full) := by
  have hiff : g.preset ≤ gross + x.config.slowVolume ↔ (g.preset : Int) - gross ≤ x.config.slowVolume := by omega
  simp only [resumedState, hg, remainingIsSlow, decide_eq_true_eq, hiff]
  split <;> rfl

/-- Settles O21: PAUSE in the states with flow, and RESUME with the state that the remaining volume decides. -/
theorem pauseAndResume : Obligations.PauseAndResume := by
  intro s h g tag b hs hb hg
  refine ⟨fun hst => ?_, fun hst => ?_⟩
  · exact exec_replies (r := .pause b) hs rfl tag (takePause_flows hb ((HoseState.flows_iff _).mpr hst))
  · have hx : resumedState (s.heard.hose h) (s.heard.engine h).gross = _ := resumedState_granted hg _
    have htake := takeResume_paused (s := s.heard) hb hst
    rw [hx] at htake
    simp only [decide_eq_true_eq]
    exact exec_replies (r := .resume b) hs rfl tag htake

/-! ### Lift, hang and the refusal display (R5, R13, R14) -/

theorem exec_nozzleLift {s : State} (hr : s.phase = .running) (h : HoseId) :
    exec (.nozzleLift h) s = .next (takeLift h s) := next_whenRunning hr _

theorem exec_nozzleHang {s : State} (hr : s.phase = .running) (h : HoseId) :
    exec (.nozzleHang h) s = .next (closeIf HoseState.demands .nozzleHung h s) := next_whenRunning hr _

theorem takeLift_begun {s : State} {h : HoseId} (h1 : (s.hose h).state ≠ .idle) (h2 : (s.hose h).state ≠ .ready) :
    takeLift h s = s := by
  unfold takeLift
  split
  next e => exact absurd e h1
  next e => exact absurd e h2
  all_goals rfl

theorem displayEnds_shown {s : State} {h : HoseId} {n : Nat} (hn : (s.hose h).timers.refusal = some n) :
    displayEnds h s = s.setHose h { s.hose h with lamp := .off, timers := { (s.hose h).timers with refusal := none } } := by
  simp only [displayEnds, hn]

/-- Settles O19: the lift by the hose's state, the hang where no demand stands, and the display with and without its
timer. -/
theorem liftHangAndDisplayOtherwise : Obligations.LiftHangAndDisplayOtherwise := by
  refine ⟨fun s h hr => ⟨fun hi => ?_, fun h1 h2 => ?_, fun hst => ?_⟩, fun s h hr => ⟨fun n hn => ?_, fun hn => ?_⟩⟩
  · rw [exec_nozzleLift hr, takeLift, hi]
  · rw [exec_nozzleLift hr, takeLift_begun h1 h2]
  · rw [exec_nozzleHang hr, closeIf_neg]
    obtain hst | hst | hst | hst := hst <;> rw [hst] <;> rfl
  · exact (next_whenRunning hr _).trans (congrArg _ (displayEnds_shown hn))
  · refine (next_whenRunning hr _).trans (congrArg _ ?_)
    simp only [displayEnds, hn]

/-! ### What closes a delivery (R22, R24, R25, R27) -/

theorem takeStopRequest_demands {s : State} {h : HoseId} {b : Byte} (hb : b.toNat = h.val)
    (hd : (s.hose h).state.demands = true) :
    takeStopRequest b s = (enterClosing h .hostStop s, .reply .ok .none) := by
  simp only [takeStopRequest, hoseOf_some hb, if_pos hd]

theorem takeStopRequest_refused {s : State} {h : HoseId} {b : Byte} (hb : b.toNat = h.val)
    (hd : (s.hose h).state.demands = false) : takeStopRequest b s = refuse .state s := by
  simp [takeStopRequest, hoseOf_some hb, hd]

/-- Settles O20: each of the four causes closes the hose where its state admits it. -/
theorem flowIsClosed : Obligations.FlowIsClosed := by
  intro s h
  refine ⟨fun hr hst => ?_, fun n hr hst hn => ?_, fun n hr hst hn => ?_, fun tag b hs hb hst => ?_⟩
  · refine ⟨_, ?_, enterClosing_closed s h .nozzleHung⟩
    rw [exec_nozzleHang hr, closeIf_pos _ ((HoseState.demands_iff _).mpr hst)]
  · refine ⟨_, (next_whenRunning hr _).trans (congrArg _ ?_), enterClosing_closed s h .noFlow⟩
    simp only [noFlowExpires, hn]
    exact closeIf_pos _ ((HoseState.flows_iff _).mpr hst)
  · refine ⟨_, (next_whenRunning hr _).trans (congrArg _ ?_), enterClosing_closed s h .pauseTimeout⟩
    simp only [pauseExpires, hn]
    exact closeIf_pos _ (decide_eq_true hst)
  · exact ⟨_, exec_replies (r := .stop b) hs rfl tag
      (takeStopRequest_demands hb ((HoseState.demands_iff _).mpr hst)), enterClosing_closed s.heard h .hostStop⟩

/-! ### A sample completion (R21, R40) -/

theorem exec_sampleTimerExpiry {s : State} (hr : s.phase = .running) (h : HoseId) :
    exec (.sampleTimerExpiry h) s =
      .next (if (s.engine h).sampleTimer then compareWithPreset h (s.setEngine h (fullSample (s.engine h))) else s) :=
  next_whenRunning hr _

section
variable {s : State} {h : HoseId} {g : Grant}

theorem compareWithPreset_uncompared (hc : (s.hose h).state.compares = false) : compareWithPreset h s = s := by
  unfold compareWithPreset
  cases hg : (s.hose h).grant with
  | none => simp only [hg]
  | some g => simp [hg, hc]

theorem compareWithPreset_reached (hg : (s.hose h).grant = some g) (hc : (s.hose h).state.compares = true)
    (hp : g.preset ≤ (s.engine h).gross + (s.hose h).config.prestop) :
    compareWithPreset h s = enterClosing h .presetReached s := by
  simp [compareWithPreset, hg, hc, presetReached, hp]

/-- A delivery below its preset trims from FLOWING at the slow volume, and goes on as it is otherwise. -/
theorem compareWithPreset_below (hg : (s.hose h).grant = some g) (hc : (s.hose h).state.compares = true)
    (hp : (s.engine h).gross + (s.hose h).config.prestop < g.preset) :
    compareWithPreset h s =
      if (s.hose h).state = .flowing ∧ g.preset ≤ (s.engine h).gross + (s.hose h).config.slowVolume then
        enterTrimming h s else s := by
  simp [compareWithPreset, hg, hc, presetReached, remainingIsSlow, Nat.not_le.mpr hp]

end

/-- Settles O28: the sample by whether its timer runs, then the comparison by the hose's state and the preset. -/
theorem sampleIsCompared : Obligations.SampleIsCompared := by
  intro s h g hr hg
  dsimp only
  rw [exec_sampleTimerExpiry hr]
  have hgross : (fullSample (s.engine h)).gross = ((s.setEngine h (fullSample (s.engine h))).engine h).gross := by
    rw [State.setEngine_engine_self]
  refine ⟨fun ht => by rw [ht]; rfl, fun ht => ?_⟩
  rw [if_pos ht]
  refine ⟨fun hst => ?_, fun hst => ⟨fun hp => ⟨_, ?_, enterClosing_closed _ h .presetReached⟩, fun hp => ?_⟩⟩
  · rw [compareWithPreset_uncompared]
    obtain hst | hst := hst <;> rw [State.setEngine_hose, hst] <;> rfl
  · rw [hgross] at hp
    rw [compareWithPreset_reached (s := s.setEngine h _) hg ((HoseState.compares_iff _).mpr hst) hp]
  · rw [hgross] at hp ⊢
    rw [compareWithPreset_below (s := s.setEngine h _) hg ((HoseState.compares_iff _).mpr hst) hp]
    rfl

/-! ### Piecewise linear tables (R42, R76) -/

theorem tableAt_below (scale : Nat) {x1 y1 x : Nat} {rest : List (Nat × Nat)} (hx : x ≤ x1) :
    tableAt scale ((x1, y1) :: rest) x = y1 * scale := by
  cases rest with
  | nil => rfl
  | cons p rest => simp [tableAt, hx]

/-- Above its second point a table reads as its rest. -/
theorem tableAt_skip (scale : Nat) {x1 y1 x2 y2 x : Nat} {rest : List (Nat × Nat)} (h1 : x1 < x2) (hx : x2 ≤ x) :
    tableAt scale ((x1, y1) :: (x2, y2) :: rest) x = tableAt scale ((x2, y2) :: rest) x := by
  rw [tableAt, if_neg (by omega), if_neg (by omega)]

/-- A table of rising points reads from a point on as its part from there. -/
theorem tableAt_append (scale : Nat) (x2 y2 x : Nat) (rest : List (Nat × Nat)) (hx : x2 ≤ x) :
    ∀ front : List (Nat × Nat), rising ((front ++ (x2, y2) :: rest).map (·.1)) = true →
      tableAt scale (front ++ (x2, y2) :: rest) x = tableAt scale ((x2, y2) :: rest) x := by
  intro front
  induction front with
  | nil => exact fun _ => rfl
  | cons p front ih =>
    intro hris
    have hpair := rising_iff.mp hris
    simp only [List.cons_append, List.map_cons] at hpair
    obtain ⟨hp, htail⟩ := List.pairwise_cons.mp hpair
    have hrest := ih (rising_iff.mpr htail)
    cases front with
    | nil => exact tableAt_skip scale (hp x2 (by simp)) hx
    | cons q front =>
      have hq2 : q.1 < x2 := (List.pairwise_cons.mp htail).1 x2 (by simp)
      exact (tableAt_skip scale (hp q.1 (by simp)) (by omega)).trans hrest

/-- Between two neighbours a table reads the first one's ordinate and the truncated share of the difference. -/
theorem tableAt_between (scale : Nat) {x1 y1 x2 y2 x : Nat} {rest : List (Nat × Nat)} (h1 : x1 ≤ x) (h2 : x < x2) :
    (tableAt scale ((x1, y1) :: (x2, y2) :: rest) x : Int) =
      y1 * scale + Int.tdiv (((y2 : Int) - y1) * scale * ((x : Int) - x1)) ((x2 : Int) - x1) := by
  have hb : (0 : Int) < (x2 : Int) - x1 := by omega
  rw [tableAt]
  split
  next hx =>
    have h0 : (x : Int) - x1 = 0 := by omega
    rw [h0, mul_zero, Int.zero_tdiv, add_zero, Nat.cast_mul]
  next hx =>
    rw [interpolate, Int.toNat_of_nonneg, Nat.cast_mul]
    have hlow : -((y1 * scale : Nat) : Int) * ((x2 : Int) - x1)
        ≤ ((y2 : Int) - y1) * scale * ((x : Int) - x1) := by
      have hy : 0 ≤ (y2 : Int) * scale := by positivity
      have hy1 : 0 ≤ (y1 : Int) * scale := by positivity
      rw [Nat.cast_mul]
      nlinarith [mul_nonneg hy (by omega : (0 : Int) ≤ (x : Int) - x1),
        mul_nonneg hy1 (by omega : (0 : Int) ≤ (x2 : Int) - x)]
    have hdiv := Int.tdiv_le_tdiv hb hlow
    rw [Int.mul_tdiv_cancel _ hb.ne'] at hdiv
    omega

/-- Settles O27: the ends of the table, and a point between neighbours, after the points before them are passed over. -/
theorem tablesInterpolate : Obligations.TablesInterpolate := by
  intro scale points hris
  refine ⟨fun x1 y1 x rest e hx => ?_, fun xn yn x front e hx => ?_, fun x1 y1 x2 y2 x front back e h1 h2 => ?_⟩
  · rw [e, tableAt_below scale hx]
  · subst e
    rw [tableAt_append scale xn yn x [] hx front hris]
    rfl
  · subst e
    rw [tableAt_append scale x1 y1 x _ h1 front hris, tableAt_between scale h1 h2]

end Sys2Proof.Machine


/-! PROOFS. Authorization: the checks in their order, the clamps, the grant, and what a tag read and AUTHORIZE make of
them; before them, what an hour reading does to its vehicle and to nothing else. -/

namespace Sys2Proof.Machine

open Sys2Proof

/-! ### The usage write and the hour reading (R128, R131) -/

section
variable {s : State} {v : VehicleId}

theorem beginUsageWrite_idle (h : (s.vehicle v).usageWrite = .none) :
    beginUsageWrite v s =
      beginWrite (.usage v (s.vehicle v).usage) (s.setVehicle v { s.vehicle v with usageWrite := .inFlight }) := by
  simp only [beginUsageWrite, h]

theorem beginUsageWrite_busy (h : (s.vehicle v).usageWrite ≠ .none) :
    beginUsageWrite v s = s.setVehicle v { s.vehicle v with usageWrite := .again } := by
  unfold beginUsageWrite
  dsimp only
  split
  next e => exact absurd e h
  all_goals rfl

/-- A usage write begins, or follows the one in flight (R128). -/
theorem beginUsageWrite_vehicle_self (hw : s.vehiclesSound = true) :
    (beginUsageWrite v s).vehicle v =
      { s.vehicle v with usageWrite := if (s.vehicle v).usageWrite = .none then .inFlight else .again } := by
  by_cases hu : (s.vehicle v).usageWrite = .none
  · rw [beginUsageWrite_idle hu, if_pos hu]
    exact State.setVehicle_vehicle_self hw
  · rw [beginUsageWrite_busy hu, if_neg hu]
    exact State.setVehicle_vehicle_self hw

theorem beginUsageWrite_vehicle_ne {u : VehicleId} (hu : u ≠ v) : (beginUsageWrite v s).vehicle u = s.vehicle u := by
  by_cases hn : (s.vehicle v).usageWrite = .none
  · rw [beginUsageWrite_idle hn]
    exact State.setVehicle_vehicle_ne hu
  · rw [beginUsageWrite_busy hn]
    exact State.setVehicle_vehicle_ne hu

/-- What a reading makes of the usage part, and whether it is a regression (R131). -/
theorem Usage.read_below {u : Usage} {n last : Nat} (hl : u.hours = some last) (hn : n < last) :
    u.read n = ({ u with regress := true }, true) := by
  simp only [Usage.read, hl, if_neg (Nat.not_le.mpr hn)]

theorem Usage.read_taken {u : Usage} {n : Nat} (hl : ∀ last, u.hours = some last → last ≤ n) :
    u.read n = ({ u with hours := some n, meter := true, regress := false }, false) := by
  unfold Usage.read
  split
  next last e => rw [if_pos (hl last e)]
  next => rfl

/-- The record of a vehicle not bound to a READY hose, after its record is replaced and its status recomputed. -/
theorem recompute_setVehicle_self (hw : s.vehiclesSound = true) {x : Vehicle}
    (hb : ∀ h, x.binding = some h → (s.hose h).state ≠ .ready) :
    (recompute v (s.setVehicle v x)).vehicle v = { x with status := statusOf (s.classOf x.host.cls) x } := by
  have hself := (recompute_quiet (s := s.setVehicle v x) (v := v) (State.setVehicle_sound hw)
    (by rw [State.setVehicle_vehicle_self hw]; exact hb)).self
  rw [State.setVehicle_vehicle_self hw] at hself
  exact hself

theorem recompute_setVehicle_ne (hw : s.vehiclesSound = true) {x : Vehicle}
    (hb : ∀ h, x.binding = some h → (s.hose h).state ≠ .ready) {u : VehicleId} (hu : u ≠ v) :
    (recompute v (s.setVehicle v x)).vehicle u = s.vehicle u :=
  ((recompute_quiet (s := s.setVehicle v x) (State.setVehicle_sound hw)
    (by rw [State.setVehicle_vehicle_self hw]; exact hb)).others u hu).trans (State.setVehicle_vehicle_ne hu)

/-- The vehicle of a change of its usage part: the part, the status computed from it, and its write. -/
theorem usageChange_vehicle_self (hw : s.vehiclesSound = true) (u : Usage)
    (hb : ∀ h, (s.vehicle v).binding = some h → (s.hose h).state ≠ .ready) :
    (beginUsageWrite v (recompute v (s.setVehicle v { s.vehicle v with usage := u }))).vehicle v =
      { s.vehicle v with
        usage := u
        status := statusOf (s.classOf (s.vehicle v).host.cls) { s.vehicle v with usage := u }
        usageWrite := if (s.vehicle v).usageWrite = .none then .inFlight else .again } := by
  have hq := recompute_quiet (s := s.setVehicle v { s.vehicle v with usage := u }) (v := v)
    (State.setVehicle_sound hw) (by rw [State.setVehicle_vehicle_self hw]; exact hb)
  rw [beginUsageWrite_vehicle_self hq.sound, recompute_setVehicle_self (x := { s.vehicle v with usage := u }) hw hb]

theorem usageChange_vehicle_ne (hw : s.vehiclesSound = true) (u : Usage)
    (hb : ∀ h, (s.vehicle v).binding = some h → (s.hose h).state ≠ .ready) {x : VehicleId} (hx : x ≠ v) :
    (beginUsageWrite v (recompute v (s.setVehicle v { s.vehicle v with usage := u }))).vehicle x = s.vehicle x :=
  (beginUsageWrite_vehicle_ne hx).trans (recompute_setVehicle_ne (x := { s.vehicle v with usage := u }) hw hb hx)

theorem applyReading_fst (v : VehicleId) (n : Nat) (s : State) :
    (applyReading v n s).1 = beginUsageWrite v (recompute v (s.setVehicle v
      { s.vehicle v with usage := ((s.vehicle v).usage.read n).1 })) := rfl

theorem applyHours_host (hw : s.vehiclesSound = true) (n : Option Nat)
    (hb : ∀ h, (s.vehicle v).binding = some h → (s.hose h).state ≠ .ready) :
    ((applyHours v n s).1.vehicle v).host = (s.vehicle v).host := by
  cases n with
  | none => rfl
  | some n =>
    show ((applyReading v n s).1.vehicle v).host = _
    rw [applyReading_fst, usageChange_vehicle_self hw _ hb]

end

/-! ### The checks in their order (R7) -/

/-- A list of checks decides by its first one: when it fails its code is the refusal. -/
theorem elim_firstFail_cons {α : Type} (b : Bool) (c : StatusCode) (rest : List (Bool × StatusCode)) (y : α)
    (f : StatusCode → α) :
    (firstFail ((b, c) :: rest)).elim y f = if b = false then f c else (firstFail rest).elim y f := by
  cases b <;> rfl

/-- Checks 11 to 13 and the preset, on the state after the hour reading (R7, R11, R12). -/
def authorizeLate (h : HoseId) (v : VehicleId) (a : AuthRequest) (regress : Bool) (s : State) :
    State × Except StatusCode Grant :=
  (firstFail (lateChecks h v a s)).elim
    ((clampFor h v a s).refusal.elim (makeGrant h (grantOf h v a regress s) s, .ok (grantOf h v a regress s))
      fun c => (s, .error c))
    fun c => (s, .error c)

section
variable {s : State} {h : HoseId} {a : AuthRequest}

theorem authorizeHose_early {c : StatusCode} (he : firstFail (earlyChecks h s) = some c) :
    authorizeHose h a s = (s, .error c) := by
  simp only [authorizeHose, checksToTen, he]

theorem authorizeHose_unknown (he : firstFail (earlyChecks h s) = none) (hf : findVehicle a.who s = none) :
    authorizeHose h a s = (s, .error .noVehicle) := by
  simp only [authorizeHose, checksToTen, he, hf]

theorem authorizeHose_found {v : VehicleId} (he : firstFail (earlyChecks h s) = none)
    (hf : findVehicle a.who s = some v) :
    authorizeHose h a s =
      (firstFail (vehicleChecks h v s)).elim
        (authorizeLate h v a (applyHours v a.hours s).2 (applyHours v a.hours s).1) fun c => (s, .error c) := by
  cases hc : firstFail (vehicleChecks h v s) with
  | some c => simp only [authorizeHose, checksToTen, he, hf, hc, Option.elim_some]
  | none =>
    simp only [authorizeHose, checksToTen, he, hf, hc, Option.elim_none, authorizeLate]
    cases firstFail (lateChecks h v a (applyHours v a.hours s).1) with
    | some c => rfl
    | none => cases (clampFor h v a (applyHours v a.hours s).1).refusal <;> rfl

/-- The checks after the hour reading, written out. -/
theorem authorizeLate_eq (v : VehicleId) (regress : Bool) :
    authorizeLate h v a regress s =
      if (s.vehicle v).status = .overdue ∧ (s.classOf (s.vehicle v).host.cls).overdueAction = .refuse
          ∧ a.supervisor = false then (s, .error .serviceOverdue)
      else if a.path = .tag ∧ s.link.online = false
          ∧ ((s.vehicle v).host.standalonePermit = false ∨ s.link.site.standaloneCap = 0) then
        (s, .error .standaloneDeny)
      else if available (s.tank (s.hose h).config.tank) < 20000 then (s, .error .noStock)
      else if (clampFor h v a s).preset < 1000 then
        (s, .error (if (clampFor h v a s).capped then .serviceOverdue else .range))
      else (makeGrant h (grantOf h v a regress s) s, .ok (grantOf h v a regress s)) := by
  have hmin : Config.minimumDelivery = 20000 := rfl
  have hpre : Config.minimumPreset = 1000 := rfl
  have hlate : (clampFor h v a s).refusal.elim
      (makeGrant h (grantOf h v a regress s) s, .ok (grantOf h v a regress s)) (fun c => (s, Except.error c)) =
      if (clampFor h v a s).preset < 1000 then
        (s, .error (if (clampFor h v a s).capped then .serviceOverdue else .range))
      else (makeGrant h (grantOf h v a regress s) s, .ok (grantOf h v a regress s)) := by
    unfold Clamped.refusal
    rw [hpre]
    by_cases hp : (clampFor h v a s).preset < 1000
    · rw [if_neg (by omega), if_pos hp]; rfl
    · rw [if_pos (by omega), if_neg hp]; rfl
  unfold authorizeLate
  rw [hlate]
  simp only [lateChecks, elim_firstFail_cons, firstFail, Option.elim_none]
  refine if_congr ?_ rfl (if_congr ?_ rfl (if_congr ?_ rfl rfl))
  · simp [and_assoc]
  · simp [standaloneBound, and_assoc, Nat.pos_iff_ne_zero, or_iff_not_imp_left]
  · rw [decide_eq_false_iff_not, hmin]; omega

end

/-- Settles O12: the early checks one after the other, then those of the vehicle found, then those after the hour
reading. -/
theorem refusalIsFirstFailedCheck : Obligations.RefusalIsFirstFailedCheck := by
  intro s h a k
  have hearly : ∀ c, firstFail (earlyChecks h s) = some c → authorizeHose h a s = (s, .error c) :=
    fun c => authorizeHose_early
  have hgrant : s.journal.grantTest = true ↔ s.journal.faulted = false
      ∧ s.journal.reservations + 1 + 16 ≤ s.journal.free := by
    simp [Journal.grantTest, Config.grantMargin]
  refine ⟨fun he => hearly _ (by simp [earlyChecks, firstFail, he]), fun he => ⟨fun hj => ?_, fun hf hr => ?_⟩⟩
  · refine hearly _ ?_
    have hno : s.journal.grantTest = false := by
      rw [Bool.eq_false_iff, Ne, hgrant]
      rintro ⟨h1, h2⟩
      rcases hj with hj | hj
      · rw [h1] at hj; cases hj
      · omega
    simp [earlyChecks, firstFail, he, hno]
  have hj := hgrant.mpr ⟨hf, hr⟩
  refine ⟨fun hst => hearly _ (by simp [earlyChecks, firstFail, he, hj, hst]), fun hst => ?_⟩
  have hpass : firstFail (earlyChecks h s) = none := by simp [earlyChecks, firstFail, he, hj, hst]
  refine ⟨fun hv => authorizeHose_unknown hpass hv, fun v hv => ?_⟩
  dsimp only
  rw [authorizeHose_found hpass hv, authorizeLate_eq]
  simp only [vehicleChecks, elim_firstFail_cons, firstFail, Option.elim_none]
  refine if_congr Iff.rfl rfl (if_congr ?_ rfl (if_congr ?_ rfl (if_congr Iff.rfl rfl (if_congr ?_ rfl
    (if_congr ?_ rfl rfl)))))
  · simp [Option.isNone_eq_false_iff, Option.isSome_iff_ne_none]
  · simp
  · simp [k]
  · simp [k]

/-! ### The clamps (R11) -/

/-- A vehicle bound by the limp allowance, and an authorization bound by the standalone limits. -/
theorem standaloneBound_eq (path : GrantPath) (s : State) :
    standaloneBound path s = decide (path = .tag ∧ s.link.online = false) := by
  unfold standaloneBound
  cases s.link.online <;> simp

/-- Settles O13: the clamps with each condition decided. -/
theorem presetClampsInOrder : Obligations.PresetClampsInOrder := by
  intro s h v a
  dsimp only
  unfold clampFor
  dsimp only
  rw [standaloneBound_eq, ← Bool.decide_and]
  by_cases hl : (s.vehicle v).status = .overdue ∧ (s.classOf (s.vehicle v).host.cls).overdueAction = .limit <;>
    by_cases ha : a.path = .tag ∧ s.link.online = false <;>
    simp only [hl, ha, and_self, decide_true, decide_false, if_true, if_false, Bool.false_eq_true] <;>
    exact ⟨rfl, rfl, rfl, rfl⟩

/-! ### The grant (R12) -/

theorem grantColour_eq (st : ServiceStatus) :
    grantColour st = if st = .due ∨ st = .overdue then .amber else .green := by
  cases st <;> rfl

theorem makeGrant_granted {s : State} {h : HoseId} {g : Grant} (hw : s.vehiclesSound = true) :
    Granted s (makeGrant h g s) h g := by
  have hhose : (makeGrant h g s).hose h =
      { s.hose h with
        state := .ready, grant := some g, lastRefusal := none, stray := 0
        lamp := if g.statusAtGrant = .due ∨ g.statusAtGrant = .overdue then .amber else .green
        timers := { (s.hose h).timers with refusal := none, ready := some (s.hose h).config.readyTimeout } } := by
    rw [← grantColour_eq]
    exact State.setHose_hose_self ..
  have htank : (makeGrant h g s).tank g.tank =
      { s.tank g.tank with reserved := (s.tank g.tank).reserved + g.tankRes } := State.setTank_tank_self ..
  have hvehicle : (makeGrant h g s).vehicle g.vehicle = { s.vehicle g.vehicle with binding := some h } :=
    State.setVehicle_vehicle_self hw
  refine ⟨hhose, htank, hvehicle, rfl, rfl, ?_⟩
  rw [hhose, htank, hvehicle, ← grantColour_eq]
  rfl

/-- The grant of an authorization reads the hose, the tank and the host part, which the hour reading left as they were. -/
theorem grantOf_eq {s s1 : State} {h : HoseId} {v : VehicleId} (a : AuthRequest) (regress : Bool)
    (hc : Kept.Calm s s1) (hhost : (s1.vehicle v).host = (s.vehicle v).host) :
    grantOf h v a regress s1 =
      { vehicle := v, path := a.path, tag := (s.vehicle v).host.tag, tank := (s.hose h).config.tank,
        product := (s.tank (s.hose h).config.tank).config.product, hours := a.hours, regress := regress,
        preset := (clampFor h v a s1).preset,
        tankRes := ((clampFor h v a s1).preset * 1050000 + 999999) / 1000000, journalRes := true,
        flags := { supervisor := a.supervisor, capped := (clampFor h v a s1).capped,
                   standalone := (clampFor h v a s1).standalone, stockLimited := (clampFor h v a s1).stockLimited },
        statusAtGrant := (s1.vehicle v).status, start := none, endReason := none, held := none } := by
  have hh : s1.hose h = s.hose h := congrArg (·.get h) hc.hoses
  have ht : ∀ k, s1.tank k = s.tank k := fun k => congrArg (·.get k) hc.tanks
  unfold grantOf
  simp only [hh, ht, hhost, reservationOf_eq]

/-- An authorization whose checks all pass makes its grant. -/
theorem authorizeHose_grants {s : State} {h : HoseId} {v : VehicleId} {a : AuthRequest}
    (hm : s.mayAuthorize h v) (hf : findVehicle a.who s = some v)
    (hl : (applyHours v a.hours s).1.passesLate h v a.path a.supervisor)
    (hp : 1000 ≤ (clampFor h v a (applyHours v a.hours s).1).preset) :
    authorizeHose h a s =
      (makeGrant h (grantOf h v a (applyHours v a.hours s).2 (applyHours v a.hours s).1) (applyHours v a.hours s).1,
        .ok (grantOf h v a (applyHours v a.hours s).2 (applyHours v a.hours s).1)) := by
  obtain ⟨-, hother⟩ := refusalIsFirstFailedCheck s h a
  obtain ⟨-, hslots⟩ := hother hm.stopReleased
  obtain ⟨-, hidle⟩ := hslots hm.notFaulted hm.slots
  obtain ⟨-, hfound⟩ := hidle hm.idle
  have hrec : (s.tank (s.hose h).config.tank).receipt.isReceiving ≠ true := by
    cases hr : (s.tank (s.hose h).config.tank).receipt with
    | receiving r => exact absurd hr (hm.notReceiving r)
    | normal | settling r n => exact Bool.false_ne_true
  have hstand : ¬(a.path = .tag ∧ (applyHours v a.hours s).1.link.online = false
      ∧ (((applyHours v a.hours s).1.vehicle v).host.standalonePermit = false
        ∨ (applyHours v a.hours s).1.link.site.standaloneCap = 0)) := by
    rintro ⟨h1, h2, h3⟩
    obtain ⟨h4, h5⟩ := hl.standalone h1 h2
    rcases h3 with h3 | h3
    · rw [h4] at h3; cases h3
    · omega
  have hstock : ¬available ((applyHours v a.hours s).1.tank ((applyHours v a.hours s).1.hose h).config.tank) < 20000 := by
    have := hl.stock
    unfold available
    omega
  rw [hfound v hf, if_neg (by simp [hm.enabled]), if_neg (by simp [hm.unbound]), if_neg (by simp [hm.unlocked]),
    if_neg (by simp [hm.allowed]), if_neg hrec, if_neg hm.pump, if_neg hl.service, if_neg hstand, if_neg hstock,
    if_neg (Nat.not_lt.mpr hp)]

theorem exec_tagRead {s : State} (hr : s.phase = .running) (h : HoseId) (tag : Tag) (hours : Option (BitVec 32)) :
    exec (.tagRead h tag hours) s = .next (takeTag h tag (hours.map BitVec.toNat) s) := next_whenRunning hr _

section
variable {s : State} {h : HoseId} {tag : Tag} {n : Option Nat}

theorem takeTag_granted {s1 : State} {g : Grant} (hst : (s.hose h).state = .idle)
    (e : authorizeHose h { path := .tag, who := .inl tag, supervisor := false, hours := n, presetL := 0 } s
      = (s1, .ok g)) : takeTag h tag n s = s1 := by
  simp only [takeTag, hst, e]

theorem takeTag_refused {s1 : State} {c : StatusCode} (hst : (s.hose h).state = .idle)
    (e : authorizeHose h { path := .tag, who := .inl tag, supervisor := false, hours := n, presetL := 0 } s
      = (s1, .error c)) : takeTag h tag n s = displayRefusal h c s1 := by
  simp only [takeTag, hst, e]

/-- In READY the grant's own tag, unless it is 0, starts the ready timer again. -/
theorem takeTag_ready {g : Grant} (hst : (s.hose h).state = .ready) (hg : (s.hose h).grant = some g) :
    takeTag h tag n s =
      if tag ≠ 0 ∧ g.tag = tag then
        s.setHose h { s.hose h with timers := { (s.hose h).timers with ready := some (s.hose h).config.readyTimeout } }
      else s := by
  simp only [takeTag, hst, hg, Bool.and_eq_true, decide_eq_true_eq]

theorem takeTag_begun (h1 : (s.hose h).state ≠ .idle) (h2 : (s.hose h).state ≠ .ready) : takeTag h tag n s = s := by
  cases hst : (s.hose h).state with
  | idle => exact absurd hst h1
  | ready => exact absurd hst h2
  | _ => simp only [takeTag, hst]

end

theorem State.mayAuthorize.not_ready {s : State} {h : HoseId} {v : VehicleId} (hm : s.mayAuthorize h v) (k : HoseId)
    (hk : (s.vehicle v).binding = some k) : (s.hose k).state ≠ .ready := by
  rw [hm.unbound] at hk; cases hk

/-- Settles O14: the vehicle is the only carrier of the tag, and every check passes. -/
theorem tagReadGrants : Obligations.TagReadGrants := by
  intro s h tag hours v hr hw ht hcar hm n s1 a p hl hp
  have hauth := authorizeHose_grants (a := a) hm (findByTag_only hw ht hcar) hl hp
  have hcalm : Kept.Calm s s1 := Kept.calm_applyHours hw n hm.not_ready
  have htag : (s.vehicle v).host.tag = tag := by
    have := hcar.carries
    simp only [Vehicle.carries, Bool.and_eq_true, decide_eq_true_eq] at this
    exact this.2
  rw [grantOf_eq a (applyHours v a.hours s).2 hcalm (applyHours_host hw n hm.not_ready), htag] at hauth
  refine ⟨_, ?_, makeGrant_granted (hcalm.sound hw)⟩
  rw [exec_tagRead hr, takeTag_granted hm.idle hauth]

/-! ### AUTHORIZE (R9) -/

section
variable {s : State} {b f : Byte} {index preset : BitVec 16} {hours : BitVec 32}

theorem takeAuthorize_range (hbad : 8 ≤ b.toNat ∨ 512 ≤ index.toNat ∨ f &&& 0xFC#8 ≠ 0#8) :
    takeAuthorize b index preset f hours s = refuse .range s := by
  have hbits : onlyBits 0x03#8 f = decide (f &&& 0xFC#8 = 0#8) := rfl
  unfold takeAuthorize
  split
  next h v hh hv =>
    rcases hbad with hb | hi | hf
    · rw [hoseOf_none hb] at hh; cases hh
    · rw [vehicleOf_none hi] at hv; cases hv
    · rw [hbits, decide_eq_false hf]; rfl
  next => rfl

/-- AUTHORIZE with its operands in range is an authorization on the host path. -/
theorem takeAuthorize_inRange {h : HoseId} {v : VehicleId} {a : AuthRequest} (hb : b.toNat = h.val)
    (hi : index.toNat = v.val) (hf : f &&& 0xFC#8 = 0#8)
    (ha : a = { path := .host, who := .inr v, supervisor := f.getLsbD 0,
                hours := if f.getLsbD 1 then some hours.toNat else none, presetL := preset.toNat }) :
    (∀ s1 c, authorizeHose h a s = (s1, .error c) → takeAuthorize b index preset f hours s = (s1, .reply c .none))
    ∧ ∀ s1 g, authorizeHose h a s = (s1, .ok g) →
        takeAuthorize b index preset f hours s =
          (s1, .reply .ok (.authorized g.preset g.tankRes g.flags g.statusAtGrant)) := by
  have hbits : onlyBits 0x03#8 f = true := decide_eq_true hf
  subst ha
  constructor <;> intro s1 x e <;>
    simp only [takeAuthorize, hoseOf_some hb, vehicleOf_some hi, hbits, Bool.not_true, Bool.false_eq_true, if_false,
      optional, e]

end

/-- Settles O16: the refusals of the operands, then those of the authorization and its grant. -/
theorem authorizeGrants : Obligations.AuthorizeGrants := by
  intro s tag b f index preset hours hs
  refine ⟨fun hbad => exec_refuses (r := .authorize b index preset f hours) hs rfl tag (takeAuthorize_range hbad),
    fun h v hb hi hf => ?_⟩
  intro n a
  obtain ⟨herror, hok⟩ := takeAuthorize_inRange (s := s.heard) (a := a) (preset := preset) hb hi hf rfl
  refine ⟨fun s1 c e => exec_replies (r := .authorize b index preset f hours) hs rfl tag (herror s1 c e),
    fun hw hm => ?_⟩
  intro s1 p hl hp flags g
  have hm' : s.heard.mayAuthorize h v :=
    ⟨hm.stopReleased, hm.notFaulted, hm.slots, hm.idle, hm.inUse, hm.enabled, hm.unbound, hm.unlocked, hm.allowed,
      hm.notReceiving, hm.pump⟩
  have hw' : s.heard.vehiclesSound = true := hw
  have hcalm : Kept.Calm s.heard s1 := Kept.calm_applyHours hw' n hm'.not_ready
  have hauth := authorizeHose_grants (a := a) hm' (if_pos hm.inUse) hl hp
  rw [grantOf_eq a (applyHours v a.hours s.heard).2 hcalm (applyHours_host hw' n hm'.not_ready)] at hauth
  exact ⟨makeGrant h g s1, exec_replies (r := .authorize b index preset f hours) hs rfl tag (hok _ _ hauth),
    makeGrant_granted (hcalm.sound hw')⟩

/-! ### A tag read that makes no grant (R13, R14) -/

/-- Settles O15: the tag read by the hose's state. -/
theorem tagReadOtherwise : Obligations.TagReadOtherwise := by
  intro s h tag hours hr
  rw [exec_tagRead hr]
  refine ⟨fun hst s1 c e => congrArg _ (takeTag_refused hst e),
    fun hst g hg => ⟨fun h0 ht => ?_, fun hne => ?_⟩, fun h1 h2 => congrArg _ (takeTag_begun h1 h2)⟩
  · rw [takeTag_ready hst hg, if_pos ⟨h0, ht.symm⟩]
  · rw [takeTag_ready hst hg, if_neg]
    rintro ⟨h0, ht⟩
    exact hne.elim h0 fun h => h ht.symm

end Sys2Proof.Machine


/-! PROOFS. The release of a READY grant and the report of a change of service status to it: what the release does, what
the report does by the status and the overdue action; then the statement. -/

namespace Sys2Proof.Machine

open Sys2Proof

theorem State.setHose_setHose (s : State) (h : HoseId) (x y : Hose) : (s.setHose h x).setHose h y = s.setHose h y := by
  show ({ s with hoses := upd (upd s.hoses h x) h y } : State) = _
  rw [upd_upd]
  rfl

/-- A vehicle reads alike in two states with one vehicle table. -/
theorem State.vehicle_congr {s t : State} (h : t.vehicles = s.vehicles) (v : VehicleId) : t.vehicle v = s.vehicle v :=
  congrArg (fun m => Sparse.get Vehicle.unused m v.val) h

/-! ### The release (R15) -/

/-- The end of a reservation: the count falls, and a FAULTED journal that may leave FAULTED leaves it (R161). -/
theorem endReservation_eq (s : State) : ∃ (f : Bool) (l : Link),
    endReservation s =
      { s with journal := { s.journal with reservations := s.journal.reservations - 1, faulted := f }, link := l }
    ∧ ({ s.journal with reservations := s.journal.reservations - 1 }.Recovers →
        f = false ∧ l = (raise .journal .recovered s).link)
    ∧ (¬{ s.journal with reservations := s.journal.reservations - 1 }.Recovers →
        f = s.journal.faulted ∧ l = s.link) := by
  by_cases hrec : { s.journal with reservations := s.journal.reservations - 1 }.Recovers
  · exact ⟨false, _, recoverTest_recovers hrec, fun _ => ⟨rfl, rfl⟩, fun hn => absurd hrec hn⟩
  · exact ⟨s.journal.faulted, s.link, recoverTest_stays hrec, fun hn => absurd hn hrec, fun _ => ⟨rfl, rfl⟩⟩

section
variable {s t : State} {h : HoseId} {g : Grant} {d : Detail}

/-- The release of a grant that holds its journal reservation, as its steps. -/
theorem releaseGrant_eq (hg : (s.hose h).grant = some g) (hj : g.journalRes = true) :
    releaseGrant h d s =
      raise (.hoseState h) d
        ((clearBinding g.vehicle (endReservation (takeOffReserved g.tank g.tankRes s))).setHose h
          ((clearBinding g.vehicle (endReservation (takeOffReserved g.tank g.tankRes s))).hose h).toIdle) := by
  simp only [releaseGrant, hg, hj, if_true]

/-- The state between the end of the reservation and the event of a release. -/
def releasedFrom (s : State) (h : HoseId) (g : Grant) (f : Bool) (l : Link) : State :=
  let u := { takeOffReserved g.tank g.tankRes s with
    journal := { s.journal with reservations := s.journal.reservations - 1, faulted := f }, link := l }
  (clearBinding g.vehicle u).setHose h (s.hose h).toIdle

theorem releasedFrom_hose (f : Bool) (l : Link) : (releasedFrom s h g f l).hose h = (s.hose h).toIdle :=
  State.setHose_hose_self ..

theorem releasedFrom_tank (f : Bool) (l : Link) : (releasedFrom s h g f l).tank g.tank =
    { s.tank g.tank with reserved := (s.tank g.tank).reserved - g.tankRes } := State.setTank_tank_self ..

theorem releasedFrom_vehicle (hw : s.vehiclesSound = true) (f : Bool) (l : Link) :
    (releasedFrom s h g f l).vehicle g.vehicle = { s.vehicle g.vehicle with binding := none } :=
  State.setVehicle_vehicle_self hw

theorem releaseGrant_released (hw : s.vehiclesSound = true) (hg : (s.hose h).grant = some g)
    (hj : g.journalRes = true) : Released s (releaseGrant h d s) h g d := by
  obtain ⟨f, l, e, hrec, hstay⟩ := endReservation_eq (takeOffReserved g.tank g.tankRes s)
  have heq : releaseGrant h d s = raise (.hoseState h) d (releasedFrom s h g f l) := by
    rw [releaseGrant_eq hg hj, e]; rfl
  rw [heq]
  refine ⟨releasedFrom_hose f l, releasedFrom_tank (h := h) f l,
    releasedFrom_vehicle (h := h) hw f l, rfl, fun hr => ?_, fun hn => ?_, ?_⟩
  · obtain ⟨rfl, hl⟩ := hrec hr
    exact ⟨rfl, raise_link_congr _ _ hl rfl rfl rfl⟩
  · obtain ⟨rfl, hl⟩ := hstay hn
    exact ⟨rfl, raise_link_congr _ _ hl rfl rfl rfl⟩
  · show raise (.hoseState h) d (releasedFrom s h g f l) =
      ((((s.setHose h ((releasedFrom s h g f l).hose h)).setTank g.tank ((releasedFrom s h g f l).tank g.tank)).setVehicle
        g.vehicle ((releasedFrom s h g f l).vehicle g.vehicle)).setJournal _).setLink _
    rw [releasedFrom_hose, releasedFrom_tank, releasedFrom_vehicle hw]
    rfl

/-- What a release leaves does not depend on the lamp that the hose showed. -/
theorem Released.of_lamp {l : Lamp} (hr : Released (s.setHose h { s.hose h with lamp := l }) t h g d) :
    Released s t h g d := by
  obtain ⟨hhose, htank, hvehicle, hslot, hrec, hstay, hframe⟩ := hr
  rw [State.setHose_hose_self] at hhose
  rw [State.setHose_setHose] at hframe
  exact ⟨hhose, htank, hvehicle, hslot, hrec, hstay, hframe⟩

end

/-! ### The report of a change of status (R16) -/

section
variable {s : State} {h : HoseId} {g : Grant} {c : ClassRecord} {new : ServiceStatus}

theorem takeStatusReport_refuse (hst : (s.hose h).state = .ready) (hg : (s.hose h).grant = some g)
    (hn : new = .overdue) (ha : c.overdueAction = .refuse) :
    takeStatusReport h c new s = if g.flags.supervisor then recolour h new s else releaseGrant h .withdrawn s := by
  simp only [takeStatusReport, hst, hg, hn, ha]

theorem takeStatusReport_limit (hst : (s.hose h).state = .ready) (hg : (s.hose h).grant = some g)
    (hn : new = .overdue) (ha : c.overdueAction = .limit) :
    takeStatusReport h c new s = reviseLimit h (c.limp * 1000) (recolour h new s) := by
  simp only [takeStatusReport, hst, hg, hn, ha]

theorem takeStatusReport_lamp (hst : (s.hose h).state = .ready) (hg : (s.hose h).grant = some g)
    (hn : new ≠ .overdue) : takeStatusReport h c new s = recolour h new s := by
  cases new with
  | overdue => exact absurd rfl hn
  | _ => simp only [takeStatusReport, hst, hg]

theorem recolour_eq : recolour h new s = s.setHose h { s.hose h with lamp := grantColour new } := rfl

theorem recolour_hose : (recolour h new s).hose h = { s.hose h with lamp := grantColour new } :=
  State.setHose_hose_self ..

/-- The three cases of the limit revision (R16). -/
theorem reviseLimit_eq (limp : Nat) (hg : (s.hose h).grant = some g) :
    reviseLimit h limp s =
      if g.preset ≤ limp then s
      else if limp < 1000 then releaseGrant h .withdrawn s
      else
        (s.setTank g.tank { s.tank g.tank with
            reserved := (s.tank g.tank).reserved - (g.tankRes - (limp * 1050000 + 999999) / 1000000) }).setHose h
          { s.hose h with
            grant := some { g with
              preset := limp, tankRes := (limp * 1050000 + 999999) / 1000000
              flags := { g.flags with capped := true } } } := by
  simp only [reviseLimit, hg, ← reservationOf_eq]
  rfl

/-- A recomputation that changes the status of a vehicle bound to a hose. -/
theorem recompute_bound {v : VehicleId}
    (hne : statusOf (s.classOf (s.vehicle v).host.cls) (s.vehicle v) ≠ (s.vehicle v).status)
    (hb : (s.vehicle v).binding = some h) :
    recompute v s =
      takeStatusReport h (s.classOf (s.vehicle v).host.cls)
        (statusOf (s.classOf (s.vehicle v).host.cls) (s.vehicle v))
        (updateDueList v (s.vehicle v).status (statusOf (s.classOf (s.vehicle v).host.cls) (s.vehicle v))
          (s.setVehicle v
            { s.vehicle v with status := statusOf (s.classOf (s.vehicle v).host.cls) (s.vehicle v) })) := by
  simp only [recompute, if_neg hne, hb]

end

theorem readyExpires_running {s : State} {h : HoseId} {n : Nat} (hst : (s.hose h).state = .ready)
    (hn : (s.hose h).timers.ready = some n) : readyExpires h s = releaseGrant h .readyTimeout s := by
  simp only [readyExpires, hst, hn]

theorem takeCancel_ready {s : State} {h : HoseId} {b : Byte} (hb : b.toNat = h.val) (hst : (s.hose h).state = .ready) :
    takeCancel b s = (releaseGrant h .cancelled s, .reply .ok .none) := by
  simp only [takeCancel, hoseOf_some hb, if_pos hst]

theorem takeCancel_refused {s : State} {h : HoseId} {b : Byte} (hb : b.toNat = h.val)
    (hst : (s.hose h).state ≠ .ready) : takeCancel b s = refuse .state s := by
  simp only [takeCancel, hoseOf_some hb, if_neg hst]

/-- Settles O17: the two releases, then the report by the new status and the overdue action. -/
theorem readyGrantIsReleased : Obligations.ReadyGrantIsReleased := by
  intro s h g hw hg hj
  refine ⟨fun n hr hst hn => ⟨_, ?_, releaseGrant_released hw hg hj⟩,
    fun tag b hs hb hst => ⟨_, exec_replies (r := .cancel b) hs rfl tag (takeCancel_ready hb hst),
      releaseGrant_released (s := s.heard) hw hg hj⟩, ?_⟩
  · exact (next_whenRunning hr _).trans (congrArg _ (readyExpires_running hst hn))
  intro r c new limp refused cut hst hbind hne
  obtain ⟨dl, dr, ev, att, e⟩ := updateDueList_frame g.vehicle r.status new
    (s.setVehicle g.vehicle { r with status := new })
  have hfollows := (updateDueList_follows g.vehicle hne (s.setVehicle g.vehicle { r with status := new })).of_setVehicle
  have hrun := recompute_bound hne hbind
  rw [show updateDueList g.vehicle (s.vehicle g.vehicle).status _ _ = _ from e] at hrun
  rw [e] at hfollows
  generalize hu : ({ s.setVehicle g.vehicle { r with status := new } with
    dueList := dl, dueRevision := dr,
    link := { (s.setVehicle g.vehicle { r with status := new }).link with events := ev, attention := att } } : State) = u
    at hrun hfollows
  have huhose : u.hose h = s.hose h := by rw [← hu]; rfl
  have huw : u.vehiclesSound = true := by rw [← hu]; exact State.setVehicle_sound hw
  have hst' : (u.hose h).state = .ready := huhose ▸ hst
  have hg' : (u.hose h).grant = some g := huhose ▸ hg
  have hutank : u.tank g.tank = s.tank g.tank := by rw [← hu]; rfl
  have hgr : ((recolour h new u).hose h).grant = some g := by rw [recolour_hose]; exact hg'
  have hlamp : recolour h new u =
      u.setHose h { s.hose h with lamp := if new = .due ∨ new = .overdue then Lamp.amber else Lamp.green } := by
    rw [recolour_eq, huhose, grantColour_eq]
  refine ⟨u, by rw [← hu]; rfl, by rw [← hu]; exact State.setVehicle_vehicle_self hw,
    fun v hv => by rw [← hu]; exact State.setVehicle_vehicle_ne hv, hfollows, ?_, fun hnr hnc => ⟨?_, fun hcut => ?_⟩⟩
  · rintro (⟨hn, ha, hsup⟩ | ⟨⟨hn, ha, hlt⟩, hsmall⟩)
    · rw [hrun, takeStatusReport_refuse hst' hg' hn ha, if_neg (by simp [hsup])]
      exact releaseGrant_released huw hg' hj
    · rw [hrun, takeStatusReport_limit hst' hg' hn ha, reviseLimit_eq _ hgr, if_neg (Nat.not_le.mpr hlt), if_pos hsmall]
      exact (releaseGrant_released (s := recolour h new u) huw hgr hj).of_lamp
  · rintro ⟨hn, ha, hlt⟩
    have hbig : ¬limp < 1000 := fun hs => hnc ⟨⟨hn, ha, hlt⟩, hs⟩
    rw [hrun, takeStatusReport_limit hst' hg' hn ha, reviseLimit_eq _ hgr, if_neg (Nat.not_le.mpr hlt), if_neg hbig,
      recolour_hose, hlamp, grantColour_eq, huhose]
    rw [← hutank]
    exact State.setHose_setHose (u.setTank g.tank _) h _ _
  · rw [← hlamp, hrun]
    by_cases hn : new = .overdue
    · cases ha : c.overdueAction with
      | refuse =>
        rw [takeStatusReport_refuse hst' hg' hn ha, if_pos]
        exact (Bool.not_eq_false _).mp fun hsup => hnr ⟨hn, ha, hsup⟩
      | limit =>
        rw [takeStatusReport_limit hst' hg' hn ha, reviseLimit_eq _ hgr, if_pos]
        exact Nat.not_lt.mp fun hlt => hcut ⟨hn, ha, hlt⟩
    · exact takeStatusReport_lamp hst' hg' hn

end Sys2Proof.Machine


/-! PROOFS. The pumps and the start slot. First running a function for each hose, the choice of the next pump and the
passing of the slot, and what a pump's report does to the hoses of its tank; then the statements. -/

namespace Sys2Proof.Machine

open Sys2Proof

/-! ### A function run for each member of a list -/

/-- What each member's function keeps of the state, running it for the list keeps. -/
theorem forAll_ind {α : Type} {f : α → State → State} (P : State → Prop) (xs : List α)
    (hf : ∀ x ∈ xs, ∀ s, P s → P (f x s)) (s : State) (hs : P s) : P (forAll xs f s) := by
  induction xs generalizing s with
  | nil => exact hs
  | cons x xs ih => exact ih (fun y hy => hf y (List.mem_cons_of_mem _ hy)) _ (hf x List.mem_cons_self s hs)

/-- A function that changes its own hose alone, by what that hose holds, changes so each hose of the list. -/
theorem forAll_hose {f : HoseId → State → State} {φ : Hose → Hose}
    (hself : ∀ k s, (f k s).hose k = φ (s.hose k)) (hne : ∀ k s h, h ≠ k → (f k s).hose h = s.hose h)
    {xs : List HoseId} (hn : xs.Nodup) (s : State) (h : HoseId) :
    (forAll xs f s).hose h = if h ∈ xs then φ (s.hose h) else s.hose h := by
  induction xs generalizing s with
  | nil => rfl
  | cons x xs ih =>
    obtain ⟨hx, hxs⟩ := List.nodup_cons.mp hn
    show (forAll xs f (f x s)).hose h = _
    rw [ih hxs]
    by_cases e : h = x
    · subst e
      rw [if_neg hx, if_pos List.mem_cons_self, hself]
    · rw [hne x s h e]
      simp only [List.mem_cons, e, false_or]

theorem hosesOn_nodup (s : State) (k : TankId) : (s.hosesOn k).Nodup := allHoses_nodup.filter _

/-! ### The next pump to start (R102) -/

theorem mem_waitingPumps (s : State) (k : TankId) : k ∈ waitingPumps s ↔ (s.pump k).state = .waiting := by
  have hall : ∀ k : TankId, k ∈ allTanks := by decide
  simp [waitingPumps, hall]

/-- A pump starts before another: by its priority, then by its tank number. -/
def startsBefore (s : State) (a b : TankId) : Prop :=
  (s.pump a).config.priority < (s.pump b).config.priority
    ∨ (s.pump a).config.priority = (s.pump b).config.priority ∧ a ≤ b

theorem startsBefore.trans {s : State} {a b c : TankId} (h1 : startsBefore s a b) (h2 : startsBefore s b c) :
    startsBefore s a c := by
  simp only [startsBefore, Fin.le_def] at *
  omega

theorem startsBefore.antisymm {s : State} {a b : TankId} (h1 : startsBefore s a b) (h2 : startsBefore s b a) : a = b := by
  simp only [startsBefore, Fin.le_def] at *
  exact Fin.ext (by omega)

/-- Of two pumps in ascending order the better one is one of them and starts before both. -/
theorem betterPump_best {s : State} {a b : TankId} (hab : a < b) :
    (betterPump s a b = a ∨ betterPump s a b = b) ∧ startsBefore s (betterPump s a b) a
      ∧ startsBefore s (betterPump s a b) b := by
  have hab' : a.val < b.val := hab
  simp only [betterPump, startsBefore, Fin.le_def]
  split
  · exact ⟨.inr rfl, by omega, by omega⟩
  · exact ⟨.inl rfl, by omega, by omega⟩

theorem foldl_betterPump_best {s : State} (rest : List TankId) : ∀ a : TankId, (a :: rest).Pairwise (· < ·) →
    rest.foldl (betterPump s) a ∈ a :: rest ∧ ∀ i ∈ a :: rest, startsBefore s (rest.foldl (betterPump s) a) i := by
  induction rest with
  | nil => exact fun a _ => ⟨List.mem_cons_self, fun i hi => .inr (by simp [List.mem_singleton.mp hi])⟩
  | cons b rest ih =>
    intro a hp
    obtain ⟨ha, hbr⟩ := List.pairwise_cons.mp hp
    obtain ⟨hb, hr⟩ := List.pairwise_cons.mp hbr
    obtain ⟨hor, h1, h2⟩ := betterPump_best (s := s) (ha b List.mem_cons_self)
    have hpair : (betterPump s a b :: rest).Pairwise (· < ·) := by
      refine List.pairwise_cons.mpr ⟨fun x hx => ?_, hr⟩
      rcases hor with e | e <;> rw [e]
      · exact ha x (List.mem_cons_of_mem _ hx)
      · exact hb x hx
    obtain ⟨hin, hbest⟩ := ih _ hpair
    have hfirst := hbest _ List.mem_cons_self
    refine ⟨?_, fun i hi => ?_⟩
    · rcases List.mem_cons.mp hin with e | e
      · rw [List.foldl_cons, e]
        rcases hor with e' | e' <;> rw [e'] <;> simp
      · exact List.mem_cons_of_mem _ (List.mem_cons_of_mem _ e)
    · rcases List.mem_cons.mp hi with rfl | hi
      · exact hfirst.trans h1
      · rcases List.mem_cons.mp hi with rfl | hi
        · exact hfirst.trans h2
        · exact hbest i (List.mem_cons_of_mem _ hi)

theorem State.nextToStart.unique {s : State} {a b : TankId} (ha : s.nextToStart a) (hb : s.nextToStart b) : a = b :=
  startsBefore.antisymm (ha.best b hb.waits) (hb.best a ha.waits)

/-- The pump that the arbiter chooses is the next to start; it chooses none when none waits. -/
theorem chosenPump_cases (s : State) :
    (∃ j, chosenPump s = some j ∧ s.nextToStart j)
      ∨ chosenPump s = none ∧ ∀ j : TankId, (s.pump j).state ≠ .waiting := by
  have hpair : (waitingPumps s).Pairwise (· < ·) := (by decide : allTanks.Pairwise (· < ·)).filter _
  unfold chosenPump
  cases hw : waitingPumps s with
  | nil =>
    refine .inr ⟨rfl, fun j hj => ?_⟩
    have := (mem_waitingPumps s j).mpr hj
    rw [hw] at this; cases this
  | cons a rest =>
    obtain ⟨hin, hbest⟩ := foldl_betterPump_best (s := s) rest a (hw ▸ hpair)
    refine .inl ⟨_, rfl, (mem_waitingPumps s _).mp (hw ▸ hin), fun i hi => ?_⟩
    exact hbest i (hw ▸ (mem_waitingPumps s i).mpr hi)

/-! ### The passing of the start slot (R102) -/

section
variable {s u : State} {k : TankId}

theorem freeSlot_frame (s : State) :
    freeSlot s = { s with pumps := (freeSlot s).pumps, slotHolder := (freeSlot s).slotHolder } := by
  unfold freeSlot
  dsimp only
  split <;> rfl

/-- A freed slot goes to the next pump to start, and no other pump changes. -/
theorem freeSlot_chosen {j : TankId} (h : s.nextToStart j) :
    freeSlot s = grantSlot j (s.setSlot none) := by
  rcases chosenPump_cases (s.setSlot none) with ⟨i, hi, hnext⟩ | ⟨-, hno⟩
  · have hji : i = j := State.nextToStart.unique (s := s) ⟨hnext.waits, hnext.best⟩ h
    unfold freeSlot
    simp only [hi, hji]
  · exact absurd h.waits (hno j)

theorem freeSlot_none (h : ∀ j : TankId, (s.pump j).state ≠ .waiting) : freeSlot s = s.setSlot none := by
  rcases chosenPump_cases (s.setSlot none) with ⟨i, -, hnext⟩ | ⟨hc, -⟩
  · exact absurd hnext.waits (h i)
  · unfold freeSlot
    simp only [hc]

theorem freeSlot_pump_stays {j : TankId} (h : ¬s.nextToStart j) : (freeSlot s).pump j = s.pump j := by
  rcases chosenPump_cases s with ⟨i, -, hi⟩ | ⟨-, hno⟩
  · rw [freeSlot_chosen hi]
    exact State.setPump_pump_ne _ _ fun e => h (e ▸ hi)
  · rw [freeSlot_none hno]; rfl

/-- Where two states agree on the pumps but one, and that one waits in neither, the next pump to start is the same. -/
theorem nextToStart_congr (hoff : ∀ j, j ≠ k → u.pump j = s.pump j) (hs : (s.pump k).state ≠ .waiting)
    (hu : (u.pump k).state ≠ .waiting) (j : TankId) : u.nextToStart j ↔ s.nextToStart j := by
  have hdir : ∀ s u : State, (∀ j, j ≠ k → u.pump j = s.pump j) → (s.pump k).state ≠ .waiting →
      (u.pump k).state ≠ .waiting → s.nextToStart j → u.nextToStart j := by
    intro s u hoff hs hu hj
    have hjk : j ≠ k := fun e => hs (e ▸ hj.waits)
    refine ⟨by rw [hoff j hjk]; exact hj.waits, fun i hi => ?_⟩
    have hik : i ≠ k := fun e => hu (e ▸ hi)
    rw [hoff i hik] at hi ⊢
    rw [hoff j hjk]
    exact hj.best i hi
  exact ⟨hdir u s (fun j hj => (hoff j hj).symm) hu hs, hdir s u hoff hs hu⟩

/-- A pump that leaves STARTING gives up the slot, and keeps what it became. -/
theorem freeSlot_passed (hoff : ∀ j, j ≠ k → u.pump j = s.pump j) (hs : (s.pump k).state ≠ .waiting)
    (hu : (u.pump k).state ≠ .waiting) :
    SlotPassed s (freeSlot u) k ∧ (freeSlot u).pump k = u.pump k := by
  refine ⟨⟨fun j hj => ?_, fun hno => ?_, fun j hjk hj => ?_⟩, freeSlot_pump_stays fun hk => hu hk.waits⟩
  · have hjk : j ≠ k := fun e => hs (e ▸ hj.waits)
    rw [freeSlot_chosen ((nextToStart_congr hoff hs hu j).mpr hj), ← hoff j hjk]
    exact ⟨rfl, State.setPump_pump_self ..⟩
  · rw [freeSlot_none]
    · rfl
    · intro j hj
      by_cases e : j = k
      · exact hu (e ▸ hj)
      · exact hno j (hoff j e ▸ hj)
  · rw [freeSlot_pump_stays (mt (nextToStart_congr hoff hs hu j).mp hj), hoff j hjk]

end

/-- The passing of the slot speaks of the pumps and the holder alone. -/
theorem SlotPassed.congr {s t t' : State} {k : TankId} (h : SlotPassed s t k) (hp : t'.pumps = t.pumps)
    (hs : t'.slotHolder = t.slotHolder) : SlotPassed s t' k := by
  have hpump : ∀ j, t'.pump j = t.pump j := fun j => congrArg (·.get j) hp
  refine ⟨fun j hj => ?_, fun hno => hs.trans (h.free hno), fun j hjk hj => (hpump j).trans (h.stay j hjk hj)⟩
  obtain ⟨h1, h2⟩ := h.granted j hj
  exact ⟨hs.trans h1, (hpump j).trans h2⟩

/-! ### What a pump reports to the hoses of its tank (R20, R103, R104) -/

/-- A hose that hears that its pump runs. -/
def Hose.hearsRunning (x : Hose) : Hose :=
  if x.state = .starting then
    { x with state := .flowing, valve := .full, timers := { x.timers with noFlow := some x.config.noFlowTimeout } }
  else x

/-- A hose that closes. -/
def Hose.toClosing (r : EndReason) (x : Hose) : Hose :=
  { x with
    state := .closing, valve := .closed, lamp := .off, grant := x.grant.map fun g => { g with endReason := some r }
    timers :=
      { ready := none, noFlow := none, pause := none, settle := some x.config.settleTime, closing := some 30,
        refusal := none } }

theorem reportRunning_hose (k : TankId) (s : State) (h : HoseId) :
    (reportRunning k s).hose h = if (s.hose h).config.tank = k then (s.hose h).hearsRunning else s.hose h := by
  simp only [← mem_hosesOn]
  refine forAll_hose (fun i s => ?_) (fun i s j hj => ?_) (hosesOn_nodup s k) s h
  · dsimp only [Hose.hearsRunning]
    split
    · exact State.setHose_hose_self ..
    · rfl
  · split
    · exact State.setHose_hose_ne _ _ hj
    · rfl

theorem reportRunning_frame (k : TankId) (s : State) :
    reportRunning k s = { s with hoses := (reportRunning k s).hoses, link := (reportRunning k s).link } := by
  refine forAll_ind (fun t => t = { s with hoses := t.hoses, link := t.link }) _ (fun h _ t ht => ?_) s rfl
  split
  · rw [ht]; rfl
  · exact ht

theorem closeIf_hose_ne {p : HoseState → Bool} {r : EndReason} {h j : HoseId} (hj : j ≠ h) (s : State) :
    (closeIf p r h s).hose j = s.hose j := by
  unfold closeIf
  split
  · rw [(enterClosing_closed s h r).frame]
    exact State.setHose_hose_ne _ _ hj
  · rfl

/-- Closing each hose of a tank in some states. -/
theorem closeAll_hose (p : HoseState → Bool) (r : EndReason) (k : TankId) (s : State) (h : HoseId) :
    (forAll (s.hosesOn k) (closeIf p r) s).hose h =
      if (s.hose h).config.tank = k ∧ p (s.hose h).state = true then (s.hose h).toClosing r else s.hose h := by
  rw [forAll_hose (φ := fun x => if p x.state = true then x.toClosing r else x) (fun i s => closeIf_hose p r i s)
    (fun i s j hj => closeIf_hose_ne hj s) (hosesOn_nodup s k) s h]
  simp only [mem_hosesOn, ite_and]

/-- The state `t` is `s` but for its hoses, its pumps and its link. -/
def OnlyFlow (s t : State) : Prop := t = { s with hoses := t.hoses, pumps := t.pumps, link := t.link }

theorem OnlyFlow.trans {s t u : State} (h1 : OnlyFlow s t) (h2 : OnlyFlow t u) : OnlyFlow s u := by
  unfold OnlyFlow at h1 h2
  rw [h1] at h2
  exact h2

theorem enterClosing_onlyFlow (h : HoseId) (r : EndReason) (s : State) : OnlyFlow s (enterClosing h r s) := by
  cases r <;> rfl

/-- A pump in FAULT whose demand falls stays as it is but for its demand. -/
theorem Pump.dropped_fault {p : Pump} (h : p.state = .fault) : ∃ n, p.dropped = { p with demand := n } := by
  unfold Pump.dropped
  split
  · exact ⟨_, rfl⟩
  · simp only [h]; exact ⟨_, rfl⟩

/-- Closing hoses of a tank whose pump is in FAULT changes of the pumps the demand of that one alone. -/
theorem closeAll_pump {p : HoseState → Bool} {r : EndReason} {k : TankId} {s : State} (hf : (s.pump k).state = .fault) :
    (∃ n, (forAll (s.hosesOn k) (closeIf p r) s).pump k = { s.pump k with demand := n })
      ∧ (∀ j, j ≠ k → (forAll (s.hosesOn k) (closeIf p r) s).pump j = s.pump j)
      ∧ OnlyFlow s (forAll (s.hosesOn k) (closeIf p r) s) := by
  have hstep : ∀ h ∈ s.hosesOn k, ∀ t : State,
      ((∀ i, (t.hose i).config = (s.hose i).config) ∧ (∃ n, t.pump k = { s.pump k with demand := n })
        ∧ (∀ j, j ≠ k → t.pump j = s.pump j) ∧ OnlyFlow s t) →
      (∀ i, ((closeIf p r h t).hose i).config = (s.hose i).config)
        ∧ (∃ n, (closeIf p r h t).pump k = { s.pump k with demand := n })
        ∧ (∀ j, j ≠ k → (closeIf p r h t).pump j = s.pump j)
        ∧ OnlyFlow s (closeIf p r h t) := by
    rintro h hh t ⟨hcfg, ⟨n, hn⟩, hoff, hframe⟩
    have htank : (t.hose h).config.tank = k := by rw [hcfg]; exact (mem_hosesOn s k h).mp hh
    unfold closeIf
    split
    next =>
      have hc := enterClosing_closed t h r
      have hpump := hc.pump
      rw [htank] at hpump
      have hfault : (t.pump k).state = .fault := by rw [hn]; exact hf
      obtain ⟨m, hm⟩ := Pump.dropped_fault hfault
      have hfr := hc.frame
      refine ⟨fun i => ?_, ⟨m, ?_⟩, fun j hj => ?_, hframe.trans (enterClosing_onlyFlow h r t)⟩
      · by_cases e : i = h
        · subst e; rw [hc.hose]; exact hcfg i
        · rw [hfr]
          exact (congrArg Hose.config (State.setHose_hose_ne t _ e)).trans (hcfg i)
      · rw [hpump, hm, hn]
      · rw [hfr]
        exact (State.setPump_pump_ne _ _ (htank ▸ hj)).trans (hoff j hj)
    next => exact ⟨hcfg, ⟨n, hn⟩, hoff, hframe⟩
  exact (forAll_ind _ _ hstep s ⟨fun _ => rfl, ⟨_, rfl⟩, fun _ _ => rfl, rfl⟩).2

/-! ### The pressure switch (R98, R103, R104) -/

/-- The part after the level of a pressure switch has changed (R98). -/
def State.withPressure (s : State) (k : TankId) (up : Bool) : State :=
  { s with inputs := { s.inputs with pressure := upd s.inputs.pressure k up } }

theorem exec_pressureUp {s : State} {k : TankId} (hr : s.phase = .running) (hl : s.inputs.pressure.get k = false) :
    exec (.pressureUp k) s = .next (takePressureUp k (s.withPressure k true)) := by
  refine congrArg Host.Outcome.next ?_
  rw [hl]
  exact whenRunning_running (s := s.withPressure k true) hr _

theorem exec_pressureDown {s : State} {k : TankId} (hr : s.phase = .running) (hl : s.inputs.pressure.get k = true) :
    exec (.pressureDown k) s = .next (takePressureDown k (s.withPressure k false)) := by
  refine congrArg Host.Outcome.next ?_
  rw [hl]
  exact whenRunning_running (s := s.withPressure k false) hr _

section
variable {s : State} {k : TankId}

theorem takePressureUp_started (h1 : (s.pump k).state = .starting) (h2 : 0 < (s.pump k).demand) :
    takePressureUp k s = reportRunning k (freeSlot (s.setPump k
      { s.pump k with state := .running, starter := true, startTimer := none, pressureUp := true })) := by
  simp only [takePressureUp, h1, if_pos h2]

theorem takePressureUp_undemanded (h1 : (s.pump k).state = .starting) (h2 : (s.pump k).demand = 0) :
    takePressureUp k s = freeSlot (s.setPump k (runOnOrStop { s.pump k with pressureUp := true })) := by
  simp only [takePressureUp, h1, h2, Nat.lt_irrefl, if_false]

theorem takePressureUp_unexpected (h : (s.pump k).state = .stopped ∨ (s.pump k).state = .waiting) :
    takePressureUp k s = raise (.pump k) .pressureUnexpected (s.setPump k { s.pump k with pressureUp := true }) := by
  rcases h with h | h <;> simp only [takePressureUp, h]

theorem takePressureUp_other
    (h : (s.pump k).state = .running ∨ (s.pump k).state = .runOn ∨ (s.pump k).state = .fault) :
    takePressureUp k s = s.setPump k { s.pump k with pressureUp := true } := by
  rcases h with h | h | h <;> simp only [takePressureUp, h]

theorem runOnOrStop_eq (p : Pump) : runOnOrStop p =
    if p.config.runOn = 0 then
      { p with state := .stopped, starter := false, startTimer := none, runOnTimer := none }
    else { p with state := .runOn, starter := true, startTimer := none, runOnTimer := some p.config.runOn } := rfl

theorem runOnOrStop_not_waiting (p : Pump) : (runOnOrStop p).state ≠ .waiting := by
  rw [runOnOrStop_eq]
  split <;> nofun

end

/-- Settles O37: the rise by the pump's state, and by its demand where the pump starts. -/
theorem pressureUpRuns : Obligations.PressureUpRuns := by
  intro s k hr hl
  dsimp only
  rw [exec_pressureUp hr hl]
  refine ⟨fun hst hd => ?_, fun hst hd => ?_, fun hst => ?_, fun hst => ?_⟩
  · generalize hu : (s.withPressure k true).setPump k
      { s.pump k with state := .running, starter := true, startTimer := none, pressureUp := true } = u
    have hoff : ∀ j, j ≠ k → u.pump j = s.pump j := fun j hj => by
      rw [← hu]; exact State.setPump_pump_ne (s.withPressure k true) _ hj
    have huk : u.pump k = { s.pump k with state := .running, starter := true, startTimer := none, pressureUp := true } := by
      rw [← hu]; exact State.setPump_pump_self ..
    obtain ⟨hslot, hk⟩ := freeSlot_passed hoff (by rw [hst]; decide) (by rw [huk]; nofun)
    have hfree := freeSlot_frame u
    have hrep := reportRunning_frame k (freeSlot u)
    have hhose : ∀ h, (freeSlot u).hose h = s.hose h := fun h => by rw [hfree, ← hu]; rfl
    refine ⟨reportRunning k (freeSlot u), ?_, ?_, ?_, hslot.congr ?_ ?_, fun h ht hs => ?_, fun h hne => ?_, ?_⟩
    · rw [takePressureUp_started (s := s.withPressure k true) hst hd]
      exact congrArg (fun u => Host.Outcome.next (reportRunning k (freeSlot u))) hu
    · rw [hrep, hfree, ← hu]; rfl
    · rw [← huk, ← hk, hrep]; rfl
    · rw [hrep]
    · rw [hrep]
    · rw [reportRunning_hose, hhose, if_pos ht, Hose.hearsRunning, if_pos hs]
    · rw [reportRunning_hose, hhose, Hose.hearsRunning]
      split
      next ht => rw [if_neg (hne.resolve_left (not_not_intro ht))]
      next => rfl
    · generalize reportRunning k (freeSlot u) = t at hrep
      rw [hfree, ← hu] at hrep
      rw [hrep]; rfl
  · generalize hu : (s.withPressure k true).setPump k (runOnOrStop { s.pump k with pressureUp := true }) = u
    have hoff : ∀ j, j ≠ k → u.pump j = s.pump j := fun j hj => by
      rw [← hu]; exact State.setPump_pump_ne (s.withPressure k true) _ hj
    have huk : u.pump k = runOnOrStop { s.pump k with pressureUp := true } := by
      rw [← hu]; exact State.setPump_pump_self ..
    obtain ⟨hslot, hk⟩ := freeSlot_passed hoff (by rw [hst]; decide) (by rw [huk]; exact runOnOrStop_not_waiting _)
    have hfree := freeSlot_frame u
    refine ⟨freeSlot u, ?_, ?_, ?_, hslot, ?_⟩
    · rw [takePressureUp_undemanded (s := s.withPressure k true) hst hd]
      exact congrArg (fun u => Host.Outcome.next (freeSlot u)) hu
    · rw [hfree, ← hu]; rfl
    · rw [hk, huk, runOnOrStop_eq]
    · generalize freeSlot u = t at hfree
      rw [← hu] at hfree
      rw [hfree]; rfl
  · exact congrArg _ (takePressureUp_unexpected (s := s.withPressure k true) hst)
  · exact congrArg _ (takePressureUp_other (s := s.withPressure k true) hst)

/-! ### Loss of pressure, the start timer and the run-on timer (R101, R103, R104) -/

section
variable {s : State} {k : TankId} {n : Nat}

theorem takePressureDown_running (h : (s.pump k).state = .running) :
    takePressureDown k s = raise (.pump k) .pressureLost (forAll (s.hosesOn k) (closeIf HoseState.hearsLoss .pumpFail)
      (s.setPump k (faultPump .pressureLost { s.pump k with pressureUp := false }))) := by
  simp only [takePressureDown, h]
  rfl

theorem takePressureDown_runOn (h : (s.pump k).state = .runOn) :
    takePressureDown k s = raise (.pump k) .pressureLost
      (s.setPump k (faultPump .pressureLost { s.pump k with pressureUp := false })) := by
  simp only [takePressureDown, h]

theorem takePressureDown_other (h1 : (s.pump k).state ≠ .running) (h2 : (s.pump k).state ≠ .runOn) :
    takePressureDown k s = s.setPump k { s.pump k with pressureUp := false } := by
  cases h : (s.pump k).state with
  | running => exact absurd h h1
  | runOn => exact absurd h h2
  | _ => simp only [takePressureDown, h]

theorem startExpires_running (h : (s.pump k).state = .starting) (hn : (s.pump k).startTimer = some n) :
    startExpires k s = raise (.pump k) .startTimeout
      (reportStartFailure k (freeSlot (s.setPump k (faultPump .startTimeout (s.pump k))))) := by
  simp only [startExpires, h, hn]

theorem runOnExpires_running (h : (s.pump k).state = .runOn) (hn : (s.pump k).runOnTimer = some n) :
    runOnExpires k s = s.setPump k (stopPump (s.pump k)) := by
  simp only [runOnExpires, h, hn]

end

theorem HoseState.hearsLoss_iff (st : HoseState) :
    st.hearsLoss = true ↔ st = .flowing ∨ st = .trimming ∨ st = .paused := by
  cases st <;> decide

/-- Settles O38: the two states of a pump that delivers pressure, then the two timers. -/
theorem pumpFaultsAndStops : Obligations.PumpFaultsAndStops := by
  refine ⟨fun s k hr hl => ?_, fun s k n hr => ⟨fun hst hn => ?_, fun hst hn => ?_⟩⟩
  · dsimp only
    rw [exec_pressureDown hr hl]
    refine ⟨fun hst => ?_, fun h1 h2 => congrArg _ (takePressureDown_other (s := s.withPressure k false) h1 h2)⟩
    generalize hu : (s.withPressure k false).setPump k (faultPump .pressureLost { s.pump k with pressureUp := false }) = u
    have hoff : ∀ j, j ≠ k → u.pump j = s.pump j := fun j hj => by
      rw [← hu]; exact State.setPump_pump_ne (s.withPressure k false) _ hj
    have huk : u.pump k = faultPump .pressureLost { s.pump k with pressureUp := false } := by
      rw [← hu]; exact State.setPump_pump_self ..
    have hhose : ∀ h, u.hose h = s.hose h := fun h => by rw [← hu]; rfl
    rcases hst with hst | hst
    · obtain ⟨⟨m, hm⟩, hne, -⟩ := closeAll_pump (p := HoseState.hearsLoss) (r := .pumpFail) (s := u) (k := k)
        (by rw [huk]; rfl)
      have hclose := closeAll_hose HoseState.hearsLoss .pumpFail k u
      rw [huk] at hm
      generalize hv : forAll (u.hosesOn k) (closeIf HoseState.hearsLoss .pumpFail) u = v at hm hne hclose
      refine ⟨raise (.pump k) .pressureLost v, ?_, congrArg Pump.state hm, congrArg Pump.starter hm,
        congrArg Pump.lastFault hm, congrArg Pump.pressureUp hm, raise_mem _ _ _, fun h _ ht hs => ?_,
        fun h ht => (hclose h).trans ?_, fun j hj => (hne j hj).trans (hoff j hj)⟩
      · rw [takePressureDown_running (s := s.withPressure k false) hst, ← hv, ← hu]; rfl
      · have hx : (raise (.pump k) .pressureLost v).hose h = (s.hose h).toClosing .pumpFail := by
          rw [← hhose h]
          refine (hclose h).trans (if_pos ⟨?_, ?_⟩)
          · rw [hhose]; exact ht
          · rw [hhose]; exact (HoseState.hearsLoss_iff _).mpr hs
        rw [hx]
        exact ⟨rfl, rfl, rfl⟩
      · rw [hhose]
        refine if_neg fun hc => ?_
        rcases ht with ht | ht
        · exact ht hc.1
        · rw [hst] at ht; cases ht
    · refine ⟨raise (.pump k) .pressureLost u, ?_, congrArg Pump.state huk, congrArg Pump.starter huk,
        congrArg Pump.lastFault huk, congrArg Pump.pressureUp huk, raise_mem _ _ _, fun h hrun => ?_,
        fun h _ => hhose h, hoff⟩
      · rw [takePressureDown_runOn (s := s.withPressure k false) hst, ← hu]; rfl
      · rw [hst] at hrun; cases hrun
  · generalize hu : s.setPump k (faultPump .startTimeout (s.pump k)) = u
    have hoff : ∀ j, j ≠ k → u.pump j = s.pump j := fun j hj => by
      rw [← hu]; exact State.setPump_pump_ne s _ hj
    have huk : u.pump k = faultPump .startTimeout (s.pump k) := by
      rw [← hu]; exact State.setPump_pump_self ..
    obtain ⟨hslot, hk⟩ := freeSlot_passed hoff (by rw [hst]; decide) (by rw [huk]; nofun)
    have hfree := freeSlot_frame u
    have hhose : ∀ h, (freeSlot u).hose h = s.hose h := fun h => by rw [hfree, ← hu]; rfl
    obtain ⟨⟨m, hm⟩, hne, hflow⟩ := closeAll_pump (p := fun st => decide (st = .starting)) (r := .pumpFail)
      (s := freeSlot u) (k := k) (by rw [hk, huk]; rfl)
    have hclose := closeAll_hose (fun st => decide (st = .starting)) .pumpFail k (freeSlot u)
    rw [hk, huk] at hm
    generalize hv : forAll ((freeSlot u).hosesOn k) (closeIf (fun st => decide (st = .starting)) .pumpFail) (freeSlot u) = v
      at hm hne hflow hclose
    have hholder : v.slotHolder = (freeSlot u).slotHolder := by rw [hflow]
    refine ⟨raise (.pump k) .startTimeout v, ?_, congrArg Pump.state hm, congrArg Pump.starter hm,
      congrArg Pump.lastFault hm, congrArg Pump.startTimer hm, ?_, raise_mem _ _ _, fun h ht hs => ?_, fun h ht => ?_, ?_⟩
    · refine (next_whenRunning hr _).trans ?_
      rw [startExpires_running hst hn, ← hv, ← hu]
      rfl
    · refine ⟨fun j hj => ?_, fun hno => hholder.trans (hslot.free hno), fun j hjk hj =>
        (hne j hjk).trans (hslot.stay j hjk hj)⟩
      obtain ⟨h1, h2⟩ := hslot.granted j hj
      have hjk : j ≠ k := fun e => by have := hj.waits; rw [e, hst] at this; cases this
      exact ⟨hholder.trans h1, (hne j hjk).trans h2⟩
    · have hx : (raise (.pump k) .startTimeout v).hose h = (s.hose h).toClosing .pumpFail := by
        rw [← hhose h]
        refine (hclose h).trans (if_pos ⟨?_, decide_eq_true ?_⟩)
        · rw [hhose]; exact ht
        · rw [hhose]; exact hs
      rw [hx]
      exact ⟨rfl, rfl⟩
    · refine (hclose h).trans ?_
      rw [hhose]
      exact if_neg fun hc => ht.elim (· hc.1) (· (of_decide_eq_true hc.2))
    · unfold OnlyFlow at hflow
      rw [hfree, ← hu] at hflow
      rw [hflow]; rfl
  · exact (next_whenRunning hr _).trans (congrArg _ (runOnExpires_running hst hn))

/-! ### PUMP_CLEAR and PUMP_SET (R105, R107) -/

section
variable {s : State} {k : TankId} {b : Byte} {w : WirePumpConfig}

theorem takePumpClear_fault (hb : b.toNat = k.val) (h : (s.pump k).state = .fault) :
    takePumpClear b s = (s.setPump k { s.pump k with state := .stopped }, .reply .ok .none) := by
  simp only [takePumpClear, tankOf_some hb, if_pos h]

theorem takePumpClear_refused (hb : b.toNat = k.val) (h : (s.pump k).state ≠ .fault) :
    takePumpClear b s = refuse .state s := by
  simp only [takePumpClear, tankOf_some hb, if_neg h]

theorem pumpConfigOf_eq (w : WirePumpConfig) : pumpConfigOf w =
    if w.runOn.toNat ≤ 120 ∧ 2 ≤ w.startTimeout.toNat ∧ w.startTimeout.toNat ≤ 60 ∧ w.priority.toNat ≤ 3 then
      some { runOn := w.runOn.toNat, startTimeout := w.startTimeout.toNat, priority := w.priority.toNat }
    else none := by
  unfold pumpConfigOf
  simp [inRange, and_assoc]

theorem takePumpSet_range (h : pumpConfigOf w = none) : takePumpSet b w s = refuse .range s := by
  unfold takePumpSet
  rw [h]
  split
  next e => cases e
  next => rfl

theorem takePumpSet_taken {c : PumpConfig} (hb : b.toNat = k.val) (hc : pumpConfigOf w = some c)
    (h : (s.pump k).state = .stopped ∨ (s.pump k).state = .fault) :
    takePumpSet b w s =
      (beginWrite (.pumpConfig k c) (s.setPump k { s.pump k with config := c }), .hold (.pumpSet k)) := by
  rcases h with h | h <;> simp only [takePumpSet, tankOf_some hb, hc, h]

theorem takePumpSet_refused {c : PumpConfig} (hb : b.toNat = k.val) (hc : pumpConfigOf w = some c)
    (h1 : (s.pump k).state ≠ .stopped) (h2 : (s.pump k).state ≠ .fault) :
    takePumpSet b w s = refuse .state s := by
  cases h : (s.pump k).state with
  | stopped => exact absurd h h1
  | fault => exact absurd h h2
  | _ => simp only [takePumpSet, tankOf_some hb, hc, h]

end

/-- Settles O39: PUMP_CLEAR by the pump's state, PUMP_SET by its ranges and then the pump's state. -/
theorem pumpRequests : Obligations.PumpRequests := by
  intro s k tag b hs hb
  refine ⟨fun h => exec_replies (r := .pumpClear b) hs rfl tag (takePumpClear_fault hb h),
    fun h => exec_refuses (r := .pumpClear b) hs rfl tag (takePumpClear_refused hb h), fun w => ?_⟩
  dsimp only
  refine ⟨fun hout => ?_, fun hin h => ?_, fun hin h1 h2 => ?_⟩
  · exact exec_refuses (r := .pumpSet b w) hs rfl tag
      (takePumpSet_range ((pumpConfigOf_eq w).trans (if_neg hout)))
  · exact exec_holds (r := .pumpSet b w) hs rfl tag
      (takePumpSet_taken (s := s.heard) hb ((pumpConfigOf_eq w).trans (if_pos hin)) h)
  · exact exec_refuses (r := .pumpSet b w) hs rfl tag
      (takePumpSet_refused (s := s.heard) hb ((pumpConfigOf_eq w).trans (if_pos hin)) h1 h2)

end Sys2Proof.Machine


/-! PROOFS. The lift at a READY hose and the emergency stop. First what begins with a delivery, what the raised demand
does by the pump's state, and what the stop does to one hose and to the pumps; then the statements. -/

namespace Sys2Proof.Machine

open Sys2Proof

/-! ### A request for the start slot (R102) -/

section
variable {s : State} {k : TankId}

theorem requestSlot_taken {j : TankId} (h : s.slotHolder = some j) :
    requestSlot k s = s.setPump k { s.pump k with state := .waiting, starter := false } := by
  have h' : (s.setPump k { s.pump k with state := .waiting, starter := false }).slotHolder = some j := h
  simp only [requestSlot, h']

theorem requestSlot_pump_free (h : s.slotHolder = none) :
    (requestSlot k s).slotHolder = some k ∧ (requestSlot k s).pump k =
      { s.pump k with state := .starting, starter := true, startTimer := some (s.pump k).config.startTimeout } := by
  have h' : (s.setPump k { s.pump k with state := .waiting, starter := false }).slotHolder = none := h
  simp only [requestSlot, h']
  refine ⟨rfl, (State.setPump_pump_self ..).trans ?_⟩
  rw [State.setPump_pump_self]

theorem requestSlot_demand : ((requestSlot k s).pump k).demand = (s.pump k).demand := by
  cases h : s.slotHolder with
  | none => rw [(requestSlot_pump_free h).2]
  | some j => rw [requestSlot_taken h, State.setPump_pump_self]

end

/-! ### The demand of a hose (R99, R100) -/

section
variable {u : State} {h : HoseId} {k : TankId}

theorem raiseDemand_stopped (hk : (u.hose h).config.tank = k) (hp : (u.pump k).state = .stopped) :
    raiseDemand h u =
      if (u.pump k).demand = 0 ∧ u.link.estop = false then
        requestSlot k (u.setPump k { u.pump k with demand := (u.pump k).demand + 1 })
      else u.setPump k { u.pump k with demand := (u.pump k).demand + 1 } := by
  subst hk
  simp only [raiseDemand, hp, Bool.and_eq_true, decide_eq_true_eq, Bool.not_eq_true']
  rfl

theorem raiseDemand_coming (hk : (u.hose h).config.tank = k)
    (hp : (u.pump k).state = .waiting ∨ (u.pump k).state = .starting) :
    raiseDemand h u = u.setPump k { u.pump k with demand := (u.pump k).demand + 1 } := by
  subst hk
  rcases hp with hp | hp <;> simp only [raiseDemand, hp]

theorem raiseDemand_running (hk : (u.hose h).config.tank = k) (hp : (u.pump k).state = .running) :
    raiseDemand h u = enterFlowing h (u.setPump k { u.pump k with demand := (u.pump k).demand + 1 }) := by
  subst hk
  simp only [raiseDemand, hp]

theorem State.setPump_setPump (s : State) (k : TankId) (x y : Pump) : (s.setPump k x).setPump k y = s.setPump k y := by
  show ({ s with pumps := upd (upd s.pumps k x) k y } : State) = _
  rw [upd_upd]
  rfl

theorem raiseDemand_runOn (hk : (u.hose h).config.tank = k) (hp : (u.pump k).state = .runOn) :
    raiseDemand h u = reportRunning k (u.setPump k
      { u.pump k with
        demand := (u.pump k).demand + 1, state := .running, starter := true, runOnTimer := none }) := by
  subst hk
  simp only [raiseDemand, hp, State.setPump_pump_self, State.setPump_setPump]

theorem raiseDemand_fault (hk : (u.hose h).config.tank = k) (hp : (u.pump k).state = .fault) :
    raiseDemand h u =
      enterClosing h .pumpFail (u.setPump k { u.pump k with demand := (u.pump k).demand + 1 }) := by
  subst hk
  simp only [raiseDemand, hp]

/-- The hoses and the pump that the raised demand leaves (R19, R100). -/
structure DemandRaised (u t : State) (h : HoseId) (k : TankId) : Prop where
  frame : t = { u with hoses := t.hoses, pumps := t.pumps, slotHolder := t.slotHolder, link := t.link }
  hose : t.hose h =
    match (u.pump k).state with
    | .stopped | .waiting | .starting => u.hose h
    | .running | .runOn =>
      { u.hose h with
        state := .flowing, valve := .full
        timers := { (u.hose h).timers with noFlow := some (u.hose h).config.noFlowTimeout } }
    | .fault => (u.hose h).toClosing .pumpFail
  demand : (t.pump k).demand = if (u.pump k).state = .fault then (u.pump k).demand else (u.pump k).demand + 1
  state : (t.pump k).state =
    match (u.pump k).state with
    | .stopped => (t.pump k).state
    | .waiting => .waiting
    | .starting => .starting
    | .running | .runOn => .running
    | .fault => .fault
  otherHoses : (u.pump k).state ≠ .runOn → ∀ j, j ≠ h → t.hose j = u.hose j
  otherPumps : ∀ j, j ≠ k → t.pump j = u.pump j

theorem raiseDemand_raised (hk : (u.hose h).config.tank = k) (hst : (u.hose h).state = .starting) :
    DemandRaised u (raiseDemand h u) h k := by
  cases hp : (u.pump k).state with
  | stopped =>
    rw [raiseDemand_stopped hk hp]
    split
    · obtain ⟨hframe, hoff, -⟩ :=
        requestSlot_frame k (u.setPump k { u.pump k with demand := (u.pump k).demand + 1 })
      generalize ht : requestSlot k (u.setPump k { u.pump k with demand := (u.pump k).demand + 1 }) = t at hframe hoff
      have hdem : (t.pump k).demand = (u.pump k).demand + 1 := by
        rw [← ht, requestSlot_demand, State.setPump_pump_self]
      refine ⟨by rw [hframe]; rfl, by rw [hp, hframe]; rfl, by rw [hdem, hp]; rfl, by rw [hp],
        fun _ j _ => by rw [hframe]; rfl, fun j hj => (hoff j hj).trans (State.setPump_pump_ne _ _ hj)⟩
    · refine ⟨rfl, by rw [hp]; rfl, by rw [State.setPump_pump_self, hp]; rfl, by rw [hp], fun _ _ _ => rfl,
        fun j hj => State.setPump_pump_ne _ _ hj⟩
  | waiting | starting =>
    rw [raiseDemand_coming hk (by simp [hp])]
    exact ⟨rfl, by rw [hp]; rfl, by rw [State.setPump_pump_self, hp]; rfl, by rw [State.setPump_pump_self, hp],
      fun _ _ _ => rfl, fun j hj => State.setPump_pump_ne _ _ hj⟩
  | running =>
    rw [raiseDemand_running hk hp]
    refine ⟨rfl, ?_, ?_, ?_, fun _ j hj => State.setHose_hose_ne _ _ hj, fun j hj => State.setPump_pump_ne u _ hj⟩
    · rw [hp]; exact State.setHose_hose_self ..
    · rw [hp]; exact congrArg Pump.demand (State.setPump_pump_self ..)
    · rw [hp]; exact (congrArg Pump.state (State.setPump_pump_self u k _)).trans hp
  | runOn =>
    rw [raiseDemand_runOn hk hp]
    generalize hv : u.setPump k { u.pump k with
      demand := (u.pump k).demand + 1, state := .running, starter := true, runOnTimer := none } = v
    have hvk : v.pump k = { u.pump k with
        demand := (u.pump k).demand + 1, state := .running, starter := true, runOnTimer := none } := by
      rw [← hv]; exact State.setPump_pump_self ..
    have hvh : v.hose h = u.hose h := by rw [← hv]; rfl
    have hframe := reportRunning_frame k v
    refine ⟨?_, ?_, ?_, ?_, fun hn => absurd hp hn, fun j hj => ?_⟩
    · generalize reportRunning k v = t at hframe
      rw [← hv] at hframe
      rw [hframe]; rfl
    · rw [hp, reportRunning_hose, hvh, if_pos hk, Hose.hearsRunning, if_pos hst]
    · rw [hp, hframe]; exact congrArg Pump.demand hvk
    · rw [hp, hframe]; exact congrArg Pump.state hvk
    · rw [hframe, ← hv]
      exact State.setPump_pump_ne u _ hj
  | fault =>
    rw [raiseDemand_fault hk hp]
    have hc := enterClosing_closed (u.setPump k { u.pump k with demand := (u.pump k).demand + 1 }) h .pumpFail
    have hpump := hc.pump
    have hframe := hc.frame
    have hflow := enterClosing_onlyFlow h .pumpFail (u.setPump k { u.pump k with demand := (u.pump k).demand + 1 })
    have hk' : ((u.setPump k { u.pump k with demand := (u.pump k).demand + 1 }).hose h).config.tank = k := hk
    rw [hk', State.setPump_pump_self] at hpump
    have hdrop : { u.pump k with demand := (u.pump k).demand + 1 }.dropped = u.pump k := by
      unfold Pump.dropped
      split
      next => rfl
      next hd =>
        have h0 : (u.pump k).demand = 0 := by simpa using hd
        simp only [hp]
        rw [← hp, ← h0]
    rw [hdrop] at hpump
    refine ⟨?_, ?_, ?_, ?_, fun _ j hj => ?_, fun j hj => ?_⟩
    · generalize enterClosing h .pumpFail _ = t at hflow
      unfold OnlyFlow at hflow
      rw [hflow]; rfl
    · rw [hp]; exact hc.hose
    · rw [hpump, hp]; rfl
    · rw [hpump, hp]
    · rw [hframe]; exact State.setHose_hose_ne _ _ hj
    · rw [hframe, hk']
      exact (State.setPump_pump_ne _ _ hj).trans (State.setPump_pump_ne _ _ hj)

end

/-! ### The beginning of a delivery (R19, R35, R79) -/

/-- What begins with a lift before the demand is raised. -/
structure Begun (s u : State) (h : HoseId) (g : Grant) : Prop where
  frame : u = { s with hoses := u.hoses, engines := u.engines, tanks := u.tanks, link := u.link }
  estop : u.link.estop = s.link.estop
  hose : u.hose h =
    { s.hose h with
      state := .starting, valve := .closed, timers := { (s.hose h).timers with ready := none }
      grant := some { g with start := some (recordedTime s) } }
  otherHoses : ∀ j, j ≠ h → u.hose j = s.hose j
  engine : u.engine h = startMeasurement (latchFor h s) (s.engine h)
  otherEngines : ∀ j, j ≠ h → u.engine j = s.engine j
  tank : u.tank (s.hose h).config.tank =
    if s.countedOn (s.hose h).config.tank = 0 then
      { s.tank (s.hose h).config.tank with quiet := false, quietTimer := none }
    else s.tank (s.hose h).config.tank
  otherTanks : ∀ j, j ≠ (s.hose h).config.tank → u.tank j = s.tank j

theorem becomeActive_cases (k : TankId) (s : State) :
    ∃ x, becomeActive k s = s.setTank k x ∧ x.config = (s.tank k).config
      ∧ x = if s.countedOn k = 0 then { s.tank k with quiet := false, quietTimer := none } else s.tank k := by
  unfold becomeActive
  split
  · exact ⟨_, rfl, rfl, rfl⟩
  · refine ⟨s.tank k, ?_, rfl, rfl⟩
    show s = { s with tanks := upd s.tanks k (s.tank k) }
    rw [State.tank, upd_same]

theorem enterStarting_begins {s : State} {h : HoseId} {g : Grant} (hg : (s.hose h).grant = some g) :
    ∃ u, enterStarting h s = raiseDemand h u ∧ Begun s u h g := by
  obtain ⟨x, hx, hcfg, hx'⟩ := becomeActive_cases (s.hose h).config.tank s
  have hlatch : ∀ y : Hose, y.config = (s.hose h).config →
      latchFor h ((s.setTank (s.hose h).config.tank x).setHose h y) = latchFor h s := by
    intro y hy
    unfold latchFor
    rw [State.setHose_hose_self, hy]
    show ({ k := _, curve := _, errorLimit := _, maxRate := _, beta := (s.product
      ((s.setTank (s.hose h).config.tank x).tank (s.hose h).config.tank).config.product).data.beta } : Latched) = _
    rw [State.setTank_tank_self, hcfg]
    rfl
  refine ⟨_, by unfold enterStarting; rw [hx], ?_⟩
  refine ⟨rfl, rfl, (State.setHose_hose_self ..).trans ?_, fun j hj => State.setHose_hose_ne _ _ hj,
    (State.setEngine_engine_self ..).trans ?_, fun j hj => State.setEngine_engine_ne _ _ hj,
    (State.setTank_tank_self ..).trans hx', fun j hj => State.setTank_tank_ne _ _ hj⟩
  · rw [State.setTank_hose, hg]; rfl
  · exact congrArg (startMeasurement · (s.engine h)) (hlatch _ rfl)

theorem takeLift_ready {s : State} {h : HoseId} (hst : (s.hose h).state = .ready) :
    takeLift h s = enterStarting h s := by
  simp only [takeLift, hst]

/-- Settles O18: what begins with the lift, then what the raised demand makes of the hose and its pump. -/
theorem liftBeginsDelivery : Obligations.LiftBeginsDelivery := by
  intro s h g hr hst hg k p e c
  obtain ⟨u, hraise, hb⟩ := enterStarting_begins hg
  have hpump : ∀ j, u.pump j = s.pump j := fun j => by rw [hb.frame]; rfl
  have hslot : u.slotHolder = s.slotHolder := by rw [hb.frame]
  have hk : (u.hose h).config.tank = k := by rw [hb.hose]
  have hd := raiseDemand_raised hk (by rw [hb.hose])
  have hstop := raiseDemand_stopped (u := u) hk
  rw [hpump] at hstop
  generalize raiseDemand h u = t at hraise hd hstop
  obtain ⟨hframe, hhose, hdemand, hstate, hothers, hpumps⟩ := hd
  rw [hpump, hb.hose] at hhose
  rw [hpump] at hdemand hstate hothers
  have hengine : ∀ j, t.engine j = u.engine j := fun j => by rw [hframe]; rfl
  have htank : ∀ j, t.tank j = u.tank j := fun j => by rw [hframe]; rfl
  refine ⟨t, ?_, ?_, ?_, ?_, ?_, fun hp hdm he hs => ?_, fun hp hdm he hs => ?_, fun j hj => ⟨?_, fun hp => ?_⟩,
    fun j hj => ⟨?_, ?_⟩, ?_⟩
  · rw [exec_nozzleLift hr, takeLift_ready hst, hraise]
  · rw [hengine, hb.engine]; rfl
  · rw [htank, hb.tank]
  · rw [hhose]; cases (s.pump k).state <;> rfl
  · cases hp : (s.pump k).state with
    | stopped | waiting | starting =>
      rw [hp] at hhose hdemand
      exact ⟨by rw [hhose], by rw [hhose], by rw [hhose], hdemand⟩
    | running | runOn =>
      rw [hp] at hhose hdemand hstate
      exact ⟨by rw [hhose], by rw [hhose], by rw [hhose], by rw [hhose], hstate, hdemand⟩
    | fault =>
      rw [hp] at hhose hdemand hstate
      exact ⟨by rw [hhose]; rfl, by rw [hhose]; rfl, by rw [hhose]; rfl, hstate, hdemand⟩
  · have ht := hstop hp
    rw [if_pos ⟨hdm, by rw [hb.estop]; exact he⟩] at ht
    obtain ⟨h1, h2⟩ := requestSlot_pump_free (k := k) (s := u.setPump k { s.pump k with demand := (s.pump k).demand + 1 })
      (hslot.trans hs)
    rw [State.setPump_pump_self, ← ht] at h2
    exact ⟨ht ▸ h1, by rw [h2], by rw [h2], by rw [h2]⟩
  · have ht := hstop hp
    rw [if_pos ⟨hdm, by rw [hb.estop]; exact he⟩] at ht
    obtain ⟨j, hj⟩ := Option.ne_none_iff_exists'.mp hs
    rw [requestSlot_taken (s := u.setPump k { s.pump k with demand := (s.pump k).demand + 1 }) (hslot.trans hj)] at ht
    rw [ht]
    exact ⟨hslot, by rw [State.setPump_pump_self]⟩
  · rw [hengine, hb.otherEngines j hj]
  · rw [hothers hp j hj, hb.otherHoses j hj]
  · rw [htank, hb.otherTanks j hj]
  · rw [hpumps j hj, hpump]
  · rw [hframe, hb.frame]

/-! ### The emergency stop (R26, R106, R198) -/

/-- What the emergency stop makes of a hose. -/
def Hose.stopped (x : Hose) : Hose :=
  match x.state with
  | .ready => if x.grant = none then x else x.toIdle
  | .starting | .flowing | .trimming | .paused => x.toClosing .estop
  | .idle | .closing | .settled => x

/-- What the stop of the hoses leaves: the engines, the inputs and the link's own emergency-stop flag. -/
def stopKeeps (s : State) : Vector Engine 8 × Inputs × Bool := (s.engines, s.inputs, s.link.estop)

section
variable {s : State} {h : HoseId} {g : Grant} {d : Detail}

/-- The release of a grant changes its hose alone. -/
theorem releaseGrant_hose (hg : (s.hose h).grant = some g) :
    (releaseGrant h d s).hose h = (s.hose h).toIdle ∧ (∀ j, j ≠ h → (releaseGrant h d s).hose j = s.hose j)
      ∧ stopKeeps (releaseGrant h d s) = stopKeeps s := by
  have hend : ∀ s : State, ∃ (j : Journal) (l : Link),
      endReservation s = { s with journal := j, link := l } ∧ l.estop = s.link.estop := fun s => by
    unfold endReservation recoverTest
    split
    · exact ⟨_, _, rfl, rfl⟩
    · exact ⟨_, s.link, rfl, rfl⟩
  simp only [releaseGrant, hg]
  split
  · obtain ⟨j, l, e, hl⟩ := hend (takeOffReserved g.tank g.tankRes s)
    rw [e]
    exact ⟨State.setHose_hose_self .., fun j hj => State.setHose_hose_ne _ _ hj,
      Prod.ext rfl (Prod.ext rfl hl)⟩
  · exact ⟨State.setHose_hose_self .., fun j hj => State.setHose_hose_ne _ _ hj, rfl⟩

theorem withdrawIfReady_hose (s : State) (h : HoseId) :
    (withdrawIfReady h s).hose h =
        (if (s.hose h).state = .ready ∧ (s.hose h).grant ≠ none then (s.hose h).toIdle else s.hose h)
      ∧ (∀ j, j ≠ h → (withdrawIfReady h s).hose j = s.hose j) ∧ stopKeeps (withdrawIfReady h s) = stopKeeps s := by
  unfold withdrawIfReady
  by_cases hst : (s.hose h).state = .ready
  · rw [if_pos hst]
    cases hg : (s.hose h).grant with
    | none =>
      have : releaseGrant h .withdrawn s = s := by simp only [releaseGrant, hg]
      rw [this, if_neg (by simp)]
      exact ⟨rfl, fun _ _ => rfl, rfl⟩
    | some g =>
      rw [if_pos ⟨hst, by simp⟩]
      exact releaseGrant_hose hg
  · rw [if_neg hst, if_neg fun hc => hst hc.1]
    exact ⟨rfl, fun _ _ => rfl, rfl⟩

theorem hoseTakesStop_hose (h : HoseId) (s : State) : (hoseTakesStop h s).hose h = (s.hose h).stopped := by
  unfold hoseTakesStop
  rw [closeIf_hose]
  have hx := (withdrawIfReady_hose s h).1
  by_cases hr : (s.hose h).state = .ready
  · by_cases hg : (s.hose h).grant = none
    · simp [hx, Hose.stopped, hr, hg, HoseState.demands]
    · simp [hx, Hose.stopped, hr, hg, HoseState.demands, Hose.toIdle]
  · rw [if_neg fun hc => hr hc.1] at hx
    rw [hx]
    cases hst : (s.hose h).state with
    | ready => exact absurd hst hr
    | _ => simp [Hose.stopped, Hose.toClosing, hst, HoseState.demands]

theorem hoseTakesStop_hose_ne (h : HoseId) (s : State) (j : HoseId) (hj : j ≠ h) :
    (hoseTakesStop h s).hose j = s.hose j :=
  (closeIf_hose_ne hj _).trans ((withdrawIfReady_hose s h).2.1 j hj)

theorem hoseTakesStop_keeps (h : HoseId) (s : State) : stopKeeps (hoseTakesStop h s) = stopKeeps s := by
  refine Eq.trans ?_ (withdrawIfReady_hose s h).2.2
  unfold hoseTakesStop closeIf
  split <;> rfl

end

/-- What the hoses are after the emergency stop has reached each of them. -/
theorem stopAll_hose (s : State) (h : HoseId) : (forAll allHoses hoseTakesStop s).hose h = (s.hose h).stopped := by
  rw [forAll_hose (φ := Hose.stopped) hoseTakesStop_hose hoseTakesStop_hose_ne allHoses_nodup, if_pos (mem_allHoses h)]

/-! ### The release of the emergency stop (R102, R106) -/

/-- A pump that the release makes request the slot. -/
def wantsSlot (s : State) (k : TankId) : Prop := 0 < (s.pump k).demand ∧ (s.pump k).state = .stopped

/-- What the requests of the pumps of a list leave: at most one of them takes a free slot, the others wait. -/
structure SlotRequested (s t : State) (xs : List TankId) : Prop where
  frame : t = { s with pumps := t.pumps, slotHolder := t.slotHolder }
  asked : ∀ k ∈ xs, wantsSlot s k →
    t.pump k =
      if s.slotHolder = none ∧ t.slotHolder = some k then
        { s.pump k with state := .starting, starter := true, startTimer := some (s.pump k).config.startTimeout }
      else { s.pump k with state := .waiting, starter := false }
  others : ∀ k, k ∉ xs ∨ ¬wantsSlot s k → t.pump k = s.pump k
  taken : s.slotHolder ≠ none → t.slotHolder = s.slotHolder
  free : s.slotHolder = none →
    (∃ k ∈ xs, wantsSlot s k ∧ t.slotHolder = some k) ∨ t.slotHolder = none ∧ ∀ k ∈ xs, ¬wantsSlot s k

/-- A pump with demand that is stopped requests the slot. -/
def askSlot (k : TankId) (s : State) : State :=
  if 0 < (s.pump k).demand && decide ((s.pump k).state = .stopped) then requestSlot k s else s

theorem askSlot_neg {s : State} {k : TankId} (h : ¬wantsSlot s k) : askSlot k s = s :=
  if_neg fun hc => h (by simpa [wantsSlot] using hc)

theorem askSlot_pos {s : State} {k : TankId} (h : wantsSlot s k) : askSlot k s = requestSlot k s :=
  if_pos (by simpa [wantsSlot] using h)

theorem askAll_requested (xs : List TankId) (hn : xs.Nodup) (s : State) :
    SlotRequested s (forAll xs askSlot s) xs := by
  induction xs generalizing s with
  | nil => exact ⟨rfl, nofun, fun _ _ => rfl, fun _ => rfl, fun h => .inr ⟨h, nofun⟩⟩
  | cons x xs ih =>
    obtain ⟨hx, hxs⟩ := List.nodup_cons.mp hn
    have ht := ih hxs (askSlot x s)
    show SlotRequested s (forAll xs askSlot (askSlot x s)) (x :: xs)
    generalize forAll xs askSlot (askSlot x s) = t at ht
    have hne : ∀ k ∈ xs, k ≠ x := fun k hk e => hx (e ▸ hk)
    by_cases hw : wantsSlot s x
    · rw [askSlot_pos hw] at ht
      obtain ⟨hfr, hoff, -⟩ := requestSlot_frame x s
      have hwants : ∀ k, k ≠ x → (wantsSlot (requestSlot x s) k ↔ wantsSlot s k) := fun k hk => by
        unfold wantsSlot; rw [hoff k hk]
      have hself : t.pump x = (requestSlot x s).pump x := ht.others x (.inl hx)
      have hframe : t = { s with pumps := t.pumps, slotHolder := t.slotHolder } := by
        have := ht.frame
        rw [hfr] at this
        exact this
      have hothers : ∀ k, k ∉ x :: xs ∨ ¬wantsSlot s k → t.pump k = s.pump k := by
        intro k hk
        have hkx : k ≠ x := fun e => hk.elim (fun hm => hm (e ▸ List.mem_cons_self)) fun hn => hn (e ▸ hw)
        rw [ht.others k (hk.imp (fun hm hin => hm (List.mem_cons_of_mem _ hin)) fun hn hc => hn ((hwants k hkx).mp hc)),
          hoff k hkx]
      have hasked : ∀ k ∈ xs, wantsSlot s k → (requestSlot x s).slotHolder ≠ none →
          t.pump k = { s.pump k with state := .waiting, starter := false } := fun k hk hwk hs => by
        rw [ht.asked k hk ((hwants k (hne k hk)).mpr hwk), if_neg fun hc => hs hc.1, hoff k (hne k hk)]
      cases hs : s.slotHolder with
      | none =>
        obtain ⟨hslot, hpump⟩ := requestSlot_pump_free (k := x) hs
        have htaken : t.slotHolder = some x := (ht.taken (by rw [hslot]; nofun)).trans hslot
        refine ⟨hframe, fun k hk hwk => ?_, hothers, fun hc => absurd hs hc,
          fun _ => .inl ⟨x, List.mem_cons_self, hw, htaken⟩⟩
        rcases List.mem_cons.mp hk with rfl | hk
        · rw [if_pos ⟨hs, htaken⟩, hself, hpump]
        · rw [if_neg, hasked k hk hwk (by rw [hslot]; nofun)]
          rintro ⟨-, hc⟩
          exact hne k hk (Option.some.inj (hc.symm.trans htaken))
      | some j =>
        have hreq := requestSlot_taken (k := x) hs
        have hslot : (requestSlot x s).slotHolder = some j := by rw [hreq]; exact hs
        have htaken : t.slotHolder = some j := (ht.taken (by rw [hslot]; nofun)).trans hslot
        refine ⟨hframe, fun k hk hwk => ?_, hothers, fun _ => htaken.trans hs.symm, fun hc => by rw [hs] at hc; cases hc⟩
        rw [if_neg fun hc => by rw [hs] at hc; cases hc.1]
        rcases List.mem_cons.mp hk with rfl | hk
        · rw [hself, hreq, State.setPump_pump_self]
        · exact hasked k hk hwk (by rw [hslot]; nofun)
    · rw [askSlot_neg hw] at ht
      obtain ⟨hframe, hasked, hothers, htaken, hfree⟩ := ht
      have hmem : ∀ k ∈ x :: xs, wantsSlot s k → k ∈ xs := fun k hk hwk =>
        (List.mem_cons.mp hk).resolve_left fun e => hw (e ▸ hwk)
      refine ⟨hframe, fun k hk hwk => hasked k (hmem k hk hwk) hwk, fun k hk => ?_, htaken, fun hs => ?_⟩
      · exact hothers k (hk.imp_left fun hm hin => hm (List.mem_cons_of_mem _ hin))
      · rcases hfree hs with ⟨k, hk, hwk, he⟩ | ⟨he, hno⟩
        · exact .inl ⟨k, List.mem_cons_of_mem _ hk, hwk, he⟩
        · refine .inr ⟨he, fun k hk hwk => hno k (hmem k hk hwk) hwk⟩

theorem exec_emergencyStopActive {s : State} (hr : s.phase = .running) (hl : s.inputs.estop = false) :
    exec .emergencyStopActive s = .next (takeStop (s.setInputs { s.inputs with estop := true })) := by
  refine congrArg Host.Outcome.next ?_
  rw [hl]
  exact whenRunning_running (s := s.setInputs { s.inputs with estop := true }) hr _

theorem exec_emergencyStopRelease {s : State} (hr : s.phase = .running) (hl : s.inputs.estop = true) :
    exec .emergencyStopRelease s = .next (takeRelease (s.setInputs { s.inputs with estop := false })) := by
  refine congrArg Host.Outcome.next ?_
  rw [hl]
  exact whenRunning_running (s := s.setInputs { s.inputs with estop := false }) hr _

/-- Settles O22: the stop hose by hose and for every pump, then the requests at the release. -/
theorem emergencyStopClosesAll : Obligations.EmergencyStopClosesAll := by
  intro s hr
  refine ⟨fun hl hgr => ⟨_, exec_emergencyStopActive hr hl, ?_⟩, fun hl => ⟨_, exec_emergencyStopRelease hr hl, ?_⟩⟩
  · generalize hu : (s.setInputs { s.inputs with estop := true }).setLink { s.link with estop := true } = u
    have hkeeps : stopKeeps (forAll allHoses hoseTakesStop u) = stopKeeps u := forAll_keeps _ hoseTakesStop_keeps _ u
    have hhose := stopAll_hose u
    have ht : takeStop (s.setInputs { s.inputs with estop := true }) =
        raise .mode .estopActive (stopPumps (forAll allHoses hoseTakesStop u)) := by rw [← hu]; rfl
    rw [ht]
    generalize forAll allHoses hoseTakesStop u = v at hkeeps hhose
    have hengines : v.engines = s.engines := (congrArg (·.1) hkeeps).trans (by rw [← hu]; rfl)
    have hinputs : v.inputs.estop = true := (congrArg (·.2.1.estop) hkeeps).trans (by rw [← hu]; rfl)
    have hestop : v.link.estop = true := (congrArg (·.2.2) hkeeps).trans (by rw [← hu]; rfl)
    have hu' : ∀ h, u.hose h = s.hose h := fun h => by rw [← hu]; rfl
    refine ⟨hinputs, hestop, rfl, fun h => ?_, fun k => ?_, hengines⟩
    · have hx : (raise .mode .estopActive (stopPumps v)).hose h = (s.hose h).stopped := (hhose h).trans (by rw [hu'])
      cases hst : (s.hose h).state with
      | ready => simp [hx, Hose.stopped, hst, hgr h hst, Hose.toIdle]
      | _ => simp [hx, Hose.stopped, hst, Hose.toClosing]
    · have hp : (raise .mode .estopActive (stopPumps v)).pump k = stopPump (v.pump k) := vmap_get _ _ _
      rw [hp]
      exact ⟨rfl, rfl, rfl, rfl⟩
  · generalize hu : (s.setInputs { s.inputs with estop := false }).setLink { s.link with estop := false } = u
    have hreq := askAll_requested allTanks (by decide) u
    have ht : takeRelease (s.setInputs { s.inputs with estop := false }) =
        raise .mode .estopReleased (forAll allTanks askSlot u) := by rw [← hu]; rfl
    rw [ht]
    generalize forAll allTanks askSlot u = v at hreq
    have hpump : ∀ k, u.pump k = s.pump k := fun k => by rw [← hu]; rfl
    have hslot : u.slotHolder = s.slotHolder := by rw [← hu]; rfl
    have hall : ∀ k : TankId, k ∈ allTanks := by decide
    obtain ⟨hframe, hasked, hothers, htaken, hfree⟩ := hreq
    simp only [wantsSlot, hpump, hslot] at hasked hothers htaken hfree
    refine ⟨?_, ?_, ?_, ?_, fun k => ?_, htaken, fun hs => ?_, raise_mem _ _ _⟩
    · rw [hframe, ← hu]; rfl
    · rw [hframe, ← hu]; rfl
    · rw [hframe, ← hu]; rfl
    · rw [hframe, ← hu]; rfl
    · split
      next hw =>
        have hk := hasked k (hall k) hw
        split
        next hc => exact hk.trans (if_pos hc)
        next hc => exact hk.trans (if_neg hc)
      next hw => exact hothers k (.inr hw)
    · show match v.slotHolder with
        | some k => 0 < (s.pump k).demand ∧ (s.pump k).state = .stopped
        | none => ∀ k : TankId, (s.pump k).demand = 0 ∨ (s.pump k).state ≠ .stopped
      rcases hfree hs with ⟨k, -, hw, he⟩ | ⟨he, hno⟩
      · rw [he]; exact hw
      · rw [he]
        exact fun k => (Nat.eq_zero_or_pos _).imp_right fun hd hst => hno k (hall k) ⟨hd, hst⟩

end Sys2Proof.Machine


/-! PROOFS. The metrology switch, the calibration records and the product table: each request by its checks; then the
statements. -/

namespace Sys2Proof.Machine

open Sys2Proof

/-! ### The request test of the journal (R155) -/

theorem Journal.requestTest_pass {j : Journal} (hf : j.faulted = false) (hr : j.reservations + 1 ≤ j.free) :
    j.requestTest = true := by
  simp [Journal.requestTest, hf, hr]

theorem Journal.requestTest_fail {j : Journal} (h : j.faulted = true ∨ j.free < j.reservations + 1) :
    j.requestTest = false := by
  unfold Journal.requestTest
  rcases h with h | h
  · rw [h]; rfl
  · rw [decide_eq_false (Nat.not_le.mpr h), Bool.and_false]

/-! ### The switch (R59, R60, R67) -/

section
variable {s : State} {h : HoseId} {b : Byte}

theorem exec_switchClose (hr : s.phase = .running) (hl : s.inputs.switchClosed = false) :
    exec .metrologySwitchClose s = .next (takeSwitchClose (s.setInputs { s.inputs with switchClosed := true })) := by
  refine congrArg Host.Outcome.next ?_
  rw [hl]
  exact whenRunning_running (s := s.setInputs { s.inputs with switchClosed := true }) hr _

theorem exec_switchClose_stands (hl : s.inputs.switchClosed = true) : exec .metrologySwitchClose s = .next s := by
  refine congrArg Host.Outcome.next ?_
  rw [hl]; rfl

theorem exec_switchOpen (hr : s.phase = .running) (hl : s.inputs.switchClosed = true) :
    exec .metrologySwitchOpen s = .next (takeSwitchOpen (s.setInputs { s.inputs with switchClosed := false })) := by
  refine congrArg Host.Outcome.next ?_
  rw [hl]
  exact whenRunning_running (s := s.setInputs { s.inputs with switchClosed := false }) hr _

theorem exec_switchOpen_stands (hl : s.inputs.switchClosed = false) : exec .metrologySwitchOpen s = .next s := by
  refine congrArg Host.Outcome.next ?_
  rw [hl]; rfl

theorem takeCalOpen_closed (hb : b.toNat = h.val) (hl : s.inputs.switchClosed = true) :
    takeCalOpen b s = (s.setCal h { s.cal h with opened := true }, .reply .ok .none) := by
  simp only [takeCalOpen, hoseOf_some hb, if_pos hl]

theorem takeCalOpen_refused (hb : b.toNat = h.val) (hl : s.inputs.switchClosed = false) :
    takeCalOpen b s = refuse .switchOpen s := by
  simp only [takeCalOpen, hoseOf_some hb, hl, Bool.false_eq_true, if_false]

theorem takeCalClose_taken (hb : b.toNat = h.val) :
    takeCalClose b s = (s.setCal h { s.cal h with opened := false }, .reply .ok .none) := by
  simp only [takeCalClose, hoseOf_some hb]
  rfl

end

/-- Settles O30: the switch by its level, CAL_OPEN by the switch, CAL_CLOSE. -/
theorem switchAndProtection : Obligations.SwitchAndProtection := by
  refine ⟨fun s hr => ⟨fun hl => ⟨exec_switchClose hr hl, exec_switchOpen_stands hl⟩,
    fun hl => ⟨⟨_, exec_switchOpen hr hl, rfl, rfl, fun h => vmap_get _ _ _, raise_mem _ _ _, rfl⟩,
      exec_switchClose_stands hl⟩⟩, fun s h tag b hs hb => ⟨fun hl => ?_, fun hl => ?_, ?_⟩⟩
  · exact exec_replies (r := .calOpen b) hs rfl tag (takeCalOpen_closed (s := s.heard) hb hl)
  · exact exec_refuses (r := .calOpen b) hs rfl tag (takeCalOpen_refused (s := s.heard) hb hl)
  · exact exec_replies (r := .calClose b) hs rfl tag (takeCalClose_taken (s := s.heard) hb)

/-! ### CAL_WRITE (R61, R62) -/

section
variable {s : State} {h : HoseId} {b : Byte} {w : WireCalibration}

theorem takeCalWrite_protected (hb : b.toNat = h.val) (ho : (s.cal h).opened = false) :
    takeCalWrite b w s = refuse .protected_ s := by
  simp [takeCalWrite, hoseOf_some hb, ho]

theorem takeCalWrite_state (hb : b.toNat = h.val) (ho : (s.cal h).opened = true)
    (hst : (s.hose h).state ≠ .idle ∨ (s.cal h).pending = true) : takeCalWrite b w s = refuse .state s := by
  rcases hst with hst | hst <;> simp [takeCalWrite, hoseOf_some hb, ho, hst]

/-- What CAL_WRITE does on an open record of an idle hose without a pending write. -/
theorem takeCalWrite_open (hb : b.toNat = h.val) (ho : (s.cal h).opened = true) (hst : (s.hose h).state = .idle)
    (hp : (s.cal h).pending = false) :
    takeCalWrite b w s =
      (calDataOf ((s.cal h).data.count + 1) w).elim (refuse .range s) fun d =>
        if 65535 ≤ (s.cal h).data.count then refuse .range s
        else if s.journal.requestTest = false then refuse .journalFull s
        else (acceptCal h d s, .hold (.calWrite h none)) := by
  cases hd : calDataOf ((s.cal h).data.count + 1) w <;>
    simp [takeCalWrite, hoseOf_some hb, ho, hst, hp, hd, Config.count16]

/-! ### PRODUCT_SET (R65) -/

theorem productIdle_iff (p : ProductId) (s : State) : productIdle p s = true ↔
    ∀ h : HoseId, (s.tank (s.hose h).config.tank).config.product = p → (s.hose h).state = .idle := by
  unfold productIdle
  simp only [List.all_eq_true, mem_allHoses, true_imp_iff, Bool.or_eq_true, decide_eq_true_eq, ← imp_iff_not_or, ne_eq]

theorem takeProductSet_checks {p : ProductId} (hb : b.toNat = p.val + 1) (name : Name) (beta : BitVec 16) :
    takeProductSet b name beta s =
      if (inRange 0 2000 beta.toNat && printable name) = false then refuse .range s
      else if s.inputs.switchClosed = false then refuse .switchOpen s
      else if (productIdle p s && !(s.product p).pending) = false then refuse .state s
      else if s.journal.requestTest = false then refuse .journalFull s
      else (acceptProduct p { name := name, beta := beta.toNat } s, .hold (.productSet p none)) := by
  have helim : takeProductSet b name beta s =
      (firstFail
        [ (inRange 0 2000 beta.toNat && printable name, .range), (s.inputs.switchClosed, .switchOpen),
          (productIdle p s && !(s.product p).pending, .state), (s.journal.requestTest, .journalFull) ]).elim
        (acceptProduct p { name := name, beta := beta.toNat } s, .hold (.productSet p none)) (refuse · s) := by
    simp only [takeProductSet, productOf_some hb]
    cases firstFail _ <;> rfl
  simp only [helim, elim_firstFail_cons]
  rfl

end

/-- Settles O31: CAL_WRITE and PRODUCT_SET by their checks in order. -/
theorem calibrationWrites : Obligations.CalibrationWrites := by
  intro s tag b hs
  refine ⟨fun h w hb => ?_, fun p name beta hb => ?_⟩
  · intro c points inside d
    have hin : inside ↔ w.Inside :=
      ⟨fun ⟨k1, k2, n1, n2, hr, hf, he, hm⟩ => ⟨⟨k1, k2⟩, ⟨n1, n2⟩, hr, hf, he, hm⟩,
        fun ⟨⟨k1, k2⟩, ⟨n1, n2⟩, hr, hf, he, hm⟩ => ⟨k1, k2, n1, n2, hr, hf, he, hm⟩⟩
    refine ⟨fun ho => ?_, fun ho hst => ?_, fun ho hst hp => ?_⟩
    · exact exec_refuses (r := .calWrite b w) hs rfl tag (takeCalWrite_protected (s := s.heard) hb ho)
    · exact exec_refuses (r := .calWrite b w) hs rfl tag (takeCalWrite_state (s := s.heard) hb ho hst)
    have htake : takeCalWrite b w s.heard = _ := takeCalWrite_open hb ho hst hp
    refine ⟨fun hbad => ?_, fun hi hn => ⟨fun hj => ?_, fun hf hr => ?_⟩⟩
    · refine exec_refuses (r := .calWrite b w) hs rfl tag (htake.trans ?_)
      by_cases hi : w.Inside
      · rw [calDataOf_inside hi]
        exact if_pos (hbad.resolve_left (not_not_intro (hin.mpr hi)))
      · rw [calDataOf_outside hi]; rfl
    · refine exec_refuses (r := .calWrite b w) hs rfl tag (htake.trans ?_)
      rw [calDataOf_inside (hin.mp hi)]
      exact (if_neg (Nat.not_le.mpr hn)).trans (if_pos (Journal.requestTest_fail hj))
    · refine exec_holds (r := .calWrite b w) hs rfl tag (htake.trans ?_)
      rw [calDataOf_inside (hin.mp hi)]
      exact (if_neg (Nat.not_le.mpr hn)).trans (if_neg (ne_false_of_eq_true (Journal.requestTest_pass hf hr)))
  · intro cmd inside idle
    have hin : (inRange 0 2000 beta.toNat && printable name) = true ↔ inside := by
      rw [Bool.and_eq_true, inRange_iff, printable_iff]
      exact ⟨fun ⟨⟨_, h⟩, hn⟩ => ⟨h, hn⟩, fun ⟨h, hn⟩ => ⟨⟨Nat.zero_le _, h⟩, hn⟩⟩
    have hidle : (productIdle p s && !(s.product p).pending) = true ↔ idle ∧ (s.product p).pending = false := by
      rw [Bool.and_eq_true, productIdle_iff, Bool.not_eq_true']
    have htake : takeProductSet b name beta s.heard = _ := takeProductSet_checks hb name beta
    refine ⟨fun hi => ?_, fun hi hsw => ?_, fun hi hsw hbad => ?_, fun hi hsw hid hp => ⟨fun hj => ?_, fun hf hr => ?_⟩⟩
    · refine exec_refuses (r := .productSet b name beta) hs rfl tag (htake.trans (if_pos ?_))
      rwa [← Bool.not_eq_true, hin]
    · exact exec_refuses (r := .productSet b name beta) hs rfl tag (htake.trans
        ((if_neg (ne_false_of_eq_true (hin.mpr hi))).trans (if_pos hsw)))
    · have hno : (productIdle p s && !(s.product p).pending) = false := by
        rw [← Bool.not_eq_true, hidle]
        rintro ⟨h1, h2⟩
        rcases hbad with hbad | hbad
        · exact hbad h1
        · rw [h2] at hbad; cases hbad
      exact exec_refuses (r := .productSet b name beta) hs rfl tag (htake.trans
        ((if_neg (ne_false_of_eq_true (hin.mpr hi))).trans
          ((if_neg (ne_false_of_eq_true hsw)).trans (if_pos hno))))
    · exact exec_refuses (r := .productSet b name beta) hs rfl tag (htake.trans
        ((if_neg (ne_false_of_eq_true (hin.mpr hi))).trans ((if_neg (ne_false_of_eq_true hsw)).trans
          ((if_neg (ne_false_of_eq_true (hidle.mpr ⟨hid, hp⟩))).trans (if_pos (Journal.requestTest_fail hj))))))
    · exact exec_holds (r := .productSet b name beta) hs rfl tag (htake.trans
        ((if_neg (ne_false_of_eq_true (hin.mpr hi))).trans ((if_neg (ne_false_of_eq_true hsw)).trans
          ((if_neg (ne_false_of_eq_true (hidle.mpr ⟨hid, hp⟩))).trans
            (if_neg (ne_false_of_eq_true (Journal.requestTest_pass hf hr)))))))

end Sys2Proof.Machine


/-! PROOFS. The tank account: the tests of the book, the variance relation and the probe, the closing of a receipt, the
requests on receipts, stock and configuration; then the statements. -/

namespace Sys2Proof.Machine

open Sys2Proof

theorem State.setTank_setTank (s : State) (k : TankId) (x y : Tank) : (s.setTank k x).setTank k y = s.setTank k y := by
  show ({ s with tanks := upd (upd s.tanks k x) k y } : State) = _
  rw [upd_upd]
  rfl

theorem State.setTank_self (s : State) (k : TankId) : s.setTank k (s.tank k) = s := by
  show ({ s with tanks := upd s.tanks k (s.tanks.get k) } : State) = s
  rw [upd_same]

theorem ReceiptState.isNormal_iff (r : ReceiptState) : r.isNormal = true ↔ r = .normal := by
  cases r <;> simp [ReceiptState.isNormal]

/-- The book saturates at both ends (R71). -/
theorem saturateBook_eq (b : Int) : saturateBook b = max (-140737488355327) (min 140737488355327 b) :=
  clampInt_eq_max_min (by decide) b

/-! ### The tests of the book (R74, R75) -/

/-- A key that stands in the events of a link. -/
def keyStands (key : EventKey) (es : List EventEntry) : Prop := ∃ e ∈ es, e.key = key

/-- The low test sets the low flag to the comparison, and takes no key off the event queue. -/
theorem lowTest_eq (k : TankId) (s : State) : ∃ ev att,
    lowTest k s = (s.setTank k { s.tank k with low := isLow (s.tank k) }).setLink
      { s.link with events := ev, attention := att }
    ∧ ∀ key, keyStands key s.link.events → keyStands key ev := by
  have hstay : ∀ l, l = (s.tank k).low → s = (s.setTank k { s.tank k with low := l }).setLink
      { s.link with events := s.link.events, attention := s.link.attention } := by
    rintro _ rfl
    exact (s.setTank_self k).symm
  unfold lowTest
  dsimp only
  split
  next h =>
    rw [(Bool.and_eq_true_iff.mp h).1]
    exact ⟨_, _, rfl, fun key h => raise_keeps _ _ _ _ h⟩
  next h1 =>
    split
    next h =>
      rw [(Bool.not_eq_true' _).mp (Bool.and_eq_true_iff.mp h).1]
      exact ⟨s.link.events, s.link.attention, rfl, fun _ h => h⟩
    next h2 =>
      refine ⟨s.link.events, s.link.attention, hstay _ ?_, fun _ h => h⟩
      cases hl : isLow (s.tank k) <;> cases ho : (s.tank k).low <;> simp [hl, ho] at h1 h2 ⊢

theorem capacityTest_eq (k : TankId) (s : State) : ∃ ev att,
    capacityTest k s = s.setLink { s.link with events := ev, attention := att }
    ∧ ∀ key, keyStands key s.link.events → keyStands key ev := by
  unfold capacityTest
  split
  · exact ⟨_, _, rfl, fun key h => raise_keeps _ _ _ _ h⟩
  · exact ⟨s.link.events, s.link.attention, rfl, fun _ h => h⟩

/-- Both tests together set the low flag, and take no key off the event queue. -/
theorem bothTests_eq (k : TankId) (s : State) : ∃ ev att,
    capacityTest k (lowTest k s) = (s.setTank k { s.tank k with low := isLow (s.tank k) }).setLink
      { s.link with events := ev, attention := att }
    ∧ ∀ key, keyStands key s.link.events → keyStands key ev := by
  obtain ⟨ev, att, hl, hk⟩ := lowTest_eq k s
  obtain ⟨ev', att', hc, hk'⟩ := capacityTest_eq k (lowTest k s)
  rw [hl] at hc hk' ⊢
  exact ⟨ev', att', hc, fun key h => hk' key (hk key h)⟩

/-! ### The variance relation (R80) -/

/-- The relation as the detail of its event. -/
def Relation.detail : Relation → Detail
  | .above => .above
  | .below => .below
  | .within | .unordered => .unordered

theorem setRelation_quiet {k : TankId} {r : Relation} {s : State} (h : (s.tank k).relation = r ∨ r = .within)
    (d : Option Int) : setRelation k r d s = s.setTank k { s.tank k with relation := r, difference := d } := by
  unfold setRelation
  dsimp only
  split
  · rfl
  next hne =>
    rw [h.resolve_left hne]

theorem setRelation_changed {k : TankId} {r : Relation} {s : State} (h : (s.tank k).relation ≠ r) (hw : r ≠ .within)
    (d : Option Int) :
    setRelation k r d s =
      raise (.tankVariance k) r.detail (s.setTank k { s.tank k with relation := r, difference := d }) := by
  unfold setRelation
  rw [if_neg h]
  cases r with
  | within => exact absurd rfl hw
  | _ => rfl

theorem evaluateVariance_eq (k : TankId) (net : Nat) (s : State) :
    evaluateVariance k net s =
      setRelation k
        (if (s.tank k).book < 0 then .unordered
          else if tolerance (s.tank k).book < net - (s.tank k).book then .above
          else if tolerance (s.tank k).book < -(net - (s.tank k).book) then .below else .within)
        (if (s.tank k).book < 0 then none else some (net - (s.tank k).book)) s := by
  unfold evaluateVariance relationOf
  dsimp only
  split <;> rfl

theorem raise_setTank_frame (key : EventKey) (d : Detail) (s : State) (k : TankId) (x : Tank) :
    raise key d (s.setTank k x) =
      (s.setTank k ((raise key d (s.setTank k x)).tank k)).setLink (raise key d (s.setTank k x)).link := by
  rw [show (raise key d (s.setTank k x)).tank k = x from State.setTank_tank_self ..]
  rfl

/-! ### The probe (R76 to R78) -/

theorem exec_probeSample {s : State} (hr : s.phase = .running) (k : TankId) (x : Option (Nat × Int)) :
    exec (.probeSample k x) s = .next (takeProbe k x s) := next_whenRunning hr _

/-- Settles O32: the sample stored, and the relation where the tank is compared. -/
theorem probeSampleIsCompared : Obligations.ProbeSampleIsCompared := by
  intro s k hr
  refine ⟨exec_probeSample hr k none, fun level temp => ?_⟩
  rw [exec_probeSample hr]
  intro x gross net x1 tol d rel
  have htemp : clampTemperature temp = max (-2000) (min 7000 temp) := clampInt_eq_max_min (by decide) temp
  have htake : takeProbe k (some (level, temp)) s =
      if x.quiet && x.receipt.isNormal then evaluateVariance k net (s.setTank k x1) else s.setTank k x1 := by
    simp only [takeProbe, probeNetOf, htemp]
    rfl
  refine ⟨fun hno => ?_, fun hq hn => ⟨_, rfl, ?_⟩⟩
  · rw [htake, if_neg]
    rw [Bool.and_eq_true, ReceiptState.isNormal_iff]
    rintro ⟨h1, h2⟩
    rcases hno with hno | hno
    · rw [h1] at hno; cases hno
    · exact hno h2
  · have hx1 : (s.setTank k x1).tank k = x1 := State.setTank_tank_self ..
    have heval : takeProbe k (some (level, temp)) s =
        setRelation k rel (if x.book < 0 then none else some d) (s.setTank k x1) := by
      rw [htake, if_pos (by rw [Bool.and_eq_true, ReceiptState.isNormal_iff]; exact ⟨hq, hn⟩), evaluateVariance_eq, hx1]
      rfl
    rw [heval]
    by_cases hsame : rel = x.relation ∨ rel = .within
    · rw [setRelation_quiet (by rw [hx1]; exact hsame.imp_left Eq.symm), hx1, State.setTank_setTank]
      refine ⟨State.setTank_tank_self .., fun _ => rfl, fun h1 h2 => absurd hsame (by simp [h1, h2]), ?_⟩
      rw [State.setTank_tank_self]
      rfl
    · obtain ⟨h1, h2⟩ := not_or.mp hsame
      rw [setRelation_changed (by rw [hx1]; exact Ne.symm h1) h2, hx1, State.setTank_setTank]
      refine ⟨State.setTank_tank_self .., fun h => absurd h hsame, fun _ _ => ?_, ?_⟩
      · cases rel <;> rfl
      · exact raise_setTank_frame ..

theorem probeStale_running {s : State} {k : TankId} {n : Nat} (hn : (s.tank k).staleTimer = some n) :
    probeStale k s = setRelation k .unordered none
      (s.setTank k { s.tank k with probeValid := false, staleTimer := none }) := by
  simp only [probeStale, hn]

theorem tankQuiet_running {s : State} {k : TankId} {n : Nat} (hn : (s.tank k).quietTimer = some n) :
    tankQuiet k s = s.setTank k { s.tank k with quiet := true, quietTimer := none } := by
  simp only [tankQuiet, hn]

/-- Settles O33: the stale timer by the relation that stood, and the quiet timer. -/
theorem tankTimersExpire : Obligations.TankTimersExpire := by
  intro s k hr
  refine ⟨fun n hn => (next_whenRunning hr _).trans ?_,
    fun n hn => (next_whenRunning hr _).trans (congrArg _ (tankQuiet_running hn))⟩
  dsimp only
  rw [probeStale_running hn]
  have hself : (s.setTank k { s.tank k with probeValid := false, staleTimer := none }).tank k =
    { s.tank k with probeValid := false, staleTimer := none } := State.setTank_tank_self ..
  by_cases hu : (s.tank k).relation = .unordered
  · rw [if_pos hu, setRelation_quiet (.inl (by rw [hself]; exact hu)), hself, State.setTank_setTank]
  · rw [if_neg hu, setRelation_changed (by rw [hself]; exact hu) (by decide), hself, State.setTank_setTank]
    rfl

/-! ### The closing of a receipt (R85, R86) -/

/-- What the closing of a receipt leaves, by the book it credits to and its record. -/
structure ReceiptClosed (s t : State) (k : TankId) (rec : ReceiptRecord) : Prop where
  tank : t.tank k =
    { s.tank k with
      receipt := .normal, book := rec.book
      low := decide (rec.book - (s.tank k).config.heel < (s.tank k).config.lowAlarm) }
  journal : t.journal = { s.journal with queue := s.journal.queue ++ [{ record := .receipt rec, stamp := none }] }
  store : t.store = { s.store with queue := s.store.queue ++ [.book k rec.book] }
  event : ∃ e ∈ t.link.events, e.key = .tankLevel k
  frame : t = (((s.setTank k (t.tank k)).setJournal t.journal).setStore t.store).setLink t.link

theorem finishReceipt_closed {k : TankId} {credit : Bool} {volume : Int} {mk : Int → ReceiptRecord} {s : State}
    {rec : ReceiptRecord} {book : Int}
    (hbook : (if credit then saturateBook ((s.tank k).book + volume) else (s.tank k).book) = book) (hrec : mk book = rec)
    (hb : rec.book = book) : ReceiptClosed s (finishReceipt k credit volume mk s) k rec := by
  subst hbook hrec
  generalize hx : (if credit then saturateBook ((s.tank k).book + volume) else (s.tank k).book) = book at hb
  generalize hu : raise (.tankLevel k) .receipt (joinQueue (.receipt (mk book)) (beginWrite (.book k book)
    (s.setTank k { s.tank k with book := book, receipt := .normal }))) = u
  have ht : finishReceipt k credit volume mk s = capacityTest k (lowTest k u) := by
    rw [← hu, ← hx]; rfl
  have hself : u.tank k = { s.tank k with book := book, receipt := .normal } := by
    rw [← hu]; exact State.setTank_tank_self ..
  obtain ⟨ev, att, heq, hkeys⟩ := bothTests_eq k u
  have hstands : keyStands (.tankLevel k) ev := by
    refine hkeys _ ?_
    rw [← hu]
    obtain ⟨e, he, hk, -⟩ := raise_mem (.tankLevel k) .receipt (joinQueue (.receipt (mk book)) (beginWrite (.book k book)
      (s.setTank k { s.tank k with book := book, receipt := .normal })))
    exact ⟨e, he, hk⟩
  rw [ht, heq, hself]
  have hw : ∀ x, (u.setTank k x).tank k = x := fun x => State.setTank_tank_self ..
  refine ⟨(hw _).trans (by rw [hb]; rfl), ?_, ?_, hstands, ?_⟩
  · rw [← hu]; rfl
  · rw [hb, ← hu]; rfl
  · have hframe : u = (((s.setTank k { s.tank k with book := book, receipt := .normal }).setJournal u.journal).setStore
        u.store).setLink u.link := by rw [← hu]; rfl
    show (u.setTank k _).setLink _ =
      (((s.setTank k ((u.setTank k _).tank k)).setJournal u.journal).setStore u.store).setLink _
    rw [hw]
    conv_lhs => rw [hframe]
    show ((((s.setTank k _).setTank k _).setJournal u.journal).setStore u.store).setLink _ = _
    rw [State.setTank_setTank]
    rfl

section
variable {s : State} {k : TankId} {r : Receipt} {n : Nat}

/-- The volume delivered at the close: what was taken, and the live net of each counted hose less its baseline. -/
theorem deliveredAtClose_eq (k : TankId) (r : Receipt) (s : State) :
    deliveredAtClose k r s =
      ((allHoses.filter fun h => decide ((s.hose h).config.tank = k) && (s.hose h).state.counted).map fun h =>
        ((s.engine h).net : Int) - ((r.baselines.get h).getD 0 : Nat)).foldl (· + ·) r.delivered := by
  unfold deliveredAtClose State.hosesOn
  rw [List.filter_filter]
  simp only [Bool.and_comm]
  rfl

/-- The fields that the records of a receipt's three closings share (R85, R86). -/
def receiptBase (s : State) (k : TankId) (r : Receipt) (volume book : Int) : ReceiptRecord :=
  { tank := k, product := (s.tank k).config.product, openingNet := r.openingNet, openingTime := r.openingTime,
    closingNet := none, delivered := none, docket := r.docket, volume := volume, difference := none, book := book,
    probeFail := false, unmeasured := false }

theorem closeReceipt_measured {closing : Nat} (hr : (s.tank k).receipt = .settling r (some n))
    (hv : (s.tank k).probeValid = true) (hc : (s.tank k).probeNet = some closing) :
    closeReceipt k s = finishReceipt k true (closing - r.openingNet + deliveredAtClose k r s)
      (fun book => { receiptBase s k r (closing - r.openingNet + deliveredAtClose k r s) book with
        closingNet := some closing, delivered := some (deliveredAtClose k r s)
        difference := r.docket.map fun d => closing - r.openingNet + deliveredAtClose k r s - d }) s := by
  simp only [closeReceipt, hr, hv, if_true, hc]
  rfl

theorem closeReceipt_docket {d : Nat} (hr : (s.tank k).receipt = .settling r (some n))
    (hv : (s.tank k).probeValid = false) (hd : r.docket = some d) :
    closeReceipt k s = finishReceipt k true d (fun book => { receiptBase s k r d book with probeFail := true }) s := by
  simp only [closeReceipt, hr, hv, Bool.false_eq_true, if_false, hd, receiptBase]

theorem closeReceipt_unmeasured (hr : (s.tank k).receipt = .settling r (some n))
    (hv : (s.tank k).probeValid = false) (hd : r.docket = none) :
    closeReceipt k s = finishReceipt k false 0 (fun book => { receiptBase s k r 0 book with unmeasured := true }) s := by
  simp only [closeReceipt, hr, hv, Bool.false_eq_true, if_false, hd, receiptBase]

end

/-- Settles O34: the three closings, each the same steps with its own volume and record. -/
theorem receiptCloses : Obligations.ReceiptCloses := by
  intro s k r n hr hrec
  have hexec : exec (.receiptSettleTimerExpiry k) s = .next (closeReceipt k s) := next_whenRunning hr _
  rw [hexec]
  intro x sat base result
  have hresult : ∀ rec, ReceiptClosed s (closeReceipt k s) k rec → result rec := fun rec h =>
    ⟨_, rfl, h.tank, h.journal, h.store, h.event, h.frame⟩
  refine ⟨fun closing hv hc => ?_, fun d hv hd => hresult _ ?_, fun hv hd => hresult _ ?_⟩
  · rw [← deliveredAtClose_eq k r s]
    refine hresult _ ?_
    rw [closeReceipt_measured hrec hv hc]
    exact finishReceipt_closed ((if_pos rfl).trans (saturateBook_eq _)) rfl rfl
  · rw [closeReceipt_docket hrec hv hd]
    exact finishReceipt_closed ((if_pos rfl).trans (saturateBook_eq _)) rfl rfl
  · rw [closeReceipt_unmeasured hrec hv hd]
    exact finishReceipt_closed rfl rfl rfl

end Sys2Proof.Machine


/-! PROOFS. The requests on a receipt, on the book and on a tank's configuration. First the withdrawal of the READY
grants of a tank, one after the other; then each request by its checks. -/

namespace Sys2Proof.Machine

open Sys2Proof

/-! ### The withdrawal of READY grants (R16) -/

/-- The READY hoses of a list. -/
def readyOf (s : State) (xs : List HoseId) : List HoseId := xs.filter fun h => decide ((s.hose h).state = .ready)

/-- The volume that a hose's grant holds reserved. -/
def grantRes (s : State) (h : HoseId) : Nat := match (s.hose h).grant with | some g => g.tankRes | none => 0

/-- The events of the withdrawals, in order. -/
def withdrawEvents (xs : List HoseId) (s : State) : State :=
  xs.foldl (fun u h => raise (.hoseState h) .withdrawn u) s

/-- What the withdrawals make of the link depends on the link, the clock, the phase and the newest record alone. -/
theorem withdrawEvents_link_congr (xs : List HoseId) {s t : State} (hl : t.link = s.link) (hc : t.clock = s.clock)
    (hp : t.phase = s.phase) (hn : t.journal.newest = s.journal.newest) :
    (withdrawEvents xs t).link = (withdrawEvents xs s).link := by
  induction xs generalizing s t with
  | nil => exact hl
  | cons x xs ih => exact ih (raise_link_congr _ _ hl hc hp hn) hc hp hn

/-- Every READY hose of a list holds a grant on the tank, with its journal reservation. -/
def GrantsOn (s : State) (k : TankId) (xs : List HoseId) : Prop :=
  ∀ h ∈ xs, (s.hose h).state = .ready → ∃ g, (s.hose h).grant = some g ∧ g.tank = k ∧ g.journalRes = true

/-- What the withdrawal of the READY grants of a list of hoses leaves. -/
structure Withdrawn (s t : State) (k : TankId) (xs : List HoseId) : Prop where
  tank : t.tank k = { s.tank k with reserved := (s.tank k).reserved - ((readyOf s xs).map (grantRes s)).sum }
  otherTanks : ∀ j, j ≠ k → t.tank j = s.tank j
  journal : t.journal = { s.journal with reservations := s.journal.reservations - (readyOf s xs).length }
  hoses : ∀ h, t.hose h = if h ∈ readyOf s xs then (s.hose h).toIdle else s.hose h
  bound : ∀ h g, h ∈ readyOf s xs → (s.hose h).grant = some g →
    t.vehicle g.vehicle = { s.vehicle g.vehicle with binding := none }
  otherVehicles : ∀ v, (∀ h g, h ∈ readyOf s xs → (s.hose h).grant = some g → g.vehicle ≠ v) → t.vehicle v = s.vehicle v
  sound : t.vehiclesSound = true
  link : t.link = (withdrawEvents (readyOf s xs) s).link
  frame : t = { s with hoses := t.hoses, tanks := t.tanks, vehicles := t.vehicles, journal := t.journal, link := t.link }

theorem readyOf_cons_neg {s : State} {x : HoseId} {xs : List HoseId} (h : (s.hose x).state ≠ .ready) :
    readyOf s (x :: xs) = readyOf s xs := List.filter_cons_of_neg (by simpa using h)

theorem readyOf_cons_pos {s : State} {x : HoseId} {xs : List HoseId} (h : (s.hose x).state = .ready) :
    readyOf s (x :: xs) = x :: readyOf s xs := List.filter_cons_of_pos (by simpa using h)

theorem mem_readyOf {s : State} {x : HoseId} {xs : List HoseId} :
    x ∈ readyOf s xs ↔ x ∈ xs ∧ (s.hose x).state = .ready := by simp [readyOf]

/-- A READY grant on a tank is withdrawn from a journal that is not FAULTED. -/
theorem withdrawIfReady_released {s : State} {x : HoseId} {g : Grant} (hw : s.vehiclesSound = true)
    (hst : (s.hose x).state = .ready) (hg : (s.hose x).grant = some g) (hj : g.journalRes = true) :
    Released s (withdrawIfReady x s) x g .withdrawn := by
  unfold withdrawIfReady
  rw [if_pos hst]
  exact releaseGrant_released hw hg hj

section
variable {s u t : State} {x : HoseId} {xs : List HoseId} {g : Grant}

/-- What a release leaves of every other hose, tank and vehicle, when the journal is not FAULTED. -/
theorem Released.others {d : Detail} (hr : Released s u x g d) (hw : s.vehiclesSound = true)
    (hf : s.journal.faulted = false) :
    (∀ h, h ≠ x → u.hose h = s.hose h) ∧ (∀ j, j ≠ g.tank → u.tank j = s.tank j)
      ∧ (∀ v, v ≠ g.vehicle → u.vehicle v = s.vehicle v) ∧ u.vehiclesSound = true
      ∧ u.journal = { s.journal with reservations := s.journal.reservations - 1 }
      ∧ u.link = (raise (.hoseState x) d s).link := by
  obtain ⟨-, -, -, hslot, -, hstay, hframe⟩ := hr
  obtain ⟨hfault, hlink⟩ := hstay fun hc => by
    have := hc.faulted; rw [show _ = false from hf] at this; cases this
  refine ⟨fun h hh => ?_, fun j hj => ?_, fun v hv => ?_, ?_, ?_, hlink⟩
  · rw [hframe]; exact State.setHose_hose_ne s _ hh
  · rw [hframe]; exact State.setTank_tank_ne _ _ hj
  · rw [hframe]; exact State.setVehicle_vehicle_ne (s := (s.setHose x _).setTank _ _) hv
  · rw [hframe]; exact State.setVehicle_sound (s := (s.setHose x _).setTank _ _) hw
  · rw [hframe, hslot, hfault]; rfl

/-- The withdrawals of the rest of a list follow on the withdrawal of its first hose. -/
theorem Withdrawn.cons (hr : Released s u x g .withdrawn) (hw : s.vehiclesSound = true)
    (hf : s.journal.faulted = false) (hx : x ∉ xs) (hst : (s.hose x).state = .ready) (hg : (s.hose x).grant = some g)
    (ht : Withdrawn u t g.tank xs) : Withdrawn s t g.tank (x :: xs) := by
  obtain ⟨uhose, utank, uvehicle, -, ujournal, ulink⟩ := hr.others hw hf
  have hready : readyOf u xs = readyOf s xs := List.filter_congr fun h hh => by
    rw [uhose h fun e => hx (e ▸ hh)]
  have hin : ∀ h ∈ readyOf s xs, u.hose h = s.hose h := fun h hh =>
    uhose h fun e => hx (e ▸ (mem_readyOf.mp hh).1)
  have hxr : x ∉ readyOf s xs := fun h => hx (mem_readyOf.mp h).1
  have hbinding : ∀ v, { u.vehicle v with binding := none } = { s.vehicle v with binding := none } := fun v => by
    by_cases e : v = g.vehicle
    · rw [e, hr.vehicle]
    · rw [uvehicle v e]
  obtain ⟨stank, sothers, sjournal, shoses, sbound, sveh, ssound, slink, sframe⟩ := ht
  rw [hready] at stank sjournal shoses sbound sveh slink
  have hother : ∀ v, (∀ h g', h ∈ readyOf s xs → (s.hose h).grant = some g' → g'.vehicle ≠ v) →
      t.vehicle v = u.vehicle v := fun v hv => sveh v fun h g' hh hg' => hv h g' hh (hin h hh ▸ hg')
  have hrebound : ∀ h g', h ∈ readyOf s xs → (s.hose h).grant = some g' →
      t.vehicle g'.vehicle = { s.vehicle g'.vehicle with binding := none } := fun h g' hh hg' => by
    rw [sbound h g' hh (by rw [hin h hh]; exact hg'), hbinding]
  refine ⟨?_, fun j hj => (sothers j hj).trans (utank j hj), ?_, fun h => ?_, fun h g' hh hg' => ?_, fun v hv => ?_,
    ssound, ?_, ?_⟩
  · have hmap : (readyOf s xs).map (grantRes u) = (readyOf s xs).map (grantRes s) := List.map_congr_left fun h hh => by
      unfold grantRes; rw [hin h hh]
    have hgx : grantRes s x = g.tankRes := by unfold grantRes; rw [hg]
    rw [readyOf_cons_pos hst, stank, hr.tank, hmap, List.map_cons, List.sum_cons, hgx, ← Nat.sub_sub]
  · rw [readyOf_cons_pos hst, sjournal, ujournal, List.length_cons, Nat.add_comm, ← Nat.sub_sub]
  · rw [readyOf_cons_pos hst]
    by_cases e : h = x
    · rw [shoses, e, if_neg hxr, if_pos List.mem_cons_self, hr.hose]; rfl
    · rw [shoses, uhose h e]
      simp only [List.mem_cons, e, false_or]
  · rw [readyOf_cons_pos hst] at hh
    rcases List.mem_cons.mp hh with rfl | hh
    · obtain rfl : g = g' := Option.some.inj (hg.symm.trans hg')
      by_cases hex : ∃ h g', h ∈ readyOf s xs ∧ (s.hose h).grant = some g' ∧ g'.vehicle = g.vehicle
      · obtain ⟨h, g', hh, hg', e⟩ := hex
        rw [← e]; exact hrebound h g' hh hg'
      · rw [hother g.vehicle fun h g' hh hg' e => hex ⟨h, g', hh, hg', e⟩, hr.vehicle]
    · exact hrebound h g' hh hg'
  · rw [readyOf_cons_pos hst] at hv
    rw [hother v fun h g' hh hg' => hv h g' (List.mem_cons_of_mem _ hh) hg',
      uvehicle v (hv x g List.mem_cons_self hg).symm]
  · have hclock : u.clock = s.clock := by rw [hr.frame]; rfl
    have hphase : u.phase = s.phase := by rw [hr.frame]; rfl
    rw [readyOf_cons_pos hst, slink]
    exact withdrawEvents_link_congr _ ulink hclock hphase (by rw [ujournal]; rfl)
  · have hframe := hr.frame
    rw [hframe] at sframe
    exact sframe

end

theorem withdrawAll_withdrawn (k : TankId) (xs : List HoseId) (hn : xs.Nodup) (s : State) (hw : s.vehiclesSound = true)
    (hf : s.journal.faulted = false) (hgr : GrantsOn s k xs) :
    Withdrawn s (forAll xs withdrawIfReady s) k xs := by
  induction xs generalizing s with
  | nil =>
    have h0 : readyOf s [] = [] := rfl
    have ht : forAll [] withdrawIfReady s = s := rfl
    rw [ht]
    refine ⟨?_, fun _ _ => rfl, ?_, fun _ => ?_, fun h g hh => ?_, fun _ _ => rfl, hw, ?_, rfl⟩ <;> rw [h0] at *
    · simp
    · simp
    · simp
    · cases hh
    · rfl
  | cons x xs ih =>
    obtain ⟨hx, hxs⟩ := List.nodup_cons.mp hn
    show Withdrawn s (forAll xs withdrawIfReady (withdrawIfReady x s)) k (x :: xs)
    by_cases hst : (s.hose x).state = .ready
    · obtain ⟨g, hg, rfl, hj⟩ := hgr x List.mem_cons_self hst
      have hr := withdrawIfReady_released hw hst hg hj
      obtain ⟨uhose, -, -, usound, ujournal, -⟩ := hr.others hw hf
      refine .cons hr hw hf hx hst hg (ih hxs _ usound (by rw [ujournal]; exact hf) fun h hh hs => ?_)
      rw [uhose h fun e => hx (e ▸ hh)] at hs ⊢
      exact hgr h (List.mem_cons_of_mem _ hh) hs
    · have hstay : withdrawIfReady x s = s := if_neg hst
      rw [hstay]
      obtain ⟨h1, h2, h3, h4, h5, h6, h7, h8, h9⟩ :=
        ih hxs s hw hf fun h hh hs => hgr h (List.mem_cons_of_mem _ hh) hs
      rw [← readyOf_cons_neg hst] at h1 h3 h4 h5 h6 h8
      exact ⟨h1, h2, h3, h4, h5, h6, h7, h8, h9⟩

/-! ### RECEIPT_BEGIN and RECEIPT_END (R81, R82, R84) -/

section
variable {s : State} {k : TankId} {b : Byte} {docket : BitVec 32}

/-- The receipt that RECEIPT_BEGIN opens (R82). -/
def openedReceipt (s : State) (k : TankId) : Receipt :=
  { openingNet := (s.tank k).probeNet.getD 0, openingTime := recordedTime s, baselines := baselinesOf k s, delivered := 0,
    docket := none }

/-- The state before the withdrawals of RECEIPT_BEGIN: the reservation is taken and the receipt opened (R82). -/
def receiptOpened (s : State) (k : TankId) : State :=
  (takeReservation s).setTank k { s.tank k with receipt := .receiving (openedReceipt s k) }

theorem baselinesOf_get (k : TankId) (s : State) (h : HoseId) : (baselinesOf k s).get h =
    if (s.hose h).config.tank = k ∧ (s.hose h).state.counted = true then some (s.engine h).net else none := by
  simp only [baselinesOf, tabulate_get, Bool.and_eq_true, decide_eq_true_eq]

theorem takeReceiptBegin_checks (hb : b.toNat = k.val) :
    takeReceiptBegin b s =
      if (s.tank k).receipt.isNormal = false then refuse .state s
      else if (s.tank k).probeValid = false then refuse .probe s
      else if s.journal.requestTest = false then refuse .journalFull s
      else (forAll (s.hosesOn k) withdrawIfReady (receiptOpened s k),
        .reply .ok (.receiptBegun ((s.tank k).probeNet.getD 0) (recordedTime s))) := by
  have helim : takeReceiptBegin b s =
      (firstFail [((s.tank k).receipt.isNormal, .state), ((s.tank k).probeValid, .probe),
        (s.journal.requestTest, .journalFull)]).elim
        (forAll (s.hosesOn k) withdrawIfReady (receiptOpened s k),
          .reply .ok (.receiptBegun ((s.tank k).probeNet.getD 0) (recordedTime s))) (refuse · s) := by
    simp only [takeReceiptBegin, tankOf_some hb]
    cases firstFail _ <;> rfl
  simp only [helim, elim_firstFail_cons]
  rfl

theorem isNormal_eq_false {r : ReceiptState} (h : r ≠ .normal) : r.isNormal = false := by
  rwa [← Bool.not_eq_true, ReceiptState.isNormal_iff]

/-- RECEIPT_BEGIN past its checks. -/
theorem takeReceiptBegin_taken {net : Nat} (hb : b.toNat = k.val) (hn : (s.tank k).receipt = .normal)
    (hv : (s.tank k).probeValid = true) (hf : s.journal.faulted = false)
    (hr : s.journal.reservations + 1 ≤ s.journal.free) (hnet : (s.tank k).probeNet = some net) :
    takeReceiptBegin b s = (forAll (s.hosesOn k) withdrawIfReady (receiptOpened s k),
      .reply .ok (.receiptBegun net (recordedTime s))) := by
  rw [takeReceiptBegin_checks hb, hn, if_neg (by decide), hv, if_neg (by decide),
    if_neg (ne_false_of_eq_true (Journal.requestTest_pass hf hr)), hnet]
  rfl

theorem takeReceiptEnd_range (hb : b.toNat = k.val) (hd : 2000000 < docket.toNat) :
    takeReceiptEnd b docket s = refuse .range s := by
  simp only [takeReceiptEnd, tankOf_some hb, if_pos hd]

theorem takeReceiptEnd_receiving {r : Receipt} (hb : b.toNat = k.val) (hd : docket.toNat ≤ 2000000)
    (hr : (s.tank k).receipt = .receiving r) :
    takeReceiptEnd b docket s =
      (s.setTank k { s.tank k with
        receipt := .settling { r with docket := if docket.toNat = 0 then none else some (docket.toNat * 1000) }
          (some (s.tank k).config.receiptSettle) }, .reply .ok .none) := by
  simp only [takeReceiptEnd, tankOf_some hb, if_neg (Nat.not_lt.mpr hd), hr, litres]

theorem takeReceiptEnd_refused (hb : b.toNat = k.val) (hd : docket.toNat ≤ 2000000)
    (hr : ∀ r, (s.tank k).receipt ≠ .receiving r) : takeReceiptEnd b docket s = refuse .state s := by
  cases h : (s.tank k).receipt with
  | receiving r => exact absurd h (hr r)
  | normal | settling r n => simp only [takeReceiptEnd, tankOf_some hb, if_neg (Nat.not_lt.mpr hd), h]

end

/-- Settles O35: RECEIPT_BEGIN by its checks, with no READY hose on the tank and with the READY grants withdrawn one
after the other; RECEIPT_END by the docket and the receipt's state. -/
theorem receiptRequests : Obligations.ReceiptRequests := by
  intro s k tag b hs hb x
  have hchecks := takeReceiptBegin_checks (s := s.heard) hb
  refine ⟨fun hn => ?_, fun hn hv => ?_, fun hn hv => ⟨fun hj => ?_, fun net hf hr hnet hno => ?_⟩,
    fun net hn hv hf hr hnet hw => ?_, fun docket => ⟨fun hd => ?_, fun hd => ⟨fun r hr => ?_, fun hr => ?_⟩⟩⟩
  · exact exec_refuses (r := .receiptBegin b) hs rfl tag (hchecks.trans (if_pos (isNormal_eq_false hn)))
  · refine exec_refuses (r := .receiptBegin b) hs rfl tag (hchecks.trans ((if_neg ?_).trans (if_pos hv)))
    exact ne_false_of_eq_true ((ReceiptState.isNormal_iff _).mpr hn)
  · refine exec_refuses (r := .receiptBegin b) hs rfl tag (hchecks.trans ((if_neg ?_).trans
      ((if_neg (ne_false_of_eq_true hv)).trans (if_pos (Journal.requestTest_fail hj)))))
    exact ne_false_of_eq_true ((ReceiptState.isNormal_iff _).mpr hn)
  · have htake := takeReceiptBegin_taken (s := s.heard) hb hn hv hf hr hnet
    have hstay : forAll (s.heard.hosesOn k) withdrawIfReady (receiptOpened s.heard k) = receiptOpened s.heard k := by
      refine forAll_ind (fun t => t = receiptOpened s.heard k) _ (fun h hh t ht => ?_) _ rfl
      rw [ht]
      exact if_neg (hno h ((mem_hosesOn s k h).mp hh))
    rw [hstay] at htake
    refine ⟨openedReceipt s k, exec_replies (r := .receiptBegin b) hs rfl tag htake, ?_, rfl, rfl, rfl,
      baselinesOf_get k s⟩
    exact congrArg (Option.getD · 0) hnet
  · intro ready hgr held
    have htake := takeReceiptBegin_taken (s := s.heard) hb hn hv hf hr hnet
    have hready : readyOf (receiptOpened s.heard k) (s.heard.hosesOn k) = ready := by
      show (allHoses.filter fun h => decide ((s.hose h).config.tank = k)).filter
        (fun h => decide ((s.hose h).state = .ready)) = ready
      rw [List.filter_filter]
      simp only [ready, Bool.and_comm]
    have hwith := withdrawAll_withdrawn k (s.heard.hosesOn k) (hosesOn_nodup s k) (receiptOpened s.heard k) hw hf
      fun h hh hst => hgr h (by rw [← hready]; exact mem_readyOf.mpr ⟨hh, hst⟩)
    generalize forAll (s.heard.hosesOn k) withdrawIfReady (receiptOpened s.heard k) = t at htake hwith
    obtain ⟨wtank, wothers, wjournal, whoses, wbound, wveh, -, wlink, wframe⟩ := hwith
    rw [hready] at wtank wjournal whoses wbound wveh wlink
    refine ⟨t, openedReceipt s k, exec_replies (r := .receiptBegin b) hs rfl tag htake,
      congrArg (Option.getD · 0) hnet, rfl, rfl, rfl, baselinesOf_get k s, ?_, wjournal, whoses, wbound, wveh, ?_,
      fun j hj => (wothers j hj).trans (State.setTank_tank_ne _ _ hj), wframe⟩
    · rw [wtank, show (receiptOpened s.heard k).tank k = _ from State.setTank_tank_self ..]
      rfl
    · rw [wlink]
      exact withdrawEvents_link_congr _ rfl rfl rfl rfl
  · exact exec_refuses (r := .receiptEnd b docket) hs rfl tag (takeReceiptEnd_range hb hd)
  · exact exec_replies (r := .receiptEnd b docket) hs rfl tag (takeReceiptEnd_receiving (s := s.heard) hb hd hr)
  · exact exec_refuses (r := .receiptEnd b docket) hs rfl tag (takeReceiptEnd_refused (s := s.heard) hb hd hr)

end Sys2Proof.Machine


/-! PROOFS. STOCK_ADJUST, TANK_SET and STRAP_SET: each by its checks in order; then the statement. -/

namespace Sys2Proof.Machine

open Sys2Proof

section
variable {s : State} {k : TankId} {b : Byte}

/-! ### STOCK_ADJUST (R89) -/

/-- The state after an accepted STOCK_ADJUST, before the tests of the book. -/
def adjusted (s : State) (k : TankId) (book : Int) : State :=
  let x := s.tank k
  joinQueue (.adjust { tank := k, oldBook := x.book, newBook := book, revision := nextRevision x.revision })
    (takeReservation (s.setTank k { x with book := book, revision := nextRevision x.revision }))

theorem takeStockAdjust_checks (hb : b.toNat = k.val) (expected book : BitVec 48) :
    takeStockAdjust b expected book s =
      if book.toInt < -140737488355327 then refuse .range s
      else if (s.tank k).book ≠ expected.toInt then
        (s, .reply .revision (.bookConflict (s.tank k).book (s.tank k).revision))
      else if s.journal.requestTest = false then refuse .journalFull s
      else (capacityTest k (lowTest k (adjusted s k book.toInt)),
        .hold (.stockAdjust k book.toInt (nextRevision (s.tank k).revision))) := by
  simp only [takeStockAdjust, tankOf_some hb, Bool.not_eq_true']
  rfl

/-- What an accepted STOCK_ADJUST leaves. -/
theorem adjusted_tested (s : State) (k : TankId) (book : Int) :
    ∃ t, capacityTest k (lowTest k (adjusted s k book)) = t
      ∧ t.tank k =
        { s.tank k with
          book := book, revision := nextRevision (s.tank k).revision
          low := decide (book - (s.tank k).config.heel < (s.tank k).config.lowAlarm) }
      ∧ t.journal = (adjusted s k book).journal
      ∧ t = ((s.setTank k (t.tank k)).setJournal t.journal).setLink t.link := by
  have hself : (adjusted s k book).tank k =
      { s.tank k with book := book, revision := nextRevision (s.tank k).revision } := State.setTank_tank_self ..
  have hframe : adjusted s k book =
      (s.setTank k { s.tank k with book := book, revision := nextRevision (s.tank k).revision }).setJournal
        (adjusted s k book).journal := rfl
  obtain ⟨ev, att, heq, -⟩ := bothTests_eq k (adjusted s k book)
  rw [hself] at heq
  refine ⟨_, rfl, ?_, ?_, ?_⟩
  · rw [heq]; exact State.setTank_tank_self ..
  · rw [heq]; rfl
  · rw [heq]
    generalize hx : ({ s.tank k with
      book := book, revision := nextRevision (s.tank k).revision, low := isLow _ } : Tank) = x
    have hw : ((adjusted s k book).setTank k x).tank k = x := State.setTank_tank_self ..
    show ((adjusted s k book).setTank k x).setLink _ =
      ((s.setTank k (((adjusted s k book).setTank k x).tank k)).setJournal (adjusted s k book).journal).setLink _
    rw [hw]
    conv_lhs => rw [hframe]
    show (((s.setTank k _).setTank k x).setJournal _).setLink _ = _
    rw [State.setTank_setTank]
    rfl

/-! ### TANK_SET and STRAP_SET (R91, R92) -/

theorem allIdleOn_iff (k : TankId) (s : State) :
    allIdleOn k s = true ↔ ∀ h : HoseId, (s.hose h).config.tank = k → (s.hose h).state = .idle := by
  simp only [allIdleOn, List.all_eq_true, mem_hosesOn, decide_eq_true_eq]

/-- A tank whose configuration may be changed: every hose on it idle, and no receipt in progress. -/
theorem tankFree_iff (k : TankId) (s : State) :
    (allIdleOn k s && (s.tank k).receipt.isNormal) = true ↔
      (∀ h : HoseId, (s.hose h).config.tank = k → (s.hose h).state = .idle) ∧ (s.tank k).receipt = .normal := by
  rw [Bool.and_eq_true, allIdleOn_iff, ReceiptState.isNormal_iff]

theorem takeTankSet_range {w : WireTankConfig} (hc : tankConfigOf w = none) : takeTankSet b w s = refuse .range s := by
  unfold takeTankSet
  rw [hc]
  split
  next e => cases e
  next => rfl

theorem takeTankSet_checks {w : WireTankConfig} {c : TankConfig} (hb : b.toNat = k.val) (hc : tankConfigOf w = some c) :
    takeTankSet b w s =
      if c.capacity < lastVolume (s.tank k).strap then refuse .range s
      else if (allIdleOn k s && (s.tank k).receipt.isNormal) = false then refuse .state s
      else (beginWrite (.tankConfig k c (nextRevision (s.tank k).revision))
          (lowTest k (s.setTank k { s.tank k with config := c, revision := nextRevision (s.tank k).revision })),
        .hold (.tankSet k)) := by
  simp only [takeTankSet, tankOf_some hb, hc, Bool.not_eq_true']

theorem takeStrapSet_checks (hb : b.toNat = k.val) (n : Byte) (ps : List WireStrapPoint) :
    takeStrapSet b n ps s =
      (strapOf (s.tank k).config.capacity n.toNat ps).elim (refuse .range s) fun p =>
        if (allIdleOn k s && (s.tank k).receipt.isNormal) = false then refuse .state s
        else (beginWrite (.strap k p (nextRevision (s.tank k).revision))
            (s.setTank k { s.tank k with strap := p, revision := nextRevision (s.tank k).revision }),
          .hold (.strapSet k)) := by
  cases hp : strapOf (s.tank k).config.capacity n.toNat ps <;>
    simp only [takeStrapSet, tankOf_some hb, hp, Option.elim_none, Option.elim_some, Bool.not_eq_true']

/-- What an accepted TANK_SET leaves. -/
theorem tankSet_tested (s : State) (k : TankId) (c : TankConfig) (revision : Nat) :
    ∃ t, beginWrite (.tankConfig k c revision)
        (lowTest k (s.setTank k { s.tank k with config := c, revision := revision })) = t
      ∧ t.tank k =
        { s.tank k with
          config := c, revision := revision, low := decide ((s.tank k).book - c.heel < c.lowAlarm) }
      ∧ t.store = { s.store with queue := s.store.queue ++ [.tankConfig k c revision] }
      ∧ t = ((s.setTank k (t.tank k)).setStore t.store).setLink t.link := by
  have hself : (s.setTank k { s.tank k with config := c, revision := revision }).tank k = _ :=
    State.setTank_tank_self ..
  obtain ⟨ev, att, heq, -⟩ := lowTest_eq k (s.setTank k { s.tank k with config := c, revision := revision })
  rw [hself, State.setTank_setTank] at heq
  rw [heq]
  refine ⟨_, rfl, State.setTank_tank_self .., rfl, ?_⟩
  generalize hx : ({ s.tank k with config := c, revision := revision, low := isLow _ } : Tank) = x
  have hw : (s.setTank k x).tank k = x := State.setTank_tank_self ..
  show _ = ((s.setTank k ((s.setTank k x).tank k)).setStore _).setLink _
  rw [hw]
  rfl

end

/-- Settles O36: the three requests, each by its checks in order. -/
theorem stockAndTankConfiguration : Obligations.StockAndTankConfiguration := by
  refine ⟨fun s k tag b expected book hs hb => ?_, fun s k tag b hs hb => ?_⟩
  · intro x revision cmd
    have hchecks := takeStockAdjust_checks (s := s.heard) hb expected book
    refine ⟨fun hlow => ?_, fun hin hne => ?_, fun hin heq => ⟨fun hj => ?_, fun hf hr => ?_⟩⟩
    · exact exec_refuses (r := .stockAdjust b expected book) hs rfl tag (hchecks.trans (if_pos hlow))
    · exact exec_replies (r := .stockAdjust b expected book) hs rfl tag
        (hchecks.trans ((if_neg (Int.not_lt.mpr hin)).trans (if_pos hne)))
    · exact exec_refuses (r := .stockAdjust b expected book) hs rfl tag
        (hchecks.trans ((if_neg (Int.not_lt.mpr hin)).trans ((if_neg (not_not_intro heq)).trans
          (if_pos (Journal.requestTest_fail hj)))))
    · obtain ⟨t, ht, htank, hjournal, hframe⟩ := adjusted_tested s.heard k book.toInt
      refine ⟨t, exec_holds (r := .stockAdjust b expected book) hs rfl tag
        (hchecks.trans ((if_neg (Int.not_lt.mpr hin)).trans ((if_neg (not_not_intro heq)).trans
          ((if_neg (ne_false_of_eq_true (Journal.requestTest_pass hf hr))).trans (by rw [ht]; rfl))))),
        htank, hjournal, hframe⟩
  · intro x free revision last
    have hlast : ∀ p : Strap, last p = lastVolume p := fun p => by
      unfold lastVolume
      simp only [last]
      cases p.getLast? <;> rfl
    have hfree : (allIdleOn k s && x.receipt.isNormal) = true ↔ free := tankFree_iff k s
    have hnot : ¬free → (allIdleOn k s && x.receipt.isNormal) = false := fun h => by rwa [← Bool.not_eq_true, hfree]
    refine ⟨fun w => ?_, fun n ps hwf => ?_⟩
    · intro inside
      have hin : inside ↔ w.Inside ∧ lastVolume x.strap ≤ w.capacity.toNat * 1000 := by
        rw [← hlast]
        exact ⟨fun ⟨p1, p2, c1, c2, hh, hl, r1, r2, hs⟩ => ⟨⟨⟨p1, p2⟩, ⟨c1, c2⟩, hh, hl, ⟨r1, r2⟩⟩, hs⟩,
          fun ⟨⟨⟨p1, p2⟩, ⟨c1, c2⟩, hh, hl, ⟨r1, r2⟩⟩, hs⟩ => ⟨p1, p2, c1, c2, hh, hl, r1, r2, hs⟩⟩
      have hsome : w.Inside → ∃ p, productOf w.product = some p := fun hi =>
        ⟨⟨w.product.toNat - 1, by have := hi.product; omega⟩, productOf_some (by have := hi.product; simp; omega)⟩
      refine ⟨fun hout => ?_, fun hi hno => ?_, fun p hp hi hfr => ?_⟩
      · refine exec_refuses (r := .tankSet b w) hs rfl tag ?_
        by_cases hw : w.Inside
        · obtain ⟨p, hp⟩ := hsome hw
          refine (takeTankSet_checks hb (tankConfigOf_inside hw hp)).trans (if_pos ?_)
          exact Nat.not_le.mp fun hle => hout (hin.mpr ⟨hw, hle⟩)
        · exact takeTankSet_range (tankConfigOf_outside hw)
      · obtain ⟨hw, hle⟩ := hin.mp hi
        obtain ⟨p, hp⟩ := hsome hw
        exact exec_refuses (r := .tankSet b w) hs rfl tag ((takeTankSet_checks hb (tankConfigOf_inside hw hp)).trans
          ((if_neg (Nat.not_lt.mpr hle)).trans (if_pos (hnot hno))))
      · obtain ⟨hw, hle⟩ := hin.mp hi
        intro c
        obtain ⟨t, ht, htank, hstore, hframe⟩ := tankSet_tested s.heard k c revision
        refine ⟨t, exec_holds (r := .tankSet b w) hs rfl tag
          ((takeTankSet_checks hb (tankConfigOf_inside hw (productOf_some hp))).trans
            ((if_neg (Nat.not_lt.mpr hle)).trans
              ((if_neg (ne_false_of_eq_true (hfree.mpr hfr))).trans (by rw [← ht]; rfl)))), htank, hstore, hframe⟩
    · intro p inside
      have hcount : 2 ≤ ps.length ∧ ps.length ≤ 32 := by
        simpa only [Request.wf, inRange, Bool.and_eq_true, decide_eq_true_eq] using hwf
      have hlen : p.length = ps.length := List.length_map _
      have hin : inside ↔ StrapInside x.config.capacity n.toNat p :=
        ⟨fun ⟨hn, hl, hr, hv, hz⟩ => ⟨by omega, by omega, hl, hr, hv, hlast p ▸ hz⟩,
          fun ⟨_, hn, hl, hr, hv, hz⟩ => ⟨by omega, hl, hr, hv, (hlast p).symm ▸ hz⟩⟩
      have hchecks := takeStrapSet_checks (s := s.heard) hb n ps
      refine ⟨fun hout => ?_, fun hi hno => ?_, fun hi hfr => ?_⟩
      · refine exec_refuses (r := .strapSet b n ps) hs hwf tag (hchecks.trans ?_)
        exact congrArg (Option.elim · _ _) (strapOf_outside (mt hin.mpr hout))
      · refine exec_refuses (r := .strapSet b n ps) hs hwf tag (hchecks.trans ?_)
        refine (congrArg (Option.elim · _ _) (strapOf_inside (hin.mp hi))).trans ?_
        exact if_pos (hnot hno)
      · refine exec_holds (r := .strapSet b n ps) hs hwf tag (hchecks.trans ?_)
        refine (congrArg (Option.elim · _ _) (strapOf_inside (hin.mp hi))).trans ?_
        exact if_neg (ne_false_of_eq_true (hfree.mpr hfr))

end Sys2Proof.Machine


/-! PROOFS. The refusals of numbers out of range and of requests that a hose's state does not allow; the queries on the
field; the settings of a hose and of the site; the controller's own requests and the sending of a reply. -/

namespace Sys2Proof.Machine

open Sys2Proof

/-! ### Numbers out of range, and states that do not allow a request -/

/-- Settles O55: each number that names nothing is refused by the block it reaches, and the four requests on a hose by
its state. -/
theorem requestsRefused : Obligations.RequestsRefused := by
  refine ⟨fun s tag b hs => ?_, fun s h tag b hs hb => ⟨fun hst => ?_, fun hst => ?_, fun h1 h2 => ?_, fun hst => ?_⟩⟩
  · have refused : ∀ r : Request, r.wf = true → handle r s.heard = refuse .range s.heard →
        exec (commandOf tag r) s = .next (s.heard.answered (replyKind (requestKind r)) tag .range .none) :=
      fun r hr h => exec_refuses hs hr tag h
    refine ⟨fun hb => ?_, fun hb => ?_, fun hb => ?_, fun hb => ?_, fun index hi => ?_⟩
    · have hh := hoseOf_none hb
      exact ⟨refused (.cancel b) rfl (by simp only [handle, takeCancel, hh]),
        refused (.stop b) rfl (by simp only [handle, takeStopRequest, hh]),
        refused (.pause b) rfl (by simp only [handle, takePause, hh]),
        refused (.resume b) rfl (by simp only [handle, takeResume, hh]),
        refused (.hoseQuery b) rfl (by simp only [handle, takeHoseQuery, hh]),
        refused (.totalizerRead b) rfl (by simp only [handle, takeTotalizerRead, hh]),
        refused (.calOpen b) rfl (by simp only [handle, takeCalOpen, hh]),
        refused (.calClose b) rfl (by simp only [handle, takeCalClose, hh]),
        refused (.calRead b) rfl (by simp only [handle, takeCalRead, hh]),
        fun w => refused (.hoseSet b w) rfl (by simp only [handle, takeHoseSet, hh]),
        fun w => refused (.calWrite b w) rfl (by simp only [handle, takeCalWrite, hh])⟩
    · have hh := tankOf_none hb
      exact ⟨refused (.receiptBegin b) rfl (by simp only [handle, takeReceiptBegin, hh]),
        fun d => refused (.receiptEnd b d) rfl (by simp only [handle, takeReceiptEnd, hh]),
        fun x y => refused (.stockAdjust b x y) rfl (by simp only [handle, takeStockAdjust, hh]),
        fun w => refused (.tankSet b w) rfl (by simp only [handle, takeTankSet, hh]),
        refused (.tankQuery b) rfl (by simp only [handle, takeTankQuery, hh]),
        refused (.strapRead b) rfl (by simp only [handle, takeStrapRead, hh]),
        fun w => refused (.pumpSet b w) rfl (by simp only [handle, takePumpSet, hh]),
        refused (.pumpQuery b) rfl (by simp only [handle, takePumpQuery, hh]),
        refused (.pumpClear b) rfl (by simp only [handle, takePumpClear, hh])⟩
    · have hh := productOf_none hb
      exact ⟨refused (.productRead b) rfl (by simp only [handle, takeProductRead, hh]),
        fun n beta => refused (.productSet b n beta) rfl (by simp only [handle, takeProductSet, hh])⟩
    · have hh := classOf_none hb
      exact ⟨refused (.classRead b) rfl (by simp only [handle, takeClassRead, hh]),
        fun w => refused (.classSet b w) rfl (by simp only [handle, takeClassSet, hh])⟩
    · have hh := vehicleOf_none hi
      exact ⟨fun w r => refused (.vehiclePut index w r) rfl (by simp only [handle, takeVehiclePut, hh]),
        fun n r => refused (.hoursSet index n r) rfl (by simp only [handle, takeHoursSet, hh]),
        fun l f n r => refused (.serviceDone index l f n r) rfl (by simp only [handle, takeServiceDone, hh])⟩
  · exact exec_refuses (r := .cancel b) hs rfl tag (takeCancel_refused (s := s.heard) hb hst)
  · refine exec_refuses (r := .stop b) hs rfl tag (takeStopRequest_refused (s := s.heard) hb ?_)
    have hst' : (s.heard.hose h).state = (s.hose h).state := rfl
    rw [hst']
    rcases hst with e | e | e | e <;> rw [e] <;> rfl
  · refine exec_refuses (r := .pause b) hs rfl tag (takePause_refused (s := s.heard) hb ?_)
    rw [← Bool.not_eq_true, HoseState.flows_iff]
    exact fun hc => hc.elim h1 h2
  · exact exec_refuses (r := .resume b) hs rfl tag (takeResume_refused (s := s.heard) hb hst)

/-! ### The queries on the field (R31, R55, R66, R93, R94, R108) -/

theorem HoseState.reportsLive_eq (st : HoseState) :
    st.reportsLive = (decide (st ≠ .idle) && decide (st ≠ .ready)) := by
  cases st <;> decide

/-- The seconds left that PUMP_QUERY reports: of the start timer while the pump starts, of the run-on timer while it runs
on (R108). -/
theorem pumpReply_secondsLeft (p : Pump) (s : State) : (pumpReply p s).secondsLeft =
    if p.state = .starting then p.startTimer else if p.state = .runOn then p.runOnTimer else none := by
  unfold pumpReply
  cases p.state <;> rfl

/-- Settles O53: each query's block answers what it reads. -/
theorem fieldQueriesRead : Obligations.FieldQueriesRead := by
  intro s tag b hs
  refine ⟨fun h hb => ?_, fun p hb => ?_, fun k hb => ?_⟩
  · have hh := hoseOf_some hb
    intro x e live c p
    refine ⟨?_, exec_replies (r := .totalizerRead b) hs rfl tag (by simp only [handle, takeTotalizerRead, hh]; rfl),
      exec_replies (r := .calRead b) hs rfl tag (by simp only [handle, takeCalRead, hh]; rfl)⟩
    have hlive : (s.hose h).state.reportsLive = live := HoseState.reportsLive_eq _
    rw [← hlive]
    exact exec_replies (r := .hoseQuery b) hs rfl tag (by simp only [handle, takeHoseQuery, hh]; rfl)
  · exact exec_replies (r := .productRead b) hs rfl tag (by simp only [handle, takeProductRead, productOf_some hb]; rfl)
  · have hh := tankOf_some hb
    intro x p
    refine ⟨?_, exec_replies (r := .strapRead b) hs rfl tag (by simp only [handle, takeStrapRead, hh]; rfl), ?_⟩
    · refine exec_replies (r := .tankQuery b) hs rfl tag ?_
      simp only [handle, takeTankQuery, hh, tankReply]
      rfl
    · rw [← pumpReply_secondsLeft p s]
      exact exec_replies (r := .pumpQuery b) hs rfl tag (by simp only [handle, takePumpQuery, hh]; rfl)

end Sys2Proof.Machine


/-! PROOFS. The settings of a hose and of the site; the controller's own requests and the sending of a reply. -/

namespace Sys2Proof

/-- The ranges of HOSE_SET (R1, R32). -/
def WireHoseConfig.Inside (w : WireHoseConfig) : Prop :=
  w.tank.toNat ≤ 3 ∧ w.prestop.toNat ≤ 5000 ∧ w.slowVolume.toNat ≤ 500
    ∧ 10 ≤ w.readyTimeout.toNat ∧ w.readyTimeout.toNat ≤ 600 ∧ 10 ≤ w.noFlowTimeout.toNat
    ∧ w.noFlowTimeout.toNat ≤ 300 ∧ 30 ≤ w.pauseTimeout.toNat ∧ w.pauseTimeout.toNat ≤ 1800
    ∧ 1 ≤ w.settleTime.toNat ∧ w.settleTime.toNat ≤ 10

end Sys2Proof

namespace Sys2Proof.Machine

open Sys2Proof

/-! ### HOSE_SET and SITE_SET -/

theorem hoseConfigOf_inside {w : WireHoseConfig} {k : TankId} (h : w.Inside) (hk : w.tank.toNat = k.val) :
    hoseConfigOf w = some
      { tank := k, prestop := w.prestop.toNat, slowVolume := litres w.slowVolume.toNat,
        readyTimeout := w.readyTimeout.toNat, noFlowTimeout := w.noFlowTimeout.toNat,
        pauseTimeout := w.pauseTimeout.toNat, settleTime := w.settleTime.toNat } := by
  obtain ⟨_, h1, h2, h3, h4, h5, h6, h7, h8, h9, h10⟩ := h
  simp only [hoseConfigOf, tankOf_some hk]
  exact if_pos (by simp [inRange, *])

theorem hoseConfigOf_outside {w : WireHoseConfig} (h : ¬w.Inside) : hoseConfigOf w = none := by
  unfold hoseConfigOf
  cases ht : tankOf w.tank with
  | none => rfl
  | some k =>
    have htank : w.tank.toNat ≤ 3 := by
      by_contra hn
      rw [tankOf_none (by omega)] at ht
      cases ht
    refine if_neg fun hall => h ?_
    simp only [Bool.and_eq_true, inRange_iff, and_assoc] at hall
    obtain ⟨_, h1, _, h2, h3, h4, h5, h6, h7, h8, h9, h10⟩ := hall
    exact ⟨htank, h1, h2, h3, h4, h5, h6, h7, h8, h9, h10⟩

theorem takeHoseSet_busy {b : Byte} {w : WireHoseConfig} {s : State} {h : HoseId} (hb : b.toNat = h.val)
    (hst : (s.hose h).state ≠ .idle) : takeHoseSet b w s = refuse .state s := by
  simp only [takeHoseSet, hoseOf_some hb]
  exact if_pos hst

theorem takeHoseSet_idle {b : Byte} {w : WireHoseConfig} {s : State} {h : HoseId} (hb : b.toNat = h.val)
    (hst : (s.hose h).state = .idle) : takeHoseSet b w s =
      match hoseConfigOf w with
      | none => refuse .range s
      | some c => (beginWrite (.hoseConfig h c) (s.setHose h { s.hose h with config := c }), .hold (.hoseSet h)) := by
  simp only [takeHoseSet, hoseOf_some hb]
  exact if_neg (not_not_intro hst)

/-- A store write begun after a fill test is the fill test after the write begun: neither sees the other (R167). -/
theorem beginWrite_tested (w : StoreWrite) (u : State) : beginWrite w u.tested = (beginWrite w u).tested := by
  unfold State.tested beginWrite
  by_cases h : u.journal.usable * u.link.site.threshold ≤ u.journal.held.length * 100 ∧ u.journal.armed = true
  · rw [if_pos h]; exact (if_pos h).symm
  · rw [if_neg h]; exact (if_neg h).symm

/-- Settles O51: HOSE_SET by the hose's state and the ranges, SITE_SET with the fill test that its threshold brings. -/
theorem hoseAndSiteSettings : Obligations.HoseAndSiteSettings := by
  refine fun s tag b hs => ⟨fun h w hb => ⟨fun hst => ?_, fun hst => ⟨fun hout => ?_, fun k hin hk => ?_⟩⟩,
    fun lt cap => ⟨fun hout => ?_, fun hin => ?_⟩⟩
  · exact exec_refuses (r := .hoseSet b w) hs rfl tag (takeHoseSet_busy (s := s.heard) hb hst)
  · refine exec_refuses (r := .hoseSet b w) hs rfl tag ((takeHoseSet_idle (s := s.heard) hb hst).trans ?_)
    rw [hoseConfigOf_outside hout]
  · refine exec_holds (r := .hoseSet b w) hs rfl tag ((takeHoseSet_idle (s := s.heard) hb hst).trans ?_)
    rw [hoseConfigOf_inside hin hk]
    rfl
  all_goals
    have hin_iff : (inRange 5 600 lt.toNat && inRange 0 9999 cap.toNat && inRange 10 95 b.toNat) = true ↔
        5 ≤ lt.toNat ∧ lt.toNat ≤ 600 ∧ cap.toNat ≤ 9999 ∧ 10 ≤ b.toNat ∧ b.toNat ≤ 95 := by
      simp [inRange, and_assoc]
  · exact exec_refuses (r := .siteSet lt cap b) hs rfl tag (if_neg (mt hin_iff.mp hout))
  · refine exec_holds (r := .siteSet lt cap b) hs rfl tag ((if_pos (hin_iff.mpr hin)).trans ?_)
    rw [thresholdTest_tested, beginWrite_tested]
    rfl

/-! ### TIME_SET, EVENTS_READ and RESTART -/

/-- A time set stamps the record that is being written anew, and no other (R176; assumption 37). -/
theorem restamp_eq (time : Nat) (j : Journal) : restamp time j =
    match j.writing, j.queue with
    | true, { record := r, stamp := some st } :: rest =>
      { j with queue := { record := r, stamp := some { seq := st.seq, time := time, valid := true } } :: rest }
    | _, _ => j := by
  unfold restamp
  cases j.writing with
  | false => rfl
  | true =>
    rcases j.queue with _ | ⟨⟨r, _ | st⟩, rest⟩ <;> rfl

theorem beforeNewest_iff {n : Nat} {s : State} :
    beforeNewest n s = true ↔ ∃ x, s.journal.newest = some x ∧ n < x.2 := by
  unfold beforeNewest
  cases s.journal.newest <;> simp

theorem all_idle_iff {s : State} :
    (allHoses.all fun h => decide ((s.hose h).state = .idle)) = true ↔ ∀ h, (s.hose h).state = .idle := by
  simp [mem_allHoses]

theorem isEmpty_drop_eq {α : Type} (xs : List α) (n : Nat) : (!(xs.drop n).isEmpty) = decide (n < xs.length) := by
  rw [Bool.eq_iff_iff]
  simp

/-! ### The end of a reply -/

/-- A reply that does not accept a RESTART leaves the transmitter, and nothing else changes. -/
theorem takeReplySent_running {s : State} {r : Reply} {rest : List Reply} (hr : s.phase = .running)
    (h : s.link.tx = r :: rest) : takeReplySent s = s.setLink { s.link with tx := rest } := by
  simp only [takeReplySent, h]
  refine if_neg fun hc => ?_
  rw [Bool.and_eq_true, decide_eq_true_iff] at hc
  exact absurd (hr.symm.trans hc.1) nofun

/-- The end of the reply that accepted a RESTART begins the save (R181). -/
theorem takeReplySent_restart {s : State} {r : Reply} {rest : List Reply} (hp : s.phase = .restartReply)
    (h : s.link.tx = r :: rest) (hk : r.kind = 0xD4#8) (hst : r.status = .ok) :
    takeReplySent s = beginSave .restartRequest (s.setLink { s.link with tx := rest }) := by
  simp only [takeReplySent, h]
  refine if_pos ?_
  rw [Bool.and_eq_true, decide_eq_true_iff]
  exact ⟨hp, by simp [Reply.acceptsRestart, hk, hst]⟩

/-- Outside RUNNING no frame is taken. -/
theorem takeMany_stopped (n : Nat) {s : State} (h : s.phase ≠ .running) : takeMany n s = s := by
  induction n with
  | zero => rfl
  | succ n ih =>
    have hnext : takeNext s = s := by
      unfold takeNext
      split
      · rename_i hp _ _; exact absurd hp h
      · rfl
    rw [takeMany, hnext, ih]

theorem beginSave_notRunning (cause : SaveCause) (s : State) : (beginSave cause s).phase ≠ .running := by
  rw [show (beginSave cause s).phase = .saving cause false from rfl]
  exact nofun

/-- A frame that waits alone is taken when the link becomes free. -/
theorem drain_single {s : State} {f : Frame} (hr : s.phase = .running) (hh : s.link.held = none)
    (hx : s.link.tx.length ≤ 4) (hq : s.link.rxQueue = [f]) (ho : s.link.online = true) :
    drain s = takeFrame f (s.setLink { s.link with rxQueue := [] }) := by
  unfold drain
  rw [hq]
  exact takeNext_head hr hh hx hq ho

/-- Settles O52: the three requests by their checks; the end of a reply by the phase and the frame that waits. -/
theorem controllerRequestsAndSending : Obligations.ControllerRequestsAndSending := by
  refine ⟨fun s tag hs => ⟨fun time => ⟨fun hback => ?_, fun hnew => ?_⟩,
    fun count => ⟨fun hout => ?_, fun h1 h2 => ?_⟩, fun hidle => ?_, fun hbusy => ?_⟩,
    fun s r rest htx => ⟨fun hr hnone => ?_, fun ftag kind body hr ho hh hx hq => ?_, fun hp hk hst => ?_⟩⟩
  · exact exec_refuses (r := .timeSet time) hs rfl tag (if_pos (beforeNewest_iff.mpr hback))
  · have hback : ¬beforeNewest time.toNat s.heard = true := fun h => by
      obtain ⟨n, hn, hlt⟩ := beforeNewest_iff.mp h
      exact absurd (hnew n hn) (by omega)
    refine exec_replies (r := .timeSet time) hs rfl tag ((if_neg hback).trans ?_)
    rw [restamp_eq]
    rfl
  · refine exec_refuses (r := .eventsRead count) hs rfl tag (if_pos ?_)
    rw [Bool.not_eq_true', ← Bool.not_eq_true, inRange_iff]
    omega
  · have hin : ¬(!inRange 1 32 count.toNat) = true := by
      rw [Bool.not_eq_true', ← Bool.not_eq_true, not_not, inRange_iff]
      exact ⟨h1, h2⟩
    refine exec_replies (r := .eventsRead count) hs rfl tag ((if_neg hin).trans ?_)
    dsimp only
    rw [isEmpty_drop_eq, List.length_drop]
    rfl
  · exact exec_replies (r := .restart) hs rfl tag (if_pos (all_idle_iff.mpr hidle))
  · refine exec_refuses (r := .restart) hs rfl tag (if_neg fun h => ?_)
    obtain ⟨h', hne⟩ := hbusy
    exact hne (all_idle_iff.mp h h')
  · refine congrArg Host.Outcome.next ((whenLive_running hr _).trans ?_)
    rw [takeReplySent_running hr htx]
    exact hnone.elim (fun h => drain_empty h) (fun h => drain_blocked (.inl h))
  · refine congrArg Host.Outcome.next ((whenLive_running hr _).trans ?_)
    rw [takeReplySent_running hr htx]
    exact drain_single (s := s.setLink { s.link with tx := rest }) hr hh hx hq ho
  · have hlive : exec .replySent s = .next (drain (takeReplySent s)) :=
      congrArg Host.Outcome.next (if_pos (by rw [hp]; rfl))
    rw [takeReplySent_restart hp htx hk hst, drain, takeMany_stopped _ (beginSave_notRunning _ _)] at hlive
    exact ⟨_, hlive, rfl⟩

end Sys2Proof.Machine


/-! PROOFS. Hour readings and completions of service: what a reading leaves of its vehicle whatever hose it is bound to,
then HOURS_SET and SERVICE_DONE, check by check. -/

namespace Sys2Proof.Machine

open Sys2Proof

/-! ### HOURS_SET (R133) -/

section
variable {s : State} {v : VehicleId} {index expected : BitVec 16} {hours : BitVec 32}

theorem takeHoursSet_unused (hi : index.toNat = v.val) (hu : (s.vehicle v).host.inUse = false) :
    takeHoursSet index hours expected s = refuse .noVehicle s := by
  simp only [takeHoursSet, vehicleOf_some hi, hu]
  rfl

theorem takeHoursSet_revision (hi : index.toNat = v.val) (hu : (s.vehicle v).host.inUse = true)
    (hr : (s.vehicle v).revision ≠ expected.toNat) : takeHoursSet index hours expected s = revisionRefusal v s := by
  simp only [takeHoursSet, vehicleOf_some hi, hu]
  exact if_pos hr

theorem takeHoursSet_taken (hi : index.toNat = v.val) (hu : (s.vehicle v).host.inUse = true)
    (hr : (s.vehicle v).revision = expected.toNat) {u : Usage} {revision : Nat}
    (hu' : { (s.vehicle v).usage with hours := some hours.toNat, meter := true, regress := false } = u)
    (hr' : ((s.vehicle v).revision + 1) % 65536 = revision) :
    takeHoursSet index hours expected s =
      (beginWrite (.hours v u revision)
        (recompute v (s.setVehicle v { s.vehicle v with usage := u, revision := revision })), .hold (.hoursSet v)) := by
  subst hu' hr'
  simp only [takeHoursSet, vehicleOf_some hi, hu]
  exact if_neg (not_not_intro hr)

end

theorem not_ready_of_unbound {s : State} {r : Vehicle} (hb : r.binding = none) (h : HoseId)
    (hh : r.binding = some h) : (s.hose h).state ≠ .ready := by
  rw [hb] at hh; cases hh

/-- What a recomputation of an unbound or not READY vehicle leaves of the rest of the part. -/
theorem recompute_setVehicle_frame {s : State} {v : VehicleId} (hw : s.vehiclesSound = true) {x : Vehicle}
    (hb : ∀ h, x.binding = some h → (s.hose h).state ≠ .ready) :
    (recompute v (s.setVehicle v x)).store = s.store ∧ (recompute v (s.setVehicle v x)).journal = s.journal
    ∧ (recompute v (s.setVehicle v x)).hoses = s.hoses ∧ (recompute v (s.setVehicle v x)).tanks = s.tanks
    ∧ (recompute v (s.setVehicle v x)).classes = s.classes := by
  obtain ⟨_, _, _, _, _, hframe⟩ := (recompute_quiet (s := s.setVehicle v x) (v := v) (State.setVehicle_sound hw)
    (by rw [State.setVehicle_vehicle_self hw]; exact hb)).frame
  rw [hframe]
  exact ⟨rfl, rfl, rfl, rfl, rfl⟩

/-- Settles O42: HOURS_SET by its two checks; an authorization's reading by the value last held. -/
theorem hourReadings : Obligations.HourReadings := by
  refine ⟨fun s v tag index expected hours hs hw hi => ⟨fun hu => ?_, fun hu hr => ?_, fun hu hr hb => ?_⟩,
    fun s v n hw hb => ?_⟩
  · exact exec_refuses (r := .hoursSet index hours expected) hs rfl tag (takeHoursSet_unused (s := s.heard) hi hu)
  · exact exec_replies (r := .hoursSet index hours expected) hs rfl tag (takeHoursSet_revision (s := s.heard) hi hu hr)
  · intro u revision r1
    have hready : ∀ h, r1.binding = some h → (s.hose h).state ≠ .ready := not_ready_of_unbound hb
    obtain ⟨hstore, hjournal, hhoses, _⟩ := recompute_setVehicle_frame (s := s.heard) (v := v) (x := r1) hw hready
    refine ⟨_, exec_holds (r := .hoursSet index hours expected) hs rfl tag
      (takeHoursSet_taken (s := s.heard) hi hu hr (u := u) (revision := revision) rfl rfl), ?_, fun x hx => ?_, ?_,
      hjournal, hhoses⟩
    · exact recompute_setVehicle_self (s := s.heard) (x := r1) hw hready
    · exact recompute_setVehicle_ne (s := s.heard) (x := r1) hw hready hx
    · exact congrArg (fun z : Store => { z with queue := z.queue ++ [StoreWrite.hours v u revision] }) hstore
  · intro r out
    have hready : ∀ h, r.binding = some h → (s.hose h).state ≠ .ready := not_ready_of_unbound hb
    have hself : out.1.vehicle v = _ := usageChange_vehicle_self hw (r.usage.read n).1 hready
    have husage : (out.1.vehicle v).usage = (r.usage.read n).1 := by rw [hself]
    refine ⟨?_, by rw [hself], by rw [hself], by rw [hself], ?_,
      fun x hx => usageChange_vehicle_ne hw (r.usage.read n).1 hready hx⟩
    · rw [husage]
      cases hl : r.usage.hours with
      | none =>
        have hread : r.usage.read n = _ := Usage.read_taken (n := n) (by simp [hl])
        exact ⟨congrArg Prod.snd hread, congrArg Prod.fst hread⟩
      | some last =>
        dsimp only
        split
        next hlt =>
          have hread := Usage.read_below hl hlt
          exact ⟨congrArg Prod.snd hread, congrArg Prod.fst hread⟩
        next hge =>
          have hread : r.usage.read n = _ := Usage.read_taken (n := n) (by
            intro l e; rw [hl] at e; cases e; exact Nat.not_lt.mp hge)
          exact ⟨congrArg Prod.snd hread, congrArg Prod.fst hread⟩
    · exact (Kept.calm_applyHours hw (some n) hready).hoses

/-! ### SERVICE_DONE (R145, R146) -/

section
variable {s : State} {v : VehicleId} {l : LineId} {line flags : Byte} {index expected : BitVec 16} {hours : BitVec 32}

theorem takeServiceDone_range
    (h : 512 ≤ index.toNat ∨ line.toNat = 0 ∨ 5 ≤ line.toNat ∨ flags &&& 0xFE#8 ≠ 0#8) :
    takeServiceDone index line flags hours expected s = refuse .range s := by
  have hbits : onlyBits 0x01#8 flags = decide (flags &&& 0xFE#8 = 0#8) := rfl
  unfold takeServiceDone
  split
  next v l hv hl =>
    have hl1 : line.toNat ≠ 0 ∧ line.toNat ≤ 4 := by
      unfold lineOf at hl
      split at hl
      · cases hl
      · next h0 =>
        refine ⟨h0, ?_⟩
        by_contra hn
        rw [finOf_none (by omega)] at hl
        cases hl
    rcases h with h | h | h | h
    · rw [vehicleOf_none h] at hv; cases hv
    · exact absurd h hl1.1
    · exact absurd hl1.2 (by omega)
    · rw [hbits, decide_eq_false h]; rfl
  next => rfl

/-- SERVICE_DONE with its operands in range: its four checks in their order. -/
theorem takeServiceDone_checks (hi : index.toNat = v.val) (hl : line.toNat = l.val + 1) (hf : flags &&& 0xFE#8 = 0#8) :
    takeServiceDone index line flags hours expected s =
      if !(s.vehicle v).host.inUse then refuse .noVehicle s
      else if (s.vehicle v).revision ≠ expected.toNat then revisionRefusal v s
      else if (s.vehicle v).servicePending then refuse .state s
      else if !s.journal.requestTest then refuse .journalFull s
      else (acceptDone v l (optional (flags.getLsbD 0) hours.toNat) s, .hold (.serviceDone v none)) := by
  have hbits : onlyBits 0x01#8 flags = true := decide_eq_true hf
  simp only [takeServiceDone, vehicleOf_some hi, lineOf_some hl, hbits]
  rfl

end

/-- What a completion's reading makes of the usage part, and whether it is a regression. -/
def Usage.readOptional (u : Usage) (reading : Option Nat) : Usage × Bool :=
  match reading with
  | some n => u.read n
  | none => (u, false)

section
variable {s : State} {v : VehicleId} {reading : Option Nat}

/-- A completion's reading changes its vehicle's usage part; a release that its status brings changes the binding. -/
theorem applyDoneReading_vehicle (hw : s.vehiclesSound = true) :
    ∃ st b w, (applyDoneReading v reading s).1.vehicle v =
      { s.vehicle v with
        usage := ((s.vehicle v).usage.readOptional reading).1, status := st, binding := b, usageWrite := w } := by
  cases reading with
  | none => exact ⟨_, _, _, rfl⟩
  | some n =>
    have hr := recompute_restatused v (State.setVehicle_sound (v := v)
      (r := { s.vehicle v with usage := ((s.vehicle v).usage.read n).1 }) hw)
    obtain ⟨st, b, e⟩ := hr.each v
    rw [State.setVehicle_vehicle_self hw] at e
    have hfst : (applyDoneReading v (some n) s).1 = beginUsageWrite v (recompute v (s.setVehicle v
        { s.vehicle v with usage := ((s.vehicle v).usage.read n).1 })) := rfl
    generalize recompute v (s.setVehicle v { s.vehicle v with usage := ((s.vehicle v).usage.read n).1 }) = u
      at hr e hfst
    rw [hfst, beginUsageWrite_vehicle_self hr.sound, e]
    exact ⟨_, _, _, rfl⟩

theorem applyDoneReading_regress :
    (applyDoneReading v reading s).2 = ((s.vehicle v).usage.readOptional reading).2 := by
  cases reading <;> rfl

/-- A reading of a vehicle whose hose is not in READY leaves the rest of the part, and its vehicle's binding. -/
theorem applyDoneReading_calm (hw : s.vehiclesSound = true)
    (hb : ∀ h, (s.vehicle v).binding = some h → (s.hose h).state ≠ .ready) :
    Kept.Calm s (applyDoneReading v reading s).1 := by
  cases reading with
  | none => exact Kept.Calm.refl s
  | some n => exact Kept.calm_applyHours hw (some n) hb

theorem applyDoneReading_others (hw : s.vehiclesSound = true)
    (hb : ∀ h, (s.vehicle v).binding = some h → (s.hose h).state ≠ .ready) {x : VehicleId} (hx : x ≠ v) :
    (applyDoneReading v reading s).1.vehicle x = s.vehicle x := by
  cases reading with
  | none => rfl
  | some n => exact usageChange_vehicle_ne hw _ hb hx

theorem applyDoneReading_classes (hw : s.vehiclesSound = true)
    (hb : ∀ h, (s.vehicle v).binding = some h → (s.hose h).state ≠ .ready) :
    (applyDoneReading v reading s).1.classes = s.classes := by
  cases reading with
  | none => rfl
  | some n =>
    obtain ⟨_, _, _, _, hclasses⟩ :=
      recompute_setVehicle_frame (v := v) (x := { s.vehicle v with usage := ((s.vehicle v).usage.read n).1 }) hw hb
    show (beginUsageWrite v _).classes = _
    rw [← hclasses]
    unfold beginUsageWrite
    dsimp only
    split <;> rfl

end

/-- A reading is a regression when it is below the last one (R131). -/
theorem Usage.readOptional_snd (u : Usage) (reading : Option Nat) : (u.readOptional reading).2 =
    match reading, u.hours with
    | some n, some last => decide (n < last)
    | _, _ => false := by
  cases reading with
  | none => rfl
  | some n =>
    cases hl : u.hours with
    | none => exact congrArg Prod.snd (Usage.read_taken (by simp [hl]))
    | some last =>
      by_cases hlt : n < last
      · exact (congrArg Prod.snd (Usage.read_below hl hlt)).trans (decide_eq_true hlt).symm
      · exact (congrArg Prod.snd (Usage.read_taken fun k e => by rw [hl] at e; cases e; exact Nat.not_lt.mp hlt)).trans
          (decide_eq_false hlt).symm

theorem Usage.readOptional_fst (u : Usage) (reading : Option Nat) : (u.readOptional reading).1 =
    match reading with
    | none => u
    | some n =>
      if (u.readOptional reading).2 then { u with regress := true }
      else { u with hours := some n, meter := true, regress := false } := by
  cases reading with
  | none => rfl
  | some n =>
    by_cases hlt : ∃ last, u.hours = some last ∧ n < last
    · obtain ⟨last, hl, hlt⟩ := hlt
      have hread : u.readOptional (some n) = _ := Usage.read_below hl hlt
      rw [hread]
      rfl
    · have hread : u.readOptional (some n) = _ := Usage.read_taken fun last hl =>
        Nat.not_lt.mp fun h => hlt ⟨last, hl, h⟩
      rw [hread]
      rfl

theorem Usage.readOptional_fuel (u : Usage) (reading : Option Nat) : (u.readOptional reading).1.fuel = u.fuel := by
  rw [Usage.readOptional_fst]
  split
  next => rfl
  next => split <;> rfl

theorem advanceRevision_eq (r : Nat) : advanceRevision r = (r + 1) % 65536 := rfl

/-- A completion's record joins the queue with its reservation, and the vehicle's completion is pending (R146). -/
def State.doneRecorded (s : State) (v : VehicleId) (rec : ServiceRecord) : State :=
  (s.setJournal { s.journal with
      reservations := s.journal.reservations + 1
      queue := s.journal.queue ++ [{ record := .service rec, stamp := none }] }).setVehicle v
    { s.vehicle v with servicePending := true }

theorem doneRecorded_eq (s : State) (v : VehicleId) (rec : ServiceRecord) :
    (joinQueue (.service rec) (takeReservation s)).setVehicle v
      { (joinQueue (.service rec) (takeReservation s)).vehicle v with servicePending := true } = s.doneRecorded v rec :=
  rfl

/-- An accepted completion, from what it reads: the marks and the record are those of the vehicle before it, the reading
and the status recomputed (R146). -/
theorem acceptDone_eq {s : State} {v : VehicleId} (l : LineId) (reading : Option Nat) (hw : s.vehiclesSound = true) :
    let r := s.vehicle v
    let marked := reading.or r.usage.hours
    let m := markLines l { hours := marked, fuel := r.usage.fuel } r.marks
    let revision := (r.revision + 1) % 65536
    let s1 := (applyDoneReading v reading s).1
    let s2 := recompute v (s1.setVehicle v { s1.vehicle v with marks := m, revision := revision })
    acceptDone v l reading s = s2.doneRecorded v
      { vehicle := v, tag := r.host.tag, fleet := r.host.fleet, line := l, hours := reading
        markHours := marked, fuel := r.usage.fuel, statusBefore := r.status
        worstBefore := s.worstOf v, statusAfter := (s2.vehicle v).status
        regress := (r.usage.readOptional reading).2, revision := revision } := by
  intro r marked m revision s1 s2
  obtain ⟨st, b, w, hv⟩ := applyDoneReading_vehicle (reading := reading) (v := v) hw
  have hrev : (s1.vehicle v).revision = r.revision := by rw [hv]
  have hmarks : (s1.vehicle v).marks = r.marks := by rw [hv]
  have hfuel : (s1.vehicle v).usage.fuel = r.usage.fuel := by
    rw [hv]
    exact Usage.readOptional_fuel _ _
  have hhours : reading.or (s1.vehicle v).usage.hours = marked := by
    cases reading <;> rfl
  have hm : markLines l { hours := reading.or (s1.vehicle v).usage.hours, fuel := (s1.vehicle v).usage.fuel }
      (s1.vehicle v).marks = m := by rw [hhours, hfuel, hmarks]
  simp only [acceptDone, applyDoneReading_regress]
  rw [show (applyDoneReading v reading s).1 = s1 from rfl, hm, hhours, hfuel, hrev, advanceRevision_eq]
  exact doneRecorded_eq _ v _

/-- A completion on a vehicle whose hose is not in READY changes the vehicle, the journal and the due list alone. -/
theorem doneRecorded_quiet {s s1 : State} {v : VehicleId} {x : Vehicle} (rec : ServiceRecord)
    (hw : s1.vehiclesSound = true) (hcalm : Kept.Calm s s1) (hclasses : s1.classes = s.classes)
    (hothers : ∀ y, y ≠ v → s1.vehicle y = s.vehicle y)
    (hb : ∀ h, x.binding = some h → (s1.hose h).state ≠ .ready) :
    let t := (recompute v (s1.setVehicle v x)).doneRecorded v rec
    t.vehicle v = { x with status := statusOf (s.classOf x.host.cls) x, servicePending := true }
    ∧ t.journal = { s.journal with
        reservations := s.journal.reservations + 1
        queue := s.journal.queue ++ [{ record := .service rec, stamp := none }] }
    ∧ t.hoses = s.hoses ∧ t.tanks = s.tanks ∧ ∀ y, y ≠ v → t.vehicle y = s.vehicle y := by
  obtain ⟨_, hjournal, hhoses, htanks, _⟩ := recompute_setVehicle_frame (v := v) hw hb
  have hself := recompute_setVehicle_self (v := v) hw hb
  have hne := fun y hy => recompute_setVehicle_ne (v := v) hw hb (u := y) hy
  have hclass : s1.classOf x.host.cls = s.classOf x.host.cls := congrArg (fun cs => cs.get x.host.cls) hclasses
  have hsound := (recompute_quiet (s := s1.setVehicle v x) (v := v) (State.setVehicle_sound hw)
    (by rw [State.setVehicle_vehicle_self hw]; exact hb)).sound
  generalize recompute v (s1.setVehicle v x) = s2 at *
  refine ⟨?_, ?_, hhoses.trans hcalm.hoses, htanks.trans hcalm.tanks, fun y hy => ?_⟩
  · have hset : (s2.doneRecorded v rec).vehicle v = { s2.vehicle v with servicePending := true } :=
      State.setVehicle_vehicle_self hsound
    rw [hset, hself, hclass]
  · rw [← hcalm.journal, ← hjournal]
    rfl
  · exact (State.setVehicle_vehicle_ne hy).trans ((hne y hy).trans (hothers y hy))

theorem markLines_get (l : LineId) (m : Mark) (marks : Vector Mark 4) (n : LineId) :
    (markLines l m marks).get n = if n.val ≤ l.val then m else marks.get n := by
  unfold markLines
  rw [tabulate_get]
  rfl

/-- Settles O44: the checks one after the other; an accepted completion from what it reads, and its effect on a vehicle
whose hose is not in READY. -/
theorem serviceDoneMarksLines : Obligations.ServiceDoneMarksLines := by
  refine ⟨fun s tag line flags index expected hours hs hbad => ?_,
    fun s v l tag line flags index expected hours hs hw hi hl hf => ?_⟩
  · exact exec_refuses (r := .serviceDone index line flags hours expected) hs rfl tag (takeServiceDone_range hbad)
  intro r cmd
  have hchecks := takeServiceDone_checks (s := s.heard) (hours := hours) (expected := expected) hi hl hf
  refine ⟨fun hu => ?_, fun hu => ⟨fun hr => ?_, fun hr => ⟨fun hp => ?_, fun hp hj => ?_, fun hp hj1 hj2 => ?_⟩⟩⟩
  · exact exec_refuses (r := .serviceDone index line flags hours expected) hs rfl tag
      (hchecks.trans (if_pos (by rw [show (s.heard.vehicle v).host.inUse = false from hu]; rfl)))
  all_goals
    have hused : ¬(!(s.heard.vehicle v).host.inUse) = true := by
      rw [show (s.heard.vehicle v).host.inUse = true from hu]; exact Bool.false_ne_true
    replace hchecks := hchecks.trans (if_neg hused)
  · exact exec_replies (r := .serviceDone index line flags hours expected) hs rfl tag (hchecks.trans (if_pos hr))
  all_goals replace hchecks := hchecks.trans (if_neg (not_not_intro hr))
  · exact exec_refuses (r := .serviceDone index line flags hours expected) hs rfl tag (hchecks.trans (if_pos hp))
  all_goals replace hchecks := hchecks.trans (if_neg (Bool.eq_false_iff.mp hp))
  · exact exec_refuses (r := .serviceDone index line flags hours expected) hs rfl tag
      (hchecks.trans (if_pos (congrArg not (Journal.requestTest_fail hj))))
  replace hchecks := hchecks.trans (if_neg (by
    rw [show s.heard.journal.requestTest = true from Journal.requestTest_pass hj1 hj2]; exact Bool.false_ne_true))
  intro c reading marked revision regress usage s1
  have hmarked : reading.or r.usage.hours = marked := by
    show _ = match reading with | some n => some n | none => r.usage.hours
    cases reading <;> rfl
  have hregress : (r.usage.readOptional reading).2 = regress := Usage.readOptional_snd _ _
  have husage := Usage.readOptional_fst r.usage reading
  rw [hregress] at husage
  replace husage : (r.usage.readOptional reading).1 = usage := husage
  have hs1 : (applyDoneReading v reading s.heard).1 = s1 := by
    show _ = match reading with | some n => (applyReading v n s.heard).1 | none => s.heard
    cases reading <;> rfl
  have haccept := acceptDone_eq (s := s.heard) (v := v) l reading hw
  dsimp only at haccept
  rw [hs1, show (s.heard.vehicle v) = r from rfl, hmarked, hregress] at haccept
  refine ⟨markLines l { hours := marked, fuel := r.usage.fuel } r.marks,
    { vehicle := v, tag := r.host.tag, fleet := r.host.fleet, line := l, hours := reading
      markHours := marked, fuel := r.usage.fuel, statusBefore := r.status
      worstBefore := s.heard.worstOf v
      statusAfter := ((recompute v (s1.setVehicle v { s1.vehicle v with
        marks := markLines l { hours := marked, fuel := r.usage.fuel } r.marks, revision := revision })).vehicle v).status
      regress := regress, revision := revision }, ?_⟩
  intro s2 t
  refine ⟨exec_holds (r := .serviceDone index line flags hours expected) hs rfl tag
    (hchecks.trans (congrArg (·, Answer.hold _) haccept)), markLines_get _ _ _, rfl, worstOf_iff s.heard v,
    fun hready => ?_⟩
  intro r2
  have hcalm : Kept.Calm s.heard s1 := hs1 ▸ applyDoneReading_calm (s := s.heard) hw hready
  have hclasses : s1.classes = s.heard.classes := hs1 ▸ applyDoneReading_classes (s := s.heard) hw hready
  have hothers : ∀ y, y ≠ v → s1.vehicle y = s.heard.vehicle y := fun y hy =>
    hs1 ▸ applyDoneReading_others (s := s.heard) hw hready hy
  have hbinding : (s1.vehicle v).binding = r.binding := hcalm.bindings hw v
  obtain ⟨st, b, w, hv⟩ := applyDoneReading_vehicle (s := s.heard) (v := v) (reading := reading) hw
  rw [hs1, show (s.heard.vehicle v) = r from rfl, husage] at hv
  have hb : b = r.binding := (congrArg Vehicle.binding hv).symm.trans hbinding
  subst hb
  obtain ⟨hself, hrest⟩ := doneRecorded_quiet (s := s.heard) (v := v)
    (x := { s1.vehicle v with
      marks := markLines l { hours := marked, fuel := r.usage.fuel } r.marks, revision := revision })
    { vehicle := v, tag := r.host.tag, fleet := r.host.fleet, line := l, hours := reading
      markHours := marked, fuel := r.usage.fuel, statusBefore := r.status
      worstBefore := s.heard.worstOf v, statusAfter := (s2.vehicle v).status
      regress := regress, revision := revision } (hcalm.sound hw) hcalm hclasses hothers
    (fun h hh => by
      rw [show s1.hose h = s.hose h from congrArg (fun hs => hs.get h) hcalm.hoses]
      exact hready h (hbinding.symm.trans hh))
  refine ⟨?_, hrest⟩
  have hwrite := congrArg Vehicle.usageWrite hself
  refine hself.trans ?_
  rw [show (t.vehicle v).usageWrite = _ from hwrite, hv]
  rfl

end Sys2Proof.Machine


/-! PROOFS. The vehicle register: who holds a tag, what the placing of a host part leaves, VEHICLE_PUT, the load session
and CLASS_SET with its sweep. -/

namespace Sys2Proof.Machine

open Sys2Proof

/-! ### The holder of a tag (R112) -/

section
variable {s : State} {v : VehicleId} {p : HostPart}

theorem HostPart.clashes_iff (p : HostPart) (r : Vehicle) : p.Clashes r.host ↔
    (p.inUse && p.enabled && decide (p.tag ≠ 0)) = true ∧ r.carries p.tag = true := by
  simp [HostPart.Clashes, Vehicle.carries, and_assoc]

theorem tagHolder_unique (hw : s.vehiclesSound = true) (h : ∀ x : VehicleId, x ≠ v → ¬p.Clashes (s.vehicle x).host) :
    tagHolder v p s = none := by
  by_cases hc : (p.inUse && p.enabled && decide (p.tag ≠ 0)) = true
  · exact tagHolder_none hw fun x hx => .inr (Bool.eq_false_iff.mpr fun hcar =>
      h x hx ((p.clashes_iff _).mpr ⟨hc, hcar⟩))
  · exact if_neg hc

theorem tagHolder_only (hw : s.vehiclesSound = true) {x : VehicleId} (hx : x ≠ v) (hc : p.Clashes (s.vehicle x).host)
    (honly : ∀ y : VehicleId, y ≠ v → p.Clashes (s.vehicle y).host → y = x) : tagHolder v p s = some x := by
  obtain ⟨hp, hcar⟩ := (p.clashes_iff _).mp hc
  unfold tagHolder
  rw [if_pos hp]
  cases hf : s.listedVehicles.find? fun e => decide (e.1 ≠ v) && e.2.carries p.tag with
  | none =>
    rw [List.find?_eq_none] at hf
    exact absurd (by simp [hx, hcar]) (hf _ (listed_of_carries hw hcar))
  | some e =>
    obtain ⟨y, r⟩ := e
    have hfound := List.find?_some hf
    obtain ⟨rfl, _⟩ := (State.mem_listedVehicles hw y r).mp (List.mem_of_find?_eq_some hf)
    simp only [Bool.and_eq_true, decide_eq_true_eq] at hfound
    exact congrArg some (honly y hfound.1 ((p.clashes_iff _).mpr ⟨hp, hfound.2⟩))

end

/-! ### The placing of a host part (R119, R121) -/

theorem Vehicle.placed_eq (r : Vehicle) (p : HostPart) : r.placed p = r.withHost p := by
  unfold Vehicle.placed setsUsage Vehicle.withHost
  cases r.host.inUse <;> cases p.inUse <;> rfl

theorem placedOf_eq (v : VehicleId) (r : Vehicle) (p : HostPart) : placedOf v r p =
    { vehicle := v, host := p, revision := (r.revision + 1) % 65536, fresh := !(r.host.inUse && p.inUse) } := by
  unfold placedOf setsUsage
  rw [Bool.not_and]
  rfl

theorem placeRecord_eq (v : VehicleId) (p : HostPart) (s : State) :
    placeRecord v p s = recompute v (s.setVehicle v ((s.vehicle v).withHost p)) := by
  unfold placeRecord
  rw [Vehicle.placed_eq]

/-- A host part that keeps a record in use and in its class keeps what its status is computed from (R136). -/
theorem statusOf_withHost {r : Vehicle} {p : HostPart} (c : ClassRecord) (hr : r.host.inUse = true)
    (hp : p.inUse = true) : statusOf c (r.withHost p) = statusOf c r := by
  unfold statusOf Vehicle.withHost
  simp [hr, hp]

/-! ### VEHICLE_PUT (R118, R119) -/

/-- The host part that a request inside check 1 spells (R118). -/
theorem hostPartOf_spelt {w : WireHostPart} {c : ClassId} (hin : w.flags.getLsbD 0 = true → w.Inside)
    (hc : w.flags.getLsbD 0 = true → w.cls.toNat = c.val) : hostPartOf w = some
      (if w.flags.getLsbD 0 then
        { inUse := true, tag := w.tag, fleet := w.fleet, cls := c, products := w.products.setWidth 4,
          enabled := w.flags.getLsbD 1, hostLocked := w.flags.getLsbD 2, standalonePermit := w.flags.getLsbD 3 }
      else HostPart.unused) := by
  by_cases hu : w.flags.getLsbD 0 = true
  · rw [if_pos hu]
    exact hostPartOf_inside hu (hin hu) (classOf_some (hc hu))
  · rw [if_neg hu]
    exact hostPartOf_removal (Bool.eq_false_iff.mpr hu)

section
variable {s : State} {v : VehicleId} {p : HostPart} {index expected : BitVec 16} {w : WireHostPart}

theorem takeVehiclePut_range (hp : hostPartOf w = none) : takeVehiclePut index w expected s = refuse .range s := by
  unfold takeVehiclePut
  rw [hp]
  cases vehicleOf index <;> rfl

theorem takeVehiclePut_revision (hi : index.toNat = v.val) (hp : hostPartOf w = some p)
    (hr : (s.vehicle v).revision ≠ expected.toNat) : takeVehiclePut index w expected s = revisionRefusal v s := by
  simp only [takeVehiclePut, vehicleOf_some hi, hp]
  exact if_pos hr

/-- An unbound vehicle's record is placed unless another holds its tag. -/
theorem takeVehiclePut_unbound (hi : index.toNat = v.val) (hp : hostPartOf w = some p)
    (hr : (s.vehicle v).revision = expected.toNat) (hb : (s.vehicle v).binding = none) :
    takeVehiclePut index w expected s =
      match tagHolder v p s with
      | some x => (s, .reply .dupTag (.dupTag x))
      | none => (acceptPut v p s, .hold (.vehiclePut v)) := by
  simp only [takeVehiclePut, vehicleOf_some hi, hp, hb]
  rw [if_neg (not_not_intro hr)]
  cases tagHolder v p s <;> rfl

/-- A bound vehicle's record keeps its in-use, tag and class, and is placed unless another holds its tag. -/
theorem takeVehiclePut_bound {h : HoseId} (hi : index.toNat = v.val) (hp : hostPartOf w = some p)
    (hr : (s.vehicle v).revision = expected.toNat) (hb : (s.vehicle v).binding = some h) :
    takeVehiclePut index w expected s =
      if !keepsIdentity (s.vehicle v).host p then (s, .reply .bound (.boundTo h))
      else match tagHolder v p s with
        | some x => (s, .reply .dupTag (.dupTag x))
        | none => (acceptPut v p s, .hold (.vehiclePut v)) := by
  simp only [takeVehiclePut, vehicleOf_some hi, hp, hb]
  exact if_neg (not_not_intro hr)

theorem keepsIdentity_iff {old new : HostPart} : keepsIdentity old new = true ↔
    new.inUse = true ∧ old.inUse = true ∧ new.tag = old.tag ∧ new.cls = old.cls := by
  simp only [keepsIdentity, Bool.and_eq_true, decide_eq_true_eq, and_assoc, and_left_comm]

/-- A lock does not reach a vehicle that no hose is bound to. -/
theorem lockWithdraws_unbound (hb : (s.vehicle v).binding = none) : lockWithdraws v p s = s := by
  simp only [lockWithdraws, hb]

theorem lockWithdraws_bound {h : HoseId} (hb : (s.vehicle v).binding = some h) :
    lockWithdraws v p s = if p.hostLocked then withdrawIfReady h s else s := by
  simp only [lockWithdraws, hb]

/-- An unbound record placed: its host part, its usage part, and the status computed from them. -/
theorem placeRecord_unbound (hw : s.vehiclesSound = true) (hb : (s.vehicle v).binding = none) :
    (placeRecord v p s).vehicle v =
        { (s.vehicle v).withHost p with status := statusOf (s.classOf p.cls) ((s.vehicle v).withHost p) }
      ∧ (∀ x, x ≠ v → (placeRecord v p s).vehicle x = s.vehicle x) := by
  have hready : ∀ h, ((s.vehicle v).withHost p).binding = some h → (s.hose h).state ≠ .ready := not_ready_of_unbound hb
  rw [placeRecord_eq]
  exact ⟨recompute_setVehicle_self hw hready, fun x hx => recompute_setVehicle_ne hw hready hx⟩

/-- What the placing of an unbound record leaves of the rest of the part. -/
theorem placeRecord_frame (hw : s.vehiclesSound = true) (hb : (s.vehicle v).binding = none) :
    (placeRecord v p s).vehiclesSound = true ∧ ∃ vs dl dr ev att, placeRecord v p s =
      { s with
        vehicles := vs, dueList := dl, dueRevision := dr, link := { s.link with events := ev, attention := att } } := by
  have hready : ∀ h, ((s.vehicle v).withHost p).binding = some h → (s.hose h).state ≠ .ready := not_ready_of_unbound hb
  have hq := recompute_quiet (s := s.setVehicle v ((s.vehicle v).withHost p)) (v := v) (State.setVehicle_sound hw)
    (by rw [State.setVehicle_vehicle_self hw]; exact hready)
  obtain ⟨vs, dl, dr, ev, att, hframe⟩ := hq.frame
  rw [placeRecord_eq]
  exact ⟨hq.sound, vs, dl, dr, ev, att, hframe⟩

/-- A record placed on a bound vehicle whose status was that of its values: the record alone changes. -/
theorem placeRecord_bound (hw : s.vehiclesSound = true) (hk : keepsIdentity (s.vehicle v).host p = true)
    (hst : (s.vehicle v).status = statusOf (s.classOf (s.vehicle v).host.cls) (s.vehicle v)) :
    placeRecord v p s = s.setVehicle v ((s.vehicle v).withHost p) := by
  obtain ⟨hp, hr, _, hc⟩ := keepsIdentity_iff.mp hk
  rw [placeRecord_eq]
  refine recompute_unchanged ?_
  rw [State.setVehicle_vehicle_self hw]
  show statusOf (s.classOf p.cls) _ = (s.vehicle v).status
  rw [statusOf_withHost _ hr hp, hc, hst]

end

/-- Settles O40: the checks in their order; an unbound vehicle by the placing of its record, a bound one by what its
hose's state and a lock make of it. -/
theorem vehiclePutPlaces : Obligations.VehiclePutPlaces := by
  intro s v tag index expected w hs hw hi r cmd used inside
  have inside_of : inside → used = true → w.Inside := fun h hu => by
    obtain ⟨h1, h2, h3, h4⟩ := h hu
    exact ⟨h1, h2, h3, h4⟩
  refine ⟨fun hout => ?_, fun hin hr => ?_, fun c hin hc hr => ?_⟩
  · have hu : used = true := by by_contra hu; exact hout fun h => absurd h hu
    exact exec_refuses (r := .vehiclePut index w expected) hs rfl tag
      (takeVehiclePut_range (hostPartOf_outside hu fun h => hout fun _ => ⟨h.cls, h.products, h.flags, h.fleet⟩))
  · obtain ⟨p, hp⟩ : ∃ p, hostPartOf w = some p := by
      by_cases hu : used = true
      · exact ⟨_, hostPartOf_inside hu (inside_of hin hu)
          (classOf_some (c := ⟨w.cls.toNat, Nat.lt_succ_of_le (inside_of hin hu).cls⟩) rfl)⟩
      · exact ⟨_, hostPartOf_removal (Bool.eq_false_iff.mpr hu)⟩
    exact exec_replies (r := .vehiclePut index w expected) hs rfl tag (takeVehiclePut_revision (s := s.heard) hi hp hr)
  intro p keep u m r1 placed stored unique holder same
  have hp : hostPartOf w = some p := hostPartOf_spelt (inside_of hin) hc
  have hr1 : r.withHost p = r1 := rfl
  have hplaced : placedOf v r p = placed := by
    rw [placedOf_eq]
    have : decide keep = (r.host.inUse && p.inUse) := by simp [keep]
    show _ = ({ vehicle := v, host := p, revision := _, fresh := !decide keep } : PlacedRecord)
    rw [this]
  have hdup : ∀ x, holder x → tagHolder v p s.heard = some x := fun x ⟨hx, hclash, honly⟩ =>
    tagHolder_only (s := s.heard) hw hx hclash honly
  have hfree : unique → tagHolder v p s.heard = none := fun h => tagHolder_unique (s := s.heard) hw h
  refine ⟨fun hb => ?_, fun h hb => ?_⟩
  · have hput := takeVehiclePut_unbound (s := s.heard) hi hp hr hb
    refine ⟨fun x hx => ?_, fun hun => ?_⟩
    · rw [hdup x hx] at hput
      exact exec_replies (r := .vehiclePut index w expected) hs rfl tag hput
    · rw [hfree hun] at hput
      obtain ⟨hself, hothers⟩ := placeRecord_unbound (s := s.heard) (p := p) hw hb
      obtain ⟨_, _, _, _, _, _, hframe⟩ := placeRecord_frame (s := s.heard) (p := p) hw hb
      have hstore : (placeRecord v p s.heard).store = s.store := (congrArg State.store hframe).trans rfl
      have hhoses : (placeRecord v p s.heard).hoses = s.hoses := (congrArg State.hoses hframe).trans rfl
      have hlock : lockWithdraws v p (placeRecord v p s.heard) = placeRecord v p s.heard :=
        lockWithdraws_unbound (by rw [hself]; exact hb)
      have haccept : acceptPut v p s.heard = beginWrite (.vehicles [placed]) (placeRecord v p s.heard) := by
        rw [← hplaced, ← hlock]
        rfl
      rw [haccept] at hput
      exact ⟨_, exec_holds (r := .vehiclePut index w expected) hs rfl tag hput, hself, hothers,
        congrArg (fun z : Store => z.queue ++ [StoreWrite.vehicles [placed]]) hstore, hhoses⟩
  · have hput := takeVehiclePut_bound (s := s.heard) hi hp hr hb
    refine ⟨fun hns => ?_, fun hsame => ⟨fun x hx => ?_, fun hun hst => ?_⟩⟩
    · refine exec_replies (r := .vehiclePut index w expected) hs rfl tag (hput.trans (if_pos ?_))
      rw [Bool.not_eq_true', Bool.eq_false_iff]
      exact mt keepsIdentity_iff.mp hns
    all_goals
      have hk : keepsIdentity (s.heard.vehicle v).host p = true := keepsIdentity_iff.mpr hsame
      replace hput := hput.trans (if_neg (by rw [hk]; exact Bool.false_ne_true))
    · rw [hdup x hx] at hput
      exact exec_replies (r := .vehiclePut index w expected) hs rfl tag hput
    rw [hfree hun] at hput
    have hset : placeRecord v p s.heard = s.heard.setVehicle v r1 := placeRecord_bound (s := s.heard) hw hk hst
    have hbound : ((s.heard.setVehicle v r1).vehicle v).binding = some h := by
      rw [State.setVehicle_vehicle_self (s := s.heard) hw]
      exact hb
    have haccept : acceptPut v p s.heard = beginWrite (.vehicles [placed])
        (if p.hostLocked then withdrawIfReady h (s.heard.setVehicle v r1) else s.heard.setVehicle v r1) := by
      rw [← hplaced, ← lockWithdraws_bound hbound, ← hset]
      rfl
    rw [haccept] at hput
    refine ⟨fun hquiet => ?_, fun g hready hlock hg hgv hgj => ?_⟩
    · have hid : (if p.hostLocked then withdrawIfReady h (s.heard.setVehicle v r1) else s.heard.setVehicle v r1) =
          s.heard.setVehicle v r1 := by
        rcases hquiet with hq | hq
        · rw [show withdrawIfReady h (s.heard.setVehicle v r1) = _ from if_neg hq, ite_self]
        · rw [hq]; rfl
      rw [hid] at hput
      exact exec_holds (r := .vehiclePut index w expected) hs rfl tag hput
    · rw [if_pos hlock] at hput
      have hrel := withdrawIfReady_released (s := s.heard.setVehicle v r1) (State.setVehicle_sound hw) hready hg hgj
      have hstore : (withdrawIfReady h (s.heard.setVehicle v r1)).store = s.store :=
        (congrArg State.store hrel.frame).trans rfl
      refine ⟨_, (exec_holds (r := .vehiclePut index w expected) hs rfl tag hput).trans ?_, hrel⟩
      unfold beginWrite
      rw [hstore]
      rfl

end Sys2Proof.Machine


/-! PROOFS. CLASS_SET with its sweep, and the load session. -/

namespace Sys2Proof.Machine

open Sys2Proof

/-! ### What a change of status leaves of the link (R137) -/

/-- The link but for its events and the attention line that follows them. -/
def linkWork (s : State) : Link := { s.link with events := [], attention := false }

theorem linkWork_endReservation (s : State) : linkWork (endReservation s) = linkWork s := by
  obtain ⟨_, _, _, e⟩ := recoverTest_frame (s.setJournal { s.journal with reservations := s.journal.reservations - 1 })
  unfold endReservation
  rw [e]
  rfl

theorem linkWork_releaseGrant (h : HoseId) (d : Detail) (s : State) : linkWork (releaseGrant h d s) = linkWork s := by
  unfold releaseGrant
  split
  · rfl
  · next g _ =>
    show linkWork (if g.journalRes then endReservation (takeOffReserved g.tank g.tankRes s)
      else takeOffReserved g.tank g.tankRes s) = _
    split
    · exact linkWork_endReservation _
    · rfl

theorem linkWork_takeStatusReport (h : HoseId) (c : ClassRecord) (new : ServiceStatus) (s : State) :
    linkWork (takeStatusReport h c new s) = linkWork s := by
  unfold takeStatusReport
  split
  · split
    · split
      · rfl
      · exact linkWork_releaseGrant _ _ _
    · unfold reviseLimit
      split
      · rfl
      · split
        · rfl
        · split
          · exact linkWork_releaseGrant _ _ _
          · rfl
    · rfl
  · rfl

theorem linkWork_recompute (v : VehicleId) (s : State) : linkWork (recompute v s) = linkWork s := by
  have hdue : ∀ old new t, linkWork (updateDueList v old new t) = linkWork t := fun old new t => by
    obtain ⟨_, _, _, _, e⟩ := updateDueList_frame v old new t
    rw [e]
    rfl
  unfold recompute
  dsimp only
  split
  · rfl
  · split
    · exact hdue _ _ _
    · exact (linkWork_takeStatusReport _ _ _ _).trans (hdue _ _ _)

theorem recompute_held (v : VehicleId) (s : State) : (recompute v s).link.held = s.link.held :=
  (congrArg Link.held (linkWork_recompute v s) :)

theorem recompute_rxQueue (v : VehicleId) (s : State) : (recompute v s).link.rxQueue = s.link.rxQueue :=
  (congrArg Link.rxQueue (linkWork_recompute v s) :)

/-! ### The sweep (R140) -/

/-- The first member of a list in rising order that a condition finds is the least one that meets it. -/
theorem find?_eq_some_iff_least {α : Type} {f : α → Nat} {p : α → Bool} {a : α} {l : List α}
    (hl : l.Pairwise fun x y => f x < f y) :
    l.find? p = some a ↔ a ∈ l ∧ p a = true ∧ ∀ b ∈ l, f b < f a → p b = false := by
  induction l with
  | nil => simp
  | cons x l ih =>
    obtain ⟨hx, hl⟩ := List.pairwise_cons.mp hl
    by_cases hp : p x = true
    · rw [List.find?_cons_of_pos hp]
      constructor
      · rintro ⟨⟩
        refine ⟨List.mem_cons_self, hp, fun b hb hlt => ?_⟩
        rcases List.mem_cons.mp hb with rfl | hb
        · exact absurd hlt (Nat.lt_irrefl _)
        · exact absurd (hx b hb) (by omega)
      · rintro ⟨ha, _, hleast⟩
        rcases List.mem_cons.mp ha with rfl | ha
        · rfl
        · exact absurd hp (by rw [hleast x List.mem_cons_self (hx a ha)]; exact Bool.false_ne_true)
    · rw [List.find?_cons_of_neg hp, ih hl]
      constructor
      · rintro ⟨ha, hpa, hleast⟩
        refine ⟨List.mem_cons_of_mem _ ha, hpa, fun b hb hlt => ?_⟩
        rcases List.mem_cons.mp hb with rfl | hb
        · exact Bool.eq_false_iff.mpr hp
        · exact hleast b hb hlt
      · rintro ⟨ha, hpa, hleast⟩
        rcases List.mem_cons.mp ha with rfl | ha
        · exact absurd hpa hp
        · exact ⟨ha, hpa, fun b hb => hleast b (List.mem_cons_of_mem _ hb)⟩

/-- The sweep's next vehicle is the least one of the class, from an index on, that is in use (R140). -/
theorem nextOfClass_iff {s : State} (hw : s.vehiclesSound = true) (c : ClassId) (start : Nat) (v : VehicleId) :
    nextOfClass c start s = some v ↔
      start ≤ v.val ∧ (s.vehicle v).host.inUse = true ∧ (s.vehicle v).host.cls = c
        ∧ ∀ x : VehicleId, start ≤ x.val → x.val < v.val →
            ¬((s.vehicle x).host.inUse = true ∧ (s.vehicle x).host.cls = c) := by
  have hlisted : ∀ x, (s.vehicle x).host.inUse = true → (x, s.vehicle x) ∈ s.listedVehicles := fun x hx =>
    (State.mem_listedVehicles hw x _).mpr ⟨rfl, fun e => by rw [e] at hx; cases hx⟩
  have hrising : s.listedVehicles.Pairwise fun x y => x.1.val < y.1.val :=
    (List.pairwise_map (R := fun u v : VehicleId => u.val < v.val)).mp (State.rising_listedVehicles hw)
  unfold nextOfClass
  rw [Option.map_eq_some_iff]
  constructor
  · rintro ⟨⟨y, r⟩, hfind, rfl⟩
    obtain ⟨hmem, hp, hleast⟩ := (find?_eq_some_iff_least (f := fun e => e.1.val) hrising).mp hfind
    obtain ⟨rfl, _⟩ := (State.mem_listedVehicles hw y r).mp hmem
    simp only [Bool.and_eq_true, decide_eq_true_eq, and_assoc] at hp
    obtain ⟨h1, h2, h3⟩ := hp
    refine ⟨h1, h2, h3, fun x hx hlt hc => ?_⟩
    have := hleast _ (hlisted x hc.1) hlt
    simp [hx, hc.1, hc.2] at this
  · rintro ⟨h1, h2, h3, h4⟩
    refine ⟨(v, s.vehicle v), (find?_eq_some_iff_least (f := fun e => e.1.val) hrising).mpr
      ⟨hlisted v h2, by simp [h1, h2, h3], ?_⟩, rfl⟩
    rintro ⟨y, r⟩ hmem hlt
    obtain ⟨rfl, _⟩ := (State.mem_listedVehicles hw y r).mp hmem
    rw [Bool.eq_false_iff]
    intro hp
    simp only [Bool.and_eq_true, decide_eq_true_eq, and_assoc] at hp
    exact h4 y hp.1 hlt hp.2

/-- A sweep's request is answered when its record is stored and no vehicle of the class is left (R139). -/
theorem finishClassSet_holding (u : State) (k tag : Byte) (c : ClassId) (stored : Bool) (next swept changed : Nat) :
    finishClassSet (u.holding k tag (.classSet c stored next swept changed)) =
      if stored = true ∧ nextOfClass c next u = none then
        (u.setLink { u.link with held := none }).answered (replyKind k) tag .ok (.classSet swept changed)
      else u.holding k tag (.classSet c stored next swept changed) := by
  cases stored with
  | false => rfl
  | true =>
    simp only [finishClassSet, State.holding, State.setLink_link]
    show (match nextOfClass c next u with | none => _ | some _ => _) = _
    cases nextOfClass c next u with
    | none => rfl
    | some _ => rfl

/-- A step of the sweep, before its request is looked at. -/
theorem sweepVehicle_eq {s : State} {k tag : Byte} {c : ClassId} {stored : Bool} {next swept changed : Nat}
    {v : VehicleId} (hheld : s.link.held = some { kind := k, tag := tag, wait := .classSet c stored next swept changed })
    (hv : nextOfClass c next s = some v) {n : Nat}
    (hn : n = if ((recompute v s).vehicle v).status = (s.vehicle v).status then changed else changed + 1) :
    sweepVehicle s = finishClassSet ((recompute v s).holding k tag (.classSet c stored (v.val + 1) (swept + 1) n)) := by
  subst hn
  simp only [sweepVehicle, hheld, hv, setHeldWait, recompute_held]
  rfl

/-- Settles O45: CLASS_SET by its ranges; a step of the sweep by what is left of it; the next vehicle as the least. -/
theorem classSetSweeps : Obligations.ClassSetSweeps := by
  refine fun s => ⟨fun tag b w c hs hb => ?_, fun k tag c stored next swept changed v hr hrx hheld hv => ?_,
    fun c start v hw => nextOfClass_iff hw c start v⟩
  · have hc := classOf_some hb
    intro inside r
    refine ⟨fun hout => ?_, fun hin => ?_⟩
    · have hnone := classRecordOf_outside (w := w) fun h => hout
        ⟨h.action, h.name, h.defaultPreset, h.burnRate, h.warn.1, h.warn.2, h.grace, h.limp, h.fuel⟩
      exact exec_refuses (r := .classSet b w) hs rfl tag (by simp only [handle, takeClassSet, hc, hnone])
    · obtain ⟨h1, h2, h3, h4, h5, h6, h7, h8, h9⟩ := hin
      have hsome : classRecordOf w = some r := classRecordOf_inside ⟨h1, h2, h3, h4, ⟨h5, h6⟩, h7, h8, h9⟩
      exact exec_holds (r := .classSet b w) hs rfl tag (by simp only [handle, takeClassSet, hc, hsome]; rfl)
  · intro u n
    refine congrArg Host.Outcome.next ((whenLive_running hr _).trans ?_)
    rw [sweepVehicle_eq (n := n) hheld hv rfl, finishClassSet_holding]
    have hrx' : u.link.rxQueue = [] := (recompute_rxQueue v s).trans hrx
    refine drain_empty ?_
    split <;> exact hrx'

/-! ### The load session (R122 to R126) -/

/-- The state after the first `n` records of a load request are placed, and the records placed (R124). -/
structure Loaded (s : State) (next : Nat) (ps : List HostPart) (n : Nat) (t : State) (placed : List PlacedRecord) :
    Prop where
  sound : t.vehiclesSound = true
  length : placed.length = n
  records : ∀ (i : Nat) (v : VehicleId) (p : HostPart), i < n → s.Reaches next ps i v p →
    t.vehicle v = { (s.vehicle v).withHost p with status := statusOf (s.classOf p.cls) ((s.vehicle v).withHost p) }
    ∧ placed[i]? = some (placedOf v (s.vehicle v) p)
  others : ∀ x : VehicleId, x.val < next ∨ next + n ≤ x.val → t.vehicle x = s.vehicle x
  frame : ∃ vs dl dr ev att, t = { s with
    vehicles := vs, dueList := dl, dueRevision := dr, link := { s.link with events := ev, attention := att } }

theorem Loaded.start {s : State} (hw : s.vehiclesSound = true) (next : Nat) (ps : List HostPart) :
    Loaded s next ps 0 s [] :=
  ⟨hw, rfl, fun i _ _ hi => absurd hi (Nat.not_lt_zero i), fun _ _ => rfl, _, _, _, _, _, rfl⟩

/-- One record more is placed, at an unbound index. -/
theorem Loaded.place {s t : State} {next n : Nat} {ps : List HostPart} {placed : List PlacedRecord} {v : VehicleId}
    {p : HostPart} (h : Loaded s next ps n t placed) (hv : s.Reaches next ps n v p) :
    Loaded s next ps (n + 1) (placeRecord v p t) (placed ++ [placedOf v (t.vehicle v) p]) := by
  have hindex := hv.index
  have htv : t.vehicle v = s.vehicle v := h.others v (.inr (by omega))
  have hb : (t.vehicle v).binding = none := htv ▸ hv.unbound
  obtain ⟨vs, dl, dr, ev, att, hframe⟩ := h.frame
  obtain ⟨hself, hothers⟩ := placeRecord_unbound (p := p) h.sound hb
  obtain ⟨hsound, vs', dl', dr', ev', att', hframe'⟩ := placeRecord_frame (p := p) h.sound hb
  have hclass : t.classOf p.cls = s.classOf p.cls := by rw [hframe]; rfl
  refine ⟨hsound, by rw [List.length_append, h.length]; rfl, fun i x q hi hx => ?_, fun x hx => ?_,
    vs', dl', dr', ev', att', by rw [hframe', hframe]⟩
  · have hxi := hx.index
    rcases Nat.lt_succ_iff_lt_or_eq.mp hi with hi | rfl
    · have hne : x ≠ v := fun e => by rw [e] at hxi; omega
      obtain ⟨h1, h2⟩ := h.records i x q hi hx
      rw [hothers x hne, List.getElem?_append_left (by rw [h.length]; exact hi)]
      exact ⟨h1, h2⟩
    · obtain rfl : x = v := Fin.ext (by omega)
      obtain rfl : q = p := Option.some.inj (hx.record.symm.trans hv.record)
      rw [hself, htv, hclass, List.getElem?_append_right (by rw [h.length]), h.length, Nat.sub_self]
      exact ⟨rfl, rfl⟩
  · have hne : x ≠ v := fun e => by rw [e] at hx; omega
    rw [hothers x hne]
    exact h.others x (by omega)

/-- The host parts of the part after the first records of a request. -/
theorem Loaded.host {s t : State} {next n : Nat} {ps : List HostPart} {placed : List PlacedRecord}
    (h : Loaded s next ps n t placed) (hn : ∀ i, i < n → ∃ v p, s.Reaches next ps i v p) (x : VehicleId) :
    (t.vehicle x).host = s.hostAfter next ps n x := by
  unfold State.hostAfter
  by_cases hx : next ≤ x.val ∧ x.val < next + n
  · rw [if_pos hx]
    obtain ⟨v, p, hv⟩ := hn (x.val - next) (by omega)
    have hindex := hv.index
    obtain rfl : v = x := Fin.ext (by omega)
    obtain ⟨hrec, _⟩ := h.records _ v p (by omega) hv
    rw [hrec, List.getD_eq_getElem?_getD, hv.record]
    rfl
  · rw [if_neg hx, h.others x (by omega)]

section
variable {s t : State} {next n : Nat} {ps : List HostPart} {placed : List PlacedRecord} {v : VehicleId} {p : HostPart}

/-- A record whose tag no other carries is placed, and the placing goes on unless the index was the last. -/
theorem placeRecords_placed {rest : List HostPart} (hv : v.val = n) (hb : (s.vehicle v).binding = none)
    (hfree : tagHolder v p s = none) : placeRecords (p :: rest) n placed s =
      if n + 1 = 512 then
        (placeRecord v p s,
          { status := .loadEnded, next := 512, written := placed ++ [placedOf v (s.vehicle v) p], holder := none })
      else placeRecords rest (n + 1) (placed ++ [placedOf v (s.vehicle v) p]) (placeRecord v p s) := by
  have hfin : finOf 512 n = some v := finOf_some hv.symm
  simp only [placeRecords, hfin, hb, hfree]
  rfl

theorem placeRecords_bound {rest : List HostPart} {h : HoseId} (hv : v.val = n) (hb : (s.vehicle v).binding = some h) :
    placeRecords (p :: rest) n placed s =
      (s, { status := .loadEnded, next := n, written := placed, holder := none }) := by
  have hfin : finOf 512 n = some v := finOf_some hv.symm
  simp only [placeRecords, hfin, hb]
  rfl

theorem placeRecords_held {rest : List HostPart} {x : VehicleId} (hv : v.val = n) (hb : (s.vehicle v).binding = none)
    (hheld : tagHolder v p s = some x) : placeRecords (p :: rest) n placed s =
      (s, { status := .dupTag, next := n, written := placed, holder := some x }) := by
  have hfin : finOf 512 n = some v := finOf_some hv.symm
  simp only [placeRecords, hfin, hb, hheld]
  rfl

end

/-- One placement more of a request, at an index where its record finds no other carrier of its tag. -/
theorem Loaded.step {s t : State} {next n : Nat} {ps : List HostPart} {placed : List PlacedRecord} {v : VehicleId}
    {p : HostPart} (h : Loaded s next ps n t placed) (hn : ∀ i, i < n → ∃ v p, s.Reaches next ps i v p)
    (hv : s.Places next ps n v p) : placeRecords (ps.drop n) (next + n) placed t =
      if next + n + 1 = 512 then
        (placeRecord v p t,
          { status := .loadEnded, next := 512, written := placed ++ [placedOf v (t.vehicle v) p], holder := none })
      else placeRecords (ps.drop (n + 1)) (next + (n + 1)) (placed ++ [placedOf v (t.vehicle v) p])
        (placeRecord v p t) := by
  have hindex := hv.index
  obtain ⟨hlt, hget⟩ := List.getElem?_eq_some_iff.mp hv.record
  have hfree : tagHolder v p t = none := tagHolder_unique h.sound fun x hx => by
    rw [h.host hn x]
    exact hv.alone x hx
  rw [List.drop_eq_getElem_cons hlt, hget]
  exact placeRecords_placed hindex (by rw [h.others v (.inr (by omega))]; exact hv.unbound) hfree

/-- The first `n` records of a request are placed one after the other, short of the last index. -/
theorem placeRecords_along {s : State} {next : Nat} {ps : List HostPart} (hw : s.vehiclesSound = true) (n : Nat)
    (hlast : next + n < 512) (hn : ∀ i, i < n → ∃ v p, s.Places next ps i v p) :
    ∃ t placed, Loaded s next ps n t placed
      ∧ placeRecords ps next [] s = placeRecords (ps.drop n) (next + n) placed t := by
  induction n with
  | zero => exact ⟨s, [], .start hw next ps, rfl⟩
  | succ n ih =>
    have hbefore := fun i hi => hn i (Nat.lt_succ_of_lt hi)
    obtain ⟨t, placed, hloaded, heq⟩ := ih (by omega) hbefore
    obtain ⟨v, p, hv⟩ := hn n (Nat.lt_succ_self n)
    refine ⟨_, _, hloaded.place hv.toReaches, heq.trans ((hloaded.step (fun i hi => ?_) hv).trans (if_neg (by omega)))⟩
    obtain ⟨x, q, hx⟩ := hbefore i hi
    exact ⟨x, q, hx.toReaches⟩

/-! ### VEHICLE_LOAD_NEXT -/

theorem hostPartsIn_some {ws : List WireHostPart} {ps : List HostPart} (h : ws.map hostPartOf = ps.map some) :
    hostPartsIn ws = some ps := by
  induction ws generalizing ps with
  | nil => cases ps with
    | nil => rfl
    | cons _ _ => cases h
  | cons w ws ih => cases ps with
    | nil => cases h
    | cons p ps =>
      obtain ⟨hw, hws⟩ := List.cons.inj h
      simp only [hostPartsIn, hw, ih hws]

theorem hostPartsIn_none {ws : List WireHostPart} {w : WireHostPart} (hm : w ∈ ws) (h : hostPartOf w = none) :
    hostPartsIn ws = none := by
  induction ws with
  | nil => cases hm
  | cons x ws ih =>
    rcases List.mem_cons.mp hm with rfl | hm
    · simp only [hostPartsIn, h]
    · simp only [hostPartsIn, ih hm]
      cases hostPartOf x <;> rfl

section
variable {s : State} {count : Byte} {ws : List WireHostPart} {next : Nat}

theorem takeLoadNext_closed (hl : s.loadSession = none) : takeLoadNext count ws s = refuse .state s := by
  simp only [takeLoadNext, hl]

theorem takeLoadNext_count (hl : s.loadSession = some next) (hc : count.toNat ≠ ws.length) :
    takeLoadNext count ws s = refuse .range s := by
  simp only [takeLoadNext, hl]
  refine if_pos ?_
  rw [decide_eq_true (Ne.symm hc), Bool.or_true]

theorem takeLoadNext_counted (hl : s.loadSession = some next) (hc : count.toNat = ws.length) (h1 : 1 ≤ ws.length)
    (h2 : ws.length ≤ 8) : takeLoadNext count ws s =
      match hostPartsIn ws with
      | none => refuse .range s
      | some ps =>
        let (s, r) := placeRecords ps next [] s
        let ended := decide (r.status = .loadEnded)
        let s := s.setLoad (if ended then none else some r.next)
        match r.written with
        | [] => (s, .reply r.status (.loadProgress 0 r.next (!ended) r.holder))
        | _ :: _ =>
          (beginWrite (.vehicles r.written) s, .hold (.loadNext r.status r.written.length r.next r.holder)) := by
  simp only [takeLoadNext, hl]
  refine if_neg ?_
  rw [show inRange 1 8 count.toNat = true from inRange_iff.mpr (by omega), decide_eq_false (not_not_intro hc.symm)]
  exact Bool.false_ne_true

/-- The session after a request (R124). -/
def sessionAfter (status : StatusCode) (next : Nat) : Option Nat := if status = .loadEnded then none else some next

/-- A request whose placements ended: with none placed it is answered, else its write begins (R124). -/
theorem takeLoadNext_ends {t : State} {ps : List HostPart} {status : StatusCode} {n : Nat} {placed : List PlacedRecord}
    {holder : Option VehicleId} (hl : s.loadSession = some next) (hc : count.toNat = ws.length) (h1 : 1 ≤ ws.length)
    (h2 : ws.length ≤ 8) (hps : hostPartsIn ws = some ps)
    (hend : placeRecords ps next [] s = (t, { status := status, next := n, written := placed, holder := holder })) :
    (placed = [] → takeLoadNext count ws s =
        (t.setLoad (sessionAfter status n), .reply status (.loadProgress 0 n (decide (status ≠ .loadEnded)) holder)))
    ∧ (placed ≠ [] → takeLoadNext count ws s =
        (beginWrite (.vehicles placed) (t.setLoad (sessionAfter status n)),
          .hold (.loadNext status placed.length n holder))) := by
  have hopen : (if decide (status = .loadEnded) = true then none else some n) = sessionAfter status n := by
    simp only [sessionAfter, decide_eq_true_eq]
  rw [takeLoadNext_counted hl hc h1 h2, hps]
  simp only [hend, hopen, decide_not]
  refine ⟨fun e => by rw [e], fun e => ?_⟩
  cases placed with
  | nil => exact absurd rfl e
  | cons x xs => rfl

end

theorem State.Reaches.heard {s : State} {next i : Nat} {ps : List HostPart} {v : VehicleId} {p : HostPart}
    (h : s.Reaches next ps i v p) : s.heard.Reaches next ps i v p :=
  ⟨h.index, h.record, h.unbound⟩

theorem State.Places.heard {s : State} {next i : Nat} {ps : List HostPart} {v : VehicleId} {p : HostPart}
    (h : s.Places next ps i v p) : s.heard.Places next ps i v p :=
  ⟨h.toReaches.heard, h.alone⟩

/-- Settles O41: the session's requests by its state; the records of NEXT one after the other, up to what ends them. -/
theorem loadSessionPlaces : Obligations.LoadSessionPlaces := by
  refine ⟨fun s tag hs => ⟨fun start => ⟨fun hin => ?_, fun hout => ?_⟩, ?_⟩, fun s tag count ws hs hw h1 h2 => ?_⟩
  · have hv : vehicleOf start = some ⟨start.toNat, hin⟩ := vehicleOf_some rfl
    cases hl : s.loadSession with
    | none =>
      exact exec_replies (r := .vehicleLoadBegin start) hs rfl tag
        (by simp only [handle, takeLoadBegin, hv, show s.heard.loadSession = none from hl]; rfl)
    | some n =>
      exact exec_refuses (r := .vehicleLoadBegin start) hs rfl tag
        (by simp only [handle, takeLoadBegin, hv, show s.heard.loadSession = some n from hl])
  · exact exec_refuses (r := .vehicleLoadBegin start) hs rfl tag
      (by simp only [handle, takeLoadBegin, vehicleOf_none hout])
  · cases hl : s.loadSession with
    | none =>
      exact exec_refuses (r := .vehicleLoadEnd) hs rfl tag
        (by simp only [handle, takeLoadEnd, show s.heard.loadSession = none from hl])
    | some n =>
      exact exec_replies (r := .vehicleLoadEnd) hs rfl tag
        (by simp only [handle, takeLoadEnd, show s.heard.loadSession = some n from hl]; rfl)
  have hwf : Request.wf (.vehicleLoadNext count ws) = true := inRange_iff.mpr ⟨h1, h2⟩
  refine ⟨fun hl => ?_, fun next hl hc => ?_, fun next w hl hm hnone => ?_, fun next n ps hl hc hps hn hlast hall => ?_⟩
  · exact exec_refuses (r := .vehicleLoadNext count ws) hs hwf tag (takeLoadNext_closed (s := s.heard) hl)
  · exact exec_refuses (r := .vehicleLoadNext count ws) hs hwf tag (takeLoadNext_count (s := s.heard) hl hc)
  · by_cases hc : count.toNat = ws.length
    · refine exec_refuses (r := .vehicleLoadNext count ws) hs hwf tag
        ((takeLoadNext_counted (s := s.heard) hl hc h1 h2).trans ?_)
      rw [hostPartsIn_none hm hnone]
    · exact exec_refuses (r := .vehicleLoadNext count ws) hs hwf tag (takeLoadNext_count (s := s.heard) hl hc)
  intro ends
  have hends : ∀ (status : StatusCode) (holder : Option VehicleId) (t : State) (placed : List PlacedRecord),
      Loaded s.heard next ps n t placed →
      placeRecords ps next [] s.heard =
        (t, { status := status, next := next + n, written := placed, holder := holder }) → ends status holder := by
    intro status holder t placed h hend
    obtain ⟨hanswer, hhold⟩ := takeLoadNext_ends (s := s.heard) hl hc h1 h2 (hostPartsIn_some hps) hend
    obtain ⟨vs, dl, dr, ev, att, hframe⟩ := h.frame
    have hlength := h.length
    refine ⟨t.setLoad (sessionAfter status (next + n)), placed, fun h0 => ?_, fun hpos => ?_, rfl, hlength,
      fun i v p hi hv => ?_, h.others, by rw [hframe]; rfl, by rw [hframe]; rfl⟩
    · have hnil : placed = [] := List.length_eq_zero_iff.mp (hlength.trans h0)
      subst h0
      exact exec_replies (r := .vehicleLoadNext count ws) hs hwf tag (hanswer hnil)
    · have hne : placed ≠ [] := fun e => by rw [e] at hlength; simp at hlength; omega
      have hstore : t.store = s.store := by rw [hframe]; rfl
      have hheld := hhold hne
      rw [hlength] at hheld
      rw [← hstore]
      exact exec_holds (r := .vehicleLoadNext count ws) hs hwf tag hheld
    · obtain ⟨hrec, hplaced⟩ := h.records i v p hi hv.toReaches.heard
      refine ⟨hrec, hplaced.trans ?_⟩
      rw [placedOf_eq]
      rfl
  have hheard : ∀ i, i < n → ∃ v p, s.heard.Places next ps i v p := fun i hi => by
    obtain ⟨v, p, hv⟩ := hall i hi
    exact ⟨v, p, hv.heard⟩
  refine ⟨fun he hlt => ?_, fun hpos he => ?_, fun v h hlt hv hb => ?_, fun v x p hv hx hclash honly => ?_⟩
  · obtain ⟨t, placed, hloaded, heq⟩ := placeRecords_along (s := s.heard) hw n hlt hheard
    refine hends _ _ t placed hloaded (heq.trans ?_)
    rw [he, List.drop_length]
    rfl
  · obtain ⟨m, rfl⟩ : ∃ m, n = m + 1 := ⟨n - 1, by omega⟩
    have hbefore := fun i hi => hheard i (Nat.lt_succ_of_lt hi)
    obtain ⟨t, placed, hloaded, heq⟩ := placeRecords_along (s := s.heard) hw m (by omega) hbefore
    obtain ⟨v, p, hv⟩ := hheard m (Nat.lt_succ_self m)
    refine hends _ _ _ _ (hloaded.place hv.toReaches) (heq.trans ((hloaded.step (fun i hi => ?_) hv).trans ?_))
    · obtain ⟨x, q, hx⟩ := hbefore i hi
      exact ⟨x, q, hx.toReaches⟩
    · rw [if_pos (by omega), he]
  · obtain ⟨t, placed, hloaded, heq⟩ := placeRecords_along (s := s.heard) hw n (by omega) hheard
    refine hends _ _ t placed hloaded (heq.trans ?_)
    rw [List.drop_eq_getElem_cons hlt]
    exact placeRecords_bound hv (by rw [hloaded.others v (.inr (by omega))]; exact hb)
  · have hindex := hv.index
    obtain ⟨hlt, hget⟩ := List.getElem?_eq_some_iff.mp hv.record
    obtain ⟨t, placed, hloaded, heq⟩ := placeRecords_along (s := s.heard) hw n (by omega) hheard
    have hhost := hloaded.host fun i hi => by
      obtain ⟨y, q, hy⟩ := hheard i hi
      exact ⟨y, q, hy.toReaches⟩
    refine hends _ _ t placed hloaded (heq.trans ?_)
    rw [List.drop_eq_getElem_cons hlt, hget]
    refine placeRecords_held hindex (by rw [hloaded.others v (.inr (by omega))]; exact hv.unbound)
      (tagHolder_only hloaded.sound hx (by rw [hhost]; exact hclash) fun y hy hc => honly y hy ?_)
    rw [hhost] at hc
    exact hc

end Sys2Proof.Machine


/-! PROOFS. The journal's steps but the end of a write: the beginning of a write, the acknowledgement, the beginning and
the end of an erase. -/

namespace Sys2Proof.Machine

open Sys2Proof

/-! ### The beginning of a write (R153, R156) -/

section
variable {s : State} {q : Queued} {rest : List Queued}

/-- The time of a record's stamp (R153). -/
theorem journalTime_eq (s : State) : journalTime s =
    (match s.journal.newest with
      | some n => if s.clock.valid then max s.clock.count n.2 else n.2
      | none => if s.clock.valid then s.clock.count else 0, s.clock.valid) := by
  unfold journalTime
  cases s.clock.valid <;> cases s.journal.newest <;> rfl

theorem beginJournalWrite_may (hq : s.journal.queue = q :: rest) (hw : s.journal.writing = false)
    (ha : s.journal.active ≠ none) (hf : s.journal.faulted = false) :
    beginJournalWrite s = if s.journal.spent then enterFaulted s else stampHead q rest s := by
  have hmay : s.journal.mayWrite = true := by
    rw [← Option.isSome_iff_ne_none] at ha
    simp [Journal.mayWrite, hq, hw, ha, hf]
  unfold beginJournalWrite
  rw [if_pos hmay]
  simp only [hq]

/-- The numbers are spent for a head record without one alone, past the largest (R153; assumption 36). -/
theorem Journal.spent_head {j : Journal} (hq : j.queue = q :: rest) (hs : q.stamp = none) :
    j.spent = decide (4294967295 < j.nextSeq) := by
  unfold Journal.spent
  rw [hq]
  simp only [hs]
  exact Bool.and_true _

theorem Journal.spent_stamped {j : Journal} {st : Stamp} (hq : j.queue = q :: rest) (hs : q.stamp = some st) :
    j.spent = false :=
  j.spent_eq_false.mpr (.inr ⟨q, rest, st, hq, hs⟩)

end

theorem exec_journalWriteStart {s : State} (hr : s.phase = .running) :
    exec .journalWriteStart s = .next (drain (beginJournalWrite s)) :=
  congrArg Host.Outcome.next (whenLive_running hr _)

/-- Settles O46: the head record by its stamp, and one without a stamp by the numbers left. -/
theorem journalWriteBegins : Obligations.JournalWriteBegins := by
  intro s q rest hr hrx hq hw ha hf
  rw [exec_journalWriteStart hr, beginJournalWrite_may hq hw ha hf]
  refine ⟨fun st hst => ?_, fun hst => ⟨fun hle => ?_, fun hlt => ?_⟩⟩
  · rw [if_neg (by rw [Journal.spent_stamped hq hst]; exact Bool.false_ne_true)]
    simp only [stampHead, hst]
    exact congrArg Host.Outcome.next (drain_empty hrx)
  · rw [if_neg (by rw [Journal.spent_head hq hst, decide_eq_true_eq]; omega)]
    simp only [stampHead, hst, journalTime_eq]
    exact congrArg Host.Outcome.next (drain_empty hrx)
  · rw [if_pos (by rw [Journal.spent_head hq hst, decide_eq_true_eq]; exact hlt)]
    exact ⟨_, congrArg Host.Outcome.next (drain_empty ((enterFaulted_frames s).trans hrx)), enterFaulted_enters s,
      enterFaulted_frame s⟩

/-! ### JOURNAL_ACK (R163, R164) -/

section
variable {s : State} {seq : BitVec 32}

theorem takeJournalAck_inspection (h : s.link.inspection = true) : takeJournalAck seq s = refuse .held s := by
  unfold takeJournalAck
  exact if_pos h

theorem Journal.aboveNewest_iff {j : Journal} {n : Nat} :
    j.aboveNewest n = true ↔ j.newest = none ∨ ∃ x, j.newest = some x ∧ x.1 < n := by
  unfold Journal.aboveNewest
  cases j.newest <;> simp

theorem Journal.reachesHeld_iff {j : Journal} {n : Nat} :
    j.reachesHeld n = true ↔ ∃ r rest, j.held = r :: rest ∧ r.stamp.seq ≤ n := by
  unfold Journal.reachesHeld
  cases j.held <;> simp

theorem takeJournalAck_above (hi : s.link.inspection = false) (h : s.journal.aboveNewest seq.toNat = true) :
    takeJournalAck seq s = refuse .range s := by
  simp only [takeJournalAck, hi]
  exact if_pos h

/-- An acknowledgement up to the newest record: it rises, or changes nothing below the oldest held one. -/
theorem takeJournalAck_within (hi : s.link.inspection = false) (h : ¬s.journal.aboveNewest seq.toNat = true) :
    takeJournalAck seq s =
      if s.journal.reachesHeld seq.toNat then
        let t := beginAckWrite (thresholdTest (s.setJournal { s.journal with ack := seq.toNat }))
        (t, .reply .ok (.acked t.journal.ack t.journal.held.length))
      else (s, .reply .ok (.acked s.journal.ack s.journal.held.length)) := by
  simp only [takeJournalAck, hi]
  exact if_neg h

/-- What an acknowledgement that rises leaves of the journal and of the store. -/
theorem beginAckWrite_after (u : State) : ∃ w q, beginAckWrite u =
      { u with journal := { u.journal with ackWrite := w }, store := { u.store with queue := q } }
    ∧ (u.journal.ackWrite = .none → q = u.store.queue ++ [.ackThrough u.journal.ack] ∧ w = .inFlight)
    ∧ (u.journal.ackWrite ≠ .none → q = u.store.queue ∧ w = .again) := by
  unfold beginAckWrite
  cases h : u.journal.ackWrite with
  | none => exact ⟨_, _, rfl, fun _ => ⟨rfl, rfl⟩, fun hn => absurd rfl hn⟩
  | inFlight | again => exact ⟨.again, u.store.queue, rfl, nofun, fun _ => ⟨rfl, rfl⟩⟩

end

/-- Settles O49: inspection, the newest record and the oldest held one, in this order. -/
theorem journalAcknowledged : Obligations.JournalAcknowledged := by
  intro s tag seq hs held
  refine ⟨fun hi => ?_, fun hi => ⟨fun hnew => ?_, fun n hn hle => ?_⟩⟩
  · exact exec_refuses (r := .journalAck seq) hs rfl tag (takeJournalAck_inspection (s := s.heard) hi)
  · exact exec_refuses (r := .journalAck seq) hs rfl tag
      (takeJournalAck_above (s := s.heard) hi (Journal.aboveNewest_iff.mpr hnew))
  have hin : ¬s.heard.journal.aboveNewest seq.toNat = true := fun h => by
    rcases Journal.aboveNewest_iff.mp h with h | ⟨x, hx, hlt⟩
    · exact nomatch hn.symm.trans h
    · obtain rfl : n = x := Option.some.inj (hn.symm.trans hx)
      omega
  have hack := takeJournalAck_within (s := s.heard) hi hin
  refine ⟨fun hbelow => ?_, fun r rest hheld hr => ?_⟩
  · refine exec_replies (r := .journalAck seq) hs rfl tag (hack.trans (if_neg fun h => ?_))
    obtain ⟨r, rest, hheld, hr⟩ := Journal.reachesHeld_iff.mp h
    rcases hbelow with hnil | ⟨r', rest', hheld', hlt⟩
    · exact nomatch hnil.symm.trans hheld
    · obtain ⟨rfl, rfl⟩ := List.cons.inj (hheld'.symm.trans hheld)
      omega
  · replace hack := hack.trans (if_pos (Journal.reachesHeld_iff.mpr ⟨r, rest, hheld, hr⟩))
    obtain ⟨b, ev, att, hu⟩ := thresholdTest_frame (s.heard.setJournal { s.heard.journal with ack := seq.toNat })
    generalize thresholdTest (s.heard.setJournal { s.heard.journal with ack := seq.toNat }) = u at hack hu
    have hwrite : u.journal.ackWrite = s.journal.ackWrite := by rw [hu]; rfl
    have hstore : u.store = s.store := by rw [hu]; rfl
    have hnow : u.journal.ack = seq.toNat := by rw [hu]; rfl
    obtain ⟨w, q, ht, hnone, hsome⟩ := beginAckWrite_after u
    generalize beginAckWrite u = t at hack ht
    rw [hwrite, hstore, hnow] at hnone
    rw [hwrite, hstore] at hsome
    have hack_t : t.journal.ack = seq.toNat := by rw [ht, hu]; rfl
    have hheld_t : t.journal.held = held seq.toNat := by rw [ht, hu]; rfl
    dsimp only at hack
    rw [hack_t, hheld_t] at hack
    refine ⟨t, exec_replies (r := .journalAck seq) hs rfl tag hack, hack_t, fun h => ?_, fun h => ?_,
      by rw [ht, hu]; rfl, by rw [ht, hu]; rfl, by rw [ht, hu]; rfl⟩ <;> rw [ht]
    · exact hnone h
    · obtain ⟨hq, hw⟩ := hsome h
      exact ⟨by rw [hq, hstore], hw⟩

/-! ### The beginning of an erase (R165, R171) -/

section
variable {s : State}

theorem startErase_begins {g : SegmentId} {rest : List SegmentId} (he : s.journal.erase = none)
    (hg : s.journal.cutShort ++ s.journal.eligibleSegments s.store.stored.ack = g :: rest) :
    startErase s = beginErase g s := by
  simp only [startErase, he, hg]

theorem startErase_stays
    (h : s.journal.erase ≠ none ∨ s.journal.cutShort ++ s.journal.eligibleSegments s.store.stored.ack = []) :
    startErase s = s := by
  unfold startErase
  split
  · rfl
  · next he =>
    rcases h with h | h
    · exact absurd he h
    · rw [h]

end

theorem eligibleSegments_nodup (j : Journal) (n : Nat) : (j.eligibleSegments n).Nodup :=
  (List.perm_insertionSort _ _).nodup_iff.mpr ((segmentsAfter_nodup _).filter _)

/-! ### The end of an erase (R161, R166) -/

/-- The end of an erase that leaves its segment FREE, or ACTIVE when none is. -/
structure SegmentFreed (s t : State) (g : SegmentId) (x : Segment) : Prop where
  segment : ∃ st, t.journal.segment g = { x with state := st, eraseMark := false, slots := [] }
  others : ∀ k, k ≠ g → t.journal.segment k = s.journal.segment k
  free : s.journal.active ≠ none → s.journal.active ≠ some g →
    (t.journal.segment g).state = .free ∧ t.journal.highWater = s.journal.highWater ∧ t.store = s.store
  active : s.journal.active = none → (t.journal.segment g).state = .active
    ∧ t.journal.highWater = { seq := s.journal.comingSeq, segment := g, newest := s.journal.newest }
    ∧ t.store = { s.store with queue := s.store.queue ++ [.highWater t.journal.highWater] }
  frame : t = { s with journal := t.journal, store := t.store }
  journal : t.journal = { s.journal with segments := t.journal.segments, highWater := t.journal.highWater }

theorem freeSegment_freed (s : State) (g : SegmentId) (x : Segment) : SegmentFreed s (freeSegment g x s) g x := by
  unfold freeSegment
  generalize hj : s.journal.setSegment g { x with state := .free, eraseMark := false, slots := [] } = j
  have hself : j.segment g = { x with state := .free, eraseMark := false, slots := [] } :=
    hj ▸ Journal.setSegment_self _ _ _
  have hne : ∀ k, k ≠ g → j.segment k = s.journal.segment k := fun k hk => hj ▸ Journal.setSegment_ne _ _ hk
  have hframe : j = { s.journal with segments := j.segments } := by rw [← hj]; rfl
  dsimp only
  cases ha : (s.setJournal j).journal.active with
  | some k =>
    refine ⟨⟨_, hself⟩, hne, fun _ _ => ⟨by rw [show (s.setJournal j).journal.segment g = _ from hself],
      by rw [hframe]; rfl, rfl⟩, fun hnone => ?_, rfl, by rw [hframe]; rfl⟩
    have hk : (j.segment k).state = .active := Journal.active_state ha
    by_cases e : k = g
    · rw [e, hself] at hk
      exact nomatch hk
    · rw [hne k e] at hk
      exact absurd hk (Journal.active_none hnone k)
  | none =>
    have hact : (activate g (s.setJournal j)).journal.segment g = { j.segment g with state := .active } :=
      Journal.setSegment_self _ _ _
    refine ⟨⟨.active, by rw [hact, hself]⟩, fun k hk => (Journal.setSegment_ne _ _ hk).trans (hne k hk),
      fun hsome hother => ?_, fun _ => ⟨by rw [hact], by rw [hframe]; rfl, rfl⟩, rfl, by rw [hframe]; rfl⟩
    obtain ⟨k, hk⟩ := Option.ne_none_iff_exists'.mp hsome
    have hkg : k ≠ g := fun e => hother (e ▸ hk)
    refine absurd ?_ (Journal.active_none ha k)
    rw [show (s.setJournal j).journal.segment k = _ from hne k hkg]
    exact Journal.active_state hk

/-- The recovery test at the end of a step whose journal was FAULTED or not before it (R161). -/
theorem recoverTest_link {s u : State} (hl : u.link = s.link) (hc : u.clock = s.clock) (hp : u.phase = s.phase)
    (hn : u.journal.newest = s.journal.newest) :
    (u.journal.Recovers → (recoverTest u).journal.faulted = false
      ∧ (recoverTest u).link = (raise .journal .recovered s).link)
    ∧ (¬u.journal.Recovers → recoverTest u = u) := by
  refine ⟨fun h => ?_, recoverTest_stays⟩
  rw [recoverTest_recovers h]
  exact ⟨rfl, raise_link_congr _ _ hl hc hp hn⟩

section
variable {s : State} {g : SegmentId}

theorem endErase_frees (he : s.journal.erase = some g) (hw : (s.journal.segment g).worn = false) :
    endErase true s =
      recoverTest (freeSegment g (s.journal.segment g) (s.setJournal { s.journal with erase := none })) := by
  simp only [endErase, he, hw]
  rfl

/-- The state in which a segment is RETIRED, before the tests that follow (R166). -/
def retiredState (s : State) (g : SegmentId) (x : Segment) : State :=
  let j := s.journal.setSegment g { x with state := .retired, worn := false, slots := [] }
  raise .journal .segmentRetired (beginWrite (.retiredMarks j.retiredMarks) (s.setJournal j))

theorem endErase_retires {blank : Bool} (he : s.journal.erase = some g)
    (h : blank = false ∨ (s.journal.segment g).worn = true) : ∃ x : Segment, endErase blank s =
      recoverTest (thresholdTest (retiredState (s.setJournal { s.journal with erase := none }) g x)) := by
  simp only [endErase, he]
  cases blank with
  | false => exact ⟨_, rfl⟩
  | true =>
    obtain hw : (s.journal.segment g).worn = true := h.resolve_left nofun
    rw [hw]
    exact ⟨_, rfl⟩

end

theorem exec_eraseComplete {s : State} (hr : s.phase = .running) (blank : Bool) :
    exec (.eraseComplete blank) s = .next (endErase blank s) :=
  congrArg Host.Outcome.next (whenLive_running hr _)

theorem exec_eraseStart {s : State} (hr : s.phase = .running) : exec .eraseStart s = .next (startErase s) :=
  congrArg Host.Outcome.next (whenLive_running hr _)

/-- Settles O48: the beginning by the list of the segments that may be erased; the end by the reading and the wear. -/
theorem erasesBeginAndEnd : Obligations.ErasesBeginAndEnd := by
  refine ⟨fun s hr => ⟨fun g rest he hg => ?_, fun h => ?_, mem_cutShort _, cutShort_rising _,
    fun n => ⟨mem_eligibleSegments _ n, eligibleSegments_nodup _ n, ?_⟩⟩, fun s g hr he => ?_⟩
  · rw [exec_eraseStart hr, startErase_begins he hg]
    have hself : (beginErase g s).journal.segment g =
        { s.journal.segment g with state := .erasing, eraseMark := true, slots := [] } := Journal.setSegment_self _ _ _
    exact ⟨_, rfl, rfl, by rw [hself], by rw [hself], by rw [hself], by rw [hself],
      fun k hk => Journal.setSegment_ne _ _ hk, rfl⟩
  · rw [exec_eraseStart hr, startErase_stays h]
  · exact (eligibleSegments_sorted _ n).imp fun h => (asOld_iff _ _).mp h
  intro recovered
  refine ⟨fun hw => ?_, fun blank hb => ?_⟩
  · rw [exec_eraseComplete hr, endErase_frees he hw]
    have hfreed := freeSegment_freed (s.setJournal { s.journal with erase := none }) g (s.journal.segment g)
    generalize freeSegment g (s.journal.segment g) (s.setJournal { s.journal with erase := none }) = u at hfreed
    obtain ⟨⟨st, hsegment⟩, hothers, hfree, hactive, hframe, hjournal⟩ := hfreed
    have hlink : u.link = s.link := by rw [hframe]; rfl
    have hfaulted : u.journal.faulted = s.journal.faulted := by rw [hjournal]; rfl
    obtain ⟨hrec, hstay⟩ := recoverTest_link (s := s) (u := u) hlink (by rw [hframe]; rfl) (by rw [hframe]; rfl)
      (by rw [hjournal]; rfl)
    obtain ⟨f, ev, att, ht⟩ := recoverTest_frame u
    generalize recoverTest u = t at hrec hstay ht
    have hu : ({ t.journal with faulted := s.journal.faulted } : Journal) = u.journal := by
      rw [← hfaulted, ht]
    have hj : recovered t.journal ↔ u.journal.Recovers := by
      rw [← hu]
    have hsegment_t : t.journal.segment g = u.journal.segment g := by rw [ht]; rfl
    refine ⟨t, rfl, by rw [ht, hjournal]; rfl, by rw [hsegment_t, hsegment], by rw [hsegment_t, hsegment],
      by rw [hsegment_t, hsegment]; exact hw, fun k hk => ?_, fun h1 h2 => ?_, fun h => ?_, fun h => hrec (hj.mp h),
      fun h => ?_, ?_, ?_⟩
    · rw [show t.journal.segment k = u.journal.segment k by rw [ht]; rfl]
      exact hothers k hk
    · obtain ⟨h3, h4, h5⟩ := hfree h1 h2
      rw [hsegment_t, show t.journal.highWater = u.journal.highWater by rw [ht], show t.store = u.store by rw [ht]]
      exact ⟨h3, h4, h5⟩
    · obtain ⟨h3, h4, h5⟩ := hactive h
      rw [hsegment_t, show t.journal.highWater = u.journal.highWater by rw [ht], show t.store = u.store by rw [ht]]
      exact ⟨h3, h4, h5⟩
    · rw [hstay fun hc => h (hj.mpr hc)]
      exact ⟨hfaulted, hlink⟩
    · rw [ht, hframe]; rfl
    · rw [ht, hjournal]; rfl
  · obtain ⟨x, hretire⟩ := endErase_retires he hb
    rw [exec_eraseComplete hr, hretire, thresholdTest_tested]
    have hself : (retiredState (s.setJournal { s.journal with erase := none }) g x).journal.segment g =
        { x with state := .retired, worn := false, slots := [] } := Journal.setSegment_self _ _ _
    have hne : ∀ k, k ≠ g → (retiredState (s.setJournal { s.journal with erase := none }) g x).journal.segment k =
        s.journal.segment k := fun k hk => Journal.setSegment_ne _ _ hk
    refine ⟨_, retiredState (s.setJournal { s.journal with erase := none }) g x,
      (retiredState (s.setJournal { s.journal with erase := none }) g x).journal.retiredMarks, rfl, by rw [hself],
      by rw [hself], by rw [hself], hne, fun k => ?_, ?_, recoverTest_recovers, recoverTest_stays⟩
    · unfold Journal.retiredMarks
      rw [vmap_get]
      show decide ((Journal.segment _ k).state = .retired) = _
      by_cases hk : k = g
      · rw [hk, hself]; simp
      · rw [hne k hk]; simp [hk]
    · rfl

end Sys2Proof.Machine


/-! PROOFS. The end of a journal write: what it leaves of the journal, then the report to the record's owner. -/

namespace Sys2Proof.Machine

open Sys2Proof

/-! ### The report to the owner of a written record (R157 step 4) -/

/-- The store writes that the owners begin at the report of a record (R63, R65, R89, R147). -/
def reportWrites (r : Record) (s : State) : List StoreWrite :=
  match r with
  | .calibration (.hose h _ _ _ _ _ _) => [.calibration h (s.cal h).data]
  | .calibration (.product p _ _ _) => [.product p (s.product p).data]
  | .service x =>
    [.service x.vehicle (s.vehicle x.vehicle).marks (s.vehicle x.vehicle).revision (s.vehicle x.vehicle).usage]
  | .adjust a => [.bookRevision a.tank (s.tank a.tank).book (s.tank a.tank).revision]
  | .delivery _ | .receipt _ | .interruption _ => []

/-- A change of the link alone, which leaves the frames that wait, and the whole link where no request is held. -/
structure LinkOnly (s t : State) : Prop where
  frame : t = s.setLink t.link
  frames : t.link.rxQueue = s.link.rxQueue
  free : s.link.held = none → t.link = s.link

theorem LinkOnly.refl (s : State) : LinkOnly s s := ⟨rfl, rfl, fun _ => rfl⟩

/-- A request that waits for its record keeps the number. -/
theorem setHeldWait_linkOnly (w : HeldWait) (s : State) : LinkOnly s (setHeldWait w s) := by
  unfold setHeldWait
  cases h : s.link.held with
  | none => exact .refl s
  | some q => exact ⟨rfl, rfl, fun hn => nomatch h.symm.trans hn⟩

theorem finishHeld_linkOnly (c : StatusCode) (b : ReplyBody) (s : State) : LinkOnly s (finishHeld c b s) := by
  unfold finishHeld
  cases h : s.link.held with
  | none => exact .refl s
  | some q => exact ⟨rfl, rfl, fun hn => nomatch h.symm.trans hn⟩

/-- The report of a record that no hose waits for: the link, where a request waits for the record, and store writes. -/
structure Reported (s t : State) (ws : List StoreWrite) : Prop where
  frame : t = (s.setLink t.link).setStore { s.store with queue := s.store.queue ++ ws }
  frames : t.link.rxQueue = s.link.rxQueue
  free : s.link.held = none → t.link = s.link

theorem Reported.refl (s : State) : Reported s s [] :=
  ⟨by rw [List.append_nil]; rfl, rfl, fun _ => rfl⟩

/-- A store write whose value the link does not enter begins after a change of the link. -/
theorem LinkOnly.reported {s u : State} (h : LinkOnly s u) (w : State → StoreWrite)
    (hw : ∀ l, w (s.setLink l) = w s) : Reported s (beginWrite (w u) u) [w s] := by
  have hwu : w u = w s := by
    rw [h.frame]
    exact hw _
  have hstore : u.store = s.store := (congrArg State.store h.frame).trans rfl
  refine ⟨?_, h.frames, h.free⟩
  unfold beginWrite
  rw [hwu, hstore]
  exact congrArg (State.setStore · _) h.frame

/-- A record but a delivery's is reported to its owner with the owner's store writes. -/
theorem reportWritten_reported {r : Record} (hr : ∀ d, r ≠ .delivery d) (n : Nat) (s : State) :
    Reported s (reportWritten r n s) (reportWrites r s) := by
  cases r with
  | delivery d => exact absurd rfl (hr d)
  | receipt _ | interruption _ => exact .refl s
  | calibration c =>
    cases c with
    | hose h _ _ _ _ _ _ =>
      refine LinkOnly.reported ?_ (fun u => .calibration h (u.cal h).data) fun _ => rfl
      split
      · split
        · exact setHeldWait_linkOnly _ s
        · exact .refl s
      · exact .refl s
    | product p _ _ _ =>
      refine LinkOnly.reported ?_ (fun u => .product p (u.product p).data) fun _ => rfl
      split
      · split
        · exact setHeldWait_linkOnly _ s
        · exact .refl s
      · exact .refl s
  | service x =>
    refine LinkOnly.reported ?_ (fun u => .service x.vehicle (u.vehicle x.vehicle).marks
      (u.vehicle x.vehicle).revision (u.vehicle x.vehicle).usage) fun _ => rfl
    split
    · split
      · exact setHeldWait_linkOnly _ s
      · exact .refl s
    · exact .refl s
  | adjust a =>
    refine LinkOnly.reported ?_ (fun u => .bookRevision a.tank (u.tank a.tank).book (u.tank a.tank).revision)
      fun _ => rfl
    split
    · split
      · exact finishHeld_linkOnly _ _ s
      · exact .refl s
    · exact .refl s

/-- A delivery's report to a hose that is SETTLED with its grant (R29). -/
theorem returnToIdle_settled {s : State} {h : HoseId} {x : Grant} (hst : (s.hose h).state = .settled)
    (hg : (s.hose h).grant = some x) : returnToIdle h s =
      raise (.hoseState h) (.entered .idle) ((clearBinding x.vehicle s).setHose h (s.hose h).toIdle) := by
  simp only [returnToIdle, hst, hg]

theorem State.setHose_self (s : State) (h : HoseId) : s.setHose h (s.hose h) = s := by
  show ({ s with hoses := upd s.hoses h (s.hoses.get h) } : State) = s
  rw [upd_same]

/-- A delivery's report changes its hose, the vehicles and the events alone. -/
theorem returnToIdle_frame (h : HoseId) (s : State) : ∃ x vs ev att, returnToIdle h s =
    { s.setHose h x with vehicles := vs, link := { s.link with events := ev, attention := att } } := by
  unfold returnToIdle
  dsimp only
  split
  · exact ⟨_, _, _, _, rfl⟩
  · exact ⟨s.hose h, s.vehicles, s.link.events, s.link.attention, (State.setHose_self s h).symm⟩

/-- What the report of a record leaves, whatever its kind. -/
theorem reportWritten_frame (r : Record) (n : Nat) (s : State) : ∃ hs vs l, reportWritten r n s =
      { s with
        hoses := hs, vehicles := vs, link := l, store := { s.store with queue := s.store.queue ++ reportWrites r s } }
    ∧ l.rxQueue = s.link.rxQueue := by
  by_cases hr : ∃ d, r = .delivery d
  · obtain ⟨d, rfl⟩ := hr
    obtain ⟨x, vs, ev, att, h⟩ := returnToIdle_frame d.hose s
    refine ⟨(s.setHose d.hose x).hoses, vs, { s.link with events := ev, attention := att }, ?_, rfl⟩
    rw [show reportWrites (.delivery d) s = [] from rfl, List.append_nil]
    exact h
  · have h := reportWritten_reported (fun d e => hr ⟨d, e⟩) n s
    exact ⟨s.hoses, s.vehicles, _, h.frame, h.frames⟩

/-! ### The segment that has taken a slot (R158 to R160) -/

theorem SegmentFollows.congr {s t u : State} {g : SegmentId} {seq : Nat} {newest : Option (Nat × Nat)}
    {ws : List StoreWrite} (h : SegmentFollows s t g seq newest ws) (hs : u.journal.segments = t.journal.segments)
    (hw : u.journal.highWater = t.journal.highWater) : SegmentFollows s u g seq newest ws := by
  have hk : ∀ k, u.journal.segment k = t.journal.segment k := fun k => congrArg (fun v => v.get k) hs
  refine ⟨fun hr => ?_, fun hn k hk' => ?_, fun hn hf => ?_⟩
  · obtain ⟨h1, h2, h3⟩ := h.room hr
    exact ⟨hw.trans h1, fun k hkg => (hk k).trans (h2 k hkg), h3⟩
  · obtain ⟨h1, h2, h3, h4⟩ := h.next hn k hk'
    exact ⟨hw.trans h1, (hk k).trans h2, fun i hi hik => (hk i).trans (h3 i hi hik), by rw [h4, hw]⟩
  · obtain ⟨h1, h2, h3⟩ := h.noneFree hn hf
    exact ⟨hw.trans h1, fun k hkg => (hk k).trans (h2 k hkg), h3⟩

/-- Two fault tests in a row are one. -/
theorem faultTest_faultTest (s : State) : faultTest (faultTest s) = faultTest s := by
  by_cases h : s.journal.faulted = true ∨ s.journal.reservations ≤ s.journal.free
  · rw [faultTest_stays h, faultTest_stays h]
  · rw [not_or, Bool.not_eq_true, Nat.not_le] at h
    rw [faultTest_enters h.1 h.2]
    exact faultTest_stays (.inl (enterFaulted_enters s).faulted)

/-- The segment change with a fault test after it: the fault test alone follows the change (R160). -/
theorem faultTest_segmentChange (g : SegmentId) (x : State) :
    faultTest (segmentChange g x) = faultTest (segmentPassed g x) := by
  rw [segmentChange_passed]
  split
  · rfl
  · exact faultTest_faultTest _

/-- The state after a slot has taken a record, before its segment changes (R157). -/
def recordWritten (g : SegmentId) (r : Record) (st : Stamp) (rest : List Queued) (s : State) : State :=
  s.setJournal { useSlot g (.written { record := r, stamp := st }) s.journal with
    newest := some (st.seq, st.time), queue := rest, reservations := s.journal.reservations - 1, writing := false }

theorem writeSucceeds_eq (g : SegmentId) (r : Record) (st : Stamp) (rest : List Queued) (s : State) :
    writeSucceeds g r st rest s = (reportWritten r st.seq (segmentChange g (recordWritten g r st rest s))).tested :=
  thresholdTest_tested _

section
variable {s : State} {g : SegmentId}

theorem useSlot_self (x : Slot) (j : Journal) :
    (useSlot g x j).segment g = { j.segment g with slots := (j.segment g).slots ++ [x] } := Journal.setSegment_self _ _ _

theorem useSlot_ne {k : SegmentId} (x : Slot) (j : Journal) (h : k ≠ g) : (useSlot g x j).segment k = j.segment k :=
  Journal.setSegment_ne _ _ h

/-- A record that is written ends its reservation with its slot: the journal does not enter FAULTED. -/
theorem segmentChange_recordWritten (hs : s.journal.SegmentsSound) (hspare : s.journal.spare)
    (hg : (s.journal.segment g).state = .active) (r : Record) (st : Stamp) (rest : List Queued) :
    segmentChange g (recordWritten g r st rest s) = segmentPassed g (recordWritten g r st rest s) := by
  obtain ⟨hloose, hfree, hactive⟩ := Kept.useSlot_law hs hg (.written { record := r, stamp := st })
  have hloose' : (recordWritten g r st rest s).journal.SegmentsLoose := ⟨hloose.one, hloose.blank, hloose.erasing⟩
  have hpassed := segmentPassed_free (g := g) hloose' hactive
  have hfree' : (recordWritten g r st rest s).journal.free + 1 = s.journal.free := hfree
  have hjournal : ∀ {t : State}, SegmentPassed s (recordWritten g r st rest s) t g →
      t.journal.faulted = s.journal.faulted ∧ t.journal.reservations = s.journal.reservations - 1 := fun h => by
    rw [h.journal]
    exact ⟨rfl, rfl⟩
  rw [segmentChange_passed]
  split
  · rfl
  · refine faultTest_stays ?_
    obtain ⟨hfaulted, hres⟩ := hjournal (segmentPassed_passed (s := s) hactive hg
      (fun k hk => useSlot_ne _ _ hk) rfl (by
        rw [show (recordWritten g r st rest s).journal.segment g = _ from useSlot_self _ _]
        exact List.length_append))
    rw [hfaulted, hres, hpassed]
    cases hf : s.journal.faulted with
    | true => exact .inl rfl
    | false =>
      have := hspare hf
      exact .inr (by omega)

end

theorem State.tested_rxQueue (u : State) : u.tested.link.rxQueue = u.link.rxQueue := by
  obtain ⟨_, _, _, e⟩ := thresholdTest_frame u
  rw [← thresholdTest_tested, e]

/-! ### A write that fails (R159) -/

/-- The state after a slot is VOID and its segment worn, before the segment changes (R159). -/
def slotVoided (g : SegmentId) (s : State) : State :=
  wear g (s.setJournal { useSlot g .void s.journal with writing := false })

theorem writeFails_eq (g : SegmentId) (s : State) : writeFails g s = faultTest (segmentPassed g (slotVoided g s)) :=
  faultTest_segmentChange g (slotVoided g s)

/-- A failed slot: VOID, the segment worn, and the worn marks' store write where it was not (R159). -/
structure SlotVoided (s x : State) (g : SegmentId) : Prop where
  segment : x.journal.segment g =
    { s.journal.segment g with worn := true, slots := (s.journal.segment g).slots ++ [.void] }
  others : ∀ k, k ≠ g → x.journal.segment k = s.journal.segment k
  store : x.store = { s.store with
    queue := s.store.queue ++ if (s.journal.segment g).worn then [] else [.wornMarks x.journal.wornMarks] }
  journal : x.journal = { s.journal with segments := x.journal.segments, writing := false }
  frame : x = { s with journal := x.journal, store := x.store }

theorem slotVoided_voided (g : SegmentId) (s : State) : SlotVoided s (slotVoided g s) g := by
  unfold slotVoided wear
  generalize hj : ({ useSlot g .void s.journal with writing := false } : Journal) = j
  have hself : j.segment g = { s.journal.segment g with slots := (s.journal.segment g).slots ++ [.void] } :=
    hj ▸ useSlot_self _ _
  have hne : ∀ k, k ≠ g → j.segment k = s.journal.segment k := fun k hk => hj ▸ useSlot_ne _ _ hk
  have hframe : j = { s.journal with segments := j.segments, writing := false } := by rw [← hj]; rfl
  have hworn : (j.segment g).worn = (s.journal.segment g).worn := by rw [hself]
  dsimp only
  cases hw : (s.journal.segment g).worn with
  | true =>
    rw [if_pos (by rw [State.setJournal_journal, hworn, hw])]
    exact ⟨by rw [State.setJournal_journal, hself, ← hw], hne, by rw [if_pos hw, List.append_nil]; rfl, hframe, rfl⟩
  | false =>
    rw [if_neg (by rw [State.setJournal_journal, hworn, hw]; exact Bool.false_ne_true)]
    refine ⟨?_, fun k hk => (Journal.setSegment_ne _ _ hk).trans (hne k hk),
      by rw [if_neg (by rw [hw]; exact Bool.false_ne_true)]; rfl, ?_, rfl⟩
    · refine (Journal.setSegment_self _ _ _).trans ?_
      rw [State.setJournal_journal, hself]
    · rw [hframe]
      rfl

theorem SlotVoided.worn {s x : State} {g : SegmentId} (h : SlotVoided s x g) (k : SegmentId) :
    x.journal.wornMarks.get k = ((s.journal.segment k).worn || decide (k = g)) := by
  unfold Journal.wornMarks
  rw [vmap_get]
  show (x.journal.segment k).worn = _
  by_cases hk : k = g
  · rw [hk, h.segment]; simp
  · rw [h.others k hk]; simp [hk]

/-- The entry to FAULTED reads neither the segments nor the store. -/
theorem EntersFaulted.congr {s t : State} {j : Journal} {q : Store} (hn : j.newest = s.journal.newest)
    (h : EntersFaulted { s with journal := j, store := q } t) : EntersFaulted s t := by
  have conv : ∀ (l : Link), t.link = (raise .journal .faulted
      ({ s with journal := j, link := l, store := q } : State)).link →
      t.link = (raise .journal .faulted ({ s with link := l } : State)).link := fun l e =>
    e.trans (raise_link_congr _ _ rfl rfl rfl hn)
  refine ⟨h.faulted, fun k tag wait hh => ?_, fun hh => conv _ (h.alone hh)⟩
  have he := h.early k tag wait hh
  intro answers
  cases wait with
  | calWrite _ o | productSet _ o | serviceDone _ o => cases o <;> exact conv _ he
  | stockAdjust _ _ _ => exact conv _ he
  | hoseSet _ | tankSet _ | strapSet _ | pumpSet _ | vehiclePut _ | loadNext _ _ _ _ | hoursSet _
  | classSet _ _ _ _ _ | siteSet => exact conv _ he

theorem endJournalWrite_eq {s : State} {g : SegmentId} {r : Record} {st : Stamp} {rest : List Queued} (agrees : Bool)
    (hw : s.journal.writing = true) (ha : s.journal.active = some g)
    (hq : s.journal.queue = { record := r, stamp := some st } :: rest) :
    endJournalWrite agrees s = if agrees then writeSucceeds g r st rest s else writeFails g s := by
  simp only [endJournalWrite, hw, ha, hq]

theorem exec_journalWriteComplete {s : State} (hr : s.phase = .running) (agrees : Bool) :
    exec (.journalWriteComplete agrees) s = .next (drain (endJournalWrite agrees s)) :=
  congrArg Host.Outcome.next (whenWriting_running hr _)

/-- The answers to the request that waits for a record (R63, R89, R147). -/
theorem reportWritten_held {s : State} {k tag : Byte} {wait : HeldWait} (n : Nat)
    (hh : s.link.held = some { kind := k, tag := tag, wait := wait }) :
    let keeps := fun (u : State) (w : HeldWait) =>
      u.link = { s.link with held := some { kind := k, tag := tag, wait := w } }
    (∀ (h : HoseId) (k1 k2 m f1 f2 c : Nat), wait = .calWrite h none →
      keeps (reportWritten (.calibration (.hose h k1 k2 m f1 f2 c)) n s) (.calWrite h (some n)))
    ∧ (∀ (p : ProductId) (b1 b2 : Nat) (name : Name), wait = .productSet p none →
      keeps (reportWritten (.calibration (.product p b1 b2 name)) n s) (.productSet p (some n)))
    ∧ (∀ x : ServiceRecord, wait = .serviceDone x.vehicle none →
      keeps (reportWritten (.service x) n s) (.serviceDone x.vehicle (some n)))
    ∧ (∀ (a : AdjustRecord) (book : Int), wait = .stockAdjust a.tank book a.revision →
      (reportWritten (.adjust a) n s).link = ((s.setLink { s.link with held := none }).answered (replyKind k) tag .ok
        (.adjusted a.newBook a.revision (some n))).link) := by
  refine ⟨fun h _ _ _ _ _ _ hw => ?_, fun p _ _ _ hw => ?_, fun x hw => ?_, fun a book hw => ?_⟩ <;> subst hw
  · simp only [reportWritten, calibrationWritten, hh, setHeldWait, if_true]
    rfl
  · simp only [reportWritten, calibrationWritten, hh, setHeldWait, if_true]
    rfl
  · simp only [reportWritten, serviceWritten, hh, setHeldWait, if_true]
    rfl
  · simp only [reportWritten, adjustWritten, hh, finishHeld, decide_true, Bool.and_self, if_true]
    rfl

/-- Settles O47: a write that agrees by its slot, its segment and its report; one that fails by its slot, its segment and
the fault test. -/
theorem journalWriteEnds : Obligations.JournalWriteEnds := by
  intro s g r st rest hr hrx hw ha hq hsound hspare used after
  have hg : (s.journal.segment g).state = .active := Journal.active_state ha
  refine ⟨?_, ?_⟩
  · have hself : (recordWritten g r st rest s).journal.segment g = _ := useSlot_self _ _
    have hlength : ((recordWritten g r st rest s).journal.segment g).slots.length = used.length + 1 := by
      rw [hself]
      exact List.length_append
    have hpassed := segmentPassed_passed (s := s) (x := recordWritten g r st rest s) (g := g)
      (by rw [hself]; exact hg) hg (fun k hk => useSlot_ne _ _ hk) rfl hlength
    have hexec : exec (.journalWriteComplete true) s =
        .next (drain (reportWritten r st.seq (segmentPassed g (recordWritten g r st rest s))).tested) := by
      rw [exec_journalWriteComplete hr, endJournalWrite_eq true hw ha hq, if_pos rfl, writeSucceeds_eq,
        segmentChange_recordWritten hsound hspare hg]
    generalize segmentPassed g (recordWritten g r st rest s) = p at hpassed hexec
    obtain ⟨⟨ws, hfollows, hstore⟩, hsegment, hjournal, hframe⟩ := hpassed
    have hp : p = { s with journal := p.journal, store := p.store } := hframe.trans rfl
    generalize p.journal = j at *
    generalize p.store = q at *
    subst hp
    have hnewest : j.newest = some (st.seq, st.time) := (congrArg Journal.newest hjournal).trans rfl
    obtain ⟨hs', vs, l, hu, hl⟩ := reportWritten_frame r st.seq { s with journal := j, store := q }
    have hreported := fun h : ∀ d, r ≠ .delivery d =>
      reportWritten_reported h st.seq { s with journal := j, store := q }
    have hju : (reportWritten r st.seq { s with journal := j, store := q }).journal = j :=
      (congrArg State.journal hu).trans rfl
    have hxu : (reportWritten r st.seq { s with journal := j, store := q }).link.rxQueue = [] :=
      ((congrArg (fun u => u.link.rxQueue) hu).trans hl).trans hrx
    refine ⟨reportWritten r st.seq { s with journal := j, store := q }, ws, ?_, ?_, ?_, ?_, ?_,
      fun d x hrd hst hgrant hsv => ?_, fun hnd => ?_, fun h hnh => ?_, fun k tag wait hh => ?_, fun hnd hh => ?_, ?_⟩
    · rw [hexec, drain_empty ((State.tested_rxQueue _).trans hxu)]
    · rw [hju]
      exact hjournal
    · rw [hju, hsegment, hlength, hself]
    · exact hfollows.congr (congrArg Journal.segments hju) (congrArg Journal.highWater hju)
    · refine (congrArg State.store hu).trans ?_
      subst hstore
      rfl
    · subst hrd
      rw [show reportWritten (.delivery d) st.seq { s with journal := j, store := q } = _ from
        returnToIdle_settled (s := { s with journal := j, store := q }) hst hgrant]
      exact ⟨State.setHose_hose_self _ _ _, State.setVehicle_vehicle_self (s := { s with journal := j, store := q }) hsv,
        fun v hv => State.setVehicle_vehicle_ne (s := { s with journal := j, store := q }) hv,
        raise_link_congr _ _ rfl rfl rfl hnewest⟩
    · exact (congrArg State.vehicles (hreported hnd).frame).trans rfl
    · by_cases hd : ∃ d, r = .delivery d
      · obtain ⟨d, rfl⟩ := hd
        obtain ⟨x, _, _, _, he⟩ := returnToIdle_frame d.hose { s with journal := j, store := q }
        exact (congrArg (fun u => u.hose h) he).trans (State.setHose_hose_ne s _ (Ne.symm (hnh d rfl)))
      · exact (congrArg (fun u => u.hose h) (hreported fun d e => hd ⟨d, e⟩).frame).trans rfl
    · obtain ⟨h1, h2, h3, h4⟩ := reportWritten_held (s := { s with journal := j, store := q }) st.seq hh
      refine ⟨fun h _ _ _ _ _ _ hrd hwait => ?_, fun p _ _ _ hrd hwait => ?_, fun x hrd hwait => ?_,
        fun a book hrd hwait => ?_⟩ <;> subst hrd
      · exact h1 h _ _ _ _ _ _ hwait
      · exact h2 p _ _ _ hwait
      · exact h3 x hwait
      · exact h4 a book hwait
    · exact (hreported hnd).free hh
    · generalize reportWritten r st.seq { s with journal := j, store := q } = u at hu
      rw [hu]
  · have hvoided := slotVoided_voided g s
    have hself := hvoided.segment
    have hlength : ((slotVoided g s).journal.segment g).slots.length = used.length + 1 := by
      rw [hself]
      exact List.length_append
    have hpassed := segmentPassed_passed (s := s) (x := slotVoided g s) (g := g)
      (by rw [hself]; exact hg) hg hvoided.others (by rw [hvoided.journal]) hlength
    have hstoreVoided := hvoided.store
    have hexec : exec (.journalWriteComplete false) s =
        .next (drain (faultTest (segmentPassed g (slotVoided g s)))) := by
      rw [exec_journalWriteComplete hr, endJournalWrite_eq false hw ha hq, if_neg Bool.false_ne_true, writeFails_eq]
    generalize segmentPassed g (slotVoided g s) = p at hpassed hexec
    obtain ⟨⟨ws, hfollows, hstore⟩, hsegment, hjournal, hframe⟩ := hpassed
    have hp : p = { s with journal := p.journal, store := p.store } := hframe.trans
      (congrArg (fun x : State => { x with journal := p.journal, store := p.store }) hvoided.frame)
    have hcoming : (slotVoided g s).journal.comingSeq = st.seq := by
      rw [hvoided.journal]
      simp only [Journal.comingSeq, hq]
    rw [hcoming, show (slotVoided g s).journal.newest = s.journal.newest by rw [hvoided.journal]] at hfollows
    have hpj : p.journal = { s.journal with
        segments := p.journal.segments, highWater := p.journal.highWater, writing := false } := by
      rw [hjournal, hvoided.journal]
    have hworn := hvoided.worn
    generalize (slotVoided g s).journal.wornMarks = m at hstoreVoided hworn
    rw [hstoreVoided] at hstore
    obtain ⟨f, l, ht, hl, _⟩ := faultTest_frame p
    have htj : (faultTest p).journal = { p.journal with faulted := f } := by rw [ht]
    have hfree : (faultTest p).journal.free = p.journal.free := Kept.free_congr (by rw [htj])
    have hres : (faultTest p).journal.reservations = p.journal.reservations := by rw [htj]
    have hpf : p.journal.faulted = s.journal.faulted := by rw [hpj]
    have hpl : p.link = s.link := (congrArg State.link hp).trans rfl
    have hxt : (faultTest p).link.rxQueue = [] := by
      rw [ht]
      exact hl.trans ((congrArg Link.rxQueue hpl).trans hrx)
    refine ⟨faultTest p, m, ws, by rw [hexec, drain_empty hxt], ?_, ?_, ?_, ?_, hworn, fun hf hlt => ?_, fun h => ?_, ?_⟩
    · rw [htj]
      conv_lhs => rw [hpj]
    · rw [htj]
      refine hsegment.trans ?_
      rw [hlength, hself]
    · exact hfollows.congr (by rw [htj]) (by rw [htj])
    · rw [ht]
      exact hstore
    · rw [hfree, hres] at hlt
      have henters := enterFaulted_enters p
      rw [faultTest_enters (hpf.trans hf) hlt]
      rw [hp] at henters ⊢
      exact henters.congr (by rw [hpj])
    · rw [hfree, hres, ← hpf] at h
      rw [faultTest_stays h]
      exact ⟨hpf, hpl⟩
    · rw [ht]
      conv_lhs => rw [hp]

end Sys2Proof.Machine


/-! PROOFS. The settings store: the beginning of its writes, and what a completion makes of the store, of the block that
began the write and of the request that waits for it. -/

namespace Sys2Proof.Machine

open Sys2Proof

/-! ### The store's vehicles -/

theorem Stored.setVehicle_self {st : Stored} {v : VehicleId} {x : StoredVehicle} (h : st.vehiclesSound = true) :
    (st.setVehicle v x).vehicle v = x :=
  Sparse.get_set_self h

theorem Stored.setVehicle_ne {st : Stored} {v u : VehicleId} {x : StoredVehicle} (h : u ≠ v) :
    (st.setVehicle v x).vehicle u = st.vehicle u :=
  Sparse.get_set_ne fun e => h (Fin.ext e)

theorem Stored.setVehicle_sound {st : Stored} {v : VehicleId} {x : StoredVehicle} (h : st.vehiclesSound = true) :
    (st.setVehicle v x).vehiclesSound = true :=
  Sparse.wf_set v.isLt h

theorem storePlaced_self {st : Stored} (p : PlacedRecord) (h : st.vehiclesSound = true) :
    ((storePlaced p st).vehicle p.vehicle).host = p.host
    ∧ ((storePlaced p st).vehicle p.vehicle).revision = p.revision := by
  rw [show (storePlaced p st).vehicle p.vehicle = _ from Stored.setVehicle_self h]
  exact ⟨rfl, rfl⟩

theorem storePlaced_ne {st : Stored} (p : PlacedRecord) {v : VehicleId} (h : p.vehicle ≠ v) :
    (storePlaced p st).vehicle v = st.vehicle v :=
  Stored.setVehicle_ne (Ne.symm h)

/-- The records of a request are stored, each at its own index; no other index changes, and nothing else does. -/
theorem storePlaced_all (ps : List PlacedRecord) (hn : (ps.map (·.vehicle)).Nodup) (st : Stored)
    (h : st.vehiclesSound = true) :
    let x := ps.foldl (fun st p => storePlaced p st) st
    x = { st with vehicles := x.vehicles }
    ∧ (∀ p ∈ ps, (x.vehicle p.vehicle).host = p.host ∧ (x.vehicle p.vehicle).revision = p.revision)
    ∧ (∀ v : VehicleId, (∀ p ∈ ps, p.vehicle ≠ v) → x.vehicle v = st.vehicle v) := by
  induction ps generalizing st with
  | nil => exact ⟨rfl, nofun, fun _ _ => rfl⟩
  | cons q ps ih =>
    rw [List.map_cons, List.nodup_cons] at hn
    obtain ⟨hq, hn⟩ := hn
    obtain ⟨hframe, hin, hout⟩ := ih hn (storePlaced q st) (Stored.setVehicle_sound h)
    refine ⟨hframe.trans rfl, fun p hp => ?_, fun v hv => ?_⟩
    · rcases List.mem_cons.mp hp with rfl | hp
      · have hother : ∀ p' ∈ ps, p'.vehicle ≠ p.vehicle := fun p' hp' e => hq (e ▸ List.mem_map_of_mem hp')
        rw [List.foldl_cons, hout p.vehicle hother]
        exact storePlaced_self p h
      · exact hin p hp
    · rw [List.foldl_cons, hout v fun p hp => hv p (List.mem_cons_of_mem _ hp)]
      exact storePlaced_ne q (hv q List.mem_cons_self)

/-! ### The beginning of a write (R194) -/

theorem beginStoreWrite_begins {s : State} {w : StoreWrite} {rest : List StoreWrite} (hi : s.store.inFlight = none)
    (hq : s.store.queue = w :: rest) :
    beginStoreWrite s = s.setStore { s.store with inFlight := some w, queue := rest } := by
  simp only [beginStoreWrite, hi, hq]

theorem beginStoreWrite_stays {s : State} (h : s.store.inFlight ≠ none ∨ s.store.queue = []) :
    beginStoreWrite s = s := by
  unfold beginStoreWrite
  split
  next hi hq =>
    rcases h with h | h
    · exact absurd hi h
    · exact nomatch h.symm.trans hq
  next => rfl

/-! ### The completion of a write (R194) -/

/-- A completion's block takes it on the state whose store holds what was written. -/
theorem exec_settingsWriteComplete {s t : State} {w : StoreWrite} (hr : s.phase = .running)
    (hi : s.store.inFlight = some w)
    (ht : writeStored w (s.setStore { s.store with inFlight := none, stored := applyWrite w s.store.stored }) = t)
    (hx : t.link.rxQueue = []) : exec .settingsWriteComplete s = .next t := by
  refine congrArg Host.Outcome.next ((whenWriting_running hr _).trans ?_)
  simp only [endStoreWrite, hi]
  rw [ht, drain_empty hx]

section
variable {s : State} {k tag : Byte} {wait : HeldWait}

/-- A held request is answered and leaves the link. -/
theorem finishHeld_held (hh : s.link.held = some { kind := k, tag := tag, wait := wait }) (c : StatusCode)
    (b : ReplyBody) :
    finishHeld c b s = (s.setLink { s.link with held := none }).answered (replyKind k) tag c b := by
  simp only [finishHeld, hh]
  rfl

theorem answerHeld_held (hh : s.link.held = some { kind := k, tag := tag, wait := wait }) (b : ReplyBody) :
    answerHeld wait b s = (s.setLink { s.link with held := none }).answered (replyKind k) tag .ok b := by
  simp only [answerHeld, hh, if_true]
  exact finishHeld_held hh _ _

theorem calStored_held {h : HoseId} {seq : Nat}
    (hh : s.link.held = some { kind := k, tag := tag, wait := .calWrite h (some seq) }) :
    calStored h s = ((s.setCal h { s.cal h with pending := false }).setLink { s.link with held := none }).answered
      (replyKind k) tag .ok (.calWritten (s.cal h).data.count (some seq)) := by
  have hcal : ((s.setCal h { s.cal h with pending := false }).cal h).data = (s.cal h).data := by
    rw [State.setCal_cal_self]
  simp only [calStored, State.setCal_link, hh, if_true, hcal]
  exact finishHeld_held (s := s.setCal h { s.cal h with pending := false }) hh _ _

theorem productStored_held {p : ProductId} {seq : Nat}
    (hh : s.link.held = some { kind := k, tag := tag, wait := .productSet p (some seq) }) :
    productStored p s =
      ((s.setProduct p { s.product p with pending := false }).setLink { s.link with held := none }).answered
        (replyKind k) tag .ok (.productWritten (some seq)) := by
  simp only [productStored, State.setProduct_link, hh, if_true]
  exact finishHeld_held (s := s.setProduct p { s.product p with pending := false }) hh _ _

theorem serviceStored_held {v : VehicleId} {seq : Nat} (hw : s.vehiclesSound = true)
    (hh : s.link.held = some { kind := k, tag := tag, wait := .serviceDone v (some seq) }) :
    serviceStored v s =
      ((s.setVehicle v { s.vehicle v with servicePending := false }).setLink { s.link with held := none }).answered
        (replyKind k) tag .ok (.serviceDone (s.vehicle v).revision (s.vehicle v).status (some seq)) := by
  have hv : (s.setVehicle v { s.vehicle v with servicePending := false }).vehicle v =
      { s.vehicle v with servicePending := false } := State.setVehicle_vehicle_self hw
  simp only [serviceStored, State.setVehicle_link, hh, if_true, hv]
  exact finishHeld_held (s := s.setVehicle v { s.vehicle v with servicePending := false }) hh _ _

theorem vehiclesStored_put {v : VehicleId}
    (hh : s.link.held = some { kind := k, tag := tag, wait := .vehiclePut v }) :
    vehiclesStored s = (s.setLink { s.link with held := none }).answered (replyKind k) tag .ok
      (.putDone (s.vehicle v).revision (s.vehicle v).status) := by
  simp only [vehiclesStored, hh]
  exact finishHeld_held hh _ _

theorem vehiclesStored_load {c : StatusCode} {placed next : Nat} {holder : Option VehicleId}
    (hh : s.link.held = some { kind := k, tag := tag, wait := .loadNext c placed next holder }) :
    vehiclesStored s = (s.setLink { s.link with held := none }).answered (replyKind k) tag c
      (.loadProgress placed next s.loadSession.isSome holder) := by
  simp only [vehiclesStored, hh]
  exact finishHeld_held hh _ _

theorem classStored_held {c : ClassId} {next swept changed : Nat}
    (hh : s.link.held = some { kind := k, tag := tag, wait := .classSet c false next swept changed }) :
    classStored c s =
      if nextOfClass c next s = none then
        (s.setLink { s.link with held := none }).answered (replyKind k) tag .ok (.classSet swept changed)
      else s.holding k tag (.classSet c true next swept changed) := by
  simp only [classStored, hh, if_true, setHeldWait]
  refine (finishClassSet_holding s k tag c true next swept changed).trans ?_
  simp only [true_and]

/-- A usage write's completion begins the write that waits behind it (R128). -/
theorem usageStored_eq (v : VehicleId) : usageStored v s =
    match (s.vehicle v).usageWrite with
    | .none => s
    | .inFlight => s.setVehicle v { s.vehicle v with usageWrite := .none }
    | .again => beginWrite (.usage v (s.vehicle v).usage) (s.setVehicle v { s.vehicle v with usageWrite := .inFlight }) :=
  rfl

end

/-- With an eligible segment and none being erased, an erase begins (R165). -/
theorem startErase_eligible {s : State} {g : SegmentId} (he : s.journal.erase = none)
    (hg : g ∈ s.journal.eligibleSegments s.store.stored.ack) : ∃ k, (startErase s).journal.erase = some k := by
  obtain ⟨k, rest, hl⟩ := List.exists_cons_of_ne_nil
    (List.ne_nil_of_mem (List.mem_append_right s.journal.cutShort hg))
  rw [startErase_begins he hl]
  exact ⟨k, rfl⟩

/-- An acknowledgement's write changes the state of its own write alone (R164). -/
theorem ackStored_erases {s : State} : (ackStored s).journal.erase = s.journal.erase
    ∧ (ackStored s).journal.segments = s.journal.segments
    ∧ (ackStored s).store.stored = s.store.stored ∧ (ackStored s).phase = s.phase
    ∧ (ackStored s).link = s.link := by
  unfold ackStored
  dsimp only
  split <;> exact ⟨rfl, rfl, rfl, rfl, rfl⟩

/-- Settles O50: the beginning of a write; then a completion for each kind of write and each request that waits. -/
theorem storeWritesAndAnswers : Obligations.StoreWritesAndAnswers := by
  refine ⟨fun s hr => ⟨fun w rest hi hq => ?_, fun h => ?_⟩, fun s k tag hr hx => ?_⟩
  · exact congrArg Host.Outcome.next ((whenLive_running hr _).trans (beginStoreWrite_begins hi hq))
  · exact congrArg Host.Outcome.next ((whenLive_running hr _).trans (beginStoreWrite_stays h))
  intro st taken answered done waits completes vehicleStored
  have stored : ∀ {w : StoreWrite} {t : State},
      writeStored w (taken s (applyWrite w st)) = t → t.link.rxQueue = [] → completes w t :=
    fun ht hx hi => exec_settingsWriteComplete hr hi ht hx
  have held : ∀ {w : StoreWrite} {wait : HeldWait}, waits wait →
      (taken s (applyWrite w st)).link.held = some { kind := k, tag := tag, wait := wait } := fun h => h
  refine ⟨fun h c hh => stored (w := .hoseConfig h c) (answerHeld_held (held hh) _) hx,
    fun t c n hh => stored (w := .tankConfig t c n) (answerHeld_held (held hh) _) hx,
    fun t p n hh => stored (w := .strap t p n) (answerHeld_held (held hh) _) hx,
    fun t c hh => stored (w := .pumpConfig t c) (answerHeld_held (held hh) _) hx,
    fun x hh => stored (w := .siteSettings x) (answerHeld_held (held hh) _) hx,
    fun h d seq hh => stored (w := .calibration h d) (calStored_held (held hh)) hx,
    fun p d seq hh => stored (w := .product p d) (productStored_held (held hh)) hx,
    fun v p hh => stored (w := .vehicles [p]) (vehiclesStored_put (held hh)) hx,
    fun ps c placed next holder hh hw hn => ?_,
    fun v u n hh => stored (w := .hours v u n) (answerHeld_held (held hh) _) hx,
    fun v m n u seq hw hh => stored (w := .service v m n u) (serviceStored_held hw (held hh)) hx,
    fun c r next swept changed hh => ?_, fun v u hw => ?_, fun n => ?_,
    fun h gross net => stored (w := .totalizers h gross net) rfl hx, fun t b => stored (w := .book t b) rfl hx,
    fun t b n => stored (w := .bookRevision t b n) rfl hx, fun x => stored (w := .highWater x) rfl hx,
    fun m => ⟨stored (w := .wornMarks m) rfl hx, stored (w := .retiredMarks m) rfl hx⟩⟩
  · obtain ⟨hframe, hin, hout⟩ := storePlaced_all ps hn st hw
    exact ⟨_, stored (w := .vehicles ps) (vehiclesStored_load (held hh)) hx, hframe, hin, hout⟩
  · have hc := classStored_held (s := taken s (applyWrite (.classRecord c r) st)) hh
    exact ⟨fun hnone => stored (w := .classRecord c r) (hc.trans (if_pos hnone)) hx, fun hsome => stored (w := .classRecord c r) (hc.trans (if_neg hsome)) hx⟩
  · intro x r
    have hu := usageStored_eq (s := taken s (applyWrite (.usage v u) st)) v
    refine ⟨fun h => stored (w := .usage v u) (hu.trans ?_) hx, fun h => stored (w := .usage v u) (hu.trans ?_) hx, fun h => stored (w := .usage v u) (hu.trans ?_) hx⟩ <;>
      rw [show ((taken s (applyWrite (.usage v u) st)).vehicle v).usageWrite = _ from h]
    · rfl
    · rfl
    · rfl
  · intro x
    have hack : ∀ w, s.journal.ackWrite = w → ackStored (taken s (applyWrite (.ackThrough n) st)) =
        match w with
        | .none => taken s x
        | .inFlight => (taken s x).setJournal { s.journal with ackWrite := .none }
        | .again => ((taken s x).setJournal { s.journal with ackWrite := .inFlight }).setStore
            { queue := s.store.queue ++ [.ackThrough s.journal.ack], inFlight := none, stored := x } := fun w h => by
      unfold ackStored
      dsimp only
      rw [show (taken s (applyWrite (.ackThrough n) st)).journal.ackWrite = w from h]
      cases w <;> rfl
    refine ⟨fun h => stored (w := .ackThrough n) (hack _ h) hx, fun h => stored (w := .ackThrough n) (hack _ h) hx, fun h => stored (w := .ackThrough n) (hack _ h) hx,
      fun g hi he hg hall => ?_⟩
    obtain ⟨h1, h2, h4, h5, h6⟩ := ackStored_erases (s := taken s (applyWrite (.ackThrough n) st))
    have hexec : exec .settingsWriteComplete s = .next (ackStored (taken s (applyWrite (.ackThrough n) st))) :=
      exec_settingsWriteComplete hr hi rfl ((congrArg Link.rxQueue h6).trans hx)
    generalize ackStored (taken s (applyWrite (.ackThrough n) st)) = t at *
    have hseg : t.journal.segment g = s.journal.segment g := congrArg (fun v => v.get g) h2
    have hstored : t.store.stored.ack = n := congrArg Stored.ack h4
    obtain ⟨e, hk⟩ := startErase_eligible (s := t) (g := g) (h1.trans he)
      ((mem_eligibleSegments _ _ g).mpr (by rw [hseg, hstored]; exact ⟨hg, hall⟩))
    exact ⟨t, _, e, hexec, exec_eraseStart (h5.trans hr), hk⟩

end Sys2Proof.Machine


/-! PROOFS. The queries on the vehicle register, service accounting, the journal and the part; VEHICLE_FIND; and the
places of the fields in the images that VEHICLE_GET and JOURNAL_READ return. -/

namespace Sys2Proof.Machine

open Sys2Proof

/-! ### The service query and the due list (R143, R150) -/

section
variable {α : Type} [DecidableEq α] {x : α} {xs : List α}

theorem positionFrom_isSome (n : Nat) : (positionFrom n xs x).isSome = true ↔ x ∈ xs := by
  induction xs generalizing n with
  | nil => simp [positionFrom]
  | cons y xs ih =>
    unfold positionFrom
    split
    next h => simp [h]
    next h => rw [ih, List.mem_cons, or_iff_right (Ne.symm h)]

/-- The position found from `n` on is that many places on. -/
theorem positionFrom_some {n k : Nat} (h : positionFrom n xs x = some k) : n ≤ k ∧ xs[k - n]? = some x := by
  induction xs generalizing n with
  | nil => cases h
  | cons y xs ih =>
    unfold positionFrom at h
    split at h
    next hy =>
      obtain rfl := Option.some.inj h
      exact ⟨Nat.le_refl _, by rw [Nat.sub_self, hy]; rfl⟩
    next =>
      obtain ⟨hle, hget⟩ := ih h
      refine ⟨by omega, ?_⟩
      rw [show k - n = (k - (n + 1)) + 1 by omega]
      exact hget

end

theorem worstOf_map_iff (s : State) (v : VehicleId) (w : LineId) : (s.worstOf v).map (·.1) = some w ↔
    (s.vehicle v).worstIs (s.classOf (s.vehicle v).host.cls) w := by
  rw [Option.map_eq_some_iff]
  constructor
  · rintro ⟨⟨w', n⟩, h, rfl⟩
    exact ((worstOf_iff s v _ _).mp h).1
  · intro h
    exact ⟨(w, _), (worstOf_iff s v w _).mpr ⟨h, rfl⟩, rfl⟩

/-! ### The places of fields in a record's image (R203, 11.3, 11.4) -/

/-- A field of a sequence of fields of given widths stands after the fields before it. -/
theorem field_at {segs : List (List Byte)} {widths : List Nat} (hw : segs.map List.length = widths) (i : Nat)
    {x : List Byte} {n : Nat} (hx : segs[i]? = some x) (hn : widths[i]? = some n) :
    ∃ pre post, segs.flatten = pre ++ (x ++ post) ∧ pre.length = (widths.take i).sum ∧ x.length = n := by
  obtain ⟨hlt, rfl⟩ := List.getElem?_eq_some_iff.mp hx
  refine ⟨(segs.take i).flatten, (segs.drop (i + 1)).flatten, ?_, ?_, ?_⟩
  · conv_lhs => rw [← List.take_append_drop i segs, List.drop_eq_getElem_cons hlt]
    rw [List.flatten_append, List.flatten_cons]
  · rw [List.length_flatten, ← hw, List.map_take]
  · rw [← hw, List.getElem?_map, hx] at hn
    exact Option.some.inj hn

/-- A field of an image that is its fields one after the other. -/
theorem image_field {segs : List (List Byte)} {widths : List Nat} (hw : segs.map List.length = widths) (i : Nat)
    {b x : List Byte} {o n : Nat} (hb : b = segs.flatten) (hx : segs[i]? = some x) (ho : (widths.take i).sum = o)
    (hn : widths[i]? = some n) : (b.drop o).take n = x := by
  obtain ⟨pre, post, hflat, hpre, hlen⟩ := field_at hw i hx hn
  rw [hb, hflat, List.drop_left' (hpre.trans ho), List.take_left' hlen]

/-- The fields of a record stand in its slot from byte 10 on. -/
theorem slotImage_drop (r : JRecord) {o n : Nat} (h : o + n ≤ 52) :
    ((slotImage r).drop (10 + o)).take n = (r.record.fields.drop o).take n := by
  unfold slotImage
  dsimp only
  rw [List.append_assoc, ← List.drop_drop, List.drop_left' (commonPart_length r), List.drop_append_of_le_length
    (by rw [fields_length]; omega), List.take_append_of_le_length (by rw [List.length_drop, fields_length]; omega)]

/-- A field of a slot whose record's fields begin with those of given widths. -/
theorem slot_field {r : JRecord} {segs : List (List Byte)} {widths : List Nat} {rest : List Byte}
    (hf : r.record.fields = slotFields (segs.flatten ++ rest)) (hw : segs.map List.length = widths) (i : Nat)
    {x : List Byte} {o n : Nat} (hx : segs[i]? = some x) (hn : widths[i]? = some n) (ho : 10 + (widths.take i).sum = o)
    (hle : o + n ≤ 62) : ((slotImage r).drop o).take n = x := by
  obtain ⟨pre, post, hflat, hpre, rfl⟩ := field_at hw i hx hn
  rw [← hpre] at ho
  subst ho
  rw [slotImage_drop r (by omega), hf, hflat]
  unfold slotFields
  rw [List.drop_take, List.take_take, Nat.min_eq_left (by omega), List.append_assoc, List.append_assoc, List.drop_left,
    List.append_assoc, List.take_left]

/-- The check word stands in the last two bytes of a slot (R153). -/
theorem slotImage_checkWord (r : JRecord) :
    ((slotImage r).drop 62).take 2 = beBytes 2 (crc16 ((slotImage r).take 62)).toNat := by
  have hl : (commonPart r ++ r.record.fields).length = 62 := by simp [fields_length, commonPart_length]
  unfold slotImage
  dsimp only
  rw [List.take_left' hl, List.drop_left' hl]
  rfl

/-- The bytes that the fields of a record leave unused are zero. -/
theorem slotFields_pad {fields : List Byte} {n : Nat} (h : fields.length + n = 52) :
    slotFields fields = slotFields (fields ++ List.replicate n 0x00#8) := by
  unfold slotFields
  rw [List.append_assoc, ← List.replicate_add, List.take_append, List.take_append]
  congr 1
  rw [List.take_replicate, List.take_replicate]
  congr 1
  omega

theorem flagWord_eq (d : DeliveryRecord) : d.flagWord =
    d.overspeed.toNat + 2 * d.uncompensated.toNat + 4 * d.regress.toNat + 8 * d.grantFlags.standalone.toNat
      + 16 * d.grantFlags.supervisor.toNat + 32 * d.grantFlags.capped.toNat
      + 64 * d.grantFlags.stockLimited.toNat + 128 * d.overrunLong.toNat + 256 * d.hours.isSome.toNat
      + 512 * d.start.valid.toNat + 1024 * d.finish.valid.toNat + 2048 * (decide (d.path = .host)).toNat := by
  simp only [DeliveryRecord.flagWord, bitsToNat]
  omega

theorem flagByte_eq (p : HostPart) : p.flagByte =
    p.inUse.toNat + 2 * p.enabled.toNat + 4 * p.hostLocked.toNat + 8 * p.standalonePermit.toNat := by
  simp only [HostPart.flagByte, bitsToNat]
  omega

theorem usageFlags_eq (r : Vehicle) : r.usageFlags =
    r.usage.hours.isSome.toNat + 2 * r.usage.meter.toNat + 4 * r.usage.regress.toNat
      + 16 * (r.marks.get 0).hours.isSome.toNat + 32 * (r.marks.get 1).hours.isSome.toNat
      + 64 * (r.marks.get 2).hours.isSome.toNat + 128 * (r.marks.get 3).hours.isSome.toNat := by
  simp only [Vehicle.usageFlags, bitsToNat, Bool.toNat_false]
  omega

/-- The fields of the common part, and what follows it. -/
theorem slotImage_common (r : JRecord) : slotImage r =
    [beBytes 1 r.record.kind, beBytes 4 r.stamp.seq, beBytes 4 r.stamp.time, beBytes 1 r.stamp.valid.toNat,
      r.record.fields ++ beBytes 2 (crc16 (commonPart r ++ r.record.fields)).toNat].flatten := by
  simp only [slotImage, commonPart, List.flatten_cons, List.flatten_nil, List.append_nil, List.append_assoc]

theorem slotImage_common_widths (r : JRecord) :
    [beBytes 1 r.record.kind, beBytes 4 r.stamp.seq, beBytes 4 r.stamp.time, beBytes 1 r.stamp.valid.toNat,
      r.record.fields ++ beBytes 2 (crc16 (commonPart r ++ r.record.fields)).toNat].map List.length =
    [1, 4, 4, 1, 54] := by
  simp only [List.map_cons, List.map_nil, beBytes_length, List.length_append, fields_length]

/-- The fields of a DELIVERY slot in their order (11.3). -/
def deliverySegs (d : DeliveryRecord) : List (List Byte) :=
  [beBytes 1 d.hose.val, beBytes 1 d.tank.val, beBytes 1 (d.product.val + 1), beBytes 2 d.vehicle.val,
    beBytes 8 d.tag.toNat, beBytes 4 (d.hours.getD 0), beBytes 4 d.preset, beBytes 4 d.gross, beBytes 4 d.net,
    beBytesInt 2 d.average, beBytes 1 d.endReason.value, beBytes 2 d.flagWord, beBytes 1 d.statusAtGrant.value,
    beBytes 4 d.start.time, beBytes 4 d.finish.time, beBytes 5 d.grossTotalizer, beBytes 4 0]

theorem deliverySegs_widths (d : DeliveryRecord) :
    (deliverySegs d).map List.length = [1, 1, 1, 2, 8, 4, 4, 4, 4, 2, 1, 2, 1, 4, 4, 5, 4] := by
  simp only [deliverySegs, List.map_cons, List.map_nil, beBytes_length, beBytesInt_length]

theorem deliveryFields_eq (d : DeliveryRecord) : deliveryFields d = slotFields ((deliverySegs d).flatten ++ []) := by
  have hflat : deliveryFields d = (deliverySegs d).flatten := by
    simp only [deliveryFields, deliverySegs, List.flatten_cons, List.flatten_nil, List.append_nil, List.append_assoc]
  unfold slotFields
  rw [List.append_nil, ← hflat]
  exact (List.take_left' (fields_length (.delivery d))).symm

theorem receiptFields_eq (x : ReceiptRecord) : ∃ rest, receiptFields x =
    slotFields ([beBytes 1 x.tank.val, beBytes 1 (x.product.val + 1)].flatten ++ rest) := by
  unfold receiptFields
  simp only [List.append_assoc, List.flatten_cons, List.flatten_nil, List.nil_append]
  exact ⟨_, rfl⟩

theorem hoseCalibrationFields_eq (h : HoseId) (k1 k2 n f1 f2 c : Nat) : ∃ rest,
    calibrationFields (.hose h k1 k2 n f1 f2 c) =
      slotFields ([beBytes 1 h.val, beBytes 2 k1, beBytes 2 k2, beBytes 1 n, beBytes 4 f1, beBytes 4 f2].flatten
        ++ rest) := by
  unfold calibrationFields
  simp only [List.append_assoc, List.flatten_cons, List.flatten_nil, List.nil_append]
  exact ⟨_, rfl⟩

/-- The fields of a product's CALIBRATION slot, the empty ones zero (assumption 8). -/
def productSegs (p : ProductId) (b1 b2 : Nat) (name : Name) : List (List Byte) :=
  [beBytes 1 255, beBytes 1 (p.val + 1), beBytes 2 b1, beBytes 2 b2, name.toList, List.replicate 38 0x00#8]

theorem name_length (n : Vector Byte 8) : n.toList.length = 8 := Vector.length_toList

theorem productSegs_widths (p : ProductId) (b1 b2 : Nat) (name : Name) :
    (productSegs p b1 b2 name).map List.length = [1, 1, 2, 2, 8, 38] := by
  simp only [productSegs, List.map_cons, List.map_nil, beBytes_length, name_length, List.length_replicate]

theorem productCalibrationFields_eq (p : ProductId) (b1 b2 : Nat) (name : Name) :
    calibrationFields (.product p b1 b2 name) = slotFields ((productSegs p b1 b2 name).flatten ++ []) := by
  have hpad := slotFields_pad (n := 38) (fields := beBytes 1 255 ++ beBytes 1 (p.val + 1) ++ beBytes 2 b1 ++ beBytes 2 b2
    ++ name.toList) (by simp only [List.length_append, beBytes_length, name_length])
  refine hpad.trans (congrArg slotFields ?_)
  simp only [productSegs, List.append_assoc, List.flatten_cons, List.flatten_nil, List.append_nil]

/-- The fields of a SERVICE slot whose widths the rules give. -/
def serviceSegs (x : ServiceRecord) : List (List Byte) :=
  [beBytes 2 x.vehicle.val, beBytes 8 x.tag.toNat, x.fleet.toList, beBytes 1 (x.line.val + 1),
    beBytes 4 (x.hours.getD 0), beBytes 4 (x.markHours.getD 0), beBytes 6 x.fuel, beBytes 1 x.statusBefore.value]

theorem serviceSegs_widths (x : ServiceRecord) : (serviceSegs x).map List.length = [2, 8, 8, 1, 4, 4, 6, 1] := by
  simp only [serviceSegs, List.map_cons, List.map_nil, beBytes_length, name_length]

theorem serviceFields_eq (x : ServiceRecord) : ∃ rest, serviceFields x =
    slotFields ((serviceSegs x).flatten ++ rest) := by
  unfold serviceFields serviceSegs
  simp only [List.append_assoc, List.flatten_cons, List.flatten_nil, List.nil_append]
  exact ⟨_, rfl⟩

/-- The fields of an ADJUST slot, the unused bytes zero. -/
def adjustSegs (x : AdjustRecord) : List (List Byte) :=
  [beBytes 1 x.tank.val, beBytesInt 6 x.oldBook, beBytesInt 6 x.newBook, beBytes 2 x.revision,
    List.replicate 37 0x00#8]

theorem adjustSegs_widths (x : AdjustRecord) : (adjustSegs x).map List.length = [1, 6, 6, 2, 37] := by
  simp only [adjustSegs, List.map_cons, List.map_nil, beBytes_length, beBytesInt_length, List.length_replicate]

theorem adjustFields_eq (x : AdjustRecord) : adjustFields x = slotFields ((adjustSegs x).flatten ++ []) := by
  have hpad := slotFields_pad (n := 37) (fields := beBytes 1 x.tank.val ++ beBytesInt 6 x.oldBook
    ++ beBytesInt 6 x.newBook ++ beBytes 2 x.revision)
    (by simp only [List.length_append, beBytes_length, beBytesInt_length])
  refine hpad.trans (congrArg slotFields ?_)
  simp only [adjustSegs, List.append_assoc, List.flatten_cons, List.flatten_nil, List.append_nil]

/-- The fields of the vehicle record in their order (11.4). -/
def vehicleSegs (v : VehicleId) (r : Vehicle) : List (List Byte) :=
  [beBytes 2 v.val, beBytes 8 r.host.tag.toNat, r.host.fleet.toList, beBytes 1 r.host.cls.val,
    beBytes 1 r.host.products.toNat, beBytes 1 r.host.flagByte, beBytes 2 r.revision, beBytes 6 r.usage.fuel,
    beBytes 4 (r.usage.hours.getD 0), beBytes 1 r.usageFlags,
    beBytes 4 ((r.marks.get 0).hours.getD 0), beBytes 6 (r.marks.get 0).fuel,
    beBytes 4 ((r.marks.get 1).hours.getD 0), beBytes 6 (r.marks.get 1).fuel,
    beBytes 4 ((r.marks.get 2).hours.getD 0), beBytes 6 (r.marks.get 2).fuel,
    beBytes 4 ((r.marks.get 3).hours.getD 0), beBytes 6 (r.marks.get 3).fuel,
    beBytes 1 r.status.value, bindingBytes r.binding]

theorem vehicleSegs_widths (v : VehicleId) (r : Vehicle) : (vehicleSegs v r).map List.length =
    [2, 8, 8, 1, 1, 1, 2, 6, 4, 1, 4, 6, 4, 6, 4, 6, 4, 6, 1, 1] := by
  simp only [vehicleSegs, bindingBytes, List.map_cons, List.map_nil, beBytes_length, name_length]

theorem vehicleImage_eq (v : VehicleId) (r : Vehicle) : vehicleImage v r = (vehicleSegs v r).flatten := by
  simp only [vehicleImage, vehicleSegs, markBytes, List.flatten_cons, List.flatten_nil, List.append_nil,
    List.append_assoc]

/-- The mark of each service line in the vehicle record (11.4). -/
theorem vehicleImage_mark (v : VehicleId) (r : Vehicle) (n : LineId) :
    ((vehicleImage v r).drop (34 + 10 * n.val)).take 4 = beBytes 4 ((r.marks.get n).hours.getD 0)
    ∧ ((vehicleImage v r).drop (38 + 10 * n.val)).take 6 = beBytes 6 (r.marks.get n).fuel := by
  have field := fun (i : Nat) {x : List Byte} {o n : Nat} =>
    image_field (x := x) (o := o) (n := n) (vehicleSegs_widths v r) i (vehicleImage_eq v r)
  match n with
  | 0 => exact ⟨field 10 rfl rfl rfl, field 11 rfl rfl rfl⟩
  | 1 => exact ⟨field 12 rfl rfl rfl, field 13 rfl rfl rfl⟩
  | 2 => exact ⟨field 14 rfl rfl rfl, field 15 rfl rfl rfl⟩
  | 3 => exact ⟨field 16 rfl rfl rfl, field 17 rfl rfl rfl⟩

/-- Settles O54: the queries by what they read; VEHICLE_FIND by the carrier of the tag; the images field by field, each at
its place among the widths. -/
theorem registerQueriesAndFind : Obligations.RegisterQueriesAndFind := by
  refine ⟨fun s tag hs => ⟨fun index v hi => ⟨?_, fun hu => ?_, fun hu => ?_⟩, fun index hi => ⟨?_, ?_⟩, fun b c hb => ?_,
    fun start count => ⟨fun hout => ?_, fun h1 h2 h3 => ?_⟩, fun start count => ⟨fun hout => ?_, fun h1 h2 => ?_⟩, ?_,
    written_sorted _, mem_written _, ?_⟩, fun s tag t hs hw => ⟨fun v ht hcar => ?_, fun hnone => ?_⟩, fun r => ?_,
    fun v r => ?_⟩
  · exact exec_replies (r := .vehicleGet index) hs rfl tag (by simp only [handle, takeVehicleGet, vehicleOf_some hi]; rfl)
  · exact exec_refuses (r := .serviceQuery index) hs rfl tag (by
      simp only [handle, takeServiceQuery, vehicleOf_some hi]
      exact if_neg (by rw [show (s.heard.vehicle v).host.inUse = false from hu]; exact Bool.false_ne_true))
  · refine ⟨serviceReply v s, exec_replies (r := .serviceQuery index) hs rfl tag ?_, ⟨?_, worstOf_map_iff s v⟩,
      positionFrom_isSome 0, fun n hn => (positionFrom_some hn).2⟩
    · simp only [handle, takeServiceQuery, vehicleOf_some hi]
      exact if_pos hu
    · unfold serviceReply
      simp only [lineReply_eq]
      rfl
  · exact exec_refuses (r := .vehicleGet index) hs rfl tag (by simp only [handle, takeVehicleGet, vehicleOf_none hi])
  · exact exec_refuses (r := .serviceQuery index) hs rfl tag (by simp only [handle, takeServiceQuery, vehicleOf_none hi])
  · exact exec_replies (r := .classRead b) hs rfl tag (by simp only [handle, takeClassRead, classOf_some hb]; rfl)
  · refine exec_refuses (r := .dueListRead start count) hs rfl tag (if_pos ?_)
    rw [Bool.not_eq_true', ← Bool.not_eq_true, Bool.and_eq_true, inRange_iff, inRange_iff]
    omega
  · refine ⟨((s.dueList.drop start.toNat).take count.toNat).map (dueEntry s),
      exec_replies (r := .dueListRead start count) hs rfl tag (if_neg ?_), ?_, fun e he => ?_⟩
    · rw [Bool.not_eq_true', ← Bool.not_eq_true, not_not, Bool.and_eq_true, inRange_iff, inRange_iff]
      omega
    · rw [List.map_map]
      rfl
    · obtain ⟨v, _, rfl⟩ := List.mem_map.mp he
      exact worstOf_iff s v
  · refine exec_refuses (r := .journalRead start count) hs rfl tag (if_pos ?_)
    rw [Bool.not_eq_true', ← Bool.not_eq_true, inRange_iff]
    omega
  · refine exec_replies (r := .journalRead start count) hs rfl tag (if_neg ?_)
    rw [Bool.not_eq_true', ← Bool.not_eq_true, not_not, inRange_iff]
    exact ⟨h1, h2⟩
  · exact exec_replies (r := .journalStatus) hs rfl tag rfl
  · exact ⟨statusReply s.heard, exec_replies (r := .status) hs rfl tag rfl, rfl, rfl, rfl, rfl, hs.online, rfl, rfl, rfl,
      rfl, rfl, rfl, by rw [show (statusReply s.heard).waiting = s.link.rxQueue.length from rfl, hs.empty]; rfl⟩
  · exact exec_replies (r := .vehicleFind t) hs rfl tag (by
      simp only [handle, takeVehicleFind, findByTag_only (s := s.heard) hw ht ⟨hcar.carries, hcar.alone⟩]; rfl)
  · exact exec_refuses (r := .vehicleFind t) hs rfl tag (by
      simp only [handle, takeVehicleFind, findByTag_none (s := s.heard) hw hnone])
  · obtain ⟨record, stamp⟩ := r
    have common := fun (i : Nat) {x : List Byte} {o n : Nat} => image_field (x := x) (o := o) (n := n)
      (slotImage_common_widths ⟨record, stamp⟩) i (slotImage_common ⟨record, stamp⟩)
    refine ⟨slotImage_length _, common 0 rfl rfl rfl, common 1 rfl rfl rfl, common 2 rfl rfl rfl, common 3 rfl rfl rfl,
      slotImage_checkWord _, ?_, ?_, ?_, ?_, ?_, ?_⟩
    · rintro d ⟨rfl⟩
      have field := fun (i : Nat) {x : List Byte} {o n : Nat} => slot_field (x := x) (o := o) (n := n)
        (r := ⟨.delivery d, stamp⟩) (deliveryFields_eq d) (deliverySegs_widths d) i
      rw [← flagWord_eq]
      exact ⟨field 0 rfl rfl rfl (by decide), field 1 rfl rfl rfl (by decide), field 2 rfl rfl rfl (by decide),
        field 3 rfl rfl rfl (by decide), field 4 rfl rfl rfl (by decide), field 5 rfl rfl rfl (by decide),
        field 6 rfl rfl rfl (by decide), field 7 rfl rfl rfl (by decide), field 8 rfl rfl rfl (by decide),
        field 9 rfl rfl rfl (by decide), field 10 rfl rfl rfl (by decide), field 11 rfl rfl rfl (by decide),
        field 12 rfl rfl rfl (by decide), field 13 rfl rfl rfl (by decide), field 14 rfl rfl rfl (by decide),
        field 15 rfl rfl rfl (by decide), field 16 rfl rfl rfl (by decide)⟩
    · rintro x ⟨rfl⟩
      obtain ⟨rest, hf⟩ := receiptFields_eq x
      exact ⟨slot_field (r := ⟨.receipt x, stamp⟩) hf (widths := [1, 1]) rfl 0 rfl rfl rfl (by decide),
        slot_field (r := ⟨.receipt x, stamp⟩) hf (widths := [1, 1]) rfl 1 rfl rfl rfl (by decide)⟩
    · rintro h k1 k2 n f1 f2 c ⟨rfl⟩
      obtain ⟨rest, hf⟩ := hoseCalibrationFields_eq h k1 k2 n f1 f2 c
      have field := fun (i : Nat) {x : List Byte} {o n : Nat} => slot_field (x := x) (o := o) (n := n)
        (r := ⟨.calibration (.hose h k1 k2 _ f1 f2 c), stamp⟩) hf (widths := [1, 2, 2, 1, 4, 4]) rfl i
      exact ⟨field 0 rfl rfl rfl (by decide), field 1 rfl rfl rfl (by decide), field 2 rfl rfl rfl (by decide),
        field 3 rfl rfl rfl (by decide), field 4 rfl rfl rfl (by decide), field 5 rfl rfl rfl (by decide)⟩
    · rintro p b1 b2 name ⟨rfl⟩
      have field := fun (i : Nat) {x : List Byte} {o n : Nat} => slot_field (x := x) (o := o) (n := n)
        (r := ⟨.calibration (.product p b1 b2 name), stamp⟩) (productCalibrationFields_eq p b1 b2 name)
        (productSegs_widths p b1 b2 name) i
      exact ⟨field 0 rfl rfl rfl (by decide), field 1 rfl rfl rfl (by decide), field 2 rfl rfl rfl (by decide),
        field 3 rfl rfl rfl (by decide), field 4 rfl rfl rfl (by decide), field 5 rfl rfl rfl (by decide)⟩
    · rintro x ⟨rfl⟩
      obtain ⟨rest, hf⟩ := serviceFields_eq x
      have field := fun (i : Nat) {y : List Byte} {o n : Nat} => slot_field (x := y) (o := o) (n := n)
        (r := ⟨.service x, stamp⟩) hf (serviceSegs_widths x) i
      exact ⟨field 0 rfl rfl rfl (by decide), field 1 rfl rfl rfl (by decide), field 2 rfl rfl rfl (by decide),
        field 3 rfl rfl rfl (by decide), field 4 rfl rfl rfl (by decide), field 5 rfl rfl rfl (by decide),
        field 6 rfl rfl rfl (by decide), field 7 rfl rfl rfl (by decide)⟩
    · rintro x ⟨rfl⟩
      have field := fun (i : Nat) {y : List Byte} {o n : Nat} => slot_field (x := y) (o := o) (n := n)
        (r := ⟨.adjust x, stamp⟩) (adjustFields_eq x) (adjustSegs_widths x) i
      exact ⟨field 0 rfl rfl rfl (by decide), field 1 rfl rfl rfl (by decide), field 2 rfl rfl rfl (by decide),
        field 3 rfl rfl rfl (by decide), field 4 rfl rfl rfl (by decide)⟩
  · have field := fun (i : Nat) {x : List Byte} {o n : Nat} =>
      image_field (x := x) (o := o) (n := n) (vehicleSegs_widths v r) i (vehicleImage_eq v r)
    have hlength : (vehicleImage v r).length = 76 := by
      rw [vehicleImage_eq, List.length_flatten, vehicleSegs_widths]
      rfl
    rw [← flagByte_eq, ← usageFlags_eq]
    exact ⟨hlength, field 0 rfl rfl rfl, field 1 rfl rfl rfl, field 2 rfl rfl rfl, field 3 rfl rfl rfl, field 4 rfl rfl rfl,
      field 5 rfl rfl rfl, field 6 rfl rfl rfl, field 7 rfl rfl rfl, field 8 rfl rfl rfl, field 9 rfl rfl rfl,
      vehicleImage_mark v r, field 18 rfl rfl rfl, field 19 rfl rfl rfl⟩

end Sys2Proof.Machine


/-! PROOFS. The power-fail save: its beginning, a loss of supply, and what a completed save has stored. -/

namespace Sys2Proof.Machine

open Sys2Proof

/-! ### The beginning of the save (R177, R178, R201) -/

/-- The final partial samples of a list of hoses change their engines alone. -/
theorem forAll_lastSample {xs : List HoseId} (hx : xs.Nodup) (s : State) : ∃ es : Vector Engine 8,
    forAll xs lastSample s = { s with engines := es }
    ∧ ∀ h, es.get h = if h ∈ xs ∧ (s.hose h).state.counted = true then finishMeasurement (s.engine h) else s.engine h := by
  induction xs generalizing s with
  | nil => exact ⟨s.engines, rfl, fun h => by simp; rfl⟩
  | cons x xs ih =>
    obtain ⟨hnot, hx⟩ := List.nodup_cons.mp hx
    obtain ⟨es, heq, hes⟩ := ih hx (lastSample x s)
    have hhose : ∀ h, (lastSample x s).hose h = s.hose h := fun h => by unfold lastSample; split <;> rfl
    have hengine : ∀ h, (lastSample x s).engine h =
        if h = x ∧ (s.hose h).state.counted = true then finishMeasurement (s.engine h) else s.engine h := fun h => by
      unfold lastSample
      by_cases hc : (s.hose x).state.counted = true
      · rw [if_pos hc]
        by_cases hh : h = x
        · subst hh
          rw [State.setEngine_engine_self, if_pos ⟨rfl, hc⟩]
        · rw [State.setEngine_engine_ne s _ hh, if_neg fun c => hh c.1]
      · rw [if_neg hc, if_neg fun c : h = x ∧ (s.hose h).state.counted = true => hc (c.1 ▸ c.2)]
    have hframe : ∀ es : Vector Engine 8, ({ lastSample x s with engines := es } : State) = { s with engines := es } :=
      fun es => by unfold lastSample; split <;> rfl
    refine ⟨es, heq.trans (hframe es), fun h => ?_⟩
    rw [hes h, hhose, hengine]
    by_cases hh : h = x
    · subst hh
      simp [hnot]
    · simp [hh]

/-- What the beginning of a save leaves. -/
theorem beginSave_frame (c : SaveCause) (s : State) : ∃ es : Vector Engine 8, beginSave c s =
    { s with
      phase := .saving c false, hoses := vmap closeValve s.hoses, pumps := vmap starterOff s.pumps, engines := es
      store := abandonWrite s.store, link := s.link.cut, journal := { s.journal with erase := none } }
    ∧ ∀ h, es.get h = if (s.hose h).state.counted = true then finishMeasurement (s.engine h) else s.engine h := by
  obtain ⟨es, heq, hes⟩ := forAll_lastSample allHoses_nodup (outputsOff s)
  refine ⟨es, ?_, fun h => ?_⟩
  · unfold beginSave
    rw [heq]
    rfl
  · have hhose : (outputsOff s).hose h = closeValve (s.hose h) := vmap_get _ _ h
    rw [hes h, hhose]
    simp only [mem_allHoses, true_and]
    rfl

theorem abandonWrite_stored (st : Store) : (abandonWrite st).stored = st.stored := by
  unfold abandonWrite
  split
  · rfl
  · split <;> rfl

/-- Settles O57: the beginning of a save from RUNNING; then a loss of supply by the phase. -/
theorem saveBeginsOrSupplyGoes : Obligations.SaveBeginsOrSupplyGoes := by
  refine ⟨fun s => ?_, fun s => ⟨fun c out hp => ?_, fun o out hp => ?_, fun hp => ?_⟩⟩
  · intro began
    have hbegan : ∀ c, began c (.next (beginSave c s)) := fun c => by
      obtain ⟨es, heq, hes⟩ := beginSave_frame c s
      rw [heq]
      exact ⟨_, rfl, rfl, fun h => vmap_get _ _ h, fun k => vmap_get _ _ k, hes, rfl, rfl, abandonWrite_stored _, rfl⟩
    have htake : ∀ c, s.phase = .running → takeResetCause c s = beginSave c s := fun c hp => by
      simp only [takeResetCause, hp]
    have hstay : ∀ c c' out, s.phase = .saving c' out → takeResetCause c s = s := fun c c' out hp => by
      simp only [takeResetCause, hp]
    refine ⟨fun hp => ⟨?_, ?_⟩, fun c out hp => ⟨?_, ?_⟩⟩
    · have h := hbegan .supplyWarning
      rw [← htake _ hp] at h
      exact h
    · have h := hbegan .resetLine
      rw [← htake _ hp] at h
      exact h
    · exact congrArg Host.Outcome.next (hstay .supplyWarning _ _ hp)
    · exact congrArg Host.Outcome.next (hstay .resetLine _ _ hp)
  · refine congrArg Host.Outcome.next ?_
    simp only [takeSupplyLoss, hp]
    rfl
  · refine congrArg Host.Outcome.next ?_
    simp only [takeSupplyLoss, hp]
    rfl
  · have hloss : takeSupplyLoss s = loseSupply s := by
      rcases hp with hp | hp | hp <;> simp only [takeSupplyLoss, hp]
    refine ⟨_, congrArg Host.Outcome.next hloss, rfl, fun h => ?_, fun k => ?_, rfl⟩
    · exact (congrArg Hose.valve (vmap_get closeValve s.hoses h) :)
    · exact (congrArg Pump.starter (vmap_get starterOff s.pumps k) :)

/-! ### What a completed save has stored (R88, R128, R178, R179) -/

/-- The power-fail save's fold over vehicle records: it writes the usage parts chosen by `c`. -/
def storeUsages (c : VehicleId → Vehicle → Bool) (l : List (VehicleId × Vehicle)) (st : Stored) : Stored :=
  l.foldl (fun st e => if c e.1 e.2 then st.setVehicle e.1 { st.vehicle e.1 with usage := e.2.usage } else st) st

theorem saveUsage_eq (s : State) (st : Stored) : saveUsage s st = storeUsages (usageUnstored s) s.listedVehicles st := rfl

/-- The fold writes each listed vehicle once, and the vehicle table alone. -/
theorem storeUsages_writes (c : VehicleId → Vehicle → Bool) {l : List (VehicleId × Vehicle)} (hl : (l.map (·.1)).Nodup)
    {st : Stored} (hst : st.vehiclesSound = true) :
    storeUsages c l st = { st with vehicles := (storeUsages c l st).vehicles }
    ∧ (∀ v r, (v, r) ∈ l → c v r = true → (storeUsages c l st).vehicle v = { st.vehicle v with usage := r.usage })
    ∧ (∀ v, (∀ r, (v, r) ∈ l → c v r = false) → (storeUsages c l st).vehicle v = st.vehicle v) := by
  induction l generalizing st with
  | nil => exact ⟨rfl, nofun, fun _ _ => rfl⟩
  | cons e l ih =>
    obtain ⟨hnot, hl⟩ := List.nodup_cons.mp hl
    have hunlisted : ∀ v r, (v, r) ∈ l → v ≠ e.1 := fun v r hm heq => hnot (List.mem_map.mpr ⟨_, hm, heq⟩)
    by_cases hc : c e.1 e.2 = true
    · have hstep : storeUsages c (e :: l) st
          = storeUsages c l (st.setVehicle e.1 { st.vehicle e.1 with usage := e.2.usage }) := by
        simp only [storeUsages, List.foldl_cons, if_pos hc]
      obtain ⟨hframe, hwritten, hkept⟩ := ih hl (Stored.setVehicle_sound (v := e.1)
        (x := { st.vehicle e.1 with usage := e.2.usage }) hst)
      rw [hstep]
      refine ⟨hframe, fun v r hm hcv => ?_, fun v hv => ?_⟩
      · rcases List.mem_cons.mp hm with heq | hm
        · subst heq
          rw [hkept v fun r' hm' => absurd rfl (hunlisted v r' hm'), Stored.setVehicle_self hst]
        · rw [hwritten v r hm hcv, Stored.setVehicle_ne (hunlisted v r hm)]
      · have hne : v ≠ e.1 := fun heq => by
          have := hv e.2 (heq ▸ List.mem_cons_self)
          rw [heq, hc] at this
          cases this
        rw [hkept v fun r hm => hv r (List.mem_cons_of_mem _ hm), Stored.setVehicle_ne hne]
    · have hstep : storeUsages c (e :: l) st = storeUsages c l st := by
        simp only [storeUsages, List.foldl_cons, if_neg hc]
      obtain ⟨hframe, hwritten, hkept⟩ := ih hl hst
      rw [hstep]
      refine ⟨hframe, fun v r hm hcv => ?_, fun v hv => hkept v fun r hm => hv r (List.mem_cons_of_mem _ hm)⟩
      rcases List.mem_cons.mp hm with heq | hm
      · exact absurd (heq ▸ hcv) hc
      · exact hwritten v r hm hcv

theorem StoreWrite.holdsUsage_iff (v : VehicleId) (w : StoreWrite) : w.holdsUsage v = true ↔
    (∃ u, w = .usage v u) ∨ (∃ u n, w = .hours v u n) ∨ (∃ m n u, w = .service v m n u) := by
  cases w <;> simp [StoreWrite.holdsUsage]

theorem usageUnstored_iff (s : State) (v : VehicleId) (r : Vehicle) : usageUnstored s v r = true ↔
    r.usageWrite ≠ .none ∨ (∃ u, .usage v u ∈ s.store.queue) ∨ (∃ u n, .hours v u n ∈ s.store.queue)
    ∨ (∃ m n u, .service v m n u ∈ s.store.queue) := by
  simp only [usageUnstored, Bool.or_eq_true, decide_eq_true_eq, List.any_eq_true, StoreWrite.holdsUsage_iff]
  refine or_congr_right ⟨?_, ?_⟩
  · rintro ⟨w, hw, ⟨u, rfl⟩ | ⟨u, n, rfl⟩ | ⟨m, n, u, rfl⟩⟩
    · exact .inl ⟨u, hw⟩
    · exact .inr (.inl ⟨u, n, hw⟩)
    · exact .inr (.inr ⟨m, n, u, hw⟩)
  · rintro (⟨u, hw⟩ | ⟨u, n, hw⟩ | ⟨m, n, u, hw⟩)
    · exact ⟨_, hw, .inl ⟨u, rfl⟩⟩
    · exact ⟨_, hw, .inr (.inl ⟨u, n, rfl⟩)⟩
    · exact ⟨_, hw, .inr (.inr ⟨m, n, u, rfl⟩)⟩

theorem snapshotOf_eq_some {s : State} {h : HoseId} {p : Snapshot} : snapshotOf s h = some p ↔
    (s.hose h).state ≠ .idle ∧ (s.hose h).state ≠ .ready
    ∧ ∃ g, (s.hose h).grant = some g ∧ { hose := h, state := (s.hose h).state, grant := g, measure := (s.engine h).snap } = p := by
  unfold snapshotOf
  dsimp only
  split
  next hidle => simp [hidle]
  next hready => simp [hready]
  next hnone _ _ => simp [hnone]
  next hsome hidle hready =>
    simp only [hsome, Option.some.injEq]
    exact ⟨fun heq => ⟨hidle, hready, _, rfl, heq⟩, fun ⟨_, _, g, hg, heq⟩ => hg ▸ heq⟩

theorem carriedReceipt_eq_some {s : State} {k : TankId} {x : CarriedReceipt} : carriedReceipt s k = some x ↔
    x.tank = k ∧ ∃ r, ((s.tank k).receipt = .receiving r ∨ ∃ n, (s.tank k).receipt = .settling r n)
      ∧ x.openingNet = r.openingNet ∧ x.openingTime = r.openingTime ∧ x.docket = r.docket := by
  unfold carriedReceipt
  cases (s.tank k).receipt <;> cases x <;> simp [ReceiptState.fields] <;> tauto

theorem mem_allTanks (k : TankId) : k ∈ allTanks := by revert k; decide

/-- The receipts of the area are those in progress (R88). -/
theorem mem_areaOf_receipts {c : SaveCause} {s : State} {x : CarriedReceipt} : x ∈ (areaOf c s).receipts ↔
    ∃ r : Receipt, ((s.tank x.tank).receipt = .receiving r ∨ ∃ n, (s.tank x.tank).receipt = .settling r n)
      ∧ x.openingNet = r.openingNet ∧ x.openingTime = r.openingTime ∧ x.docket = r.docket := by
  simp only [areaOf, List.mem_filterMap, carriedReceipt_eq_some]
  constructor
  · rintro ⟨k, -, rfl, hr⟩
    exact hr
  · exact fun hr => ⟨x.tank, mem_allTanks _, rfl, hr⟩

/-- The receipts of the area stand in ascending tank order. -/
theorem areaOf_receipts_rising (c : SaveCause) (s : State) :
    (areaOf c s).receipts.Pairwise (fun x y => x.tank.val < y.tank.val) := by
  refine List.Pairwise.filterMap _ (fun k l hkl x hx y hy => ?_)
    (show allTanks.Pairwise (fun k l => k.val < l.val) by decide)
  obtain ⟨rfl, -⟩ := carriedReceipt_eq_some.mp hx
  obtain ⟨rfl, -⟩ := carriedReceipt_eq_some.mp hy
  exact hkl

theorem endSave_writing {s : State} {c : SaveCause} {out : Bool} (hp : s.phase = .saving c out)
    (hw : s.journal.writing = true) : endSave s = s := by
  simp only [endSave, hp, if_pos hw]

theorem endSave_saved {s : State} {c : SaveCause} {out : Bool} (hp : s.phase = .saving c out)
    (hw : s.journal.writing = false) : endSave s =
      { s with phase := .inReset (.saved c) out, store := { stored := savedStore c s, queue := [], inFlight := none } } := by
  simp only [endSave, hp, hw]
  rfl

/-- Settles O58: the save's stored contents, field by field. -/
theorem saveCompletes : Obligations.SaveCompletes := by
  intro s c out hp hv hst
  refine ⟨fun hw => congrArg Host.Outcome.next (endSave_writing hp hw), fun hw => ?_⟩
  obtain ⟨hframe, hwritten, hkept⟩ := storeUsages_writes (usageUnstored s) (State.nodup_listedVehicles hv) hst
  rw [← saveUsage_eq] at hframe hwritten hkept
  have hstored : savedStore c s = { s.store.stored with
      vehicles := (saveUsage s s.store.stored).vehicles
      totals := vmap (fun e => (e.grossTotal, e.netTotal)) s.engines
      books := vmap (fun x => x.book) s.tanks
      revisions := vmap (fun x => x.revision) s.tanks
      ack := s.journal.ack
      worn := s.journal.wornMarks
      retired := s.journal.retiredMarks
      area := some (areaOf c s) } := by
    unfold savedStore
    rw [hframe]
  intro old
  refine ⟨_, areaOf c s, congrArg Host.Outcome.next (endSave_saved hp hw), rfl, rfl, rfl, rfl, rfl,
    fun h => vmap_get _ _ h, fun k => ⟨vmap_get _ _ k, vmap_get _ _ k⟩, rfl, fun g => ⟨vmap_get _ _ g, vmap_get _ _ g⟩,
    fun v => ⟨fun hn => hkept v fun r hm => ?_, fun hu hne => hwritten v _
      ((State.mem_listedVehicles hv v _).mpr ⟨rfl, hne⟩) ((usageUnstored_iff s v _).mpr hu)⟩,
    fun p hpm => ?_, fun h g hg hi hr => ?_, fun x => mem_areaOf_receipts, areaOf_receipts_rising c s, ?_, rfl, hstored⟩
  · obtain ⟨rfl, -⟩ := (State.mem_listedVehicles hv v r).mp hm
    exact eq_false_of_ne_true fun hu => hn ((usageUnstored_iff s v _).mp hu)
  · obtain ⟨h, -, hsnap⟩ := List.mem_filterMap.mp hpm
    obtain ⟨hi, hr, g, hg, rfl⟩ := snapshotOf_eq_some.mp hsnap
    exact ⟨hi, hr, rfl, hg, rfl, rfl⟩
  · exact ⟨_, List.mem_filterMap.mpr ⟨h, mem_allHoses h, snapshotOf_eq_some.mpr ⟨hi, hr, g, hg, rfl⟩⟩, rfl⟩
  · refine List.filter_congr fun r _ => ?_
    cases r <;> rfl

end Sys2Proof.Machine


/-! PROOFS. Restart: the blocks rebuilt with nothing carried, the journal's scan, the cause of the reset, and the end of
restart. -/

namespace Sys2Proof.Machine

open Sys2Proof

/-! ### The cause of the reset (R180) -/

/-- The cause of a reset, with the cases of what began it side by side. -/
theorem resetCauseOf_eq (o : ResetOrigin) (out : Bool) : resetCauseOf o out =
    (match o with
      | .saved .supplyWarning => if out then .powerOn else .supplyLow
      | .saved .resetLine => .resetLine
      | .saved .restartRequest => .restartRequest
      | .unsaved none => .powerOn
      | .unsaved (some .supplyWarning) => if out then .powerOn else .supplyLow
      | .unsaved (some .resetLine) => if out then .powerOn else .resetLine
      | .unsaved (some .restartRequest) => if out then .powerOn else .restartRequest) := by
  cases o with
  | saved c => cases c <;> rfl
  | unsaved c =>
    cases c with
    | none => rfl
    | some c => cases c <;> rfl

/-! ### Step 1 and the end of step 2 (R182) -/

/-- Step 1 of restart ends with the scan of the journal found. -/
theorem resetBlocks_scanLeaves (c : ResetCause) (k : SiteClock) (s : State) :
    ScanLeaves s.store.stored s.journal.segments (resetBlocks c k s).journal (resetBlocks c k s).store.queue :=
  scanChange_leaves rfl rfl

/-- A journal that holds no reservation is not FAULTED by restart. -/
theorem faultAtRestart_unreserved {s : State} (hr : s.journal.reservations = 0) (hf : s.journal.faulted = false) :
    faultAtRestart s = s := by
  have hnone : decide (s.journal.free < s.journal.reservations) = s.journal.faulted := by
    rw [hr, hf]
    exact decide_eq_false (Nat.not_lt_zero _)
  unfold faultAtRestart
  rw [hnone]
  rfl

/-- An area that carries nothing leaves restart at its first step. -/
theorem restart_uncarried {s : State} (hv : s.store.stored.vehiclesSound = true)
    (ha : ∀ a, s.store.stored.area = some a → a.snapshots = [] ∧ a.receipts = [] ∧ a.records = []) (c : ResetCause)
    (k : SiteClock) : restart c k s = dropEvents (resetBlocks c k s) := by
  have hlaw := resetBlocks_law hv c k
  have hstay := faultAtRestart_unreserved hlaw.reservations hlaw.faulted
  unfold restart
  cases harea : s.store.stored.area with
  | none => simp only [hlaw.stored, harea, hstay]
  | some a =>
    obtain ⟨hsnapshots, hreceipts, hrecords⟩ := ha a harea
    have hcarries : a.carries = false := by simp [Area.carries, hsnapshots, hreceipts, hrecords]
    simp only [hlaw.stored, harea, hcarries, Bool.false_eq_true, if_false, hstay]

theorem takeResetRelease_inReset {s : State} {o : ResetOrigin} {out : Bool} (hp : s.phase = .inReset o out)
    (b : Bool) : takeResetRelease b s =
      restart (resetCauseOf o out) (if b then { count := 0, valid := false } else s.clock) s := by
  simp only [takeResetRelease, hp]

/-- Is a vehicle listed as DUE or OVERDUE? -/
theorem ServiceStatus.listed_iff (x : ServiceStatus) : x.listed = true ↔ x = .due ∨ x = .overdue := by
  cases x <;> simp [ServiceStatus.listed]

/-! ### The end of restart (R182) -/

theorem takeAreaCleared_restarting {s : State} (hp : s.phase = .restarting) : takeAreaCleared s =
    raise .restart (.resetCause s.link.lastReset)
      { s with
        phase := .running, store := { s.store with stored := { s.store.stored with area := none } }
        pumps := pressureFrom s.inputs s.pumps
        link := { s.link with estop := s.inputs.estop, inspection := s.inputs.switchClosed } } := by
  simp only [takeAreaCleared, hp]
  rfl

/-- Settles O59: the released part is step 1 of restart with the events dropped. -/
theorem restartResetsAndEnds : Obligations.RestartResetsAndEnds := by
  refine ⟨fun s o out b hp hv ha => ?_, fun s hp => ?_⟩
  · generalize hc : resetCauseOf o out = c
    generalize hclock : (if b then { count := 0, valid := false } else s.clock : SiteClock) = clock
    have hlaw := resetBlocks_law hv c clock
    have hscan := resetBlocks_scanLeaves c clock s
    have hnext : exec (.resetRelease b) s = .next (dropEvents (resetBlocks c clock s)) := by
      refine congrArg Host.Outcome.next ?_
      rw [takeResetRelease_inReset hp, hc, hclock, restart_uncarried hv ha]
    obtain ⟨hreset, honline, -⟩ := hlaw.link
    intro st
    refine ⟨_, hnext, hlaw.phase, rfl, honline, hreset.trans (hc.symm.trans (resetCauseOf_eq o out)),
      hlaw.inputs, hlaw.clock, fun h => ⟨hlaw.hose h, hlaw.engine h, hlaw.cal h⟩, fun k => hlaw.tank k,
      fun k => ?_, fun p => hlaw.product p, fun v => ?_, hlaw.rising,
      fun v => (hlaw.due v).trans (and_congr_right fun _ => ServiceStatus.listed_iff _), hlaw.dueRevision, hlaw.classes,
      hlaw.load, hlaw.slot, hlaw.queue, hlaw.reservations, hlaw.faulted, hlaw.ack, hlaw.stored, hscan⟩
    · have hpump : (dropEvents (resetBlocks c clock s)).pump k = Pump.reset (st.pumpConfigs.get k) (s.inputs.pressure.get k) :=
        hlaw.pump k
      rw [hpump]
      exact ⟨rfl, rfl, rfl, rfl, rfl, rfl, rfl⟩
    · obtain ⟨hhost, hrevision, hbinding, hpending, -, hused, hstatus⟩ := hlaw.vehicle v
      exact ⟨hhost, hrevision, hbinding, hpending, hused, hstatus⟩
  · refine ⟨_, congrArg Host.Outcome.next (takeAreaCleared_restarting hp), rfl, rfl, rfl, rfl, rfl, rfl,
      fun k => tabulate_get _ k, fun hnone => ?_, rfl⟩
    rw [raise_events, hnone]
    rfl

end Sys2Proof.Machine


/-! PROOFS. Restart with carried work: the records queued, the receipts closed, and the hoses re-established one after
the other. -/

namespace Sys2Proof.Machine

open Sys2Proof

/-! ### Records queued and receipts closed at restart (R88, R184) -/

/-- The queue entry of a record that joins the write queue. -/
def Record.waiting (r : Record) : Queued := { record := r, stamp := none }

theorem forAll_queueAtRestart (rs : List Record) (s : State) : forAll rs queueAtRestart s =
    { s with journal := { s.journal with
        queue := s.journal.queue ++ rs.map Record.waiting, reservations := s.journal.reservations + rs.length } } := by
  induction rs generalizing s with
  | nil =>
    rw [List.map_nil, List.append_nil]
    rfl
  | cons r rs ih =>
    have hlength : s.journal.reservations + 1 + rs.length = s.journal.reservations + (r :: rs).length := by
      rw [List.length_cons]
      omega
    refine (ih (queueAtRestart r s)).trans ?_
    rw [← hlength, List.map_cons, List.append_cons]
    rfl

theorem forAll_storeCarried (rs : List CarriedReceipt) (s : State) : forAll rs storeCarried s =
    { s with store := { s.store with
        queue := s.store.queue ++ rs.map fun r => .book r.tank (s.tank r.tank).book } } := by
  induction rs generalizing s with
  | nil =>
    rw [List.map_nil, List.append_nil]
    rfl
  | cons r rs ih =>
    refine (ih (storeCarried r s)).trans ?_
    rw [List.map_cons, List.append_cons]
    rfl

/-! ### The hoses re-established (R56, R183) -/

/-- The snapshots whose deliveries restart settles. -/
def endedOf (ps : List Snapshot) : List Snapshot := ps.filter fun p => !p.settled

/-- The record of a snapshot's delivery, settled by restart. -/
def Snapshot.delivery (c : SaveCause) (s : State) (p : Snapshot) : DeliveryRecord :=
  deliveryOf p.hose
    { p.grant with tankRes := 0, journalRes := true, endReason := some (p.endReason c), held := none } false
    (advanceTotals ((s.engine p.hose).restore p.measure)) (recordedTime s)

/-- The hose of a snapshot, re-established. -/
def Snapshot.hoseAfter (c : SaveCause) (s : State) (p : Snapshot) : Hose :=
  { s.hose p.hose with
    state := .settled, valve := .closed
    lamp := if p.settled then (s.hose p.hose).lamp else .off
    timers := if p.settled then (s.hose p.hose).timers else .stopped
    lastEnd := if p.settled then p.grant.held.map (·.endReason) else some (p.delivery c s).endReason
    grant := some
      (if p.settled then { p.grant with tankRes := 0, journalRes := true }
      else
        { p.grant with
          tankRes := 0, journalRes := true, endReason := some (p.endReason c), held := some (p.delivery c s) }) }

/-- The engine of a snapshot's hose, with its measurement. -/
def Snapshot.engineAfter (s : State) (p : Snapshot) : Engine :=
  if p.settled then (s.engine p.hose).restore p.measure else advanceTotals ((s.engine p.hose).restore p.measure)

/-- The usage part of a snapshot's vehicle. -/
def Snapshot.usageAfter (s : State) (p : Snapshot) : Usage :=
  if p.settled = false ∧ (s.vehicle p.grant.vehicle).host.inUse = true then
    { (s.vehicle p.grant.vehicle).usage with
      fuel := min 281474976710655 ((s.vehicle p.grant.vehicle).usage.fuel + p.measure.net) }
  else (s.vehicle p.grant.vehicle).usage

/-- The book of a tank after the debits of the settled deliveries. -/
def bookAfter (k : TankId) (ps : List Snapshot) (b : Int) : Int :=
  (((endedOf ps).filter fun p => decide (p.grant.tank = k)).map (·.measure.net)).foldl
    (fun (b : Int) (n : Nat) => saturateBook (b - n)) b

/-- The tank facts that a settle accounting without a reservation keeps. -/
structure TankKept (x y : Tank) : Prop where
  config : y.config = x.config
  reserved : y.reserved = x.reserved
  receipt : x.receipt = .normal → y.receipt = .normal
  low : x.low = isLow x → y.low = isLow y

theorem TankKept.refl (x : Tank) : TankKept x x := ⟨rfl, rfl, id, id⟩

theorem TankKept.trans {x y z : Tank} (h : TankKept x y) (h' : TankKept y z) : TankKept x z :=
  ⟨h'.config.trans h.config, h'.reserved.trans h.reserved, fun e => h'.receipt (h.receipt e), fun e => h'.low (h.low e)⟩

/-- What restart makes of the hoses of a list of snapshots. -/
structure AllReestablished (s t : State) (c : SaveCause) (ps : List Snapshot) : Prop where
  sound : t.vehiclesSound = true
  hose : ∀ p ∈ ps, t.hose p.hose = p.hoseAfter c s ∧ t.engine p.hose = p.engineAfter s
  otherHoses : ∀ h, (∀ p ∈ ps, p.hose ≠ h) → t.hose h = s.hose h ∧ t.engine h = s.engine h
  book : ∀ k, (t.tank k).book = bookAfter k ps (s.tank k).book
  tank : ∀ k, TankKept (s.tank k) (t.tank k)
  vehicle : ∀ p ∈ ps, (t.vehicle p.grant.vehicle).binding = some p.hose
    ∧ (t.vehicle p.grant.vehicle).usage = p.usageAfter s
  otherVehicles : ∀ v, (∀ p ∈ ps, p.grant.vehicle ≠ v) → t.vehicle v = s.vehicle v
  journal : t.journal = { s.journal with
    queue := s.journal.queue ++ (endedOf ps).map fun p => (Record.delivery (p.delivery c s)).waiting
    reservations := s.journal.reservations + (endedOf ps).length }
  writes : (∀ w ∈ s.store.queue, w ∈ t.store.queue)
    ∧ ∀ p ∈ endedOf ps, .totalizers p.hose (t.engine p.hose).grossTotal (t.engine p.hose).netTotal ∈ t.store.queue
  frame : t.phase = s.phase ∧ t.clock = s.clock ∧ t.link.lastReset = s.link.lastReset ∧ t.store.stored = s.store.stored

section
variable {s t : State} {c : SaveCause} {p : Snapshot} {d : DeliveryRecord}

theorem Reestablished.delivery (h : Reestablished s t c p d) : d = p.delivery c s := h.record

theorem Reestablished.rest (h : Reestablished s t c p d) :
    t.phase = s.phase ∧ t.clock = s.clock ∧ t.link.lastReset = s.link.lastReset ∧ t.store.stored = s.store.stored := by
  obtain ⟨hs, es, ts, vs, dl, dr, j, ev, att, q, hframe⟩ := h.frame
  rw [hframe]
  exact ⟨rfl, rfl, rfl, rfl⟩

theorem Reestablished.time (h : Reestablished s t c p d) : recordedTime t = recordedTime s := by
  have hnewest : t.journal.newest = s.journal.newest := by
    rw [h.journal]
    split <;> rfl
  obtain ⟨-, hclock, -⟩ := h.rest
  unfold recordedTime
  rw [hclock, hnewest]

theorem Reestablished.bookAt (h : Reestablished s t c p d) (k : TankId) :
    (t.tank k).book = bookAfter k [p] (s.tank k).book := by
  by_cases hk : k = p.grant.tank
  · subst hk
    rw [h.tank]
    cases hs : p.settled <;> simp [bookAfter, endedOf, hs]
  · rw [h.otherTanks k hk]
    cases hs : p.settled <;> simp [bookAfter, endedOf, hs, Ne.symm hk]

theorem Reestablished.tankAt (h : Reestablished s t c p d) (k : TankId) : TankKept (s.tank k) (t.tank k) := by
  by_cases hk : k = p.grant.tank
  · subst hk
    rw [h.tank]
    split
    · exact .refl _
    · exact ⟨rfl, rfl, fun hnormal => congrArg (ReceiptState.modify _) hnormal, fun _ => rfl⟩
  · rw [h.otherTanks k hk]
    exact .refl _

end

/-- A snapshot's outcome depends on its own hose and engine, and on the time recorded. -/
theorem Snapshot.delivery_congr {s t : State} {p : Snapshot} (c : SaveCause) (he : t.engine p.hose = s.engine p.hose)
    (ht : recordedTime t = recordedTime s) : p.delivery c t = p.delivery c s := by
  unfold Snapshot.delivery
  rw [he, ht]

theorem bookAfter_cons (k : TankId) (p : Snapshot) (ps : List Snapshot) (b : Int) :
    bookAfter k (p :: ps) b = bookAfter k ps (bookAfter k [p] b) := by
  cases hs : p.settled <;> by_cases hk : p.grant.tank = k <;> simp [bookAfter, endedOf, hs, hk]

/-- The snapshots' hoses are re-established one after the other, each as if it stood alone. -/
theorem forAll_reestablish (c : SaveCause) {ps : List Snapshot} (hh : (ps.map (·.hose)).Nodup)
    (hv : (ps.map (·.grant.vehicle)).Nodup) {s : State} (hw : s.vehiclesSound = true) :
    AllReestablished s (forAll ps (reestablish c) s) c ps := by
  induction ps generalizing s with
  | nil =>
    show AllReestablished s s c []
    have hjournal : s.journal = { s.journal with
        queue := s.journal.queue ++ [], reservations := s.journal.reservations + 0 } := by
      rw [List.append_nil]
      rfl
    exact
      { sound := hw, hose := fun _ hm => absurd hm List.not_mem_nil, otherHoses := fun _ _ => ⟨rfl, rfl⟩, book := fun _ => rfl
        tank := fun _ => .refl _, vehicle := fun _ hm => absurd hm List.not_mem_nil, otherVehicles := fun _ _ => rfl
        journal := hjournal, writes := ⟨fun _ hm => hm, fun _ hm => absurd hm List.not_mem_nil⟩, frame := ⟨rfl, rfl, rfl, rfl⟩ }
  | cons p ps ih =>
    obtain ⟨hpHose, hh⟩ := List.nodup_cons.mp hh
    obtain ⟨hpVehicle, hv⟩ := List.nodup_cons.mp hv
    have hoseNe : ∀ q ∈ ps, q.hose ≠ p.hose := fun q hq heq => hpHose (List.mem_map.mpr ⟨q, hq, heq⟩)
    have vehicleNe : ∀ q ∈ ps, q.grant.vehicle ≠ p.grant.vehicle := fun q hq heq =>
      hpVehicle (List.mem_map.mpr ⟨q, hq, heq⟩)
    obtain ⟨d, hp⟩ := reestablish_law hw c p
    have hd := hp.delivery
    subst hd
    have hps := ih hh hv hp.sound
    have htime := hp.time
    show AllReestablished s (forAll ps (reestablish c) (reestablish c p s)) c (p :: ps)
    generalize reestablish c p s = s₁ at hp hps htime
    generalize forAll ps (reestablish c) s₁ = t at hps
    have hdelivery : ∀ q ∈ ps, q.delivery c s₁ = q.delivery c s := fun q hq =>
      Snapshot.delivery_congr c (hp.otherEngines _ (hoseNe q hq)) htime
    have hended : ∀ q ∈ endedOf ps, q ∈ ps := fun q hq => (List.mem_filter.mp hq).1
    have hfirst := hps.otherHoses p.hose hoseNe
    refine ⟨hps.sound, List.forall_mem_cons.mpr ⟨⟨hfirst.1.trans hp.hose, hfirst.2.trans hp.engine⟩, fun q hq => ?_⟩,
      fun h hne => ?_, fun k => ?_, fun k => (hp.tankAt k).trans (hps.tank k),
      List.forall_mem_cons.mpr ⟨?_, fun q hq => ?_⟩, fun v hne => ?_, ?_, ⟨fun w hm => hps.writes.1 w (hp.writes.1 w hm), ?_⟩,
      ?_⟩
    · obtain ⟨hhose, hengine⟩ := hps.hose q hq
      have hhoseAfter : q.hoseAfter c s₁ = q.hoseAfter c s := by
        unfold Snapshot.hoseAfter
        rw [hp.otherHoses _ (hoseNe q hq), hdelivery q hq]
      have hengineAfter : q.engineAfter s₁ = q.engineAfter s := by
        unfold Snapshot.engineAfter
        rw [hp.otherEngines _ (hoseNe q hq)]
      exact ⟨hhose.trans hhoseAfter, hengine.trans hengineAfter⟩
    · obtain ⟨hne, hnes⟩ := List.forall_mem_cons.mp hne
      obtain ⟨hhose, hengine⟩ := hps.otherHoses h hnes
      exact ⟨hhose.trans (hp.otherHoses h (Ne.symm hne)), hengine.trans (hp.otherEngines h (Ne.symm hne))⟩
    · rw [hps.book, hp.bookAt, ← bookAfter_cons]
    · rw [hps.otherVehicles _ vehicleNe]
      exact ⟨hp.binding, hp.usage⟩
    · obtain ⟨hbinding, husage⟩ := hps.vehicle q hq
      refine ⟨hbinding, husage.trans ?_⟩
      unfold Snapshot.usageAfter
      rw [hp.otherVehicles _ (vehicleNe q hq)]
    · obtain ⟨hne, hnes⟩ := List.forall_mem_cons.mp hne
      rw [hps.otherVehicles v hnes, hp.otherVehicles v (Ne.symm hne)]
    · rw [hps.journal, hp.journal, List.map_congr_left fun q hq =>
        congrArg (fun d => (Record.delivery d).waiting) (hdelivery q (hended q hq))]
      cases hs : p.settled with
      | true => simp [endedOf, hs]
      | false => simp [endedOf, hs, Record.waiting, Nat.add_assoc, Nat.add_comm 1]
    · intro q hq
      obtain ⟨hq, hopen⟩ := List.mem_filter.mp hq
      rcases List.mem_cons.mp hq with rfl | hq
      · rw [hfirst.2]
        exact hps.writes.1 _ (hp.writes.2 (by simpa using hopen))
      · exact hps.writes.2 q (List.mem_filter.mpr ⟨hq, hopen⟩)
    · obtain ⟨h1, h2, h3, h4⟩ := hp.rest
      obtain ⟨h1', h2', h3', h4'⟩ := hps.frame
      exact ⟨h1'.trans h1, h2'.trans h2, h3'.trans h3, h4'.trans h4⟩

/-! ### Step 2 of restart (R182, R184) -/

/-- The part before its hoses are re-established: the carried receipts are closed, and the INTERRUPTION record and the
carried records wait. -/
def State.interrupted (a : Area) (s : State) : State :=
  { s with
    store := { s.store with queue := s.store.queue ++ a.receipts.map fun r => .book r.tank (s.tank r.tank).book }
    journal := { s.journal with
      queue := s.journal.queue ++ (Record.interruption (interruptionOf a s) :: a.records).map Record.waiting
      reservations := s.journal.reservations + (a.records.length + 1) } }

theorem restoreArea_eq (a : Area) (s : State) : restoreArea a s =
    forAll (a.receipts.map (carriedRecord s)) queueAtRestart
      (forAll a.snapshots (reestablish a.cause) (s.interrupted a)) := by
  have hfirst : forAll a.records queueAtRestart
      (queueAtRestart (.interruption (interruptionOf a s)) (forAll a.receipts storeCarried s)) = s.interrupted a := by
    rw [forAll_storeCarried]
    exact forAll_queueAtRestart (.interruption (interruptionOf a s) :: a.records) _
  rw [← hfirst]
  rfl

/-- An area that carries work is restored between the steps of restart. -/
theorem restart_carried {s : State} (hv : s.store.stored.vehiclesSound = true) {a : Area}
    (ha : s.store.stored.area = some a) (hcarries : a.carries = true) (c : ResetCause) (k : SiteClock) :
    restart c k s = dropEvents (faultAtRestart (restoreArea a (resetBlocks c k s))) := by
  unfold restart
  simp only [(resetBlocks_law hv c k).stored, ha, hcarries, if_true]

theorem Area.carries_of {a : Area} (h : a.snapshots ≠ [] ∨ a.receipts ≠ [] ∨ a.records ≠ []) : a.carries = true := by
  unfold Area.carries
  rcases h with h | h | h <;> simp [h]

/-- Settles O60: step 1 of restart, the hoses re-established one by one, and the records of the closed receipts. -/
theorem restartCarriesWork : Obligations.RestartCarriesWork := by
  intro s o out b a hp ha hwork hv harea
  generalize hc : resetCauseOf o out = c
  generalize hclock : (if b then { count := 0, valid := false } else s.clock : SiteClock) = clock
  obtain ⟨hhoses, hvehicles⟩ := harea a ha
  have hlaw := resetBlocks_law hv c clock
  have hnext : exec (.resetRelease b) s = .next (dropEvents (faultAtRestart (restoreArea a (resetBlocks c clock s)))) := by
    refine congrArg Host.Outcome.next ?_
    rw [takeResetRelease_inReset hp, hc, hclock, restart_carried hv ha (Area.carries_of hwork)]
  rw [restoreArea_eq, forAll_queueAtRestart] at hnext
  generalize resetBlocks c clock s = s₀ at hlaw hnext
  have hall := forAll_reestablish a.cause hhoses hvehicles (s := s₀.interrupted a) hlaw.vehicles
  generalize forAll a.snapshots (reestablish a.cause) (s₀.interrupted a) = t at hall hnext
  obtain ⟨hphase, hclockKept, hreset, hstored⟩ := hall.frame
  intro st done ended reason totals average
  have hhose : ∀ h, (s₀.interrupted a).hose h = Hose.reset (st.hoseConfigs.get h) := hlaw.hose
  have hengine : ∀ h, (s₀.interrupted a).engine h = Engine.reset (st.totals.get h) := hlaw.engine
  have hended : ended = endedOf a.snapshots := rfl
  have hopen : ∀ p ∈ ended, p ∈ a.snapshots ∧ p.settled = false := fun p hm => by
    obtain ⟨hm, hs⟩ := List.mem_filter.mp hm
    exact ⟨hm, (Bool.not_eq_true' _).mp hs⟩
  have hreason : ∀ p : Snapshot, p.endReason a.cause = reason p := fun p => by
    have hclosed : closedBy a.cause = if a.cause = .supplyWarning then .powerLoss else .reset := by
      cases a.cause <;> rfl
    unfold Snapshot.endReason
    simp only [reason, ← hclosed]
    cases p.state <;> cases p.grant.endReason <;> rfl
  have htime : recordedTime (s₀.interrupted a) = recordedTime t := by
    unfold recordedTime
    rw [hclockKept, hall.journal]
  have hengineAfter : ∀ p : Snapshot, p.engineAfter (s₀.interrupted a) =
      { Engine.reset (totals p) with
        gross := p.measure.gross, net := p.measure.net, sum := p.measure.sum, t0 := p.measure.t0
        errors := p.measure.errors, overspeed := p.measure.overspeed
        uncompensated := p.measure.uncompensated, average := some (average p) } := fun p => by
    have hdone : done p = p.settled := rfl
    unfold Snapshot.engineAfter
    rw [hengine]
    simp only [totals, hdone]
    cases p.settled <;> rfl
  have hdelivery : ∀ p ∈ ended, p.delivery a.cause (s₀.interrupted a) =
      { hose := p.hose, tank := p.grant.tank, product := p.grant.product, vehicle := p.grant.vehicle,
        tag := p.grant.tag, path := p.grant.path, hours := p.grant.hours, preset := p.grant.preset,
        gross := p.measure.gross, net := p.measure.net, average := average p, endReason := reason p,
        grantFlags := p.grant.flags, overspeed := p.measure.overspeed, uncompensated := p.measure.uncompensated,
        regress := p.grant.regress, overrunLong := false, statusAtGrant := p.grant.statusAtGrant,
        start := p.grant.start.getD (recordedTime t), finish := recordedTime t, grossTotalizer := (totals p).1 } :=
    fun p hm => by
      have hdone : done p = false := (hopen p hm).2
      unfold Snapshot.delivery
      rw [hengine, htime, ← hreason]
      simp only [totals, hdone]
      rfl
  have hqueue : t.journal.queue ++ (a.receipts.map (carriedRecord s₀)).map Record.waiting =
      (.interruption (interruptionOf a s₀)
        :: (a.records ++ ended.map (fun p => .delivery (p.delivery a.cause (s₀.interrupted a)))
          ++ a.receipts.map (carriedRecord s₀))).map Record.waiting := by
    have hstart : (s₀.interrupted a).journal.queue =
        (Record.interruption (interruptionOf a s₀) :: a.records).map Record.waiting := by
      refine (congrArg (· ++ _) hlaw.queue).trans ?_
      rfl
    rw [hall.journal, hstart, hended]
    simp [Function.comp_def]
  refine ⟨_, hnext, hphase.trans hlaw.phase, rfl, hstored.trans hlaw.stored, ⟨?_, fun p hm => ⟨?_, ?_, ?_⟩⟩, ?_, ?_, rfl,
    fun h hne => ?_, fun k => ⟨?_, ?_, ?_, ?_⟩, fun p hm hu => ?_, fun v hne hu => ?_, fun v hne => ?_, fun p hm => ?_,
    fun r hm => ?_⟩
  · refine (congrArg (List.map (·.record)) hqueue).trans ?_
    rw [List.map_map, show (Queued.record ∘ Record.waiting) = id from rfl, List.map_id]
    refine congrArg₂ List.cons (congrArg Record.interruption ?_) (congrArg₂ (· ++ ·) (congrArg (a.records ++ ·)
      (List.map_congr_left fun p hm => congrArg Record.delivery (hdelivery p hm))) (List.map_congr_left fun r _ => ?_))
    · have hcounted : a.records.filter Record.counts
          = a.records.filter fun r => match r with | .receipt _ | .adjust _ => true | _ => false :=
        List.filter_congr fun r _ => by cases r <;> rfl
      unfold interruptionOf
      rw [hcounted, show recordedTime s₀ = recordedTime t from htime, show s₀.link.lastReset = t.link.lastReset from hreset.symm]
      rfl
    · unfold carriedRecord
      rw [hlaw.tank]
      rfl
  · refine (hall.hose p hm).1.trans ?_
    unfold Snapshot.hoseAfter
    rw [hhose, hreason]
    cases hs : p.settled with
    | true =>
      have hdone : done p = true := hs
      simp only [hdone, if_true]
      rfl
    | false =>
      have hdone : done p = false := hs
      rw [hdelivery p (List.mem_filter.mpr ⟨hm, (Bool.not_eq_true' _).mpr hs⟩)]
      simp only [hdone]
      rfl
  · exact (hall.hose p hm).2.trans (hengineAfter p)
  · exact (hall.vehicle p hm).1
  · intro q hq
    obtain ⟨r, -, rfl⟩ := List.mem_map.mp (hqueue ▸ hq)
    rfl
  · show t.journal.reservations + (a.receipts.map (carriedRecord s₀)).length
      = (t.journal.queue ++ (a.receipts.map (carriedRecord s₀)).map Record.waiting).length
    have hreserved : (s₀.interrupted a).journal.reservations = a.records.length + 1 := by
      refine (congrArg (· + _) hlaw.reservations).trans (Nat.zero_add _)
    rw [hqueue, hall.journal]
    simp only [hreserved, ← hended, List.length_map, List.length_cons, List.length_append]
    omega
  · obtain ⟨hkept, hkept'⟩ := hall.otherHoses h hne
    exact ⟨hkept.trans (hhose h), hkept'.trans (hengine h)⟩
  · refine (hall.book k).trans ?_
    show bookAfter k a.snapshots (s₀.tank k).book = _
    rw [hlaw.tank]
    simp only [bookAfter, saturateBook_eq]
    rfl
  · refine (hall.tank k).reserved.trans ?_
    exact congrArg Tank.reserved (hlaw.tank k)
  · exact (hall.tank k).receipt (congrArg Tank.receipt (hlaw.tank k))
  · refine (hall.tank k).low ?_
    show (s₀.tank k).low = isLow (s₀.tank k)
    rw [hlaw.tank]
    rfl
  · obtain ⟨hmem, hs⟩ := hopen p hm
    obtain ⟨hhost, -, -, -, -, hused, -⟩ := hlaw.vehicle p.grant.vehicle
    have husage := (hall.vehicle p hmem).2
    have hinUse : ((s₀.interrupted a).vehicle p.grant.vehicle).host.inUse = true := (congrArg HostPart.inUse hhost).trans hu
    rw [Snapshot.usageAfter, if_pos ⟨hs, hinUse⟩] at husage
    refine (congrArg Usage.fuel husage).trans ?_
    show min _ ((s₀.vehicle p.grant.vehicle).usage.fuel + _) = _
    rw [(hused hu).1]
  · have hused : (s₀.vehicle v).usage = (st.vehicle v).usage := by
      obtain ⟨-, -, -, -, -, hused, -⟩ := hlaw.vehicle v
      exact (hused hu).1
    refine Eq.trans ?_ hused
    show (t.vehicle v).usage = (s₀.vehicle v).usage
    by_cases hany : ∃ p ∈ a.snapshots, p.grant.vehicle = v
    · obtain ⟨p, hm, rfl⟩ := hany
      have hs : ¬p.settled = false := fun hs => hne p (List.mem_filter.mpr ⟨hm, (Bool.not_eq_true' _).mpr hs⟩) rfl
      refine (hall.vehicle p hm).2.trans ?_
      rw [Snapshot.usageAfter, if_neg fun c : p.settled = false ∧ _ => hs c.1]
      rfl
    · exact congrArg Vehicle.usage (hall.otherVehicles v fun p hm heq => hany ⟨p, hm, heq⟩)
  · obtain ⟨-, -, hunbound, -⟩ := hlaw.vehicle v
    exact (congrArg Vehicle.binding (hall.otherVehicles v hne)).trans hunbound
  · show _ ∈ t.store.queue
    have hw := hall.writes.2 p hm
    rw [(hall.hose p (hopen p hm).1).2, hengineAfter] at hw
    exact hw
  · show _ ∈ t.store.queue
    refine hall.writes.1 _ (List.mem_append_right _ (List.mem_map.mpr ⟨r, hm, ?_⟩))
    rw [hlaw.tank]
    rfl

end Sys2Proof.Machine


/-! PROOFS. The settle of a CLOSING hose (R27, R28): the final measurement, the settle accounting and the quiet timer. -/

namespace Sys2Proof.Machine

open Sys2Proof

/-! ### The parts of an entry to SETTLED (R28, R50, R79) -/

/-- The end of a measurement leaves the totalizers as they are. -/
theorem finishMeasurement_totals (e : Engine) : (finishMeasurement e).grossTotal = e.grossTotal
    ∧ (finishMeasurement e).netTotal = e.netTotal := by
  unfold finishMeasurement partialSample
  cases e.latched <;> exact ⟨rfl, rfl⟩

/-- No hose of a tank is counted exactly when each is in a state that is not counted. -/
theorem State.countedOn_eq_zero (s : State) (k : TankId) : s.countedOn k = 0
    ↔ ∀ i, (s.hose i).config.tank = k → (s.hose i).state.counted = false := by
  simp only [State.countedOn, List.length_eq_zero_iff, List.filter_eq_nil_iff, mem_hosesOn, Bool.not_eq_true]

/-- The fall of a tank's count starts the quiet timer when it reaches 0, and touches nothing else. -/
theorem startQuietTimer_tank (k : TankId) (s : State) (j : TankId) : (startQuietTimer k s).tank j =
    if k = j ∧ s.countedOn j = 0 then { s.tank j with quietTimer := some 60 } else s.tank j := by
  unfold startQuietTimer
  by_cases hk : k = j
  · subst hk
    split
    next hzero => rw [if_pos ⟨rfl, hzero⟩, State.setTank_tank_self]
    next hzero => rw [if_neg fun c : k = k ∧ _ => hzero c.2]
  · rw [if_neg fun c : k = j ∧ _ => hk c.1]
    split
    · exact State.setTank_tank_ne _ _ (Ne.symm hk)
    · rfl

theorem startQuietTimer_frame (k : TankId) (s : State) :
    startQuietTimer k s = { s with tanks := (startQuietTimer k s).tanks } := by
  unfold startQuietTimer
  split <;> rfl

/-- The receipt of a tank takes a delivery, and its book, its reservation and its low flag follow. -/
theorem Tank.settledBy_eq (x : Tank) (h : HoseId) (res net : Nat) : x.settledBy h res net =
    { x with
      book := saturateBook (x.book - net), reserved := x.reserved - res
      low := decide (saturateBook (x.book - net) - x.config.heel < x.config.lowAlarm)
      receipt := x.receipt.modify (Receipt.addDelivery h net) } := by
  unfold Tank.settledBy
  rw [saturateBook_eq]
  cases hr : x.receipt <;> rfl

/-- An event of another key stands unchanged when one is raised. -/
theorem raise_keeps_other {s : State} {k : EventKey} {d : Detail} {e : EventEntry} (he : e ∈ s.link.events)
    (hk : e.key ≠ k) : e ∈ (raise k d s).link.events := by
  rw [raise_events]
  split
  · exact List.mem_map.mpr ⟨e, he, if_neg hk⟩
  · exact List.mem_append_left _ he

/-! ### The entry to SETTLED -/

section
variable {s t : State} {h : HoseId} {g : Grant} {d : DeliveryRecord}

/-- A further event does not disturb what an entry to SETTLED has done. -/
theorem Settled.raised (hs : Settled s t h g d) {k : EventKey} (hk : EventKey.hoseState h ≠ k) (x : Detail) :
    Settled s (raise k x t) h g d := by
  obtain ⟨hhose, hengine, htanks, hvehicle, hunused, hvehicles, hrecord, hwrites, hevent, hothers, hframe⟩ := hs
  refine ⟨hhose, hengine, htanks, hvehicle, hunused, hvehicles, hrecord, hwrites, ?_, hothers, ?_⟩
  · obtain ⟨e, hmem, hkey, hdetail⟩ := hevent
    exact ⟨e, raise_keeps_other hmem (hkey ▸ hk), hkey, hdetail⟩
  · have hlink : (raise k x t).link = { s.link with
        events := (raise k x t).link.events, attention := (raise k x t).link.attention } := by
      have ht := congrArg State.link hframe
      exact congrArg (fun l : Link => { l with
        events := (raise k x t).link.events, attention := (raise k x t).link.attention }) ht
    show { t with link := (raise k x t).link } = { s with
      hoses := t.hoses, engines := t.engines, tanks := t.tanks, vehicles := t.vehicles, dueList := t.dueList
      dueRevision := t.dueRevision, journal := t.journal
      link := { s.link with events := (raise k x t).link.events, attention := (raise k x t).link.attention }
      store := { s.store with queue := t.store.queue } }
    generalize (raise k x t).link = l at hlink ⊢
    conv_lhs => rw [hframe, hlink]

end

/-- A CLOSING hose enters SETTLED with its final measurement accounted. -/
theorem enterSettled_settled {s : State} {h : HoseId} {g : Grant} {r : EndReason} {start : RecTime} (overrun : Bool)
    (hv : s.vehiclesSound = true) (hc : (s.hose h).state = .closing) (hg : (s.hose h).grant = some g)
    (hr : g.endReason = some r) (hs : g.start = some start) (hb : (s.vehicle g.vehicle).binding = some h) :
    Settled s (enterSettled h overrun s) h g (recordOf s h g r start overrun (finishMeasurement (s.engine h))) := by
  have hlaw := settleAccounting_law (s := s.setEngine h (finishMeasurement (s.engine h))) h g overrun hv
    fun k hk => by
      obtain rfl := Option.some.inj (hb.symm.trans hk)
      show (s.hose h).state ≠ .ready
      rw [hc]
      nofun
  have henter : enterSettled h overrun s = raise (.hoseState h) (.entered .settled)
      (startQuietTimer ((settleAccounting h g overrun (s.setEngine h (finishMeasurement (s.engine h)))).hose h).config.tank
        (settleAccounting h g overrun (s.setEngine h (finishMeasurement (s.engine h))))) := by
    unfold enterSettled
    simp only [hg]
  rw [henter]
  have hrecord : deliveryOf h g overrun (advanceTotals (finishMeasurement (s.engine h))) (recordedTime s)
      = recordOf s h g r start overrun (finishMeasurement (s.engine h)) := by
    unfold deliveryOf
    rw [hr, hs]
    rfl
  rw [State.setEngine_engine_self, show recordedTime (s.setEngine h _) = recordedTime s from rfl, hrecord] at hlaw
  generalize hd : recordOf s h g r start overrun (finishMeasurement (s.engine h)) = d at hlaw
  generalize settleAccounting h g overrun _ = u at hlaw
  have hgross : d.gross = (finishMeasurement (s.engine h)).gross := by rw [← hd]; rfl
  have hnet : d.net = (finishMeasurement (s.engine h)).net := by rw [← hd]; rfl
  have hconfig : (u.hose h).config.tank = (s.hose h).config.tank := by rw [hlaw.hose]; rfl
  have hcount : ∀ k, u.countedOn k = 0 ↔
      ∀ i, i ≠ h → (s.hose i).config.tank = k → (s.hose i).state.counted = false := fun k => by
    rw [State.countedOn_eq_zero]
    constructor
    · intro hall i hi
      have := hall i
      rwa [hlaw.otherHoses i hi] at this
    · intro hall i hk
      by_cases hi : i = h
      · subst hi
        rw [hlaw.hose]
        rfl
      · rw [hlaw.otherHoses i hi] at hk ⊢
        exact hall i hi hk
  have htank : ∀ k, u.tank k = if k = g.tank then (s.tank k).settledBy h g.tankRes d.net else s.tank k := fun k => by
    split
    next hk =>
      subst hk
      rw [hlaw.tank, Tank.settledBy_eq, hnet, State.setEngine_engine_self]
      rfl
    next hk => exact hlaw.otherTanks k hk
  have htanks : ∀ k, (startQuietTimer (u.hose h).config.tank u).tanks.get k = _ :=
    startQuietTimer_tank (u.hose h).config.tank u
  rw [startQuietTimer_frame]
  generalize (startQuietTimer (u.hose h).config.tank u).tanks = ts at htanks
  have hbook : ts.get g.tank = { u.tank g.tank with quietTimer := (ts.get g.tank).quietTimer } := by
    rw [htanks]
    split <;> rfl
  refine
    { hose := hlaw.hose
      engine := ?_
      tanks := fun k => ?_
      vehicle := fun hu => ?_
      unused := hlaw.unused
      otherVehicles := hlaw.otherVehicles
      record := hlaw.journal
      writes := ⟨hlaw.writes.1, ?_, hlaw.writes.2.2⟩
      event := raise_mem _ _ _
      others := fun k hk => ⟨hlaw.otherHoses k hk, (hlaw.otherEngines k hk).trans (State.setEngine_engine_ne _ _ hk)⟩
      frame := ?_ }
  · obtain ⟨htotal, htotal'⟩ := finishMeasurement_totals (s.engine h)
    refine hlaw.engine.trans ?_
    rw [State.setEngine_engine_self, hgross, hnet, ← htotal, ← htotal']
    rfl
  · refine (htanks k).trans ?_
    rw [htank, hconfig]
    simp only [hcount]
  · have hcredited := hlaw.vehicle hu
    have hsame : (s.setEngine h (finishMeasurement (s.engine h))).vehicle g.vehicle = s.vehicle g.vehicle := rfl
    rw [State.setEngine_engine_self, hsame] at hcredited
    dsimp only
    rw [hnet]
    refine ⟨hcredited.1.trans ?_, hcredited.2⟩
    cases (s.vehicle g.vehicle).usageWrite <;> rfl
  · show StoreWrite.book g.tank (ts.get g.tank).book ∈ u.store.queue
    rw [hbook]
    exact hlaw.writes.2.1
  · obtain ⟨hs, es, ts', vs, dl, dr, j, ev, att, q, hframe⟩ := hlaw.frame
    rw [hframe]
    rfl

/-- Settles O29: the entry to SETTLED at the settle timer, and at the closing limit with its event. -/
theorem closingHoseSettles : Obligations.ClosingHoseSettles := by
  intro s h g r start hp hv hc hg hr hs hb e
  refine ⟨fun n hn => ⟨_, (next_whenRunning hp _).trans (congrArg _ ?_), enterSettled_settled false hv hc hg hr hs hb⟩,
    fun n hn => ⟨_, (next_whenRunning hp _).trans (congrArg _ ?_),
      (enterSettled_settled true hv hc hg hr hs hb).raised (k := .hoseFault h) nofun .overrunLong, raise_mem _ _ _⟩⟩
  · simp only [settleExpires, hc, hn]
  · simp only [closingExpires, hc, hn]

end Sys2Proof.Machine
